-- ==== Sys2Proof/Word.lean ====
section
/-!
DEFINITION. The machine's words: a 32-bit register or command word (00_scope R9, 10_state R32) and a byte.
-/
namespace Sys2Proof

/-- A register value, a command word or an address: 32 bits (00_scope R9). -/
abbrev Word := BitVec 32

/-- A byte of a payload or of a bus transfer. -/
abbrev Byte := BitVec 8

end Sys2Proof
end

