-- ==== Sys2Proof/Config.lean ====
section
/-!
DEFINITION. The configuration of the block (00_scope R6, R7): the parameters an implementation fixes, and the
free values. A state carries its configuration, so that a statement about every state holds for every
configuration; no step changes it (log 24).
-/
namespace Sys2Proof

/-- A physical pin (port p, bit n): 30_encoding R90, R91. Port 0 is A, port 4 is E. -/
structure Pin where
  port : Fin 5
  bit : Fin 16
deriving DecidableEq, Repr

/-- The reset values of the registers that store bits (70_reset R290, 93_implementation_defined I3); those of a port are
the same for every port. -/
structure ResetValues where
  cfglr : Word
  cfghr : Word
  outdr : Word
  rccCtlr : Word
  rccCfgr0 : Word
  apb2pcenr : Word
  apb1pcenr : Word
  i2cCtlr1 : Word
  i2cCtlr2 : Word
  i2cDatar : Word
  i2cCkcfgr : Word
  i2cRtr : Word
  spiCtlr1 : Word
  spiCtlr2 : Word
  spiDatar : Word
  uartDatar : Word
  uartBrr : Word
  uartCtlr1 : Word
  uartCtlr2 : Word
  uartCtlr3 : Word
deriving DecidableEq, Repr

/-- The parameters of 00_scope R5, R6. The types bound a configuration by the largest machine the rules describe: five
ports with a base address and a gate, sixteen bits, four channels (log 20). -/
structure Config where
  /-- `N_PORTS`. -/
  nPorts : Nat
  /-- `N_BITS`. -/
  nBits : Nat
  /-- `N_CHANNELS`. -/
  nChannels : Nat
  /-- `MOTOR_ID_BASE`. -/
  motorIdBase : Nat
  /-- `MOTOR_HI_PIN[c]`, the drive-high line of channel c (OPEN). -/
  motorHi : Vector Pin 4
  /-- `MOTOR_LO_PIN[c]`, the drive-low line of channel c (OPEN). -/
  motorLo : Vector Pin 4
  /-- `N_I2C`. -/
  nI2c : Nat
  /-- `N_SPI`. -/
  nSpi : Nat
  i2cScl : Pin
  i2cSda : Pin
  /-- `SPI_DIV_MIN`. -/
  spiDivMin : Nat
  /-- `SPI_DIV_MAX`. -/
  spiDivMax : Nat
  spiSck : Pin
  spiMosi : Pin
  spiMiso : Pin
  uartTx : Pin
  uartRx : Pin
  /-- `UART_BAUD` (OPEN). -/
  uartBaud : Nat
  /-- `PIN_MAPPED(id)` is bit id (30_encoding R92). -/
  pinMapped : BitVec 80
  i2cPresent : Bool
  spiPresent : Bool
  uartPresent : Bool
  i2cMaxRate : Nat
  /-- `I2C_TIMEOUT`, in microseconds. -/
  i2cTimeout : Nat
  i2cPclk : Nat
  spiPclk : Nat
  uartClk : Nat
  hseFreq : Nat
  hsiFreq : Nat
  /-- `PLL_MUL`. -/
  pllMul : Nat
  /-- `SYSCLK_TARGET`, in Hz. -/
  sysclkTarget : Nat
  /-- `MAX_LEN`, the largest byte count of one bus transfer. -/
  maxLen : Nat
  /-- `GPIO_BASE[p]` and the other base addresses: 20_memory R71. -/
  gpioBase : Vector Word 5
  rccBase : Word
  i2cBase : Word
  spiBase : Word
  uartBase : Word
  /-- The register reset values (93_implementation_defined I3). -/
  reset : ResetValues
deriving DecidableEq, Repr

namespace Config

/-- `N_PHYS` = `N_PORTS` × `N_BITS`, the number of physical identifiers (00_scope R6). -/
def nPhys (cfg : Config) : Nat := cfg.nPorts * cfg.nBits

/-- The reset values that 10_state R33 to R47 give. -/
def defaultReset : ResetValues where
  cfglr := 0x44444444
  cfghr := 0x44444444
  outdr := 0
  rccCtlr := 0x00000081
  rccCfgr0 := 0
  apb2pcenr := 0
  apb1pcenr := 0
  i2cCtlr1 := 0
  i2cCtlr2 := 0
  i2cDatar := 0
  i2cCkcfgr := 0
  i2cRtr := 0x02
  spiCtlr1 := 0
  spiCtlr2 := 0
  spiDatar := 0
  uartDatar := 0
  uartBrr := 0
  uartCtlr1 := 0
  uartCtlr2 := 0
  uartCtlr3 := 0

/-- The parameters' default values (00_scope R6, 20_memory R71). The OPEN ones take the example assignment of
95_test_vectors §0 and 115200 baud: DESIGN CHOICE, log 1. -/
def default : Config where
  nPorts := 5
  nBits := 16
  nChannels := 4
  motorIdBase := 0x80
  motorHi := #v[⟨0, 0⟩, ⟨0, 2⟩, ⟨1, 0⟩, ⟨1, 2⟩]
  motorLo := #v[⟨0, 1⟩, ⟨0, 3⟩, ⟨1, 1⟩, ⟨1, 3⟩]
  nI2c := 1
  nSpi := 1
  i2cScl := ⟨1, 6⟩
  i2cSda := ⟨1, 7⟩
  spiDivMin := 2
  spiDivMax := 128
  spiSck := ⟨1, 13⟩
  spiMosi := ⟨1, 15⟩
  spiMiso := ⟨1, 14⟩
  uartTx := ⟨0, 9⟩
  uartRx := ⟨0, 10⟩
  uartBaud := 115200
  pinMapped := BitVec.allOnes 80
  i2cPresent := true
  spiPresent := true
  uartPresent := true
  i2cMaxRate := 400000
  i2cTimeout := 5000
  i2cPclk := 144000000
  spiPclk := 144000000
  uartClk := 144000000
  hseFreq := 12000000
  hsiFreq := 8000000
  pllMul := 12
  sysclkTarget := 144000000
  maxLen := 255
  gpioBase := #v[0x40010800, 0x40010C00, 0x40011000, 0x40011400, 0x40011800]
  rccBase := 0x40021000
  i2cBase := 0x40005400
  spiBase := 0x40013000
  uartBase := 0x40013800
  reset := defaultReset

/-- The FREE VALUE behind every draw (00_scope R12; 93_implementation_defined I8): what the environment or the host
answers to the n-th draw that no scripted answer fixes (log 2). Nothing constrains it. -/
opaque freeDraw : Nat → Nat

/-- The FREE VALUE of the multiplier of `PLLMUL` codes 14 and 15 (10_state R42; 93_implementation_defined I4; log
22). -/
opaque reservedMultiplier : Nat → Nat

/-- The FREE VALUE of `SysClk` when `SWS` reads the reserved code 0b11 (93_implementation_defined I5; log 22). -/
opaque reservedSysClk : Nat

/-- The FREE VALUE of a wire rate whose divider register holds 0, from the peripheral clock: 00_scope R9 defines `a /
b` for b > 0 alone, and 70_reset R302 says no more (log 30). -/
opaque rateOfZeroDivider : Nat → Nat

/-- The FREE VALUE of the SPI wire rate under `BR` = 0b111, from the peripheral clock (93_implementation_defined I2;
log 30). -/
opaque reservedSpiRate : Nat → Nat

/-- The FREE VALUE of the I2C wire rate outside standard mode, from the peripheral clock and `CKCFGR` (70_reset R302 gives
the standard-mode rate alone; 93_implementation_defined I21; log 30). -/
opaque fastSclRate : Nat → Word → Nat

end Config
end Sys2Proof
end

