-- ==== Sys2Proof/Syntax.lean ====
section
/-!
DEFINITION. The commands of the block and its two interrupt actions: one constructor per row of
spec/opcode_table.json (30_encoding R105).
-/
namespace Sys2Proof

/-- Which of a motor channel's two flags a virtual identifier names (30_encoding R92, R93; 41_motor R150). -/
inductive Role where
  | drive
  | direction
deriving DecidableEq, Repr

/-- A command (or interrupt action). `id` is the 16-bit field B, `c` and `role` the classified virtual identifier. -/
inductive Instr where
  /-- `GPIO_SETUP` (40_gpio R135). -/
  | gpioSetup (id : BitVec 16) (v : Bool)
  /-- `MOTOR_SETUP` (41_motor R155). -/
  | motorSetup (c : Fin 4) (role : Role) (v : Bool)
  /-- `GPIO_WRITE` (40_gpio R136). -/
  | gpioWrite (id : BitVec 16) (v : Bool)
  /-- `MOTOR_WRITE` (41_motor R156). -/
  | motorWrite (c : Fin 4) (role : Role) (v : Bool)
  /-- `GPIO_TOGGLE` (40_gpio R137). -/
  | gpioToggle (id : BitVec 16)
  /-- `MOTOR_TOGGLE` (41_motor R157). -/
  | motorToggle (c : Fin 4) (role : Role)
  /-- `GPIO_RESET` (40_gpio R138). -/
  | gpioReset (id : BitVec 16) (v : Bool)
  /-- `MOTOR_RESET` (41_motor R158). -/
  | motorReset (c : Fin 4) (role : Role) (v : Bool)
  /-- `GPIO_INPUT_SETUP` (40_gpio R139); `pull` is a signed byte (30_encoding R113). -/
  | gpioInputSetup (id : BitVec 16) (pull : Byte)
  /-- `GPIO_INPUT_READ` (40_gpio R140). -/
  | gpioInputRead (id : BitVec 16)
  /-- `I2C_SETUP` (42_i2c R170). -/
  | i2cSetup (bus : Byte) (addr7 : BitVec 7) (rate : Word)
  /-- `I2C_WRITE` (42_i2c R180). -/
  | i2cWrite (bus : Byte) (addr8 : Byte) (bytes : List Byte)
  /-- `I2C_READ` (42_i2c R181): `reg` are the register bytes written first, `len` the bytes read. -/
  | i2cRead (bus : Byte) (addr8 : Byte) (reg : List Byte) (len : Byte)
  /-- `SPI_SETUP` (43_spi R200). -/
  | spiSetup (bus : Byte) (mode : BitVec 2) (rate : Word)
  /-- `SPI_PREPARE` (43_spi R204). -/
  | spiPrepare (bus : Byte) (ctrl : BitVec 16)
  /-- `SPI_TRANSFER` (43_spi R205). -/
  | spiTransfer (bus : Byte) (readBack : Bool) (bytes : List Byte)
  /-- `UART_INIT` (44_uart R220). -/
  | uartInit
  /-- `UART_TX_KICK` (44_uart R223). -/
  | uartTxKick
  /-- `CLOCK_BRINGUP` (45_clock R240). -/
  | clockBringup
  /-- `REG_READ` (46_host_access R255). -/
  | regRead (addr : Word)
  /-- `REG_WRITE` (46_host_access R256). -/
  | regWrite (addr value : Word)
  /-- `UART_RX_HANDLER`, an interrupt action (44_uart R228). -/
  | uartRxHandler
  /-- `UART_TX_HANDLER`, an interrupt action (44_uart R229). -/
  | uartTxHandler
deriving DecidableEq, Repr

end Sys2Proof
end

