-- ==== Sys2Proof/WellFormed.lean ====
section
/-!
DEFINITION. Which commands the encoding can spell: the reserved fields of 30_encoding R106 that a type does not
already rule out, the payload bound of R103, and the row that a virtual identifier selects (R108).
-/
namespace Sys2Proof

/-- Field B names a virtual identifier, by default 0x80..0x87 (30_encoding R92, R93). -/
def isVirtualId (cfg : Config) (id : BitVec 16) : Bool :=
  decide (cfg.motorIdBase ≤ id.toNat ∧ id.toNat < cfg.motorIdBase + 2 * cfg.nChannels)

/-- A channel of the configuration (30_encoding R93). -/
def isChannel (cfg : Config) (c : Fin 4) : Bool := decide (c.val < cfg.nChannels)

/-- An I2C wire address of a command: bit 0 is 0 (30_encoding R97, R106). -/
def isWireAddress (addr8 : Byte) : Bool := !addr8.getLsbD 0

/-- A byte count of at most `MAX_LEN` (30_encoding R103). -/
def isLength (cfg : Config) (n : Nat) : Bool := decide (n ≤ cfg.maxLen)

/-- The command has a word sequence of its own (30_encoding R105, R106, R108). -/
def Instr.wellFormed (cfg : Config) : Instr → Bool
  | .gpioSetup id _ => !isVirtualId cfg id
  | .motorSetup c _ _ => isChannel cfg c
  | .gpioWrite id _ => !isVirtualId cfg id
  | .motorWrite c _ _ => isChannel cfg c
  | .gpioToggle id => !isVirtualId cfg id
  | .motorToggle c _ => isChannel cfg c
  | .gpioReset id _ => !isVirtualId cfg id
  | .motorReset c _ _ => isChannel cfg c
  | .gpioInputSetup _ _ => true
  | .gpioInputRead _ => true
  | .i2cSetup _ _ _ => true
  | .i2cWrite _ addr8 bytes => isWireAddress addr8 && isLength cfg bytes.length
  | .i2cRead _ addr8 reg len => isWireAddress addr8 && isLength cfg len.toNat && isLength cfg reg.length
  | .spiSetup _ _ _ => true
  | .spiPrepare _ _ => true
  | .spiTransfer _ _ bytes => isLength cfg bytes.length
  | .uartInit => true
  | .uartTxKick => true
  | .clockBringup => true
  | .regRead _ => true
  | .regWrite _ _ => true
  | .uartRxHandler => true
  | .uartTxHandler => true

end Sys2Proof
end

