-- ==== Sys2Proof/Decode.lean ====
section
/-!
DEFINITION. The binary form of commands (30_encoding R102 to R109): a decoder, total on any sequence of words,
that refuses by name; the encoder written from the same tables; the assembler text (R110) and the
pseudo-commands (R111).
-/
namespace Sys2Proof

/-- The opcodes of 30_encoding R105. The four pin opcodes select a `GPIO_*` or a `MOTOR_*` row by field B (R108). -/
inductive Op where
  | setup | write | toggle | reset | inputSetup | inputRead
  | i2cSetup | i2cWrite | i2cRead
  | spiSetup | spiPrepare | spiTransfer
  | uartInit | uartTxKick | clockBringup | regRead | regWrite
  | rxHandler | txHandler
deriving DecidableEq, Repr

/-- The OP byte of each opcode (30_encoding R105). -/
def opCode : Op → Byte
  | .setup => 0x01
  | .write => 0x02
  | .toggle => 0x03
  | .reset => 0x04
  | .inputSetup => 0x05
  | .inputRead => 0x06
  | .i2cSetup => 0x10
  | .i2cWrite => 0x11
  | .i2cRead => 0x12
  | .spiSetup => 0x20
  | .spiPrepare => 0x21
  | .spiTransfer => 0x22
  | .uartInit => 0x30
  | .uartTxKick => 0x31
  | .clockBringup => 0x40
  | .regRead => 0x50
  | .regWrite => 0x51
  | .rxHandler => 0xF0
  | .txHandler => 0xF1

/-- Every opcode, in the order of 30_encoding R105. -/
def allOps : List Op :=
  [.setup, .write, .toggle, .reset, .inputSetup, .inputRead, .i2cSetup, .i2cWrite, .i2cRead, .spiSetup, .spiPrepare,
    .spiTransfer, .uartInit, .uartTxKick, .clockBringup, .regRead, .regWrite, .rxHandler, .txHandler]

/-- The opcode of an OP byte; every other byte is illegal (30_encoding R107). -/
def opOf (b : Byte) : Option Op := allOps.find? fun o => opCode o == b

/-- Why a word sequence is no command (30_encoding R106, R107). `overlong`: a byte count above `MAX_LEN`, to which R103
gives no meaning; none under the default 255 (log 20). `truncated`: the words of the command have not all arrived yet,
and those that have hold no reason to refuse it (log 14). -/
inductive DecodeError where
  | illegalOpcode
  | reservedField
  | payloadPadding
  | overlong
  | truncated
deriving DecidableEq, Repr

/-- `H[31:24]` (30_encoding R102). -/
def opField (h : Word) : Byte := h.extractLsb' 24 8

/-- `H[23:16]` (30_encoding R102). -/
def aField (h : Word) : Byte := h.extractLsb' 16 8

/-- `H[15:0]` (30_encoding R102). -/
def bField (h : Word) : BitVec 16 := h.extractLsb' 0 16

/-- The high byte of field B, a payload length (30_encoding R105). -/
def bHigh (h : Word) : Byte := h.extractLsb' 8 8

/-- The low byte of field B. -/
def bLow (h : Word) : Byte := h.extractLsb' 0 8

/-- A header word from its fields (30_encoding R102). -/
def header (op : Op) (a : Byte) (b : BitVec 16) : Word := opCode op ++ (a ++ b)

/-- Field B from a payload length and a low byte. -/
def bPair (hi lo : Byte) : BitVec 16 := hi ++ lo

/-- Operand words that follow the header (30_encoding R109). -/
def operandWords : Op → Nat
  | .i2cSetup => 1
  | .i2cRead => 1
  | .spiSetup => 1
  | .regRead => 1
  | .regWrite => 2
  | _ => 0

/-- The payload length in bytes (30_encoding R109). -/
def payloadLength (op : Op) (h : Word) : Nat :=
  match op with
  | .i2cWrite => (bHigh h).toNat
  | .i2cRead => (bHigh h).toNat
  | .spiTransfer => (bHigh h).toNat
  | _ => 0

/-- Words that hold a payload of n bytes: ceil(n / 4) (30_encoding R103). -/
def payloadWords (n : Nat) : Nat := (n + 3) / 4

/-- Length of a command in words (30_encoding R109); 1 for an illegal opcode. -/
def commandWords (h : Word) : Nat :=
  match opOf (opField h) with
  | none => 1
  | some op => 1 + operandWords op + payloadWords (payloadLength op h)

/-- Four payload bytes in one word, byte 0 lowest (30_encoding R103). -/
def wordOfBytes (b0 b1 b2 b3 : Byte) : Word := b3 ++ (b2 ++ (b1 ++ b0))

/-- The four bytes of a word, lowest first (30_encoding R103). -/
def bytesOfWord (w : Word) : List Byte :=
  [w.extractLsb' 0 8, w.extractLsb' 8 8, w.extractLsb' 16 8, w.extractLsb' 24 8]

/-- A byte payload packed into words, padding 0 (30_encoding R103). -/
def packBytes : List Byte → List Word
  | [] => []
  | [b0] => [wordOfBytes b0 0 0 0]
  | [b0, b1] => [wordOfBytes b0 b1 0 0]
  | [b0, b1, b2] => [wordOfBytes b0 b1 b2 0]
  | b0 :: b1 :: b2 :: b3 :: rest => wordOfBytes b0 b1 b2 b3 :: packBytes rest

/-- One operand word. -/
def takeWord : List Word → Except DecodeError (Word × List Word)
  | [] => .error .truncated
  | w :: rest => .ok (w, rest)

/-- A payload of n bytes; nonzero padding is refused (30_encoding R103, R106). -/
def takePayload (n : Nat) (ws : List Word) : Except DecodeError (List Byte × List Word) :=
  if ws.length < payloadWords n then .error .truncated
  else if ((((ws.take (payloadWords n)).flatMap bytesOfWord).drop n).all fun b => b == 0) then
    .ok (((ws.take (payloadWords n)).flatMap bytesOfWord).take n, ws.drop (payloadWords n))
  else .error .payloadPadding

/-- Field A as a one-bit value: `A[7:1]` is reserved (30_encoding R105, R106). -/
def takeBit (a : Byte) : Except DecodeError Bool :=
  if a = 0 then .ok false else if a = 1 then .ok true else .error .reservedField

/-- A reserved field must be 0 (30_encoding R106). -/
def takeZero (ok : Bool) : Except DecodeError Unit := if ok then .ok () else .error .reservedField

/-- A byte count must be at most `MAX_LEN` (30_encoding R103). -/
def takeLength (cfg : Config) (n : Nat) : Except DecodeError Unit :=
  if isLength cfg n then .ok () else .error .overlong

/-- The channel and role of a virtual identifier (30_encoding R92, R93). -/
def virtualOf (cfg : Config) (id : BitVec 16) : Option (Fin 4 × Role) :=
  if isVirtualId cfg id then
    some (⟨(id.toNat - cfg.motorIdBase) / 2 % 4, Nat.mod_lt _ (by decide)⟩,
      if (id.toNat - cfg.motorIdBase) % 2 = 0 then .drive else .direction)
  else none

/-- The virtual identifier of a channel's flag (30_encoding R93). -/
def virtualId (cfg : Config) (c : Fin 4) (role : Role) : BitVec 16 :=
  BitVec.ofNat 16 (cfg.motorIdBase + 2 * c.val + match role with | .drive => 0 | .direction => 1)

/-- One command with opcode `op`, header h and the words after it (30_encoding R105, R106, R108). The checks run in the
order in which the words arrive, so a command cut short is refused at once when its header, or word W1 of `I2C_READ`,
already holds a nonzero reserved field, and waits for its other words otherwise: DESIGN CHOICE, safe, since the spec does
not speak of a cut command (log 14). -/
def decodeOp (cfg : Config) (op : Op) (h : Word) (rest : List Word) : Except DecodeError (Instr × List Word) :=
  match op with
  | .setup => do
    let v ← takeBit (aField h)
    match virtualOf cfg (bField h) with
    | some (c, role) => .ok (.motorSetup c role v, rest)
    | none => .ok (.gpioSetup (bField h) v, rest)
  | .write => do
    let v ← takeBit (aField h)
    match virtualOf cfg (bField h) with
    | some (c, role) => .ok (.motorWrite c role v, rest)
    | none => .ok (.gpioWrite (bField h) v, rest)
  | .toggle => do
    takeZero (aField h == 0)
    match virtualOf cfg (bField h) with
    | some (c, role) => .ok (.motorToggle c role, rest)
    | none => .ok (.gpioToggle (bField h), rest)
  | .reset => do
    let v ← takeBit (aField h)
    match virtualOf cfg (bField h) with
    | some (c, role) => .ok (.motorReset c role v, rest)
    | none => .ok (.gpioReset (bField h) v, rest)
  | .inputSetup => .ok (.gpioInputSetup (bField h) (aField h), rest)
  | .inputRead => do
    takeZero (aField h == 0)
    .ok (.gpioInputRead (bField h), rest)
  | .i2cSetup => do
    takeZero ((bField h).extractLsb' 7 9 == 0)
    let (rate, rest) ← takeWord rest
    .ok (.i2cSetup (aField h) ((bField h).extractLsb' 0 7) rate, rest)
  | .i2cWrite => do
    takeZero (isWireAddress (bLow h))
    let (bytes, rest) ← takePayload (bHigh h).toNat rest
    takeLength cfg (bHigh h).toNat
    .ok (.i2cWrite (aField h) (bLow h) bytes, rest)
  | .i2cRead => do
    takeZero (isWireAddress (bLow h))
    let (w1, rest) ← takeWord rest
    takeZero (w1.extractLsb' 8 24 == 0)
    let (reg, rest) ← takePayload (bHigh h).toNat rest
    takeLength cfg (w1.extractLsb' 0 8).toNat
    takeLength cfg (bHigh h).toNat
    .ok (.i2cRead (aField h) (bLow h) reg (w1.extractLsb' 0 8), rest)
  | .spiSetup => do
    takeZero ((bField h).extractLsb' 2 14 == 0)
    let (rate, rest) ← takeWord rest
    .ok (.spiSetup (aField h) ((bField h).extractLsb' 0 2) rate, rest)
  | .spiPrepare => .ok (.spiPrepare (aField h) (bField h), rest)
  | .spiTransfer => do
    takeZero ((bField h).extractLsb' 1 7 == 0)
    let (bytes, rest) ← takePayload (bHigh h).toNat rest
    takeLength cfg (bHigh h).toNat
    .ok (.spiTransfer (aField h) ((bField h).getLsbD 0) bytes, rest)
  | .uartInit => do
    takeZero (aField h == 0 && bField h == 0)
    .ok (.uartInit, rest)
  | .uartTxKick => do
    takeZero (aField h == 0 && bField h == 0)
    .ok (.uartTxKick, rest)
  | .clockBringup => do
    takeZero (aField h == 0 && bField h == 0)
    .ok (.clockBringup, rest)
  | .regRead => do
    takeZero (aField h == 0 && bField h == 0)
    let (addr, rest) ← takeWord rest
    .ok (.regRead addr, rest)
  | .regWrite => do
    takeZero (aField h == 0 && bField h == 0)
    let (addr, rest) ← takeWord rest
    let (value, rest) ← takeWord rest
    .ok (.regWrite addr value, rest)
  | .rxHandler => do
    takeZero (aField h == 0 && bField h == 0)
    .ok (.uartRxHandler, rest)
  | .txHandler => do
    takeZero (aField h == 0 && bField h == 0)
    .ok (.uartTxHandler, rest)

/-- The first command of a word sequence and the words after it, or why there is none. The decoder reads the header,
then knows the length (30_encoding R109). An illegal opcode is refused as soon as its header is there (log 14). -/
def decode (cfg : Config) : List Word → Except DecodeError (Instr × List Word)
  | [] => .error .truncated
  | h :: rest =>
    match opOf (opField h) with
    | none => .error .illegalOpcode
    | some op => decodeOp cfg op h rest

/-- The opcode of a command (30_encoding R105). -/
def Instr.op : Instr → Op
  | .gpioSetup _ _ => .setup
  | .motorSetup _ _ _ => .setup
  | .gpioWrite _ _ => .write
  | .motorWrite _ _ _ => .write
  | .gpioToggle _ => .toggle
  | .motorToggle _ _ => .toggle
  | .gpioReset _ _ => .reset
  | .motorReset _ _ _ => .reset
  | .gpioInputSetup _ _ => .inputSetup
  | .gpioInputRead _ => .inputRead
  | .i2cSetup _ _ _ => .i2cSetup
  | .i2cWrite _ _ _ => .i2cWrite
  | .i2cRead _ _ _ _ => .i2cRead
  | .spiSetup _ _ _ => .spiSetup
  | .spiPrepare _ _ => .spiPrepare
  | .spiTransfer _ _ _ => .spiTransfer
  | .uartInit => .uartInit
  | .uartTxKick => .uartTxKick
  | .clockBringup => .clockBringup
  | .regRead _ => .regRead
  | .regWrite _ _ => .regWrite
  | .uartRxHandler => .rxHandler
  | .uartTxHandler => .txHandler

/-- Field A of a one-bit operand. -/
def bitA (v : Bool) : Byte := if v then 1 else 0

/-- A payload length as a byte; a well-formed payload has at most 255 bytes. -/
def lengthByte (bytes : List Byte) : Byte := BitVec.ofNat 8 bytes.length

/-- The words of a command (30_encoding R102 to R105). -/
def encode (cfg : Config) : Instr → List Word
  | .gpioSetup id v => [header .setup (bitA v) id]
  | .motorSetup c role v => [header .setup (bitA v) (virtualId cfg c role)]
  | .gpioWrite id v => [header .write (bitA v) id]
  | .motorWrite c role v => [header .write (bitA v) (virtualId cfg c role)]
  | .gpioToggle id => [header .toggle 0 id]
  | .motorToggle c role => [header .toggle 0 (virtualId cfg c role)]
  | .gpioReset id v => [header .reset (bitA v) id]
  | .motorReset c role v => [header .reset (bitA v) (virtualId cfg c role)]
  | .gpioInputSetup id pull => [header .inputSetup pull id]
  | .gpioInputRead id => [header .inputRead 0 id]
  | .i2cSetup bus addr7 rate => [header .i2cSetup bus (addr7.setWidth 16), rate]
  | .i2cWrite bus addr8 bytes => header .i2cWrite bus (bPair (lengthByte bytes) addr8) :: packBytes bytes
  | .i2cRead bus addr8 reg len =>
    header .i2cRead bus (bPair (lengthByte reg) addr8) :: len.setWidth 32 :: packBytes reg
  | .spiSetup bus mode rate => [header .spiSetup bus (mode.setWidth 16), rate]
  | .spiPrepare bus ctrl => [header .spiPrepare bus ctrl]
  | .spiTransfer bus readBack bytes =>
    header .spiTransfer bus (bPair (lengthByte bytes) (bitA readBack)) :: packBytes bytes
  | .uartInit => [header .uartInit 0 0]
  | .uartTxKick => [header .uartTxKick 0 0]
  | .clockBringup => [header .clockBringup 0 0]
  | .regRead addr => [header .regRead 0 0, addr]
  | .regWrite addr value => [header .regWrite 0 0, addr, value]
  | .uartRxHandler => [header .rxHandler 0 0]
  | .uartTxHandler => [header .txHandler 0 0]

/-- The two interrupt actions, which no foreground stream may hold (30_encoding R107). -/
def Instr.isAction : Instr → Bool
  | .uartRxHandler => true
  | .uartTxHandler => true
  | _ => false

/-- The longest command in words: `I2C_READ` with 255 register bytes (30_encoding R109). -/
def longestCommand : Nat := 66

/-- The words of an instruction whose first `nbits` bits are w and whose other bits are 0, first word first. -/
def tableWords (nbits w : Nat) : List Word :=
  (List.range longestCommand).map fun k => BitVec.ofNat 32 ((w % 2 ^ nbits) >>> (32 * k))

/-- The instruction the decoder reads from an opcode-table word of `nbits` bits, under the default configuration, whose
virtual identifiers are the table's. -/
def decodeTableWord (nbits w : Nat) : Option Instr :=
  match decode Config.default (tableWords nbits w) with
  | .ok (i, _) => some i
  | .error _ => none

/-- `motor.forward c` (30_encoding R111). -/
def pseudoMotorForward (c : Fin 4) : List Instr := [.motorWrite c .direction false, .motorWrite c .drive true]

/-- `motor.reverse c` (30_encoding R111). -/
def pseudoMotorReverse (c : Fin 4) : List Instr := [.motorWrite c .direction true, .motorWrite c .drive true]

/-- `motor.coast c` (30_encoding R111). -/
def pseudoMotorCoast (c : Fin 4) : List Instr := [.motorWrite c .drive false]

/-- `i2c.write_reg bus, addr8, reg, val` (30_encoding R111). -/
def pseudoI2cWriteReg (bus addr8 reg val : Byte) : List Instr := [.i2cWrite bus addr8 [reg, val]]

/-- `gpio.high pin` (30_encoding R111). -/
def pseudoGpioHigh (id : BitVec 16) : List Instr := [.gpioWrite id true]

/-- `gpio.low pin` (30_encoding R111). -/
def pseudoGpioLow (id : BitVec 16) : List Instr := [.gpioWrite id false]

/-- A bit operand in assembler text. -/
def asmBit (v : Bool) : String := if v then "1" else "0"

/-- A virtual identifier in assembler text, `M<c>.drive` or `M<c>.dir` (30_encoding R93, R110). -/
def asmMotor (c : Fin 4) (role : Role) : String :=
  "M" ++ toString c.val ++ (match role with | .drive => ".drive" | .direction => ".dir")

/-- A byte list in brackets (30_encoding R110). -/
def asmBytes (bytes : List Byte) : String :=
  "[" ++ String.intercalate ", " (bytes.map fun b => toString b.toNat) ++ "]"

/-- The assembler text of a command, identifiers as numbers (30_encoding R110); the interrupt actions have no text
of their own and show their table names. -/
def Instr.asm : Instr → String
  | .gpioSetup id v => "gpio.setup " ++ toString id.toNat ++ ", " ++ asmBit v
  | .motorSetup c role v => "motor.setup " ++ asmMotor c role ++ ", " ++ asmBit v
  | .gpioWrite id v => "gpio.write " ++ toString id.toNat ++ ", " ++ asmBit v
  | .motorWrite c role v => "motor.write " ++ asmMotor c role ++ ", " ++ asmBit v
  | .gpioToggle id => "gpio.toggle " ++ toString id.toNat
  | .motorToggle c role => "motor.toggle " ++ asmMotor c role
  | .gpioReset id v => "gpio.reset " ++ toString id.toNat ++ ", " ++ asmBit v
  | .motorReset c role v => "motor.reset " ++ asmMotor c role ++ ", " ++ asmBit v
  | .gpioInputSetup id pull => "gpio.in_setup " ++ toString id.toNat ++ ", " ++ toString pull.toInt
  | .gpioInputRead id => "gpio.in_read " ++ toString id.toNat
  | .i2cSetup bus addr7 rate =>
    "i2c.setup " ++ toString bus.toNat ++ ", " ++ toString rate.toNat ++ ", " ++ toString addr7.toNat
  | .i2cWrite bus addr8 bytes =>
    "i2c.write " ++ toString bus.toNat ++ ", " ++ toString addr8.toNat ++ ", " ++ asmBytes bytes
  | .i2cRead bus addr8 reg len =>
    "i2c.read " ++ toString bus.toNat ++ ", " ++ toString addr8.toNat ++ ", " ++ asmBytes reg ++ ", "
      ++ toString len.toNat
  | .spiSetup bus mode rate =>
    "spi.setup " ++ toString bus.toNat ++ ", " ++ toString mode.toNat ++ ", " ++ toString rate.toNat
  | .spiPrepare bus ctrl => "spi.prepare " ++ toString bus.toNat ++ ", " ++ toString ctrl.toNat
  | .spiTransfer bus readBack bytes =>
    "spi.transfer " ++ toString bus.toNat ++ ", " ++ asmBit readBack ++ ", " ++ asmBytes bytes
  | .uartInit => "uart.init"
  | .uartTxKick => "uart.tx_kick"
  | .clockBringup => "clock.bringup"
  | .regRead addr => "reg.read " ++ toString addr.toNat
  | .regWrite addr value => "reg.write " ++ toString addr.toNat ++ ", " ++ toString value.toNat
  | .uartRxHandler => "UART_RX_HANDLER"
  | .uartTxHandler => "UART_TX_HANDLER"

end Sys2Proof
end

