-- ==== Sys2Proof/Machine/State.lean ====
section
/-!
DEFINITION. The state of the block as plain data (10_state), the reasons a step can stop, and the state after reset
(70_reset R290).
-/
namespace Sys2Proof.Machine

/-- The registers of one GPIO port (20_memory R72). -/
inductive GpioReg where
  | cfglr | cfghr | indr | outdr | bshr | bcr
deriving DecidableEq, Repr

/-- The registers of the clock controller (20_memory R72). -/
inductive RccReg where
  | ctlr | cfgr0 | apb2pcenr | apb1pcenr
deriving DecidableEq, Repr

/-- The registers of the I2C controller (20_memory R72). -/
inductive I2cReg where
  | ctlr1 | ctlr2 | datar | star1 | star2 | ckcfgr | rtr
deriving DecidableEq, Repr

/-- The registers of the SPI controller (20_memory R72). -/
inductive SpiReg where
  | ctlr1 | ctlr2 | statr | datar
deriving DecidableEq, Repr

/-- The registers of the UART (20_memory R72). -/
inductive UartReg where
  | statr | datar | brr | ctlr1 | ctlr2 | ctlr3
deriving DecidableEq, Repr

/-- One of the 51 modelled registers (20_memory R72). -/
inductive Reg where
  | gpio (p : Fin 5) (r : GpioReg)
  | rcc (r : RccReg)
  | i2c (r : I2cReg)
  | spi (r : SpiReg)
  | uart (r : UartReg)
deriving DecidableEq, Repr

/-- The stored registers of one GPIO port (10_state R33, R35); `INDR`, `BSHR` and `BCR` store nothing (R34, R36,
R37). -/
structure GpioPort where
  cfglr : Word
  cfghr : Word
  outdr : Word
deriving DecidableEq, Repr

/-- The stored bits of the clock controller (10_state R40, R41, R43), and what has been written since reset, on
which the readiness draws depend (10_state R48 (b), log 5). -/
structure Rcc where
  ctlr : Word
  cfgr0 : Word
  apb2pcenr : Word
  apb1pcenr : Word
  /-- `HSEON` has been written 1 since reset. -/
  hseOnSeen : Bool
  /-- `PLLON` has been written 1 since reset. -/
  pllOnSeen : Bool
  /-- `SW` has been written 0b10 since reset. -/
  swPllSeen : Bool
deriving DecidableEq, Repr

/-- The stored bits of the I2C controller (10_state R44). `datar` is the byte last written; a read of `DATAR` is a
draw (log 9). -/
structure I2c where
  ctlr1 : Word
  ctlr2 : Word
  datar : Word
  ckcfgr : Word
  rtr : Word
deriving DecidableEq, Repr

/-- The stored bits of the SPI controller (10_state R46); `datar` as in the I2C controller. -/
structure Spi where
  ctlr1 : Word
  ctlr2 : Word
  datar : Word
deriving DecidableEq, Repr

/-- The stored bits of the UART (10_state R47); `datar` as in the I2C controller. -/
structure Uart where
  datar : Word
  brr : Word
  ctlr1 : Word
  ctlr2 : Word
  ctlr3 : Word
deriving DecidableEq, Repr

/-- A motor channel's block state (10_state R49). -/
structure Motor where
  init : Bool
  drive : Bool
  dir : Bool
deriving DecidableEq, Repr

/-- The diagnostic of a fatal halt (30_encoding R101). -/
inductive HaltCode where
  | invalidPin
  | invalidBus
  | unimplemented
deriving DecidableEq, Repr

/-- The status an I2C transfer returns (30_encoding R100). -/
inductive I2cStatus where
  | ok
  | nack
  | timeout
  | startNack
  | addrNack
deriving DecidableEq, Repr

/-- An event of the trace (00_scope R13); `bus` is the bus index b of the command. -/
inductive Event where
  | i2cStart (bus : Byte)
  | i2cAddr (bus : Byte) (byte : Byte)
  | i2cData (bus : Byte) (byte : Byte)
  | i2cRead (bus : Byte) (byte : Byte)
  | i2cStop (bus : Byte)
  | spiByte (bus : Byte) (sent received : Byte)
  | uartRx (byte : Byte)
  | uartTx (byte : Byte)
  | halt (code : HaltCode)
deriving DecidableEq, Repr

/-- The response of a completed command: the result word Q and the byte payload (30_encoding R104). -/
structure Response where
  q : Word
  payload : List Byte
deriving DecidableEq, Repr

/-- The value of a register write in the pseudocode: a constant, or made from the command's last register read
(`acc`): `(acc & ~clear) | set`, or `acc XOR mask` (00_scope R10). -/
inductive Source where
  | const (v : Word)
  | update (clear set : Word)
  | flip (mask : Word)
deriving DecidableEq, Repr

/-- One action of a foreground command (00_scope R11): a register access, an event, a change of block state, the
edges of a critical span, the response. -/
inductive Action where
  /-- `acc <- R(r)`. -/
  | read (r : Reg)
  /-- `W(r, v)`. -/
  | write (r : Reg) (v : Source)
  /-- `critical {` (20_memory R79). -/
  | enter
  /-- `}` of a critical span. -/
  | leave
  /-- `emit e`. -/
  | emit (e : Event)
  /-- `buf <- bytes`. -/
  | setBuf (bytes : List Byte)
  /-- `buf[k] <- acc[7:0]; emit I2CRead(bus, buf[k])` (42_i2c R182). -/
  | i2cLatch (bus : Byte) (k : Nat)
  /-- `x <- acc[7:0]; emit SPIByte(bus, sent, x); if readBack: buf[k] <- x` (43_spi R205). -/
  | spiLatch (bus : Byte) (k : Nat) (sent : Byte) (readBack : Bool)
  /-- `motor[c] <- m` (10_state R49). -/
  | setMotor (c : Fin 4) (m : Motor)
  /-- `i2c_init[0] <- 1` (10_state R50). -/
  | setI2cInit
  /-- `spi_init[0] <- 1` (10_state R50). -/
  | setSpiInit
  /-- `spi_last[0] <- w` (10_state R51). -/
  | setSpiLast (w : Word)
  /-- `clock_done <- 1` (10_state R52). -/
  | setClockDone
  /-- `return q`. -/
  | respond (q : Word)
  /-- `return acc`. -/
  | respondRead
  /-- `return acc[n]`. -/
  | respondBit (n : Fin 16)
  /-- `return q, buf`. -/
  | respondBuf (q : Word)
deriving DecidableEq, Repr

/-- A bounded I2C wait `await_t C else N` (42_i2c R175): `C` is `R(reg) & mask = want`; when `nack` is given, `N` is
`AF = 1` and the wait then fails with that status. -/
structure I2cWait where
  bus : Byte
  reg : Reg
  mask : Word
  want : Word
  nack : Option I2cStatus
deriving DecidableEq, Repr

/-- A piece of a foreground command: an action, or a wait (00_scope R10, R11). -/
inductive Micro where
  | act (a : Action)
  /-- `await (R(reg) & mask = want)`: unbounded (70_reset R304). -/
  | await (reg : Reg) (mask want : Word)
  /-- `await_t` not yet entered: `t0 <- Now()` comes first (42_i2c R175). -/
  | awaitT (w : I2cWait)
  /-- `await_t` between two poll iterations, entered at t0. -/
  | pollT (w : I2cWait) (t0 : Nat)
deriving DecidableEq, Repr

/-- Why a step ends in a fault. -/
inductive Fault where
  /-- Raised by `step` alone, when `halted` is set and no reset is requested: the block takes no further step
  (60_exceptions R260; 93_implementation_defined I17, stuck). SAFE: nothing is claimed of a step that the block does
  not take (log 10). -/
  | halted (code : HaltCode)
deriving DecidableEq, Repr

/-- Why a command is given no meaning (60_exceptions R264, R265). All are SAFE: no next state is claimed (log 11). -/
inductive Refusal where
  /-- An instruction without a meaning in this model; raised by `exec` alone. Safe. -/
  | notModelled (mnemonic : String)
  /-- Raised by `step`: an illegal opcode, 0xF0 and 0xF1 in the foreground stream among them (R265 (a)). Safe. -/
  | illegalOpcode
  /-- Raised by `step`: a nonzero reserved field (R265 (b)). Safe. -/
  | reservedField
  /-- Raised by `step`: nonzero payload padding (R265 (b)). Safe. -/
  | payloadPadding
  /-- Raised by `step`: a byte count above `MAX_LEN`; none under the default 255 (30_encoding R103, log 20). Safe. -/
  | overlong
  /-- Raised by `SPI_PREPARE`: a control word that 30_encoding R98 cannot produce (R265 (c)). Safe. -/
  | spiControlWord
  /-- Raised by `I2C_READ`: read_len = 0 (R265 (d)). Safe. -/
  | readLengthZero
  /-- Raised by `CLOCK_BRINGUP`: a second bring-up (R265 (e)). Safe. -/
  | secondBringup
  /-- Raised by `REG_READ` and `REG_WRITE`: misaligned, or no modelled register (R265 (f)). Safe. -/
  | notARegister
  /-- Raised by `step`: the configuration breaks 00_scope R7 (R265 (g)). Safe. -/
  | illFormedConfig
deriving DecidableEq, Repr

/-- The state of the block and of its interface. -/
structure State where
  /-- The configuration (00_scope R6); no step changes it (log 24). -/
  cfg : Config
  /-- GPIOA..GPIOE (10_state R32). -/
  gpio : Vector GpioPort 5
  /-- RCC (10_state R40 to R43). -/
  rcc : Rcc
  /-- I2C0 (10_state R44). -/
  i2c : I2c
  /-- SPI0 (10_state R46). -/
  spi : Spi
  /-- UART (10_state R47). -/
  uart : Uart
  /-- `motor[c]` (10_state R49). -/
  motor : Vector Motor 4
  /-- `i2c_init[0]` (10_state R50). -/
  i2cInit : Bool
  /-- `spi_init[0]` (10_state R50). -/
  spiInit : Bool
  /-- `spi_last[0]` (10_state R51). -/
  spiLast : Word
  /-- `clock_done` (10_state R52). -/
  clockDone : Bool
  /-- `halted` (10_state R53). -/
  halted : Option HaltCode
  /-- `in_critical` (10_state R54). -/
  inCritical : Bool
  /-- The event trace, oldest first (10_state R55). -/
  trace : List Event
  /-- The words of the command stream still to come (10_state R31; log 15). -/
  stream : List Word
  /-- The host's dispatch asks for the UART interrupt at the next boundary between steps (60_exceptions R270; log 16). -/
  irq : Bool
  /-- The responses produced, oldest first (30_encoding R104; log 19). -/
  responses : List Response
  /-- The host asks for the reset of 70_reset R290 (log 17). -/
  resetRequest : Bool
  /-- The rest of the command in progress; it begins with the wait the command is held in (log 12). -/
  todo : List Micro
  /-- The value of the command's last register read (log 18). -/
  acc : Word
  /-- The command's byte buffer (log 18). -/
  buf : List Byte
  /-- The wall clock at its last reading, in microseconds (60_exceptions R273; log 13). -/
  now : Nat
  /-- Draws already fixed, next first (00_scope R12; log 2). -/
  script : List Nat
  /-- How many free draws have been taken (log 2). -/
  drawn : Nat
deriving DecidableEq, Repr

/-- The registers of a GPIO port after reset (10_state R33, R35). -/
def resetPort (r : ResetValues) : GpioPort := ⟨r.cfglr, r.cfghr, r.outdr⟩

/-- The state after reset under a configuration, whose register reset values it takes (70_reset R290,
93_implementation_defined I3). The fields that are not the spec's take the values of
logs 2, 12, 13, 15 to 19. -/
def State.resetWith (cfg : Config) : State where
  cfg := cfg
  gpio := Vector.replicate 5 (resetPort cfg.reset)
  rcc := ⟨cfg.reset.rccCtlr, cfg.reset.rccCfgr0, cfg.reset.apb2pcenr, cfg.reset.apb1pcenr, false, false, false⟩
  i2c := ⟨cfg.reset.i2cCtlr1, cfg.reset.i2cCtlr2, cfg.reset.i2cDatar, cfg.reset.i2cCkcfgr, cfg.reset.i2cRtr⟩
  spi := ⟨cfg.reset.spiCtlr1, cfg.reset.spiCtlr2, cfg.reset.spiDatar⟩
  uart :=
    ⟨cfg.reset.uartDatar, cfg.reset.uartBrr, cfg.reset.uartCtlr1, cfg.reset.uartCtlr2, cfg.reset.uartCtlr3⟩
  motor := Vector.replicate 4 ⟨false, false, false⟩
  i2cInit := false
  spiInit := false
  spiLast := 0
  clockDone := false
  halted := none
  inCritical := false
  trace := []
  stream := []
  irq := false
  responses := []
  resetRequest := false
  todo := []
  acc := 0
  buf := []
  now := 0
  script := []
  drawn := 0

/-- The state after reset under the default configuration (70_reset R290; log 1). -/
def State.reset : State := State.resetWith Config.default

end Sys2Proof.Machine
end

