-- ==== Sys2Proof/Machine/Flags.lean ====
section
/-!
DEFINITION. Status flags and the values computed from register contents: field masks (10_state R40 to R47), the UART
interrupt line (44_uart R224), the clock tree (45_clock R242) and the wire rates (70_reset R302).
-/
namespace Sys2Proof.Machine

/-! ### Field masks -/

/-- `I2C.STAR1.SB` (10_state R44). -/
def maskSb : Word := 0x0001
/-- `I2C.STAR1.ADDR` (10_state R44). -/
def maskAddr : Word := 0x0002
/-- `I2C.STAR1.BTF` (10_state R44). -/
def maskBtf : Word := 0x0004
/-- `I2C.STAR1.RXNE` (10_state R44). -/
def maskI2cRxne : Word := 0x0040
/-- `I2C.STAR1.AF` (10_state R44). -/
def maskAf : Word := 0x0400
/-- `I2C.STAR2.BUSY` (10_state R44). -/
def maskBusy : Word := 0x0002
/-- `SPI.STATR.RXNE` (10_state R46). -/
def maskSpiRxne : Word := 0x0001
/-- `SPI.STATR.TXE` (10_state R46). -/
def maskSpiTxe : Word := 0x0002
/-- `SPI.STATR.BSY` (10_state R46). -/
def maskBsy : Word := 0x0080
/-- `SPI.CTLR1.SPE` (10_state R46). -/
def maskSpe : Word := 0x0040
/-- `UART.CTLR1.TXEIE` (10_state R47). -/
def maskTxeie : Word := 0x0080
/-- `RCC.CTLR.HSEON` (10_state R40). -/
def maskHseOn : Word := 0x00010000
/-- `RCC.CTLR.HSERDY` (10_state R40). -/
def maskHseRdy : Word := 0x00020000
/-- `RCC.CTLR.PLLON` (10_state R40). -/
def maskPllOn : Word := 0x01000000
/-- `RCC.CTLR.PLLRDY` (10_state R40). -/
def maskPllRdy : Word := 0x02000000
/-- `RCC.CFGR0.SW` (10_state R41). -/
def maskSw : Word := 0x00000003
/-- `RCC.CFGR0.SWS` (10_state R41). -/
def maskSws : Word := 0x0000000C

/-- `PE | START` (42_i2c R177). -/
def ctlr1Start : Word := 0x0101
/-- `PE | STOP` (42_i2c R176). -/
def ctlr1Stop : Word := 0x0201
/-- `PE | ACK` (42_i2c R181). -/
def ctlr1Ack : Word := 0x0401
/-- `PE` (42_i2c R170). -/
def ctlr1Pe : Word := 0x0001

/-! ### The stored bits of the registers -/

/-- The bits of a register that a write stores; reserved and read-only bits are 0 (10_state R33 to R47, 20_memory R76).
Every bit of `APB2PCENR` is a gate, of the block or of a peripheral outside it; of `APB1PCENR` R43 names bit 21 alone
(log 7). -/
def storeMask : Reg → Word
  | .gpio _ .cfglr => 0xFFFFFFFF
  | .gpio _ .cfghr => 0xFFFFFFFF
  | .gpio _ .outdr => 0x0000FFFF
  | .gpio _ _ => 0
  | .rcc .ctlr => 0x010D00F9
  | .rcc .cfgr0 => 0x07FFFFF3
  | .rcc .apb2pcenr => 0xFFFFFFFF
  | .rcc .apb1pcenr => 0x00200000
  | .i2c .ctlr1 => 0x00008401
  | .i2c .ctlr2 => 0x0000003F
  | .i2c .datar => 0x000000FF
  | .i2c .star1 => 0
  | .i2c .star2 => 0
  | .i2c .ckcfgr => 0x0000CFFF
  | .i2c .rtr => 0x0000003F
  | .spi .ctlr1 => 0x0000FFFF
  | .spi .ctlr2 => 0xFFFFFFFF
  | .spi .statr => 0
  | .spi .datar => 0x000000FF
  | .uart .statr => 0
  | .uart .datar => 0x000001FF
  | .uart .brr => 0x0000FFFF
  | .uart .ctlr1 => 0x00003FFF
  | .uart .ctlr2 => 0xFFFFFFFF
  | .uart .ctlr3 => 0xFFFFFFFF

/-! ### The UART interrupt line -/

/-- A receive condition: `RXNE` or `ORE` (44_uart R224, R228). -/
def uartReceives (statr : Word) : Bool := statr.getLsbD 5 || statr.getLsbD 3

/-- A transmit condition: `TXE` (44_uart R224, R229). -/
def uartTransmits (statr : Word) : Bool := statr.getLsbD 7

/-- The UART interrupt line as a function of `CTLR1` and `STATR` (44_uart R224). -/
def uartIrqLine (ctlr1 statr : Word) : Bool :=
  (ctlr1.getLsbD 5 && uartReceives statr) || (ctlr1.getLsbD 7 && uartTransmits statr)

/-- An interrupt enable bit is set, so that the line can be 1 (60_exceptions R268). -/
def uartArmed (ctlr1 : Word) : Bool := ctlr1.getLsbD 5 || ctlr1.getLsbD 7

/-! ### The clock tree (45_clock R242), as functions of a value read from `RCC.CFGR0` -/

/-- `CFGR0.PLLMUL` (10_state R41). -/
def pllMulCode (cfgr0 : Word) : Nat := (cfgr0.extractLsb' 18 4).toNat

/-- `PLLMUL + 2`; codes 14 and 15 are free (10_state R42, 93_implementation_defined I4). -/
def pllFactor (cfgr0 : Word) : Nat :=
  if pllMulCode cfgr0 < 14 then pllMulCode cfgr0 + 2 else Config.reservedMultiplier (pllMulCode cfgr0)

/-- `PllIn` (45_clock R242). -/
def pllIn (cfg : Config) (cfgr0 : Word) : Nat :=
  if cfgr0.getLsbD 16 then cfg.hseFreq / (if cfgr0.getLsbD 17 then 2 else 1) else cfg.hsiFreq / 2

/-- `PllOut` (45_clock R242). -/
def pllOut (cfg : Config) (cfgr0 : Word) : Nat := pllIn cfg cfgr0 * pllFactor cfgr0

/-- `SysClk`, selected by `SWS`; the reserved code is free (45_clock R242, 93_implementation_defined I5). -/
def sysClk (cfg : Config) (cfgr0 : Word) : Nat :=
  match (cfgr0.extractLsb' 2 2).toNat with
  | 0 => cfg.hsiFreq
  | 1 => cfg.hseFreq
  | 2 => pllOut cfg cfgr0
  | _ => Config.reservedSysClk

/-- `HCLK` (45_clock R242). -/
def hclk (cfg : Config) (cfgr0 : Word) : Nat :=
  let hpre := (cfgr0.extractLsb' 4 4).toNat
  if hpre < 8 then sysClk cfg cfgr0
  else if hpre < 12 then sysClk cfg cfgr0 / 2 ^ (hpre - 7)
  else sysClk cfg cfgr0 / 2 ^ (hpre - 6)

/-- `PCLKn` for a prescaler code `PPREn` (45_clock R242). -/
def pclkOf (h ppre : Nat) : Nat := if ppre < 4 then h else h / 2 ^ (ppre - 3)

/-- `PCLK1` (45_clock R242). -/
def pclk1 (cfg : Config) (cfgr0 : Word) : Nat := pclkOf (hclk cfg cfgr0) (cfgr0.extractLsb' 8 3).toNat

/-- `PCLK2` (45_clock R242). -/
def pclk2 (cfg : Config) (cfgr0 : Word) : Nat := pclkOf (hclk cfg cfgr0) (cfgr0.extractLsb' 11 3).toNat

/-! ### Wire rates (70_reset R302), from a peripheral clock and register contents -/

/-- A peripheral clock over a divider; a free value for the divider 0, which `BRR` and `CCR` hold after reset
(00_scope R9, log 30). -/
def rateOver (clk divider : Nat) : Nat := if divider = 0 then Config.rateOfZeroDivider clk else clk / divider

/-- The SPI clock of the divisor that `CTLR1.BR` selects (70_reset R302, 30_encoding R99); the code 0b111 is free (log
30). -/
def sckRate (clk : Nat) (ctlr1 : Word) : Nat :=
  let br := (ctlr1.extractLsb' 3 3).toNat
  if br = 7 then Config.reservedSpiRate clk else rateOver clk (2 ^ (br + 1))

/-- The baud rate of a divisor in `BRR` (44_uart R221, 70_reset R302); free while `BRR` is 0 (log 30). -/
def baudRate (clk : Nat) (brr : Word) : Nat := rateOver clk brr.toNat

/-- The highest I2C clock of standard mode, in Hz (PRESUMED, the bus's own standard; log 30). -/
def standardMaxRate : Nat := 100000

/-- The I2C clock of the divider `CCR` in standard mode, that is `FS` = 0 and a rate of standard mode (70_reset R302);
free outside standard mode (93_implementation_defined I21) and while `CCR` is 0 (log 30). -/
def sclRate (clk : Nat) (ckcfgr : Word) : Nat :=
  let ccr := (ckcfgr.extractLsb' 0 12).toNat
  if ckcfgr.getLsbD 15 || decide (ccr ≠ 0 ∧ standardMaxRate < clk / (2 * ccr)) then Config.fastSclRate clk ckcfgr
  else rateOver clk (2 * ccr)

/-! ### The clock parameters (45_clock R246) -/

/-- The multiplied crystal is the target clock, and the clock parameters of the buses are that clock (45_clock R242,
R246). -/
def clocksAgree (cfg : Config) : Bool :=
  decide (cfg.hseFreq * cfg.pllMul = cfg.sysclkTarget ∧ cfg.i2cPclk = cfg.sysclkTarget ∧
    cfg.spiPclk = cfg.sysclkTarget ∧ cfg.uartClk = cfg.sysclkTarget)

end Sys2Proof.Machine
end

