-- ==== Sys2Proof/Machine/Operands.lean ====
section
/-!
DEFINITION. Operand forms: pin identifiers (30_encoding R90 to R93), config fields (R94 to R96), bus configs (R97 to
R99, R112), dividers (42_i2c R172, R173; 43_spi R201; 44_uart R221), the motor truth table (41_motor R152), register
addresses (20_memory R71, R72) and the check of a configuration (00_scope R7).
-/
namespace Sys2Proof.Machine

/-! ### Pins -/

/-- The identifier of a physical pin, `16 p + n` (30_encoding R90), with 16 the number of bits of a port. -/
def pinId (cfg : Config) (pin : Pin) : Nat := cfg.nBits * pin.port.val + pin.bit.val

/-- The physical pin of an identifier below `N_PHYS` (30_encoding R92). -/
def pinOfId (cfg : Config) (id : Nat) : Pin :=
  ⟨⟨id / cfg.nBits % 5, Nat.mod_lt _ (by decide)⟩, ⟨id % cfg.nBits % 16, Nat.mod_lt _ (by decide)⟩⟩

/-- What an identifier names (30_encoding R92). -/
inductive PinClass where
  | physical (pin : Pin)
  | virtual (c : Fin 4) (role : Role)
  | invalid
deriving DecidableEq, Repr

/-- `Classify(id)` (30_encoding R92). -/
def classify (cfg : Config) (id : BitVec 16) : PinClass :=
  if id.toNat < cfg.nPhys then
    if cfg.pinMapped.getLsbD id.toNat then .physical (pinOfId cfg id.toNat) else .invalid
  else
    match virtualOf cfg id with
    | some (c, role) => .virtual c role
    | none => .invalid

/-- The single-bit mask of a pin's handle, `1 << n` (30_encoding R92). -/
def pinMask (pin : Pin) : Word := 1#32 <<< pin.bit.val

/-! ### Config nibbles -/

/-- `OUT_PP_50` (30_encoding R95). -/
def nibOutPp50 : BitVec 4 := 0x3
/-- `IN_FLOAT` (30_encoding R95). -/
def nibInFloat : BitVec 4 := 0x4
/-- `IN_PULL` (30_encoding R95). -/
def nibInPull : BitVec 4 := 0x8
/-- `AF_PP_50` (30_encoding R95). -/
def nibAfPp50 : BitVec 4 := 0xB
/-- `AF_OD_50` (30_encoding R95). -/
def nibAfOd50 : BitVec 4 := 0xF

/-- The speed an output mode names (30_encoding R94). -/
inductive PinSpeed where
  | mhz10
  | mhz2
  | mhz50
deriving DecidableEq, Repr

/-- The meaning of a config nibble (30_encoding R94). -/
inductive PinMode where
  | analogInput
  | floatingInput
  | pulledInput
  | reservedInput
  | pushPull (speed : PinSpeed)
  | openDrain (speed : PinSpeed)
  | altPushPull (speed : PinSpeed)
  | altOpenDrain (speed : PinSpeed)
deriving DecidableEq, Repr

/-- The mode a config nibble `CNF, MODE` selects (30_encoding R94). -/
def pinModeOf (nib : BitVec 4) : PinMode :=
  let cnf := (nib.extractLsb' 2 2).toNat
  let output (speed : PinSpeed) : PinMode :=
    match cnf with
    | 0 => .pushPull speed
    | 1 => .openDrain speed
    | 2 => .altPushPull speed
    | _ => .altOpenDrain speed
  match (nib.extractLsb' 0 2).toNat with
  | 0 =>
    match cnf with
    | 0 => .analogInput
    | 1 => .floatingInput
    | 2 => .pulledInput
    | _ => .reservedInput
  | 1 => output .mhz10
  | 2 => output .mhz2
  | _ => output .mhz50

/-- The pin is driven by a peripheral instead of `OUTDR`: the pin multiplexer (30_encoding R94). -/
def isAlternate (nib : BitVec 4) : Bool := nib.getLsbD 3 && (nib.getLsbD 0 || nib.getLsbD 1)

/-- What a pin's mode and output latch put on its line (10_state R35, 30_encoding R94). -/
inductive PinLine where
  /-- An analog or floating input: the block does not act on the line. -/
  | undriven
  /-- A pulled input; `up` is the latch bit. -/
  | pulled (up : Bool)
  /-- A general-purpose output; `level` is the latch bit. -/
  | driven (level : Bool)
  /-- An alternate function: the bus peripheral drives the line. -/
  | peripheral
  /-- The reserved input mode: any behaviour (93_implementation_defined I7). -/
  | unspecified
deriving DecidableEq, Repr

/-- The line of a pin in a mode with an output latch bit (10_state R35, 30_encoding R94). -/
def pinLineOf (mode : PinMode) (latch : Bool) : PinLine :=
  match mode with
  | .analogInput => .undriven
  | .floatingInput => .undriven
  | .pulledInput => .pulled latch
  | .reservedInput => .unspecified
  | .pushPull _ => .driven latch
  | .openDrain _ => .driven latch
  | .altPushPull _ => .peripheral
  | .altOpenDrain _ => .peripheral

/-- `CfgReg(p, n)` (30_encoding R96). -/
def cfgReg (pin : Pin) : Reg := .gpio pin.port (if pin.bit.val < 8 then .cfglr else .cfghr)

/-- The shift of a pin's config field, `4 (n mod 8)` (30_encoding R96). -/
def cfgShift (pin : Pin) : Nat := 4 * (pin.bit.val % 8)

/-- The mask of a pin's config field, `0xF << s` (30_encoding R96). -/
def cfgMask (pin : Pin) : Word := 0xF#32 <<< cfgShift pin

/-- A nibble in a pin's config field, `nib << s` (40_gpio R132). -/
def cfgBits (pin : Pin) (nib : BitVec 4) : Word := nib.setWidth 32 <<< cfgShift pin

/-! ### Motor channels -/

/-- `Lines(drive, dir) = (drive AND NOT dir, drive AND dir)` (41_motor R152). -/
def motorLines (drive dir : Bool) : Bool × Bool := (drive && !dir, drive && dir)

/-- A channel's flags with the one named by `role` set to v (41_motor R155). -/
def setFlag (m : Motor) (role : Role) (v : Bool) : Motor :=
  match role with
  | .drive => { m with drive := v }
  | .direction => { m with dir := v }

/-- The flag named by `role` (41_motor R150). -/
def getFlag (m : Motor) (role : Role) : Bool :=
  match role with
  | .drive => m.drive
  | .direction => m.dir

/-- The result word of a setup of a virtual identifier: the identifier (30_encoding R93, R104). -/
def virtualIdWord (cfg : Config) (c : Fin 4) (role : Role) : Word := (virtualId cfg c role).setWidth 32

/-! ### I2C -/

/-- The value of a status (30_encoding R100). -/
def statusWord : I2cStatus → Word
  | .ok => 0
  | .nack => 1
  | .timeout => 2
  | .startNack => 3
  | .addrNack => 4

/-- The value of a halt diagnostic (30_encoding R101). -/
def haltValue : HaltCode → Nat
  | .invalidPin => 1
  | .invalidBus => 2
  | .unimplemented => 3

/-- The wire address `(addr7 & 0x7F) << 1` (30_encoding R97). -/
def wireAddress (addr7 : BitVec 7) : Byte := addr7.setWidth 8 <<< 1

/-- `CCR` of a requested rate (42_i2c R172). -/
def i2cCcr (cfg : Config) (rate : Nat) : Nat :=
  let r := min rate cfg.i2cMaxRate
  if r = 0 then 4095 else max 4 (min (cfg.i2cPclk / (2 * r)) 4095)

/-- `FREQ` (42_i2c R173). -/
def i2cFreq (cfg : Config) : Nat := min (cfg.i2cPclk / 1000000) 63

/-- `TRISE` (42_i2c R173). -/
def i2cTrise (cfg : Config) : Nat := min (cfg.i2cPclk / 1000000 + 1) 63

/-! ### SPI -/

/-- The loop of `SelectDivisor` from a divisor up to a ceiling, at most `fuel` doublings (43_spi R201). -/
def doubleDivisor (ceiling clk rate : Nat) : Nat → Nat → Nat
  | 0, div => div
  | fuel + 1, div =>
    if div < ceiling ∧ clk / div > rate then doubleDivisor ceiling clk rate fuel (2 * div) else div

/-- `SelectDivisor(C, R)` (43_spi R201): six doublings lead from 2 to 128, the largest range of a configuration. -/
def selectDivisor (cfg : Config) (clk rate : Nat) : Nat := doubleDivisor cfg.spiDivMax clk rate 6 cfg.spiDivMin

/-- `BR(div) = log2(div) - 1` (30_encoding R99). -/
def brCode (div : Nat) : BitVec 3 := BitVec.ofNat 3 (Nat.log2 div - 1)

/-- The SPI control word of a mode and divisor: `CPHA`, `CPOL`, `MSTR`, `BR`, `SPE`, `SSI`, `SSM` (30_encoding R98,
R112). -/
def spiCtrl (mode : BitVec 2) (div : Nat) : Word :=
  (if mode.getLsbD 0 then 1#32 else 0) ||| (if mode.getLsbD 1 then 2#32 else 0) ||| 0x0004 |||
    ((brCode div).setWidth 32 <<< 3) ||| 0x0040 ||| 0x0100 ||| 0x0200

/-- The divisors that have a `BR` code (30_encoding R99). -/
def spiDivisors : List Nat := [2, 4, 8, 16, 32, 64, 128]

/-- A divisor that `SelectDivisor` can select (43_spi R201, 30_encoding R99). -/
def isDivisor (cfg : Config) (div : Nat) : Bool :=
  decide (div ∈ spiDivisors ∧ cfg.spiDivMin ≤ div ∧ div ≤ cfg.spiDivMax)

/-- The modes of 30_encoding R112. -/
def spiModes : List (BitVec 2) := [0, 1, 2, 3]

/-- A control word that 30_encoding R98 can produce (R106). That a divisor outside the configuration's
`SPI_DIV_MIN`..`SPI_DIV_MAX` produces none is DESIGN CHOICE, safe (log 20): R99 lists the divisors 2 to 128 and leaves out
the next because the ceiling is 128, without speaking of another range. -/
def isSpiCtrl (cfg : Config) (ctrl : BitVec 16) : Bool :=
  spiModes.any fun mode => spiDivisors.any fun div => isDivisor cfg div && ctrl.setWidth 32 == spiCtrl mode div

/-! ### UART -/

/-- The baud divisor `UART_CLK / UART_BAUD` (44_uart R221). -/
def uartDivisor (cfg : Config) : Nat := cfg.uartClk / cfg.uartBaud

/-! ### Register addresses -/

/-- Every register of a GPIO port (20_memory R72). -/
def gpioRegs : List GpioReg := [.cfglr, .cfghr, .indr, .outdr, .bshr, .bcr]
/-- Every register of RCC (20_memory R72). -/
def rccRegs : List RccReg := [.ctlr, .cfgr0, .apb2pcenr, .apb1pcenr]
/-- Every register of I2C0 (20_memory R72). -/
def i2cRegs : List I2cReg := [.ctlr1, .ctlr2, .datar, .star1, .star2, .ckcfgr, .rtr]
/-- Every register of SPI0 (20_memory R72). -/
def spiRegs : List SpiReg := [.ctlr1, .ctlr2, .statr, .datar]
/-- Every register of the UART (20_memory R72). -/
def uartRegs : List UartReg := [.statr, .datar, .brr, .ctlr1, .ctlr2, .ctlr3]

/-- The 51 modelled registers of the largest configuration, which is the default one (20_memory R72). -/
def allRegs : List Reg :=
  ([0, 1, 2, 3, 4].flatMap fun p => gpioRegs.map (Reg.gpio p)) ++ rccRegs.map .rcc ++ i2cRegs.map .i2c ++
    spiRegs.map .spi ++ uartRegs.map .uart

/-- The offset of a register in its block (20_memory R72). -/
def regOffset : Reg → Word
  | .gpio _ .cfglr => 0x00
  | .gpio _ .cfghr => 0x04
  | .gpio _ .indr => 0x08
  | .gpio _ .outdr => 0x0C
  | .gpio _ .bshr => 0x10
  | .gpio _ .bcr => 0x14
  | .rcc .ctlr => 0x00
  | .rcc .cfgr0 => 0x04
  | .rcc .apb2pcenr => 0x18
  | .rcc .apb1pcenr => 0x1C
  | .i2c .ctlr1 => 0x00
  | .i2c .ctlr2 => 0x04
  | .i2c .datar => 0x10
  | .i2c .star1 => 0x14
  | .i2c .star2 => 0x18
  | .i2c .ckcfgr => 0x1C
  | .i2c .rtr => 0x20
  | .spi .ctlr1 => 0x00
  | .spi .ctlr2 => 0x04
  | .spi .statr => 0x08
  | .spi .datar => 0x0C
  | .uart .statr => 0x00
  | .uart .datar => 0x04
  | .uart .brr => 0x08
  | .uart .ctlr1 => 0x0C
  | .uart .ctlr2 => 0x10
  | .uart .ctlr3 => 0x14

/-- The base address of a register's block (20_memory R71). -/
def regBase (cfg : Config) : Reg → Word
  | .gpio p _ => cfg.gpioBase[p]
  | .rcc _ => cfg.rccBase
  | .i2c _ => cfg.i2cBase
  | .spi _ => cfg.spiBase
  | .uart _ => cfg.uartBase

/-- The address of a register (20_memory R71). A sum past the end of the 32-bit address space wraps around to its start:
DESIGN CHOICE, since R71 bounds no base and does not speak of it (log 26). -/
def regAddr (cfg : Config) (r : Reg) : Word := regBase cfg r + regOffset r

/-- The configuration has the register: its port or bus exists (20_memory R72, 00_scope R6). -/
def hasReg (cfg : Config) : Reg → Bool
  | .gpio p _ => decide (p.val < cfg.nPorts)
  | .rcc _ => true
  | .i2c _ => decide (0 < cfg.nI2c)
  | .spi _ => decide (0 < cfg.nSpi)
  | .uart _ => true

/-- The register at an address: 4-byte aligned and one of the 51 (46_host_access R257). Where a configuration's windows
overlap, the first in the order of 20_memory R72; a block whose base is not 4-byte aligned has no register that a raw
access can name; a base so high that base + offset passes 2^32 puts the register at the wrapped, low address (all three
DESIGN CHOICE, log 26). -/
def regAt (cfg : Config) (addr : Word) : Option Reg :=
  if addr.extractLsb' 0 2 = 0 then allRegs.find? fun r => hasReg cfg r && regAddr cfg r == addr else none

/-! ### The configuration check -/

/-- The pins the configuration gives to motor lines, buses and the UART (00_scope R7). Those of a channel or a bus that a
smaller `N_CHANNELS`, `N_I2C` or `N_SPI` leaves out are among them: DESIGN CHOICE, safe (log 20). -/
def ownedPins (cfg : Config) : List Pin :=
  cfg.motorHi.toList ++ cfg.motorLo.toList ++
    [cfg.i2cScl, cfg.i2cSda, cfg.spiSck, cfg.spiMosi, cfg.spiMiso, cfg.uartTx, cfg.uartRx]

/-- An owned pin is physical and mapped (00_scope R7, 30_encoding R92). -/
def ownedPinOk (cfg : Config) (pin : Pin) : Bool :=
  decide (pin.port.val < cfg.nPorts) && decide (pin.bit.val < cfg.nBits) && cfg.pinMapped.getLsbD (pinId cfg pin)

/-- Owned pins are distinct, physical and mapped (00_scope R7). -/
def pinsOk (cfg : Config) : Bool := decide (ownedPins cfg).Nodup && (ownedPins cfg).all (ownedPinOk cfg)

/-- The baud divisor lies in 16..65535 (00_scope R7, 44_uart R221). -/
def baudOk (cfg : Config) : Bool :=
  decide (0 < cfg.uartBaud) && decide (16 ≤ uartDivisor cfg) && decide (uartDivisor cfg ≤ 65535)

/-- The machine is one that the rules describe: ports, bits, channels and buses within those that have registers,
gates, addresses and pins; virtual identifiers apart from the physical ones and within field B (30_encoding R93); byte
counts in a byte; divisors that have a `BR` code (30_encoding R99); a multiplier that has a `PLLMUL` code (10_state
R42). Log 20. -/
def shapeOk (cfg : Config) : Bool :=
  decide (cfg.nPorts ≤ 5 ∧ cfg.nBits ≤ 16 ∧ cfg.nChannels ≤ 4 ∧ cfg.nI2c ≤ 1 ∧ cfg.nSpi ≤ 1) &&
    decide (cfg.nPhys ≤ cfg.motorIdBase ∧ cfg.motorIdBase + 2 * cfg.nChannels ≤ 65536) &&
    decide (cfg.maxLen ≤ 255) && isDivisor cfg cfg.spiDivMin && isDivisor cfg cfg.spiDivMax &&
    decide (2 ≤ cfg.pllMul ∧ cfg.pllMul ≤ 15)

/-- The reset value of a register; 0 for one that stores nothing (10_state R33 to R47, 93_implementation_defined I3). -/
def resetValue (r : ResetValues) : Reg → Word
  | .gpio _ .cfglr => r.cfglr
  | .gpio _ .cfghr => r.cfghr
  | .gpio _ .outdr => r.outdr
  | .gpio _ _ => 0
  | .rcc .ctlr => r.rccCtlr
  | .rcc .cfgr0 => r.rccCfgr0
  | .rcc .apb2pcenr => r.apb2pcenr
  | .rcc .apb1pcenr => r.apb1pcenr
  | .i2c .ctlr1 => r.i2cCtlr1
  | .i2c .ctlr2 => r.i2cCtlr2
  | .i2c .datar => r.i2cDatar
  | .i2c .star1 => 0
  | .i2c .star2 => 0
  | .i2c .ckcfgr => r.i2cCkcfgr
  | .i2c .rtr => r.i2cRtr
  | .spi .ctlr1 => r.spiCtlr1
  | .spi .ctlr2 => r.spiCtlr2
  | .spi .statr => 0
  | .spi .datar => r.spiDatar
  | .uart .statr => 0
  | .uart .datar => r.uartDatar
  | .uart .brr => r.uartBrr
  | .uart .ctlr1 => r.uartCtlr1
  | .uart .ctlr2 => r.uartCtlr2
  | .uart .ctlr3 => r.uartCtlr3

/-- Reset values that a register can hold, under which 70_reset R290 and 10_state R48 (b) hold: `HSEON` = `PLLON` = 0,
`SW` = 0, the UART line 0 (log 20). -/
def resetOk (r : ResetValues) : Bool :=
  (allRegs.all fun reg => resetValue r reg &&& ~~~storeMask reg == 0) && r.rccCtlr &&& (maskHseOn ||| maskPllOn) == 0 &&
    r.rccCfgr0 &&& maskSw == 0 && !uartArmed r.uartCtlr1

/-- The configuration is well formed (00_scope R7, log 20). The base addresses are any words, 4-byte aligned or
not, however near to 2^32: DESIGN CHOICE, since 20_memory R71 bounds none and R7 calls none ill-formed (log 26). -/
def configOk (cfg : Config) : Bool := pinsOk cfg && baudOk cfg && shapeOk cfg && resetOk cfg.reset

end Sys2Proof.Machine
end

