-- ==== Sys2Proof/Machine/Ops.lean ====
section
/-!
DEFINITION. The shared operations: draws, register reads and writes with their side effects (20_memory R70 to R77),
fatal halts (60_exceptions R260), the interrupt context (60_exceptions R270, R271), reset (70_reset R290), and the
runner of a command's actions and waits (00_scope R10, R11).
-/
namespace Sys2Proof.Machine

/-! ### Draws (00_scope R12, log 2) -/

/-- The value of the next draw: the next scripted answer, else the free value of the draw counter. -/
def drawValue (s : State) : Nat :=
  match s.script with
  | d :: _ => d
  | [] => Config.freeDraw s.drawn

/-- The state after the next draw. -/
def drawNext (s : State) : State :=
  match s.script with
  | _ :: rest => { s with script := rest }
  | [] => { s with drawn := s.drawn + 1 }

/-- `Now()`: the wall clock moves on by a drawn number of microseconds, never back (60_exceptions R273, log 13). -/
def readClock (s : State) : State := { drawNext s with now := s.now + drawValue s }

/-! ### Registers -/

/-- The state with port p replaced. -/
def setPort (s : State) (p : Fin 5) (port : GpioPort) : State := { s with gpio := s.gpio.set p port }

/-- `motor[c] <- m` (10_state R49). -/
def setMotor (s : State) (c : Fin 4) (m : Motor) : State := { s with motor := s.motor.set c m }

/-- The clock gate of a register's peripheral is open (10_state R43, R57); RCC is always clocked. -/
def clocked (s : State) : Reg → Bool
  | .gpio p _ => s.rcc.apb2pcenr.getLsbD (2 + p.val)
  | .rcc _ => true
  | .i2c _ => s.rcc.apb1pcenr.getLsbD 21
  | .spi _ => s.rcc.apb2pcenr.getLsbD 12
  | .uart _ => s.rcc.apb2pcenr.getLsbD 14

/-- The bits of a register that a read takes from the environment (10_state R34, R40 to R47), under the constraints of
R48 (b) on `HSERDY`, `PLLRDY` and `SWS`. -/
def drawMask (s : State) : Reg → Word
  | .gpio _ .indr => 0x0000FFFF
  | .gpio _ _ => 0
  | .rcc .ctlr =>
    0x0000FF02 ||| (if s.rcc.hseOnSeen then maskHseRdy else 0) ||| (if s.rcc.pllOnSeen then maskPllRdy else 0)
  | .rcc .cfgr0 => if s.rcc.swPllSeen then maskSws else 0
  | .rcc _ => 0
  | .i2c .ctlr1 => 0x00000300
  | .i2c .datar => 0x000000FF
  | .i2c .star1 => 0x000004C7
  | .i2c .star2 => 0x00000007
  | .i2c _ => 0
  | .spi .statr => 0x00000083
  | .spi .datar => 0x000000FF
  | .spi _ => 0
  | .uart .statr => 0x000000FF
  | .uart .datar => 0x000001FF
  | .uart _ => 0

/-- The stored bits that a read shows; data registers show only the draw, write-only registers 0 (10_state R36, R37,
R44, R46, R47; log 9). -/
def shown (s : State) : Reg → Word
  | .gpio p .cfglr => s.gpio[p].cfglr
  | .gpio p .cfghr => s.gpio[p].cfghr
  | .gpio p .outdr => s.gpio[p].outdr
  | .gpio _ _ => 0
  | .rcc .ctlr => s.rcc.ctlr
  | .rcc .cfgr0 => s.rcc.cfgr0
  | .rcc .apb2pcenr => s.rcc.apb2pcenr
  | .rcc .apb1pcenr => s.rcc.apb1pcenr
  | .i2c .ctlr1 => s.i2c.ctlr1
  | .i2c .ctlr2 => s.i2c.ctlr2
  | .i2c .datar => 0
  | .i2c .star1 => 0
  | .i2c .star2 => 0
  | .i2c .ckcfgr => s.i2c.ckcfgr
  | .i2c .rtr => s.i2c.rtr
  | .spi .ctlr1 => s.spi.ctlr1
  | .spi .ctlr2 => s.spi.ctlr2
  | .spi .statr => 0
  | .spi .datar => 0
  | .uart .statr => 0
  | .uart .datar => 0
  | .uart .brr => s.uart.brr
  | .uart .ctlr1 => s.uart.ctlr1
  | .uart .ctlr2 => s.uart.ctlr2
  | .uart .ctlr3 => s.uart.ctlr3

/-- A read of the register consults the environment (10_state R48, R57). -/
def readDraws (s : State) (r : Reg) : Bool := !clocked s r || drawMask s r != 0

/-- The value of `R(r)`, that is `MemRead` (20_memory R70): stored bits and draws, or all draws when the peripheral is
not clocked (10_state R57). -/
def readValue (s : State) (r : Reg) : Word :=
  if clocked s r then
    if drawMask s r = 0 then shown s r else shown s r ||| (BitVec.ofNat 32 (drawValue s) &&& drawMask s r)
  else BitVec.ofNat 32 (drawValue s)

/-- The state after `R(r)`: the draw is consumed; read side effects on flags are the environment's (10_state R45). -/
def readNext (s : State) (r : Reg) : State := if readDraws s r then drawNext s else s

/-- A write to a clocked register, masked to its stored bits (20_memory R76) with the effects of 10_state R36, R37 and
R48 (b). -/
def storeReg (s : State) (r : Reg) (v : Word) : State :=
  let w := v &&& storeMask r
  match r with
  | .gpio p .cfglr => setPort s p { s.gpio[p] with cfglr := w }
  | .gpio p .cfghr => setPort s p { s.gpio[p] with cfghr := w }
  | .gpio _ .indr => s
  | .gpio p .outdr => setPort s p { s.gpio[p] with outdr := w }
  | .gpio p .bshr =>
    setPort s p { s.gpio[p] with outdr := (s.gpio[p].outdr &&& ~~~(v >>> 16)) ||| (v &&& 0x0000FFFF) }
  | .gpio p .bcr => setPort s p { s.gpio[p] with outdr := s.gpio[p].outdr &&& ~~~(v &&& 0x0000FFFF) }
  | .rcc .ctlr =>
    { s with rcc :=
      { s.rcc with
        ctlr := w
        hseOnSeen := s.rcc.hseOnSeen || v &&& maskHseOn != 0
        pllOnSeen := s.rcc.pllOnSeen || v &&& maskPllOn != 0 } }
  | .rcc .cfgr0 =>
    { s with rcc := { s.rcc with cfgr0 := w, swPllSeen := s.rcc.swPllSeen || v &&& maskSw == 2 } }
  | .rcc .apb2pcenr => { s with rcc := { s.rcc with apb2pcenr := w } }
  | .rcc .apb1pcenr => { s with rcc := { s.rcc with apb1pcenr := w } }
  | .i2c .ctlr1 => { s with i2c := { s.i2c with ctlr1 := w } }
  | .i2c .ctlr2 => { s with i2c := { s.i2c with ctlr2 := w } }
  | .i2c .datar => { s with i2c := { s.i2c with datar := w } }
  | .i2c .star1 => s
  | .i2c .star2 => s
  | .i2c .ckcfgr => { s with i2c := { s.i2c with ckcfgr := w } }
  | .i2c .rtr => { s with i2c := { s.i2c with rtr := w } }
  | .spi .ctlr1 => { s with spi := { s.spi with ctlr1 := w } }
  | .spi .ctlr2 => { s with spi := { s.spi with ctlr2 := w } }
  | .spi .statr => s
  | .spi .datar => { s with spi := { s.spi with datar := w } }
  | .uart .statr => s
  | .uart .datar => { s with uart := { s.uart with datar := w } }
  | .uart .brr => { s with uart := { s.uart with brr := w } }
  | .uart .ctlr1 => { s with uart := { s.uart with ctlr1 := w } }
  | .uart .ctlr2 => { s with uart := { s.uart with ctlr2 := w } }
  | .uart .ctlr3 => { s with uart := { s.uart with ctlr3 := w } }

/-- `W(r, v)`, that is `MemWrite` (20_memory R70): ignored when the peripheral is not clocked (10_state R57). -/
def writeReg (s : State) (r : Reg) (v : Word) : State := if clocked s r then storeReg s r v else s

/-- The byte of the address space at an address, from the stored bits that a read shows: byte k of a register holds
bits `[8k+7:8k]` (20_memory R73); none where no register stands (log 28). -/
def byteAt (s : State) (addr : Word) : Option Byte :=
  (regAt s.cfg (addr &&& ~~~3#32)).map fun r => (shown s r).extractLsb' (8 * (addr.extractLsb' 0 2).toNat) 8

/-! ### Events, halts, reset -/

/-- `emit e` (00_scope R10, R13). -/
def emit (s : State) (e : Event) : State := { s with trace := s.trace ++ [e] }

/-- `raise Halt(code)`: the event, then the permanent halted state; no response (60_exceptions R260). -/
def raiseHalt (s : State) (code : HaltCode) : State := { emit s (.halt code) with halted := some code }

/-- The one reset (70_reset R290). The configuration stays; the host's stream and record of responses and the draw
stream are not the block's (log 17). There is no other way out of a halt. -/
def takeReset (s : State) : State :=
  { State.resetWith s.cfg with stream := s.stream, responses := s.responses, script := s.script, drawn := s.drawn }

/-! ### The interrupt context -/

/-- `UART_RX_HANDLER` (44_uart R228), with `HostPush` (R226). -/
def uartRxAction (s : State) : State :=
  let statr := readValue s (.uart .statr)
  let s1 := readNext s (.uart .statr)
  if uartReceives statr then
    emit (readNext s1 (.uart .datar)) (.uartRx ((readValue s1 (.uart .datar)).extractLsb' 0 8))
  else s1

/-- `HostPull()`: none, or the next byte of the host's queue (44_uart R227). -/
def hostPull (s : State) : Option Byte :=
  match drawValue s with
  | 0 => none
  | n + 1 => some (BitVec.ofNat 8 n)

/-- `UART_TX_HANDLER` (44_uart R229). -/
def uartTxAction (s : State) : State :=
  let c := readValue s (.uart .ctlr1)
  let s1 := readNext s (.uart .ctlr1)
  let statr := readValue s1 (.uart .statr)
  let s2 := readNext s1 (.uart .statr)
  if c &&& maskTxeie != 0 && uartTransmits statr then
    match hostPull s2 with
    | some x => emit (writeReg (drawNext s2) (.uart .datar) (x.setWidth 32)) (.uartTx x)
    | none => writeReg (drawNext s2) (.uart .ctlr1) (c &&& ~~~maskTxeie)
  else s2

/-- Interrupt entry: the receive action, then the transmit action, as one atomic step (44_uart R225, 60_exceptions
R270). The block saves no foreground state; on return the foreground goes on at the same boundary (R271). -/
def takeInterrupt (s : State) : State := uartTxAction (uartRxAction s)

/-- One look at the UART line, with its `STATR` a draw (44_uart R224); the interrupt is taken when it is 1. -/
def offerInterrupt (s : State) : State :=
  if uartArmed s.uart.ctlr1 then
    if uartIrqLine s.uart.ctlr1 (BitVec.ofNat 32 (drawValue s)) then takeInterrupt (drawNext s) else drawNext s
  else s

/-- k looks at the line. -/
def offerInterrupts : Nat → State → State
  | 0, s => s
  | k + 1, s => offerInterrupts k (offerInterrupt s)

/-- The interrupt context may act at a boundary: outside a critical span, before a halt, with an interrupt enable set
(20_memory R79, 60_exceptions R260, 44_uart R224). -/
def interruptible (s : State) : Bool := !s.inCritical && s.halted.isNone && uartArmed s.uart.ctlr1

/-- An action boundary of the foreground: the interrupt context may take any number of steps, a draw (00_scope R11,
20_memory R83, 60_exceptions R270; log 3). -/
def boundary (s : State) : State :=
  if interruptible s then offerInterrupts (drawValue s) (drawNext s) else s

/-- A command whose halt check fails, at the boundary where it was about to start (60_exceptions R260, R262, R270). -/
def haltCommand (s : State) (code : HaltCode) : State := raiseHalt (boundary s) code

/-! ### Running a command -/

/-- A response as words: the result word, then the byte payload packed like a command's (30_encoding R103, R104). -/
def responseWords (r : Response) : List Word := r.q :: packBytes r.payload

/-- The value a write action writes. -/
def sourceValue (acc : Word) : Source → Word
  | .const v => v
  | .update clear set => (acc &&& ~~~clear) ||| set
  | .flip mask => acc ^^^ mask

/-- The end of a command with its response (30_encoding R104); the command's variables are cleared (log 18). -/
def respond (s : State) (q : Word) (payload : List Byte) : State :=
  { s with responses := s.responses ++ [⟨q, payload⟩], acc := 0, buf := [] }

/-- One action (00_scope R10, R11). -/
def act (s : State) : Action → State
  | .read r => { readNext s r with acc := readValue s r }
  | .write r v => writeReg s r (sourceValue s.acc v)
  | .enter => { s with inCritical := true }
  | .leave => { s with inCritical := false }
  | .emit e => emit s e
  | .setBuf bytes => { s with buf := bytes }
  | .i2cLatch bus k =>
    emit { s with buf := s.buf.set k (s.acc.extractLsb' 0 8) } (.i2cRead bus (s.acc.extractLsb' 0 8))
  | .spiLatch bus k sent readBack =>
    emit { s with buf := if readBack then s.buf.set k (s.acc.extractLsb' 0 8) else s.buf }
      (.spiByte bus sent (s.acc.extractLsb' 0 8))
  | .setMotor c m => setMotor s c m
  | .setI2cInit => { s with i2cInit := true }
  | .setSpiInit => { s with spiInit := true }
  | .setSpiLast w => { s with spiLast := w }
  | .setClockDone => { s with clockDone := true }
  | .respond q => respond s q []
  | .respondRead => respond s s.acc []
  | .respondBit n => respond s (if s.acc.getLsbD n.val then 1 else 0) []
  | .respondBuf q => respond s q s.buf

/-- Actions in order, with a boundary before each. -/
def runActs : List Action → State → State
  | [], s => s
  | a :: rest, s => runActs rest (act (boundary s) a)

/-- `Fail(b, status)`: clear `AF`, release the bus, return the status with the buffer as it stands (42_i2c R176,
R181). -/
def failActs (bus : Byte) (status : I2cStatus) : List Action :=
  [.write (.i2c .star1) (.const 0xFBFF), .write (.i2c .ctlr1) (.const ctlr1Stop), .emit (.i2cStop bus),
    .respondBuf (statusWord status)]

/-- What one iteration of a bounded wait does (42_i2c R175). -/
inductive PollResult where
  | ok (s : State)
  | failed (status : I2cStatus) (s : State)
  | again (s : State)

/-- One iteration of `await_t` entered at t0: one read, then `C`, then `N`, then the deadline (42_i2c R175). -/
def pollOnce (w : I2cWait) (t0 : Nat) (s : State) : PollResult :=
  let v := readValue s w.reg
  let s1 := readNext s w.reg
  if v &&& w.mask = w.want then .ok s1
  else
    match w.nack, v &&& maskAf != 0 with
    | some status, true => .failed status s1
    | _, _ =>
      let s2 := readClock s1
      if s2.now - t0 ≥ s2.cfg.i2cTimeout then .failed .timeout s2 else .again s2

/-- The command ends through `Fail` (42_i2c R176). -/
def failTransfer (bus : Byte) (status : I2cStatus) (s : State) : State :=
  runActs (failActs bus status) { s with todo := [] }

/-- Runs the rest of a command until it ends or a wait does not see its condition; the command then stays held in that
wait, and the next step polls again (00_scope R10, 70_reset R304; log 12). -/
def drain : List Micro → State → State
  | [], s => { s with todo := [] }
  | .act a :: rest, s => drain rest (act (boundary s) a)
  | .await r mask want :: rest, s =>
    let s0 := boundary s
    if readValue s0 r &&& mask = want then drain rest (readNext s0 r)
    else { readNext s0 r with todo := .await r mask want :: rest }
  | .awaitT w :: rest, s =>
    let s0 := readClock (boundary s)
    match pollOnce w s0.now s0 with
    | .ok s1 => drain rest s1
    | .failed status s1 => failTransfer w.bus status s1
    | .again s1 => { s1 with todo := .pollT w s0.now :: rest }
  | .pollT w t0 :: rest, s =>
    match pollOnce w t0 (boundary s) with
    | .ok s1 => drain rest s1
    | .failed status s1 => failTransfer w.bus status s1
    | .again s1 => { s1 with todo := .pollT w t0 :: rest }

/-- The actions of a list as pieces of a command. -/
def acts (as : List Action) : List Micro := as.map .act

/-! ### Shared steps of the pin multiplexer (40_gpio §1) -/

/-- `SetField` of a gate bit, `W(r, R(r) | bits)` (40_gpio R131). -/
def setBits (r : Reg) (bits : Word) : List Action := [.read r, .write r (.update 0 bits)]

/-- `EnablePortGate(p)` (40_gpio R131). -/
def enablePortGate (p : Fin 5) : List Action := setBits (.rcc .apb2pcenr) (1#32 <<< (2 + p.val))

/-- The read-modify-write of a pin's config field (40_gpio R132), without its critical span. -/
def setNibble (pin : Pin) (nib : BitVec 4) : List Action :=
  [.read (cfgReg pin), .write (cfgReg pin) (.update (cfgMask pin) (cfgBits pin nib))]

/-- `critical { ... }` (20_memory R79). -/
def critical (body : List Action) : List Action := .enter :: body ++ [.leave]

/-- `CfgWrite(p, n, nib)` (40_gpio R132). -/
def cfgWrite (pin : Pin) (nib : BitVec 4) : List Action := critical (setNibble pin nib)

/-- `DriveLevel(p, n, v)`: one write of `BSHR` or `BCR` (40_gpio R133). -/
def driveLevel (pin : Pin) (v : Bool) : Action :=
  .write (.gpio pin.port (if v then .bshr else .bcr)) (.const (pinMask pin))

/-- `PinPeripheral(id, nib, pullup)` (40_gpio R134). -/
def pinPeripheral (pin : Pin) (nib : BitVec 4) (pullup : Bool) : List Action :=
  enablePortGate pin.port ++ (if pullup then [driveLevel pin true] else []) ++ cfgWrite pin nib

/-- The body of `GPIO_SETUP` (40_gpio R135) without its response. -/
def setupPin (pin : Pin) (v : Bool) : List Action :=
  enablePortGate pin.port ++ critical (driveLevel pin v :: setNibble pin nibOutPp50)

end Sys2Proof.Machine
end

