-- ==== Sys2Proof/Machine/ClockTree.lean ====
section
/-!
DEFINITION. Clock bring-up (45_clock R240 to R244).
-/
namespace Sys2Proof.Machine

/-- `PLLSRC`, `PLLXTPRE`, `PLLMUL` of `CFGR0` (45_clock R240). -/
def maskPllFields : Word := 0x003F0000

/-- `PLLSRC` = 1, `PLLXTPRE` = 0, `PLLMUL` for the multiplier `PLL_MUL` (45_clock R240, 10_state R42). -/
def pllFields (cfg : Config) : Word := 0x00010000 ||| (BitVec.ofNat 32 (cfg.pllMul - 2) <<< 18)

/-- The gates of ports A to E, SPI1 and USART1 (45_clock R243). -/
def bringupGates2 : Word := 0x0000507C

/-- The gate of I2C1 (45_clock R243). -/
def bringupGates1 : Word := 0x00200000

/-- `CLOCK_BRINGUP` after its run-once check (45_clock R240). -/
def bringupProg (cfg : Config) : List Micro :=
  acts (setBits (.rcc .ctlr) maskHseOn) ++ [.await (.rcc .ctlr) maskHseRdy maskHseRdy] ++
    acts [.read (.rcc .ctlr), .write (.rcc .ctlr) (.update maskPllOn 0), .read (.rcc .cfgr0),
      .write (.rcc .cfgr0) (.update maskPllFields (pllFields cfg))] ++
    acts (setBits (.rcc .ctlr) maskPllOn) ++ [.await (.rcc .ctlr) maskPllRdy maskPllRdy] ++
    acts [.read (.rcc .cfgr0), .write (.rcc .cfgr0) (.update maskSw 2)] ++ [.await (.rcc .cfgr0) maskSws 0x8] ++
    acts (setBits (.rcc .apb2pcenr) bringupGates2 ++ setBits (.rcc .apb1pcenr) bringupGates1 ++
      [.setClockDone, .respond 0])

/-- `CLOCK_BRINGUP` (45_clock R240); a second one is refused (R244). -/
def execClockBringup (s : State) : Host.Outcome State Fault Refusal :=
  if s.clockDone then .refused .secondBringup else .next (drain (bringupProg s.cfg) s)

end Sys2Proof.Machine
end

