-- ==== Sys2Proof/Machine/Gpio.lean ====
section
/-!
DEFINITION. The GPIO pin multiplexer commands (40_gpio R130, R135 to R140).
-/
namespace Sys2Proof.Machine

/-- `ResolvePhysical(id)` and then a body; a virtual or invalid identifier halts before any register access (40_gpio
R130). -/
def withPhysical (id : BitVec 16) (s : State) (body : Pin → List Action) : State :=
  match classify s.cfg id with
  | .physical pin => runActs (body pin) s
  | .virtual _ _ => haltCommand s .invalidPin
  | .invalid => haltCommand s .invalidPin

/-- The result word of a pin setup: the identifier (30_encoding R104). -/
def idWord (id : BitVec 16) : Word := id.setWidth 32

/-- The actions of `GPIO_WRITE` (40_gpio R136). -/
def gpioWriteActs (pin : Pin) (v : Bool) : List Action := [driveLevel pin v, .respond 0]

/-- The actions of `GPIO_TOGGLE` (40_gpio R137). -/
def gpioToggleActs (pin : Pin) : List Action :=
  critical [.read (.gpio pin.port .outdr), .write (.gpio pin.port .outdr) (.flip (pinMask pin))] ++ [.respond 0]

/-- The actions of `GPIO_RESET` (40_gpio R138). Of a pin in input mode R138 says that it becomes an output, in its
pseudocode, its corner cases and its example, and so does the vector V-G13, where the table of 70_reset R293 says "only the
pull changes"; no ruling settles it, and the model follows R138 and the vector (DEDUCED, log 31). -/
def gpioResetActs (pin : Pin) (v : Bool) : List Action :=
  critical (driveLevel pin v :: setNibble pin nibOutPp50) ++ [.respond 0]

/-- The actions of `GPIO_INPUT_SETUP` (40_gpio R139); `pull` is signed (30_encoding R113). -/
def gpioInputSetupActs (id : BitVec 16) (pull : Byte) (pin : Pin) : List Action :=
  enablePortGate pin.port ++
    (if pull = 0 then cfgWrite pin nibInFloat
      else driveLevel pin (decide (0 < pull.toInt)) :: cfgWrite pin nibInPull) ++
    [.respond (idWord id)]

/-- The actions of `GPIO_INPUT_READ` (40_gpio R140). -/
def gpioInputReadActs (pin : Pin) : List Action := [.read (.gpio pin.port .indr), .respondBit pin.bit]

/-- `GPIO_SETUP` (40_gpio R135). -/
def execGpioSetup (id : BitVec 16) (v : Bool) (s : State) : Host.Outcome State Fault Refusal :=
  .next (withPhysical id s fun pin => setupPin pin v ++ [.respond (idWord id)])

/-- `GPIO_WRITE` (40_gpio R136). -/
def execGpioWrite (id : BitVec 16) (v : Bool) (s : State) : Host.Outcome State Fault Refusal :=
  .next (withPhysical id s fun pin => gpioWriteActs pin v)

/-- `GPIO_TOGGLE` (40_gpio R137). -/
def execGpioToggle (id : BitVec 16) (s : State) : Host.Outcome State Fault Refusal :=
  .next (withPhysical id s gpioToggleActs)

/-- `GPIO_RESET` (40_gpio R138). -/
def execGpioReset (id : BitVec 16) (v : Bool) (s : State) : Host.Outcome State Fault Refusal :=
  .next (withPhysical id s fun pin => gpioResetActs pin v)

/-- `GPIO_INPUT_SETUP` (40_gpio R139). -/
def execGpioInputSetup (id : BitVec 16) (pull : Byte) (s : State) : Host.Outcome State Fault Refusal :=
  .next (withPhysical id s (gpioInputSetupActs id pull))

/-- `GPIO_INPUT_READ` (40_gpio R140). -/
def execGpioInputRead (id : BitVec 16) (s : State) : Host.Outcome State Fault Refusal :=
  .next (withPhysical id s gpioInputReadActs)

end Sys2Proof.Machine
end

