-- ==== Sys2Proof/Machine/I2cBus.lean ====
section
/-!
DEFINITION. The I2C master (42_i2c R170 to R186).
-/
namespace Sys2Proof.Machine

/-- `CheckI2CBus(b)`: the halt it raises, if any (42_i2c R171). -/
def i2cBusHalt (cfg : Config) (bus : Byte) : Option HaltCode :=
  if bus.toNat ≥ cfg.nI2c then some .invalidBus else if cfg.i2cPresent then none else some .unimplemented

/-- The one-time configuration of the bus (42_i2c R170). -/
def i2cConfigure (cfg : Config) (rate : Word) : List Action :=
  setBits (.rcc .apb1pcenr) 0x00200000 ++
    pinPeripheral cfg.i2cScl nibAfOd50 true ++ pinPeripheral cfg.i2cSda nibAfOd50 true ++
    [.write (.i2c .ctlr1) (.const 0), .write (.i2c .ctlr2) (.const (BitVec.ofNat 32 (i2cFreq cfg))),
      .write (.i2c .ckcfgr) (.const (BitVec.ofNat 32 (i2cCcr cfg rate.toNat))),
      .write (.i2c .rtr) (.const (BitVec.ofNat 32 (i2cTrise cfg))), .write (.i2c .ctlr1) (.const ctlr1Pe), .setI2cInit]

/-- The actions of `I2C_SETUP` (42_i2c R170). -/
def i2cSetupActs (s : State) (addr7 : BitVec 7) (rate : Word) : List Action :=
  (if s.i2cInit then [] else i2cConfigure s.cfg rate) ++ [.respond ((wireAddress addr7).setWidth 32)]

/-- A bounded wait for a flag of `STAR1` to be 1 (42_i2c R177 to R182). -/
def waitStar1 (bus : Byte) (flag : Word) (onNack : Option I2cStatus) : Micro :=
  .awaitT ⟨bus, .i2c .star1, flag, flag, onNack⟩

/-- `Start(b, repeated)` (42_i2c R177). -/
def startProg (bus : Byte) (again : Bool) : List Micro :=
  (if again then [] else [.awaitT ⟨bus, .i2c .star2, maskBusy, 0, none⟩]) ++
    acts [.write (.i2c .ctlr1) (.const ctlr1Start), .emit (.i2cStart bus)] ++ [waitStar1 bus maskSb none]

/-- `SendAddress(b, byte, nack_status)` (42_i2c R178). -/
def addressProg (bus : Byte) (byte : Byte) (onNack : I2cStatus) : List Micro :=
  acts [.write (.i2c .datar) (.const (byte.setWidth 32)), .emit (.i2cAddr bus byte)] ++
    [waitStar1 bus maskAddr (some onNack)] ++ acts [.read (.i2c .star1), .read (.i2c .star2)]

/-- `SendByte(b, x)` (42_i2c R179). -/
def sendByteProg (bus : Byte) (x : Byte) : List Micro :=
  acts [.write (.i2c .datar) (.const (x.setWidth 32)), .emit (.i2cData bus x)] ++
    [waitStar1 bus maskBtf (some .nack)]

/-- `PE | STOP` and its event (42_i2c R180, R182). -/
def stopProg (bus : Byte) : List Micro := acts [.write (.i2c .ctlr1) (.const ctlr1Stop), .emit (.i2cStop bus)]

/-- One byte of `ReceiveBytes`: the STOP before the last one, the wait, the latch (42_i2c R182). -/
def receiveByteProg (bus : Byte) (n k : Nat) : List Micro :=
  (if k + 1 = n then stopProg bus else []) ++ [waitStar1 bus maskI2cRxne none] ++
    acts [.read (.i2c .datar), .i2cLatch bus k]

/-- `ReceiveBytes(b, n, buf)` (42_i2c R182). -/
def receiveProg (bus : Byte) (n : Nat) : List Micro := (List.range n).flatMap (receiveByteProg bus n)

/-- `I2C_WRITE` after its bus check (42_i2c R180). -/
def i2cWriteProg (bus addr8 : Byte) (bytes : List Byte) : List Micro :=
  acts [.setBuf []] ++ startProg bus false ++ addressProg bus addr8 .startNack ++
    bytes.flatMap (sendByteProg bus) ++ stopProg bus ++ acts [.respondBuf (statusWord .ok)]

/-- The part of `I2C_READ` up to the read address: the register bytes and a repeated START, or a plain START (42_i2c
R181). -/
def readPrologue (bus addr8 : Byte) (reg : List Byte) : List Micro :=
  if reg = [] then startProg bus false
  else startProg bus false ++ addressProg bus addr8 .startNack ++ reg.flatMap (sendByteProg bus) ++ startProg bus true

/-- The status of a NACK of the read address (42_i2c R181). -/
def readNack (reg : List Byte) : I2cStatus := if reg = [] then .startNack else .addrNack

/-- `I2C_READ` after its bus check (42_i2c R181). -/
def i2cReadProg (bus addr8 : Byte) (reg : List Byte) (n : Nat) : List Micro :=
  acts [.setBuf (List.replicate n 0)] ++ readPrologue bus addr8 reg ++
    acts [.write (.i2c .ctlr1) (.const (if n > 1 then ctlr1Ack else ctlr1Pe))] ++
    addressProg bus (addr8 ||| 1) (readNack reg) ++ receiveProg bus n ++ acts [.respondBuf (statusWord .ok)]

/-- `I2C_SETUP` (42_i2c R170). -/
def execI2cSetup (bus : Byte) (addr7 : BitVec 7) (rate : Word) (s : State) : Host.Outcome State Fault Refusal :=
  match i2cBusHalt s.cfg bus with
  | some code => .next (haltCommand s code)
  | none => .next (runActs (i2cSetupActs s addr7 rate) s)

/-- `I2C_WRITE` (42_i2c R180). -/
def execI2cWrite (bus addr8 : Byte) (bytes : List Byte) (s : State) : Host.Outcome State Fault Refusal :=
  match i2cBusHalt s.cfg bus with
  | some code => .next (haltCommand s code)
  | none => .next (drain (i2cWriteProg bus addr8 bytes) s)

/-- `I2C_READ` (42_i2c R181); read_len = 0 is refused before the bus check (60_exceptions R262, R265 (d)). -/
def execI2cRead (bus addr8 : Byte) (reg : List Byte) (len : Byte) (s : State) : Host.Outcome State Fault Refusal :=
  if len = 0 then .refused .readLengthZero
  else
    match i2cBusHalt s.cfg bus with
    | some code => .next (haltCommand s code)
    | none => .next (drain (i2cReadProg bus addr8 reg len.toNat) s)

end Sys2Proof.Machine
end

