-- ==== Sys2Proof/Machine/MotorMap.lean ====
section
/-!
DEFINITION. The virtual H-bridge motor-channel mapper (41_motor R150 to R158).
-/
namespace Sys2Proof.Machine

/-- `hi(c)` (41_motor R150). -/
def hiPin (cfg : Config) (c : Fin 4) : Pin := cfg.motorHi[c]

/-- `lo(c)` (41_motor R150). -/
def loPin (cfg : Config) (c : Fin 4) : Pin := cfg.motorLo[c]

/-- A freshly initialised channel (41_motor R153). -/
def freshMotor : Motor := ⟨true, false, false⟩

/-- The channel's block state after `LazyInit(c)` (41_motor R153). -/
def motorReady (s : State) (c : Fin 4) : Motor := if s.motor[c].init then s.motor[c] else freshMotor

/-- `LazyInit(c)`: nothing for an initialised channel (41_motor R153). -/
def lazyInit (s : State) (c : Fin 4) : List Action :=
  if s.motor[c].init then []
  else setupPin (hiPin s.cfg c) false ++ setupPin (loPin s.cfg c) false ++ [.setMotor c freshMotor]

/-- The two lines of a channel with their levels, lines at 0 first, high line before low (41_motor R154, R158). -/
def lineOrder (cfg : Config) (c : Fin 4) (m : Motor) : List (Pin × Bool) :=
  let lines := [(hiPin cfg c, (motorLines m.drive m.dir).1), (loPin cfg c, (motorLines m.drive m.dir).2)]
  (lines.filter fun l => !l.2) ++ lines.filter fun l => l.2

/-- `Apply(c)` for the channel state m (41_motor R154). -/
def applyLines (cfg : Config) (c : Fin 4) (m : Motor) : List Action :=
  critical ((lineOrder cfg c m).map fun l => driveLevel l.1 l.2)

/-- The critical span of `MOTOR_RESET`: each line's level, then its mode (41_motor R158). -/
def resetLines (cfg : Config) (c : Fin 4) (m : Motor) : List Action :=
  critical ((lineOrder cfg c m).flatMap fun l => driveLevel l.1 l.2 :: setNibble l.1 nibOutPp50)

/-- `LazyInit(c)`, `flag(c, role) <- ...`, `Apply(c)`, the response (41_motor R155 to R157), for the channel's new
state m. -/
def motorActs (s : State) (c : Fin 4) (m : Motor) (q : Word) : List Action :=
  lazyInit s c ++ [.setMotor c m] ++ applyLines s.cfg c m ++ [.respond q]

/-- The actions of `MOTOR_RESET` (41_motor R158), for the channel's new state m. -/
def motorResetActs (s : State) (c : Fin 4) (m : Motor) : List Action :=
  lazyInit s c ++ [.setMotor c m] ++ resetLines s.cfg c m ++ [.respond 0]

/-- The channel after a write of one flag (41_motor R155, R156). -/
def motorWritten (s : State) (c : Fin 4) (role : Role) (v : Bool) : Motor := setFlag (motorReady s c) role v

/-- The channel after a toggle of one flag (41_motor R157). -/
def motorToggled (s : State) (c : Fin 4) (role : Role) : Motor :=
  setFlag (motorReady s c) role (!getFlag (motorReady s c) role)

/-- `MOTOR_SETUP` (41_motor R155). -/
def execMotorSetup (c : Fin 4) (role : Role) (v : Bool) (s : State) : Host.Outcome State Fault Refusal :=
  .next (runActs (motorActs s c (motorWritten s c role v) (virtualIdWord s.cfg c role)) s)

/-- `MOTOR_WRITE` (41_motor R156). -/
def execMotorWrite (c : Fin 4) (role : Role) (v : Bool) (s : State) : Host.Outcome State Fault Refusal :=
  .next (runActs (motorActs s c (motorWritten s c role v) 0) s)

/-- `MOTOR_TOGGLE` (41_motor R157). -/
def execMotorToggle (c : Fin 4) (role : Role) (s : State) : Host.Outcome State Fault Refusal :=
  .next (runActs (motorActs s c (motorToggled s c role) 0) s)

/-- `MOTOR_RESET` (41_motor R158). -/
def execMotorReset (c : Fin 4) (role : Role) (v : Bool) (s : State) : Host.Outcome State Fault Refusal :=
  .next (runActs (motorResetActs s c (motorWritten s c role v)) s)

end Sys2Proof.Machine
end

