-- ==== Sys2Proof/Machine/RawAccess.lean ====
section
/-!
DEFINITION. Raw register access (46_host_access R255 to R258).
-/
namespace Sys2Proof.Machine

/-- The actions of `REG_READ` (46_host_access R255). -/
def regReadActs (r : Reg) : List Action := [.read r, .respondRead]

/-- The actions of `REG_WRITE` (46_host_access R256). -/
def regWriteActs (r : Reg) (value : Word) : List Action := [.write r (.const value), .respond 0]

/-- `REG_READ` (46_host_access R255, `CheckRaw` R257). -/
def execRegRead (addr : Word) (s : State) : Host.Outcome State Fault Refusal :=
  match regAt s.cfg addr with
  | some r => .next (runActs (regReadActs r) s)
  | none => .refused .notARegister

/-- `REG_WRITE` (46_host_access R256, `CheckRaw` R257). -/
def execRegWrite (addr value : Word) (s : State) : Host.Outcome State Fault Refusal :=
  match regAt s.cfg addr with
  | some r => .next (runActs (regWriteActs r value) s)
  | none => .refused .notARegister

end Sys2Proof.Machine
end

