-- ==== Sys2Proof/Machine/SpiBus.lean ====
section
/-!
DEFINITION. The SPI master (43_spi R200 to R207).
-/
namespace Sys2Proof.Machine

/-- `CheckSPIBus(b)`: the halt it raises, if any (43_spi R203). -/
def spiBusHalt (cfg : Config) (bus : Byte) : Option HaltCode :=
  if bus.toNat ≥ cfg.nSpi then some .invalidBus else if cfg.spiPresent then none else some .unimplemented

/-- The one-time configuration of the bus (43_spi R200). -/
def spiConfigure (cfg : Config) : List Action :=
  setBits (.rcc .apb2pcenr) 0x00001000 ++
    pinPeripheral cfg.spiSck nibAfPp50 false ++ pinPeripheral cfg.spiMosi nibAfPp50 false ++
    pinPeripheral cfg.spiMiso nibInPull true ++ [.setSpiInit]

/-- The actions of `SPI_SETUP` (43_spi R200). -/
def spiSetupActs (s : State) (mode : BitVec 2) (rate : Word) : List Action :=
  (if s.spiInit then [] else spiConfigure s.cfg) ++
    [.respond (spiCtrl mode (selectDivisor s.cfg s.cfg.spiPclk rate.toNat))]

/-- The actions of `SPI_PREPARE` (43_spi R204). -/
def spiPrepareActs (s : State) (ctrl : Word) : List Action :=
  (if ctrl = s.spiLast then []
    else
      [.write (.spi .ctlr1) (.const (s.spiLast &&& ~~~maskSpe)), .write (.spi .ctlr1) (.const (ctrl &&& ~~~maskSpe)),
        .write (.spi .ctlr1) (.const ctrl), .setSpiLast ctrl]) ++
    [.respond 0]

/-- One byte of `SPI_TRANSFER` (43_spi R205). -/
def spiByteProg (bus : Byte) (readBack : Bool) (k : Nat) (sent : Byte) : List Micro :=
  [.await (.spi .statr) maskSpiTxe maskSpiTxe, .act (.write (.spi .datar) (.const (sent.setWidth 32))),
    .await (.spi .statr) maskSpiRxne maskSpiRxne, .act (.read (.spi .datar)),
    .act (.spiLatch bus k sent readBack)]

/-- The bytes of a transfer from index k on (43_spi R205). -/
def spiBytesProg (bus : Byte) (readBack : Bool) : Nat → List Byte → List Micro
  | _, [] => []
  | k, sent :: rest => spiByteProg bus readBack k sent ++ spiBytesProg bus readBack (k + 1) rest

/-- `SPI_TRANSFER` after its bus check (43_spi R205). -/
def spiTransferProg (bus : Byte) (readBack : Bool) (bytes : List Byte) : List Micro :=
  acts [.setBuf bytes] ++ spiBytesProg bus readBack 0 bytes ++ [.await (.spi .statr) maskBsy 0] ++
    acts [.respondBuf 0]

/-- `SPI_SETUP` (43_spi R200). -/
def execSpiSetup (bus : Byte) (mode : BitVec 2) (rate : Word) (s : State) : Host.Outcome State Fault Refusal :=
  match spiBusHalt s.cfg bus with
  | some code => .next (haltCommand s code)
  | none => .next (runActs (spiSetupActs s mode rate) s)

/-- `SPI_PREPARE` (43_spi R204); an unproducible word is refused before the bus check (60_exceptions R262, R265 (c)). -/
def execSpiPrepare (bus : Byte) (ctrl : BitVec 16) (s : State) : Host.Outcome State Fault Refusal :=
  if isSpiCtrl s.cfg ctrl then
    match spiBusHalt s.cfg bus with
    | some code => .next (haltCommand s code)
    | none => .next (runActs (spiPrepareActs s (ctrl.setWidth 32)) s)
  else .refused .spiControlWord

/-- `SPI_TRANSFER` (43_spi R205). -/
def execSpiTransfer (bus : Byte) (readBack : Bool) (bytes : List Byte) (s : State) :
    Host.Outcome State Fault Refusal :=
  match spiBusHalt s.cfg bus with
  | some code => .next (haltCommand s code)
  | none => .next (drain (spiTransferProg bus readBack bytes) s)

end Sys2Proof.Machine
end

