-- ==== Sys2Proof/Machine/UartUnit.lean ====
section
/-!
DEFINITION. The UART commands and the two interrupt actions (44_uart R220 to R230).
-/
namespace Sys2Proof.Machine

/-- `UE | RXNEIE | TE | RE` (44_uart R220). -/
def uartEnables : Word := 0x202C

/-- The actions of `UART_INIT` (44_uart R220, R222). -/
def uartInitActs (cfg : Config) : List Action :=
  setBits (.rcc .apb2pcenr) 0x00004000 ++
    [.write (.uart .brr) (.const (BitVec.ofNat 32 (uartDivisor cfg))), .write (.uart .ctlr1) (.const uartEnables)] ++
    pinPeripheral cfg.uartRx nibInPull true ++ pinPeripheral cfg.uartTx nibAfPp50 false ++ [.respond 0]

/-- The actions of `UART_TX_KICK` (44_uart R223). -/
def uartTxKickActs : List Action := critical (setBits (.uart .ctlr1) maskTxeie) ++ [.respond 0]

/-- `UART_INIT` (44_uart R220). -/
def execUartInit (s : State) : Host.Outcome State Fault Refusal :=
  if s.cfg.uartPresent then .next (runActs (uartInitActs s.cfg) s) else .next (haltCommand s .unimplemented)

/-- `UART_TX_KICK` (44_uart R223); on an absent UART it halts, as every UART command does (60_exceptions R261; log
21). -/
def execUartTxKick (s : State) : Host.Outcome State Fault Refusal :=
  if s.cfg.uartPresent then .next (runActs uartTxKickActs s) else .next (haltCommand s .unimplemented)

/-- `UART_RX_HANDLER` (44_uart R228): an interrupt action, atomic and without a response. -/
def execUartRxHandler (s : State) : Host.Outcome State Fault Refusal := .next (uartRxAction s)

/-- `UART_TX_HANDLER` (44_uart R229): an interrupt action, atomic and without a response. -/
def execUartTxHandler (s : State) : Host.Outcome State Fault Refusal := .next (uartTxAction s)

end Sys2Proof.Machine
end

