-- ==== Sys2Proof/Machine/Dispatch.lean ====
section
/-!
DEFINITION. One arm per constructor of Instr (30_encoding R105).
-/
namespace Sys2Proof.Machine

def exec (i : Instr) (s : State) : Host.Outcome State Fault Refusal :=
  match i with
  -- 40_gpio and 41_motor
  | .gpioSetup id v => Sys2Proof.Machine.execGpioSetup id v s
  | .motorSetup c role v => Sys2Proof.Machine.execMotorSetup c role v s
  | .gpioWrite id v => Sys2Proof.Machine.execGpioWrite id v s
  | .motorWrite c role v => Sys2Proof.Machine.execMotorWrite c role v s
  | .gpioToggle id => Sys2Proof.Machine.execGpioToggle id s
  | .motorToggle c role => Sys2Proof.Machine.execMotorToggle c role s
  | .gpioReset id v => Sys2Proof.Machine.execGpioReset id v s
  | .motorReset c role v => Sys2Proof.Machine.execMotorReset c role v s
  | .gpioInputSetup id pull => Sys2Proof.Machine.execGpioInputSetup id pull s
  | .gpioInputRead id => Sys2Proof.Machine.execGpioInputRead id s
  -- 42_i2c
  | .i2cSetup bus addr7 rate => Sys2Proof.Machine.execI2cSetup bus addr7 rate s
  | .i2cWrite bus addr8 bytes => Sys2Proof.Machine.execI2cWrite bus addr8 bytes s
  | .i2cRead bus addr8 reg len => Sys2Proof.Machine.execI2cRead bus addr8 reg len s
  -- 43_spi
  | .spiSetup bus mode rate => Sys2Proof.Machine.execSpiSetup bus mode rate s
  | .spiPrepare bus ctrl => Sys2Proof.Machine.execSpiPrepare bus ctrl s
  | .spiTransfer bus readBack bytes => Sys2Proof.Machine.execSpiTransfer bus readBack bytes s
  -- 44_uart
  | .uartInit => Sys2Proof.Machine.execUartInit s
  | .uartTxKick => Sys2Proof.Machine.execUartTxKick s
  -- 45_clock
  | .clockBringup => Sys2Proof.Machine.execClockBringup s
  -- 46_host_access
  | .regRead addr => Sys2Proof.Machine.execRegRead addr s
  | .regWrite addr value => Sys2Proof.Machine.execRegWrite addr value s
  -- interrupt actions
  | .uartRxHandler => Sys2Proof.Machine.execUartRxHandler s
  | .uartTxHandler => Sys2Proof.Machine.execUartTxHandler s

end Sys2Proof.Machine
end

