-- ==== Sys2Proof/Machine/Step.lean ====
section
/-!
DEFINITION. One step of the machine: reset, an interrupt that the host's dispatch asks for, the command in progress, or
the next command of the stream (10_state R31, 60_exceptions R260 to R270).
-/
namespace Sys2Proof.Machine

/-- Takes the next command of the stream and runs it. With no whole command there the block waits, and only the interrupt
context may act (70_reset R291, 60_exceptions R270; logs 14, 15); but a command cut short whose arrived words already hold
an illegal opcode or a nonzero reserved field is refused at once (DESIGN CHOICE, log 14). -/
def fetchStep (s : State) : Host.Outcome State Fault Refusal :=
  match decode s.cfg s.stream with
  | .ok (i, rest) => if i.isAction then .refused .illegalOpcode else exec i { s with stream := rest }
  | .error .illegalOpcode => .refused .illegalOpcode
  | .error .reservedField => .refused .reservedField
  | .error .payloadPadding => .refused .payloadPadding
  | .error .overlong => .refused .overlong
  | .error .truncated => .next (boundary s)

/-- The foreground: the command in progress goes on, else the next one is taken (10_state R31). -/
def foregroundStep (s : State) : Host.Outcome State Fault Refusal :=
  match s.todo with
  | [] => fetchStep s
  | m :: rest => .next (drain (m :: rest) s)

/-- The interrupt context, then the foreground: outside a critical span an interrupt that the host's dispatch asks for is
taken when the UART line is 1, both actions of the handler as this one step, and the request ends either way (44_uart R225,
60_exceptions R270, 20_memory R79; log 16). -/
def contextStep (s : State) : Host.Outcome State Fault Refusal :=
  if s.irq && !s.inCritical then .next (offerInterrupt { s with irq := false }) else foregroundStep s

/-- One step. An ill-formed configuration is refused (00_scope R7); a reset request is taken (70_reset R290); a halted
block takes no step (60_exceptions R260). That a reset lands between two steps, so never between two actions of a
command that is not held in a wait, is the model's choice: 70_reset R290 does not say where one may land (log 17). -/
def step (s : State) : Host.Outcome State Fault Refusal :=
  if !configOk s.cfg then .refused .illFormedConfig
  else if s.resetRequest then .next (takeReset s)
  else
    match s.halted with
    | some code => .fault (.halted code)
    | none => contextStep s

/-- The state in which the very next step takes the UART interrupt: the host's dispatch asks for it, and the line is 1,
with `enable` set in `CTLR1` and `flag` the draw of `STATR` (44_uart R224; log 15). -/
def State.withInterrupt (s : State) (enable flag : Word) : State :=
  { s with
    irq := true
    uart := { s.uart with ctlr1 := s.uart.ctlr1 ||| enable }
    script := flag.toNat :: s.script
    inCritical := false
    resetRequest := false }

/-- The state in which the very next step runs the instruction of an opcode-table word: its words are the command
stream, or, for an interrupt action, the UART interrupt is asked for and pending for that action's reason (log 15). -/
def State.withFetchWord (s : State) (nbits w : Nat) : State :=
  match decodeTableWord nbits w with
  | some .uartRxHandler => s.withInterrupt 0x0020 0x0020
  | some .uartTxHandler => s.withInterrupt 0x0080 0x0080
  | _ =>
    { s with
      stream := (tableWords nbits w).take (commandWords (BitVec.ofNat 32 (w % 2 ^ nbits)))
      irq := false
      todo := []
      resetRequest := false }

end Sys2Proof.Machine
end

