-- ==== Sys2Proof/Safety.lean ====
section
/-!
DEFINITION. The terms in which claims about the block are made: what a pin's registers say, what a command leaves
unchanged, what the interrupt context may change, and the invariants of the machine.
-/
namespace Sys2Proof.Machine

/-! ### What the registers say of a pin -/

/-- The output latch `OUTDR[n]` of a pin: the line is asserted (10_state R35, R39). -/
def latch (s : State) (pin : Pin) : Bool := s.gpio[pin.port].outdr.getLsbD pin.bit.val

/-- The config nibble of a pin (30_encoding R94, R96). -/
def nibble (s : State) (pin : Pin) : BitVec 4 := (shown s (cfgReg pin)).extractLsb' (cfgShift pin) 4

/-- What the pin's mode and latch put on its line (10_state R35, 30_encoding R94). -/
def pinLine (s : State) (pin : Pin) : PinLine := pinLineOf (pinModeOf (nibble s pin)) (latch s pin)

/-- The clock gate of a pin's port is open (10_state R43). -/
def portClocked (s : State) (pin : Pin) : Bool := clocked s (.gpio pin.port .outdr)

/-- Bit n of a port's configuration belongs to the nibble of a pin (30_encoding R96). -/
def inNibble (pin : Pin) (p : Fin 5) (high : Bool) (n : Nat) : Bool :=
  decide (p = pin.port) && (high == decide (8 ≤ pin.bit.val)) && decide (n / 4 = pin.bit.val % 8)

/-- Every latch bit but those of the named pins is unchanged. -/
def LatchesSameBut (pins : List Pin) (s t : State) : Prop :=
  ∀ (p : Fin 5) (n : Nat), (∀ pin ∈ pins, ¬(p = pin.port ∧ n = pin.bit.val)) →
    t.gpio[p].outdr.getLsbD n = s.gpio[p].outdr.getLsbD n

/-- Every configuration bit but the nibbles of the named pins is unchanged. -/
def NibblesSameBut (pins : List Pin) (s t : State) : Prop :=
  ∀ (p : Fin 5) (n : Nat),
    ((∀ pin ∈ pins, inNibble pin p false n = false) → t.gpio[p].cfglr.getLsbD n = s.gpio[p].cfglr.getLsbD n) ∧
    ((∀ pin ∈ pins, inNibble pin p true n = false) → t.gpio[p].cfghr.getLsbD n = s.gpio[p].cfghr.getLsbD n)

/-! ### Frames -/

/-- An event of the interrupt context (00_scope R13). -/
def isUartEvent : Event → Bool
  | .uartRx _ => true
  | .uartTx _ => true
  | _ => false

/-- What steps of the interrupt context may do to the UART and the trace: with `TXEIE` set, send bytes and clear
`TXEIE`; emit UART events; nothing when no interrupt enable is set (44_uart R228, R229). -/
def UartInterruptsOnly (s t : State) : Prop :=
  t.uart.brr = s.uart.brr ∧ t.uart.ctlr2 = s.uart.ctlr2 ∧ t.uart.ctlr3 = s.uart.ctlr3 ∧
    (∀ n, n < 14 → n ≠ 7 → t.uart.ctlr1.getLsbD n = s.uart.ctlr1.getLsbD n) ∧
    (s.uart.ctlr1.getLsbD 7 = false → t.uart = s.uart) ∧
    (∃ es : List Event, t.trace = s.trace ++ es ∧ ∀ e ∈ es, isUartEvent e = true) ∧
    (uartArmed s.uart.ctlr1 = false → t.uart = s.uart ∧ t.trace = s.trace)

/-- Only the fields an interrupt may touch differ: UART, trace, draws. -/
def SameButInterrupts (s t : State) : Prop :=
  t = { s with uart := t.uart, trace := t.trace, script := t.script, drawn := t.drawn }

/-- A command that ended: one more response, and its variables cleared (30_encoding R104). -/
def Responded (s t : State) (q : Word) (payload : List Byte) : Prop :=
  t.responses = s.responses ++ [⟨q, payload⟩] ∧ t.acc = 0 ∧ t.buf = []

/-- The frame of a command that acts on pins and gates alone: every other field is unchanged, but for the response, the
command's variables, the draws, and steps of the interrupt context. -/
def PinFrame (s t : State) : Prop :=
  t = { s with
    gpio := t.gpio, rcc := { s.rcc with apb2pcenr := t.rcc.apb2pcenr }, uart := t.uart, trace := t.trace,
    responses := t.responses, acc := t.acc, buf := t.buf, script := t.script, drawn := t.drawn } ∧
  UartInterruptsOnly s t

/-- The frame of a command that changes no register: as `PinFrame`, with GPIO and RCC unchanged too. -/
def ReadFrame (s t : State) : Prop := PinFrame s t ∧ t.gpio = s.gpio ∧ t.rcc = s.rcc

/-- A command ended in the fatal halt `code`, without a response or a register effect (60_exceptions R260). -/
def HaltedBy (code : HaltCode) (s t : State) : Prop :=
  ∃ u : State, SameButInterrupts s u ∧ UartInterruptsOnly s u ∧
    t = { u with trace := u.trace ++ [.halt code], halted := some code }

/-- The frame of a transfer: of the registers and the block state nothing but that bus's registers, the command's
variables, its place and the clock differ, and what the interrupt context may change. -/
def TransferFrame (s t : State) : Prop :=
  t = { s with
    i2c := t.i2c, uart := t.uart, trace := t.trace, responses := t.responses, acc := t.acc, buf := t.buf, todo := t.todo,
    now := t.now, script := t.script, drawn := t.drawn }

/-- An I2C transfer that ends through `Fail(bus, status)` from a wait: `PE` alone in `CTLR1` of a gated controller, the
STOP, the response with the buffer as it stood, nothing held (42_i2c R176). UART events of the interrupt context may stand
before the STOP and after it. -/
def TransferFailed (bus : Byte) (status : I2cStatus) (s t : State) : Prop :=
  Responded s t (statusWord status) s.buf ∧ t.todo = [] ∧ TransferFrame s t ∧
    t.i2c = (if clocked s (.i2c .ctlr1) then { s.i2c with ctlr1 := 0x0001 } else s.i2c) ∧
    ∃ before after : List Event, t.trace = s.trace ++ before ++ [.i2cStop bus] ++ after ∧
      UartInterruptsOnly s { t with trace := s.trace ++ before ++ after }

/-- An I2C transfer that ended, with the events `es`, the response (q, payload) and `sent` the byte its data register of
a gated controller holds; of the script, `rest` is left, and nothing else changed but the clock. -/
def TransferEnded (s t : State) (es : List Event) (q : Word) (payload : List Byte) (sent : Word) (rest : List Nat) :
    Prop :=
  t.trace = s.trace ++ es ∧ Responded s t q payload ∧
    (clocked s (.i2c .ctlr1) = true → t.i2c = { s.i2c with ctlr1 := 0x0001, datar := sent }) ∧
    (clocked s (.i2c .ctlr1) = false → t.i2c = s.i2c) ∧
    t = { s with
      trace := t.trace, responses := t.responses, i2c := t.i2c, acc := 0, buf := [], todo := [], now := t.now,
      script := rest }

/-- The levels of a channel's two lines follow the truth table where their ports are clocked, else they stay (41_motor
R152, R154; 10_state R57). -/
def LinesFollow (s t : State) (c : Fin 4) (m : Motor) : Prop :=
  latch t (hiPin s.cfg c) =
      (if portClocked t (hiPin s.cfg c) then m.drive && !m.dir else latch s (hiPin s.cfg c)) ∧
    latch t (loPin s.cfg c) =
      (if portClocked t (loPin s.cfg c) then m.drive && m.dir else latch s (loPin s.cfg c))

/-- The effect of a motor command on channel c whose block state becomes m, with result word q; `remode` when the
command rewrites the lines' modes (41_motor R155 to R158). -/
def MotorEffect (remode : Bool) (s t : State) (c : Fin 4) (m : Motor) (q : Word) : Prop :=
  t.motor = s.motor.set c m ∧ m.init = true ∧ LinesFollow s t c m ∧
    LatchesSameBut [hiPin s.cfg c, loPin s.cfg c] s t ∧ NibblesSameBut [hiPin s.cfg c, loPin s.cfg c] s t ∧
    (s.motor[c].init = true →
      t.rcc = s.rcc ∧
        nibble t (hiPin s.cfg c) =
          (if remode && portClocked s (hiPin s.cfg c) then nibOutPp50 else nibble s (hiPin s.cfg c)) ∧
        nibble t (loPin s.cfg c) =
          (if remode && portClocked s (loPin s.cfg c) then nibOutPp50 else nibble s (loPin s.cfg c))) ∧
    (s.motor[c].init = false →
      t.rcc.apb2pcenr =
          s.rcc.apb2pcenr ||| 1#32 <<< (2 + (hiPin s.cfg c).port.val) ||| 1#32 <<< (2 + (loPin s.cfg c).port.val) ∧
        nibble t (hiPin s.cfg c) = nibOutPp50 ∧ nibble t (loPin s.cfg c) = nibOutPp50) ∧
    Responded s t q [] ∧ PinFrame { s with motor := t.motor } t

/-- Not both lines of a channel are asserted (41_motor R152, R159). -/
def atMostOneLine (s : State) (c : Fin 4) : Bool := !(latch s (hiPin s.cfg c) && latch s (loPin s.cfg c))

/-! ### Which command -/

/-- A command of the motor mapper (41_motor). -/
def isMotorCommand : Instr → Bool
  | .motorSetup _ _ _ => true
  | .motorWrite _ _ _ => true
  | .motorToggle _ _ => true
  | .motorReset _ _ _ => true
  | _ => false

/-- `I2C_SETUP`. -/
def isI2cSetup : Instr → Bool
  | .i2cSetup _ _ _ => true
  | _ => false

/-- `SPI_SETUP`. -/
def isSpiSetup : Instr → Bool
  | .spiSetup _ _ _ => true
  | _ => false

/-- `SPI_PREPARE`. -/
def isSpiPrepare : Instr → Bool
  | .spiPrepare _ _ => true
  | _ => false

/-- `REG_WRITE`. -/
def isRegWrite : Instr → Bool
  | .regWrite _ _ => true
  | _ => false

/-- A register of the UART. -/
def isUartReg : Reg → Bool
  | .uart _ => true
  | _ => false

/-- The halt of a command on a bus with n instances, of which the one there is may be absent (60_exceptions R261). -/
def busCause (n : Nat) (present : Bool) (bus : Byte) : Option HaltCode :=
  if n ≤ bus.toNat then some .invalidBus else if present then none else some .unimplemented

/-- The halt of a pin command (60_exceptions R261). -/
def pinCause (cfg : Config) (id : BitVec 16) : Option HaltCode :=
  match classify cfg id with
  | .physical _ => none
  | .virtual _ _ => some .invalidPin
  | .invalid => some .invalidPin

/-- The halt of a UART command (60_exceptions R261). -/
def uartCause (cfg : Config) : Option HaltCode := if cfg.uartPresent then none else some .unimplemented

/-- The table of halt causes (60_exceptions R261): the halt that a command raises, if any. -/
def haltCause (cfg : Config) : Instr → Option HaltCode
  | .gpioSetup id _ => pinCause cfg id
  | .motorSetup _ _ _ => none
  | .gpioWrite id _ => pinCause cfg id
  | .motorWrite _ _ _ => none
  | .gpioToggle id => pinCause cfg id
  | .motorToggle _ _ => none
  | .gpioReset id _ => pinCause cfg id
  | .motorReset _ _ _ => none
  | .gpioInputSetup id _ => pinCause cfg id
  | .gpioInputRead id => pinCause cfg id
  | .i2cSetup bus _ _ => busCause cfg.nI2c cfg.i2cPresent bus
  | .i2cWrite bus _ _ => busCause cfg.nI2c cfg.i2cPresent bus
  | .i2cRead bus _ _ _ => busCause cfg.nI2c cfg.i2cPresent bus
  | .spiSetup bus _ _ => busCause cfg.nSpi cfg.spiPresent bus
  | .spiPrepare bus _ => busCause cfg.nSpi cfg.spiPresent bus
  | .spiTransfer bus _ _ => busCause cfg.nSpi cfg.spiPresent bus
  | .uartInit => uartCause cfg
  | .uartTxKick => uartCause cfg
  | .clockBringup => none
  | .regRead _ => none
  | .regWrite _ _ => none
  | .uartRxHandler => none
  | .uartTxHandler => none

/-- A piece of a command that can wait. -/
def isWait : Micro → Bool
  | .act _ => false
  | _ => true

/-! ### Scripted answers of a transfer

The draws a command takes when each wait sees its flag at the first poll and no interrupt is taken (logs 2, 3, 12). -/

/-- The answers by which n boundaries of the foreground take no interrupt: a draw of 0 each while the interrupt context
may act, no draw otherwise. -/
def still (s : State) (n : Nat) : List Nat := if interruptible s then List.replicate n 0 else []

/-- n boundaries and one poll of a bounded wait: the clock's increment and the status (42_i2c R175). -/
def pollAnswers (s : State) (n : Nat) (a : Nat × Nat) : List Nat := still s n ++ [a.1, a.2]

/-- The start of a transfer: its buffer, the wait for an idle bus, `START` and its event, the wait for `SB` (42_i2c R177). -/
def startAnswers (s : State) (idle started : Nat × Nat) : List Nat := pollAnswers s 2 idle ++ pollAnswers s 3 started

/-- An address: `DATAR` and its event, the wait for `ADDR`, the two reads that clear it (42_i2c R178). -/
def addressAnswers (s : State) (acked : Nat × Nat) (x1 x2 : Nat) : List Nat :=
  pollAnswers s 3 acked ++ still s 1 ++ [x1] ++ still s 1 ++ [x2]

/-- Bytes sent: for each, `DATAR` and its event, the wait for `BTF` (42_i2c R179). -/
def bytesAnswers (s : State) (acked : List (Nat × Nat)) : List Nat := acked.flatMap (pollAnswers s 3)

/-- A byte received: the wait for `RXNE`, the read of `DATAR`, its event (42_i2c R182). -/
def receivedAnswers (s : State) (a : (Nat × Nat) × Nat) : List Nat :=
  pollAnswers s 1 a.1 ++ still s 1 ++ [a.2] ++ still s 1

/-- A byte exchanged: the wait for `TXE`, the write, the wait for `RXNE`, the read, its event (43_spi R205). -/
def exchangedAnswers (s : State) (a : Nat × Nat × Nat) : List Nat :=
  still s 1 ++ [a.1] ++ still s 2 ++ [a.2.1] ++ still s 1 ++ [a.2.2] ++ still s 1

/-- The status of a poll shows a flag. -/
def shows (a : Nat × Nat) (flag : Word) : Prop := BitVec.ofNat 32 a.2 &&& flag = flag

/-- The status of a poll shows `AF` and not the flag waited for (42_i2c R175). -/
def nacks (a : Nat × Nat) (flag : Word) : Prop :=
  BitVec.ofNat 32 a.2 &&& flag = 0 ∧ BitVec.ofNat 32 a.2 &&& maskAf ≠ 0

/-- A transfer on bus 0 that sends the bytes after an address with the write direction, and the buffer it returns when it
fails: `I2C_WRITE`, and `I2C_READ` with register bytes (42_i2c R180, R181). -/
def sendsBytes (i : Instr) (addr8 : Byte) (bytes payload : List Byte) : Prop :=
  (i = .i2cWrite 0 addr8 bytes ∧ payload = []) ∨
    ∃ len : Byte, len ≠ 0 ∧ bytes ≠ [] ∧ i = .i2cRead 0 addr8 bytes len ∧ payload = List.replicate len.toNat 0

/-! ### Conditions on a state -/

/-- No interrupt enable of the UART is set: the interrupt context takes no step (44_uart R224). -/
def Quiet (s : State) : Prop := uartArmed s.uart.ctlr1 = false

/-- The foreground takes its next command in this state: well-formed configuration, no reset, no halt, no interrupt
asked for, no command in progress. -/
def Ready (s : State) : Prop :=
  configOk s.cfg = true ∧ s.resetRequest = false ∧ s.halted = none ∧ s.irq = false ∧ s.todo = []

/-- What the state stores for a register; data registers hold the value last written (log 9). -/
def storedBits (s : State) : Reg → Word
  | .i2c .datar => s.i2c.datar
  | .spi .datar => s.spi.datar
  | .uart .datar => s.uart.datar
  | r => shown s r

/-- The registers at the reset columns of 10_state R33 to R47 (70_reset R290). -/
def RegistersReset (t : State) : Prop :=
  (∀ p : Fin 5, t.gpio[p] = ⟨0x44444444, 0x44444444, 0⟩) ∧
    t.rcc.ctlr = 0x00000081 ∧ t.rcc.cfgr0 = 0 ∧ t.rcc.apb2pcenr = 0 ∧ t.rcc.apb1pcenr = 0 ∧
    t.i2c = ⟨0, 0, 0, 0, 0x02⟩ ∧ t.spi = ⟨0, 0, 0⟩ ∧ t.uart = ⟨0, 0, 0, 0, 0⟩

/-- The state reset leaves (70_reset R290): every register at its reset value, which is a parameter with the defaults
of 10_state (93_implementation_defined I3), the draw fields under 10_state R48 (b), the block state cleared, the UART
line 0, the first `Now()` a draw. -/
def IsReset (t : State) : Prop :=
  (t.cfg.reset = Config.defaultReset → RegistersReset t) ∧ (∀ r : Reg, storedBits t r = resetValue t.cfg.reset r) ∧
    (∀ c : Fin 4, t.motor[c] = ⟨false, false, false⟩) ∧ t.i2cInit = false ∧ t.spiInit = false ∧ t.spiLast = 0 ∧
    t.clockDone = false ∧ t.halted = none ∧ t.inCritical = false ∧ t.trace = [] ∧
    (∀ statr : Word, uartIrqLine t.uart.ctlr1 statr = false) ∧
    readValue t (.rcc .ctlr) &&& (maskHseRdy ||| maskPllRdy) = 0 ∧ readValue t (.rcc .cfgr0) &&& maskSws = 0 ∧
    (readClock t).now = drawValue t

/-! ### Invariants -/

/-- No register stores a bit outside those that a write stores: reserved, read-only and draw bits are 0 (20_memory
R76). -/
def RegistersMasked (s : State) : Prop := ∀ r : Reg, storedBits s r &&& ~~~storeMask r = 0

/-- An oscillator, multiplier or switch that is on has been written on since reset (10_state R48 (b)). -/
def ReadinessHistory (s : State) : Prop :=
  (s.rcc.ctlr &&& maskHseOn ≠ 0 → s.rcc.hseOnSeen = true) ∧ (s.rcc.ctlr &&& maskPllOn ≠ 0 → s.rcc.pllOnSeen = true) ∧
    (s.rcc.cfgr0 &&& maskSw = 2 → s.rcc.swPllSeen = true)

/-- The critical spans of a command are closed and no wait stands inside one, when it starts with `in_critical = c`
(10_state R54, 20_memory R79). -/
def spansClosed : Bool → List Micro → Bool
  | c, [] => !c
  | c, .act .enter :: rest => !c && spansClosed true rest
  | c, .act .leave :: rest => c && spansClosed false rest
  | c, .act _ :: rest => spansClosed c rest
  | c, _ :: rest => !c && spansClosed c rest

/-- Between steps the foreground is in no critical span, and the command in progress leaves none open. -/
def SpansBetweenSteps (s : State) : Prop := s.inCritical = false ∧ spansClosed false s.todo = true

/-! ### The command in progress -/

/-- The pieces of a command that can wait, as it starts (42_i2c R180, R181; 43_spi R205; 45_clock R240). -/
def waitingProgram (cfg : Config) : Instr → List Micro
  | .i2cWrite bus addr8 bytes => i2cWriteProg bus addr8 bytes
  | .i2cRead bus addr8 reg len => i2cReadProg bus addr8 reg len.toNat
  | .spiTransfer bus readBack bytes => spiTransferProg bus readBack bytes
  | .clockBringup => bringupProg cfg
  | _ => []

/-- `todo` is a command held at one of its waits: that wait, entered when it is bounded, and what follows it. -/
def heldAt (wait : Micro) (after todo : List Micro) : Prop :=
  match wait with
  | .act _ => False
  | .await _ _ _ => todo = wait :: after
  | .awaitT w => ∃ t0, todo = .pollT w t0 :: after
  | .pollT _ _ => False

/-- `todo` is the rest of a command from one of its waits on (70_reset R304; log 12). -/
def HeldFrom (cfg : Config) (i : Instr) (todo : List Micro) : Prop :=
  ∃ before wait after, waitingProgram cfg i = before ++ wait :: after ∧ heldAt wait after todo

/-- The command in progress, if any, is the rest of an I2C or SPI transfer or of the bring-up from one of its waits
on. -/
def HeldCommand (s : State) : Prop := s.todo = [] ∨ ∃ i, HeldFrom s.cfg i s.todo

end Sys2Proof.Machine
end

