-- ==== Sys2Proof/Certificates/Slice0/Obligations.lean ====
section
/-!
DEFINITION. The statements for the provers. Each docstring names the rule of spec/ it formalises.
-/
open Sys2Proof Sys2Proof.Machine

/-! ### Encoding (30_encoding) -/

/-- R102 to R105, R108: the decoder reads back every well-formed command, and leaves the words after it. -/
def Obligations.DecodeOfEncodeIsTheCommand : Prop :=
  ∀ (cfg : Config) (i : Instr) (rest : List Word), configOk cfg = true → i.wellFormed cfg = true →
    decode cfg (encode cfg i ++ rest) = .ok (i, rest)

/-- R105, R106, R109: words that decode are the encoding of what they decode to, so each command has one spelling. -/
def Obligations.DecodedWordsAreTheEncoding : Prop :=
  ∀ (cfg : Config) (ws : List Word) (i : Instr) (rest : List Word), configOk cfg = true →
    decode cfg ws = .ok (i, rest) → i.wellFormed cfg = true ∧ ws = encode cfg i ++ rest

/-- Words written out from the encoding tables (95_test_vectors §2.1) decode to the commands they stand for. -/
def Obligations.SampleWordsDecode : Prop :=
  decode Config.default [0x0101004F] = .ok (.gpioSetup 79 true, []) ∧
    decode Config.default [0x02010084] = .ok (.motorWrite 2 .drive true, []) ∧
    decode Config.default [0x05FF002D] = .ok (.gpioInputSetup 45 0xFF, []) ∧
    decode Config.default [0x10000050, 0x000186A0] = .ok (.i2cSetup 0 0x50 100000, []) ∧
    decode Config.default [0x120001A0, 0x00000001, 0x00000010] = .ok (.i2cRead 0 0xA0 [0x10] 1, []) ∧
    decode Config.default [0x110005A0, 0x04030201, 0x00000005] = .ok (.i2cWrite 0 0xA0 [1, 2, 3, 4, 5], []) ∧
    decode Config.default [0x20000003, 0x044AA200] = .ok (.spiSetup 0 3 72000000, []) ∧
    decode Config.default [0x22000201, 0x0000009F] = .ok (.spiTransfer 0 true [0x9F, 0x00], []) ∧
    decode Config.default [0x30000000] = .ok (.uartInit, []) ∧
      decode Config.default [0x31000000] = .ok (.uartTxKick, []) ∧
    decode Config.default [0x40000000] = .ok (.clockBringup, []) ∧
    decode Config.default [0x51000000, 0x40010810, 0x00000020] = .ok (.regWrite 0x40010810 0x20, [])

/-- R107: an OP byte outside the opcode map is refused, and so are the two interrupt action codes in the foreground
stream. -/
def Obligations.IllegalOpcodesAreRefused : Prop :=
  ∀ (s : State) (h : Word) (rest : List Word), Ready s → s.stream = h :: rest →
    (opField h ∉
        ([0x01, 0x02, 0x03, 0x04, 0x05, 0x06, 0x10, 0x11, 0x12, 0x20, 0x21, 0x22, 0x30, 0x31, 0x40, 0x50, 0x51, 0xF0,
          0xF1] : List Byte) →
      step s = .refused .illegalOpcode) ∧
    (opField h = 0xF0 ∨ opField h = 0xF1 → ∃ r, step s = .refused r)

/-- R106: a nonzero reserved field of the header, or of the operand word of `I2C_READ`, is refused, and so is nonzero
padding of a payload; a control word that R98 cannot produce and a read of no bytes are refused. That a command whose
other words are not there yet is refused at once for a reserved field is the model's choice (log 14), and so is that a
divisor outside the configuration's range produces no control word (log 20). -/
def Obligations.ReservedFieldsAreRefused : Prop :=
  (∀ (s : State) (h : Word) (rest : List Word), Ready s → s.stream = h :: rest →
    ((opField h ∈ ([0x01, 0x02, 0x04] : List Byte) ∧ aField h >>> 1 ≠ 0) ∨
        (opField h ∈ ([0x03, 0x06] : List Byte) ∧ aField h ≠ 0) ∨
        (opField h = 0x10 ∧ bField h >>> 7 ≠ 0) ∨
        (opField h ∈ ([0x11, 0x12] : List Byte) ∧ h.getLsbD 0 = true) ∨
        (opField h = 0x12 ∧ ∃ w1 tail, rest = w1 :: tail ∧ w1 >>> 8 ≠ 0) ∨
        (opField h = 0x20 ∧ bField h >>> 2 ≠ 0) ∨
        (opField h = 0x22 ∧ bField h &&& 0x00FE ≠ 0) ∨
        (opField h ∈ ([0x30, 0x31, 0x40, 0x50, 0x51] : List Byte) ∧ (aField h ≠ 0 ∨ bField h ≠ 0)) →
      step s = .refused .reservedField) ∧
    (∀ payload : List Word,
      (opField h = 0x11 ∧ h.getLsbD 0 = false ∧ payload = rest) ∨
        (opField h = 0x12 ∧ h.getLsbD 0 = false ∧ ∃ w1, rest = w1 :: payload ∧ w1 >>> 8 = 0) ∨
        (opField h = 0x22 ∧ bField h &&& 0x00FE = 0 ∧ payload = rest) →
      payloadWords (bHigh h).toNat ≤ payload.length →
      (∃ b ∈ ((payload.take (payloadWords (bHigh h).toNat)).flatMap bytesOfWord).drop (bHigh h).toNat, b ≠ 0) →
      step s = .refused .payloadPadding)) ∧
    (∀ (s : State) (bus : Byte) (ctrl : BitVec 16),
      (∀ mode ∈ ([0, 1, 2, 3] : List (BitVec 2)), ∀ div ∈ ([2, 4, 8, 16, 32, 64, 128] : List Nat),
        s.cfg.spiDivMin ≤ div → div ≤ s.cfg.spiDivMax → ctrl.setWidth 32 ≠ spiCtrl mode div) →
      exec (.spiPrepare bus ctrl) s = .refused .spiControlWord) ∧
    (∀ (s : State) (bus addr8 : Byte) (reg : List Byte),
      exec (.i2cRead bus addr8 reg 0) s = .refused .readLengthZero)

/-- R257: a raw access is refused when its address is misaligned or that of no modelled register; R244, R265 (e): a
second bring-up is refused. That the registers of a port or bus which the configuration lacks are no modelled registers is
the model's choice (log 20), and so is which address a register has under an unusual base (log 26); under the default
configuration all 51 are, each at its own address. -/
def Obligations.CommandsOutsideTheSpecAreRefused : Prop :=
  (∀ (s : State) (addr value : Word),
    (addr.extractLsb' 0 2 ≠ 0 ∨ ∀ r : Reg, hasReg s.cfg r = true → regAddr s.cfg r ≠ addr) →
      exec (.regRead addr) s = .refused .notARegister ∧ exec (.regWrite addr value) s = .refused .notARegister) ∧
    (∀ s : State, s.clockDone = true → exec .clockBringup s = .refused .secondBringup)

/-! ### The step (10_state R31, 60_exceptions) -/

/-- R31: when the foreground is ready and the words at the head of the stream decode to a command, a step runs it. -/
def Obligations.StepRunsTheDecodedCommand : Prop :=
  ∀ (s : State) (i : Instr) (rest : List Word), Ready s → decode s.cfg s.stream = .ok (i, rest) → i.isAction = false →
    step s = exec i { s with stream := rest }

/-- R270, R225, R79: outside a critical span a step takes the interrupt that the host's dispatch asks for when the UART
line is 1, with its `STATR` a draw: the receive action, then the transmit action, as that one step. While the line is 0 it
takes none: draws alone change. That the request ends with the look at the line, and stands for the draw of R270, is the
model's choice (log 16). -/
def Obligations.StepTakesTheInterruptAskedFor : Prop :=
  ∀ s : State, configOk s.cfg = true → s.resetRequest = false → s.halted = none → s.inCritical = false →
    s.irq = true →
    (uartIrqLine s.uart.ctlr1 (BitVec.ofNat 32 (drawValue s)) = true →
      ∃ t u, exec .uartRxHandler (drawNext { s with irq := false }) = .next t ∧ exec .uartTxHandler t = .next u ∧
        step s = .next u) ∧
    (uartIrqLine s.uart.ctlr1 (BitVec.ofNat 32 (drawValue s)) = false →
      ∃ t, step s = .next t ∧ t = { s with irq := false, script := t.script, drawn := t.drawn })

/-- R10, R304: a command held in a wait goes on from that wait in the next step; log 12. -/
def Obligations.StepResumesAHeldCommand : Prop :=
  ∀ (s : State) (m : Micro) (rest : List Micro), configOk s.cfg = true → s.resetRequest = false → s.halted = none →
    s.irq = false → s.todo = m :: rest → step s = .next (drain (m :: rest) s)

/-- R291: with no command in the stream the block waits, and only the interrupt context may act. So it does with a command
cut short there: with every stream whose words the decoder finds cut short, among them every stream that holds some but
not all words of a well-formed command. That a cut command waits is the model's choice (log 14; the stream, log 15). -/
def Obligations.EmptyStreamWaits : Prop :=
  ∀ s : State, Ready s →
    (decode s.cfg s.stream = .error .truncated ∨
      ∃ (i : Instr) (missing : List Word), i.wellFormed s.cfg = true ∧ missing ≠ [] ∧
        encode s.cfg i = s.stream ++ missing) →
    ∃ t, step s = .next t ∧ SameButInterrupts s t ∧ UartInterruptsOnly s t ∧ (Quiet s → t = s)

/-- R260, R290: a halted block takes no step (that the model's step faults there is its choice, log 10), and from every
state, halted or not, the reset that the host asks for (log 17) leaves the reset state of the same configuration. -/
def Obligations.HaltedBlockWaitsForReset : Prop :=
  (∀ (s : State) (code : HaltCode), configOk s.cfg = true → s.resetRequest = false → s.halted = some code →
      step s = .fault (.halted code)) ∧
    (∀ s : State, configOk s.cfg = true → s.resetRequest = true → ∃ t, step s = .next t ∧ IsReset t ∧ t.cfg = s.cfg)

/-- R290: what the one reset leaves, for every configuration; under the default one the reset columns of 10_state. -/
def Obligations.ResetLeavesTheResetValues : Prop :=
  (∀ cfg : Config, configOk cfg = true → IsReset (State.resetWith cfg)) ∧ RegistersReset State.reset

/-- R7: an ill-formed configuration is refused: owned pins not distinct, not physical or not mapped, or a baud divisor
outside 16..65535. That the pins of a channel or bus which a smaller `N_CHANNELS`, `N_I2C` or `N_SPI` leaves out are among
them is the model's choice (log 20). -/
def Obligations.IllFormedConfigurationIsRefused : Prop :=
  ∀ s : State,
    (¬(s.cfg.motorHi.toList ++ s.cfg.motorLo.toList ++
          [s.cfg.i2cScl, s.cfg.i2cSda, s.cfg.spiSck, s.cfg.spiMosi, s.cfg.spiMiso, s.cfg.uartTx, s.cfg.uartRx]).Nodup ∨
      (∃ pin ∈ s.cfg.motorHi.toList ++ s.cfg.motorLo.toList ++
          [s.cfg.i2cScl, s.cfg.i2cSda, s.cfg.spiSck, s.cfg.spiMosi, s.cfg.spiMiso, s.cfg.uartTx, s.cfg.uartRx],
        s.cfg.nPorts ≤ pin.port.val ∨ s.cfg.nBits ≤ pin.bit.val ∨
          s.cfg.pinMapped.getLsbD (s.cfg.nBits * pin.port.val + pin.bit.val) = false) ∨
      s.cfg.uartBaud = 0 ∨ s.cfg.uartClk / s.cfg.uartBaud < 16 ∨ 65535 < s.cfg.uartClk / s.cfg.uartBaud) →
    step s = .refused .illFormedConfig

/-! ### GPIO (40_gpio) -/

/-- R135, R35: `GPIO_SETUP` opens the port's gate, drives the level and selects push-pull 50 MHz output, so the line is
driven; an identifier that is not physical halts. -/
def Obligations.GpioSetupConfiguresTheOutput : Prop :=
  ∀ (s : State) (id : BitVec 16) (v : Bool), s.inCritical = false →
    (∀ pin, classify s.cfg id = .physical pin →
      ∃ t, exec (.gpioSetup id v) s = .next t ∧
        t.rcc.apb2pcenr = s.rcc.apb2pcenr ||| 1#32 <<< (2 + pin.port.val) ∧
        latch t pin = v ∧ nibble t pin = 0x3 ∧ pinLine t pin = .driven v ∧ LatchesSameBut [pin] s t ∧
          NibblesSameBut [pin] s t ∧
        Responded s t (id.setWidth 32) [] ∧ PinFrame s t) ∧
    ((∀ pin, classify s.cfg id ≠ .physical pin) →
      ∃ t, exec (.gpioSetup id v) s = .next t ∧ HaltedBy .invalidPin s t)

/-- R136: `GPIO_WRITE` drives the latch bit of a gated port and nothing else; on an ungated port nothing changes; an
identifier that is not physical halts. -/
def Obligations.GpioWriteDrivesTheLatch : Prop :=
  ∀ (s : State) (id : BitVec 16) (v : Bool),
    (∀ pin, classify s.cfg id = .physical pin →
      ∃ t, exec (.gpioWrite id v) s = .next t ∧
        latch t pin = (if portClocked s pin then v else latch s pin) ∧ LatchesSameBut [pin] s t ∧
        NibblesSameBut [] s t ∧ t.rcc = s.rcc ∧ Responded s t 0 [] ∧ PinFrame s t) ∧
    ((∀ pin, classify s.cfg id ≠ .physical pin) →
      ∃ t, exec (.gpioWrite id v) s = .next t ∧ HaltedBy .invalidPin s t)

/-- R137: `GPIO_TOGGLE` inverts the latch bit of a gated port and nothing else, whatever the pin's mode. The reserved
bits of `OUTDR` are 0 in the state, as the invariant `EveryStepKeepsReservedBitsClear` keeps them. -/
def Obligations.GpioToggleInvertsTheLatch : Prop :=
  ∀ (s : State) (id : BitVec 16), s.inCritical = false → RegistersMasked s →
    (∀ pin, classify s.cfg id = .physical pin →
      ∃ t, exec (.gpioToggle id) s = .next t ∧
        latch t pin = (if portClocked s pin then !latch s pin else latch s pin) ∧ LatchesSameBut [pin] s t ∧
        NibblesSameBut [] s t ∧ t.rcc = s.rcc ∧ Responded s t 0 [] ∧ PinFrame s t) ∧
    ((∀ pin, classify s.cfg id ≠ .physical pin) →
      ∃ t, exec (.gpioToggle id) s = .next t ∧ HaltedBy .invalidPin s t)

/-- R138: `GPIO_RESET` drives the level and selects push-pull 50 MHz output on a gated port, without touching the gate,
whatever the pin's mode was. For a pin in input mode R293's table says otherwise; the model follows R138 (log 31). -/
def Obligations.GpioResetReappliesTheOutput : Prop :=
  ∀ (s : State) (id : BitVec 16) (v : Bool), s.inCritical = false →
    (∀ pin, classify s.cfg id = .physical pin →
      ∃ t, exec (.gpioReset id v) s = .next t ∧
        latch t pin = (if portClocked s pin then v else latch s pin) ∧
        nibble t pin = (if portClocked s pin then 0x3 else nibble s pin) ∧ LatchesSameBut [pin] s t ∧
        NibblesSameBut [pin] s t ∧ t.rcc = s.rcc ∧ Responded s t 0 [] ∧ PinFrame s t) ∧
    ((∀ pin, classify s.cfg id ≠ .physical pin) →
      ∃ t, exec (.gpioReset id v) s = .next t ∧ HaltedBy .invalidPin s t)

/-- R139, R113, R35: `GPIO_INPUT_SETUP` opens the gate and selects a floating input (pull 0, latch kept), or a pulled
input whose latch selects the direction (pull signed: above 0 up, below 0 down). -/
def Obligations.GpioInputSetupSelectsThePull : Prop :=
  ∀ (s : State) (id : BitVec 16) (pull : Byte), s.inCritical = false →
    (∀ pin, classify s.cfg id = .physical pin →
      ∃ t, exec (.gpioInputSetup id pull) s = .next t ∧
        t.rcc.apb2pcenr = s.rcc.apb2pcenr ||| 1#32 <<< (2 + pin.port.val) ∧
        (pull.toInt = 0 → nibble t pin = 0x4 ∧ latch t pin = latch s pin ∧ pinLine t pin = .undriven) ∧
        (0 < pull.toInt → nibble t pin = 0x8 ∧ latch t pin = true ∧ pinLine t pin = .pulled true) ∧
        (pull.toInt < 0 → nibble t pin = 0x8 ∧ latch t pin = false ∧ pinLine t pin = .pulled false) ∧
          LatchesSameBut [pin] s t ∧
        NibblesSameBut [pin] s t ∧ Responded s t (id.setWidth 32) [] ∧ PinFrame s t) ∧
    ((∀ pin, classify s.cfg id ≠ .physical pin) →
      ∃ t, exec (.gpioInputSetup id pull) s = .next t ∧ HaltedBy .invalidPin s t)

/-- R140: `GPIO_INPUT_READ` returns the pin's bit of the level the environment draws, gated or not, and changes no
register. -/
def Obligations.GpioInputReadReturnsTheDrawnLevel : Prop :=
  ∀ (s : State) (id : BitVec 16),
    (∀ pin, classify s.cfg id = .physical pin →
      ∃ (t : State) (b : Bool), exec (.gpioInputRead id) s = .next t ∧ Responded s t (if b then 1 else 0) [] ∧
        ReadFrame s t ∧ (Quiet s → b = (BitVec.ofNat 32 (drawValue s)).getLsbD pin.bit.val)) ∧
    ((∀ pin, classify s.cfg id ≠ .physical pin) →
      ∃ t, exec (.gpioInputRead id) s = .next t ∧ HaltedBy .invalidPin s t)

/-- R90 to R93: identifiers below 80 name the pin (id / 16, id mod 16) when mapped, 0x80..0x87 the channels' flags,
and every other identifier is invalid; for another configuration the same with its numbers of ports, bits and channels
and its base. -/
def Obligations.IdentifiersAreClassified : Prop :=
  (∀ (cfg : Config) (id : BitVec 16), configOk cfg = true →
    (∀ pin : Pin, pin.port.val < cfg.nPorts → pin.bit.val < cfg.nBits →
      id.toNat = cfg.nBits * pin.port.val + pin.bit.val →
      classify cfg id = if cfg.pinMapped.getLsbD id.toNat then .physical pin else .invalid) ∧
    (∀ c : Fin 4, c.val < cfg.nChannels → id.toNat = cfg.motorIdBase + 2 * c.val →
      classify cfg id = .virtual c .drive) ∧
    (∀ c : Fin 4, c.val < cfg.nChannels → id.toNat = cfg.motorIdBase + 2 * c.val + 1 →
      classify cfg id = .virtual c .direction) ∧
    (cfg.nPorts * cfg.nBits ≤ id.toNat ∧ id.toNat < cfg.motorIdBase ∨ cfg.motorIdBase + 2 * cfg.nChannels ≤ id.toNat →
      classify cfg id = .invalid)) ∧
  Config.default.nPorts = 5 ∧ Config.default.nBits = 16 ∧ Config.default.nChannels = 4 ∧
    Config.default.motorIdBase = 0x80

/-! ### Motor channels (41_motor) -/

/-- R155, R153: `MOTOR_SETUP` sets the named flag and applies the truth table; a fresh channel is configured first. -/
def Obligations.MotorSetupSetsTheFlag : Prop :=
  ∀ (s : State) (c : Fin 4) (v : Bool), configOk s.cfg = true → c.val < s.cfg.nChannels → s.inCritical = false →
    (∃ t, exec (.motorSetup c .drive v) s = .next t ∧
      MotorEffect false s t c ⟨true, v, s.motor[c].init && s.motor[c].dir⟩
        (BitVec.ofNat 32 (s.cfg.motorIdBase + 2 * c.val))) ∧
    (∃ t, exec (.motorSetup c .direction v) s = .next t ∧
      MotorEffect false s t c ⟨true, s.motor[c].init && s.motor[c].drive, v⟩
        (BitVec.ofNat 32 (s.cfg.motorIdBase + 2 * c.val + 1)))

/-- R156: `MOTOR_WRITE` does the same and returns 0. -/
def Obligations.MotorWriteSetsTheFlag : Prop :=
  ∀ (s : State) (c : Fin 4) (v : Bool), configOk s.cfg = true → s.inCritical = false →
    (∃ t, exec (.motorWrite c .drive v) s = .next t ∧
      MotorEffect false s t c ⟨true, v, s.motor[c].init && s.motor[c].dir⟩ 0) ∧
    (∃ t, exec (.motorWrite c .direction v) s = .next t ∧
      MotorEffect false s t c ⟨true, s.motor[c].init && s.motor[c].drive, v⟩ 0)

/-- R157: `MOTOR_TOGGLE` inverts the stored flag, which a fresh channel holds at 0, and applies the truth table. -/
def Obligations.MotorToggleInvertsTheFlag : Prop :=
  ∀ (s : State) (c : Fin 4), configOk s.cfg = true → s.inCritical = false →
    (∃ t, exec (.motorToggle c .drive) s = .next t ∧
      MotorEffect false s t c
        ⟨true, !(s.motor[c].init && s.motor[c].drive), s.motor[c].init && s.motor[c].dir⟩ 0) ∧
    (∃ t, exec (.motorToggle c .direction) s = .next t ∧
      MotorEffect false s t c
        ⟨true, s.motor[c].init && s.motor[c].drive, !(s.motor[c].init && s.motor[c].dir)⟩ 0)

/-- R158: `MOTOR_RESET` sets the named flag, applies the truth table and rewrites both lines' modes. -/
def Obligations.MotorResetReappliesTheModes : Prop :=
  ∀ (s : State) (c : Fin 4) (v : Bool), configOk s.cfg = true → s.inCritical = false →
    (∃ t, exec (.motorReset c .drive v) s = .next t ∧
      MotorEffect true s t c ⟨true, v, s.motor[c].init && s.motor[c].dir⟩ 0) ∧
    (∃ t, exec (.motorReset c .direction v) s = .next t ∧
      MotorEffect true s t c ⟨true, s.motor[c].init && s.motor[c].drive, v⟩ 0)

/-- R159, R154: at every action boundary inside a motor command at most one line of the channel is asserted, if this
held at its start and the lines of an initialised channel are clocked. -/
def Obligations.AtMostOneLineAtEveryBoundary : Prop :=
  ∀ (s : State) (c : Fin 4) (m : Motor) (q : Word) (k : Nat), configOk s.cfg = true → s.inCritical = false →
    atMostOneLine s c = true →
    (s.motor[c].init = true → portClocked s (hiPin s.cfg c) = true ∧ portClocked s (loPin s.cfg c) = true) →
    atMostOneLine (runActs ((motorActs s c m q).take k) s) c = true ∧
      atMostOneLine (runActs ((motorResetActs s c m).take k) s) c = true

/-! ### I2C (42_i2c) -/

/-- R170 to R173: the first `I2C_SETUP` configures gates, pins and timing; a later one changes no register; both
return the wire address. That `APB1PCENR` then holds bit 21 alone, whatever it held, is the model's reading of its unnamed
bits as reserved (log 7). -/
def Obligations.I2cSetupConfiguresOnce : Prop :=
  ∀ (s : State) (addr7 : BitVec 7) (rate : Word), configOk s.cfg = true → s.inCritical = false →
    0 < s.cfg.nI2c → s.cfg.i2cPresent = true →
    (s.i2cInit = false →
      ∃ t, exec (.i2cSetup 0 addr7 rate) s = .next t ∧ t.i2cInit = true ∧
        t.rcc.apb1pcenr = 1#32 <<< 21 ∧
        t.rcc.apb2pcenr =
          s.rcc.apb2pcenr ||| 1#32 <<< (2 + s.cfg.i2cScl.port.val) ||| 1#32 <<< (2 + s.cfg.i2cSda.port.val) ∧
        latch t s.cfg.i2cScl = true ∧ latch t s.cfg.i2cSda = true ∧
        nibble t s.cfg.i2cScl = 0xF ∧ nibble t s.cfg.i2cSda = 0xF ∧
        LatchesSameBut [s.cfg.i2cScl, s.cfg.i2cSda] s t ∧ NibblesSameBut [s.cfg.i2cScl, s.cfg.i2cSda] s t ∧
        t.i2c =
          ⟨0x0001, BitVec.ofNat 32 (min (s.cfg.i2cPclk / 1000000) 63), s.i2c.datar,
            BitVec.ofNat 32
              (if min rate.toNat s.cfg.i2cMaxRate = 0 then 4095
                else max 4 (min (s.cfg.i2cPclk / (2 * min rate.toNat s.cfg.i2cMaxRate)) 4095)),
            BitVec.ofNat 32 (min (s.cfg.i2cPclk / 1000000 + 1) 63)⟩ ∧
        Responded s t (BitVec.ofNat 32 (2 * addr7.toNat)) [] ∧
        PinFrame { s with i2c := t.i2c, i2cInit := true, rcc := { s.rcc with apb1pcenr := t.rcc.apb1pcenr } } t) ∧
    (s.i2cInit = true →
      ∃ t, exec (.i2cSetup 0 addr7 rate) s = .next t ∧ Responded s t (BitVec.ofNat 32 (2 * addr7.toNat)) [] ∧
        ReadFrame s t)

/-- R171: an I2C command on a bus index from `N_I2C` (1 by default) on halts with `HALT_INVALID_BUS`, on an absent
controller with `HALT_UNIMPLEMENTED`, before any effect. -/
def Obligations.I2cBusErrorsHalt : Prop :=
  ∀ (s : State) (i : Instr) (bus : Byte),
    ((∃ addr7 rate, i = .i2cSetup bus addr7 rate) ∨ (∃ addr8 bytes, i = .i2cWrite bus addr8 bytes) ∨
      (∃ addr8 reg len, len ≠ 0 ∧ i = .i2cRead bus addr8 reg len)) →
    (s.cfg.nI2c ≤ bus.toNat → ∃ t, exec i s = .next t ∧ HaltedBy .invalidBus s t) ∧
    (bus.toNat < s.cfg.nI2c → s.cfg.i2cPresent = false → ∃ t, exec i s = .next t ∧ HaltedBy .unimplemented s t)

/-- R180, R177 to R179: when every wait sees its flag at the first poll and no interrupt is taken, `I2C_WRITE` puts START,
the address, each byte and STOP on the bus in order and returns `I2C_OK`. Each wait takes two draws, a clock increment and
a status; the cleared `ADDR` takes two more, and each boundary one while the UART is armed. -/
def Obligations.I2cWriteCompletes : Prop :=
  ∀ (s : State) (addr8 : Byte) (bytes : List Byte) (idle started address : Nat × Nat) (x1 x2 : Nat)
    (acked : List (Nat × Nat)) (rest : List Nat),
    0 < s.cfg.nI2c → s.cfg.i2cPresent = true → acked.length = bytes.length →
    BitVec.ofNat 32 idle.2 &&& maskBusy = 0 → shows started maskSb → shows address maskAddr →
    (∀ a ∈ acked, shows a maskBtf) →
    s.script =
      startAnswers s idle started ++ addressAnswers s address x1 x2 ++ bytesAnswers s acked ++ still s 3 ++ rest →
    ∃ t, exec (.i2cWrite 0 addr8 bytes) s = .next t ∧
      TransferEnded s t ([.i2cStart 0, .i2cAddr 0 addr8] ++ bytes.map (.i2cData 0) ++ [.i2cStop 0]) 0 []
        ((bytes.getLast?.getD addr8).setWidth 32) rest

/-- R178, R179, R184, R176: a NACK or a busy bus ends a transfer through `Fail`. A NACK of the address that follows the
first START gives `I2C_START_NACK`, with no data byte sent; a NACK of a data byte of `I2C_WRITE` or of a register byte of
`I2C_READ` gives `I2C_NACK`, the later bytes not sent; a bus that stays busy past the deadline gives `I2C_TIMEOUT`; a NACK
of the read address gives `I2C_ADDR_NACK` after a repeated START, `I2C_START_NACK` after the first. The STOP is issued, and
the response of `I2C_READ` has its buffer of zeros. No interrupt is taken. -/
def Obligations.I2cWriteFailsWithAStatus : Prop :=
  (∀ (s : State) (i : Instr) (addr8 : Byte) (bytes payload : List Byte) (idle started address : Nat × Nat)
    (rest : List Nat),
    0 < s.cfg.nI2c → s.cfg.i2cPresent = true → sendsBytes i addr8 bytes payload →
    BitVec.ofNat 32 idle.2 &&& maskBusy = 0 → shows started maskSb → nacks address maskAddr →
    s.script = startAnswers s idle started ++ pollAnswers s 3 address ++ still s 4 ++ rest →
    ∃ t, exec i s = .next t ∧
      TransferEnded s t [.i2cStart 0, .i2cAddr 0 addr8, .i2cStop 0] 3 payload (addr8.setWidth 32) rest) ∧
  (∀ (s : State) (i : Instr) (payload : List Byte) (busy : Nat × Nat) (late : Nat) (rest : List Nat),
    0 < s.cfg.nI2c → s.cfg.i2cPresent = true →
    ((∃ addr8 bytes, i = .i2cWrite 0 addr8 bytes ∧ payload = []) ∨
      (∃ addr8 reg len, len ≠ 0 ∧ i = .i2cRead 0 addr8 reg len ∧ payload = List.replicate len.toNat 0)) →
    BitVec.ofNat 32 busy.2 &&& maskBusy ≠ 0 → s.cfg.i2cTimeout ≤ late →
    s.script = pollAnswers s 2 busy ++ [late] ++ still s 4 ++ rest →
    ∃ t, exec i s = .next t ∧ TransferEnded s t [.i2cStop 0] 2 payload s.i2c.datar rest) ∧
  (∀ (s : State) (i : Instr) (addr8 x : Byte) (sent unsent payload : List Byte) (idle started address : Nat × Nat)
    (x1 x2 : Nat) (acked : List (Nat × Nat)) (refused : Nat × Nat) (rest : List Nat),
    0 < s.cfg.nI2c → s.cfg.i2cPresent = true → sendsBytes i addr8 (sent ++ x :: unsent) payload →
    acked.length = sent.length → BitVec.ofNat 32 idle.2 &&& maskBusy = 0 → shows started maskSb →
    shows address maskAddr → (∀ a ∈ acked, shows a maskBtf) → nacks refused maskBtf →
    s.script =
      startAnswers s idle started ++ addressAnswers s address x1 x2 ++ bytesAnswers s acked ++
        pollAnswers s 3 refused ++ still s 4 ++ rest →
    ∃ t, exec i s = .next t ∧
      TransferEnded s t
        ([.i2cStart 0, .i2cAddr 0 addr8] ++ (sent ++ [x]).map (.i2cData 0) ++ [.i2cStop 0]) 1 payload
        (x.setWidth 32) rest) ∧
  (∀ (s : State) (addr8 : Byte) (reg : List Byte) (len : Byte) (idle started address again refused : Nat × Nat)
    (x1 x2 : Nat) (acked : List (Nat × Nat)) (rest : List Nat),
    0 < s.cfg.nI2c → s.cfg.i2cPresent = true → len ≠ 0 → acked.length = reg.length →
    BitVec.ofNat 32 idle.2 &&& maskBusy = 0 → shows started maskSb → shows address maskAddr →
    (∀ a ∈ acked, shows a maskBtf) → shows again maskSb → nacks refused maskAddr →
    s.script =
      startAnswers s idle started ++
        (if reg = [] then []
          else addressAnswers s address x1 x2 ++ bytesAnswers s acked ++ pollAnswers s 3 again) ++
        still s 1 ++ pollAnswers s 3 refused ++ still s 4 ++ rest →
    ∃ t, exec (.i2cRead 0 addr8 reg len) s = .next t ∧
      TransferEnded s t
        ([.i2cStart 0] ++
          (if reg = [] then [] else [.i2cAddr 0 addr8] ++ reg.map (.i2cData 0) ++ [.i2cStart 0]) ++
          [.i2cAddr 0 (addr8 ||| 1), .i2cStop 0])
        (if reg = [] then 3 else 4) (List.replicate len.toNat 0) ((addr8 ||| 1).setWidth 32) rest)

/-- R181, R182: when every wait sees its flag at the first poll and no interrupt is taken, `I2C_READ` of n bytes writes the
register bytes (if any) and a repeated START, sends the read address, and returns the bytes drawn, the STOP before the last
of them. -/
def Obligations.I2cReadCompletes : Prop :=
  ∀ (s : State) (addr8 : Byte) (reg : List Byte) (len : Byte) (idle started address again readAddress : Nat × Nat)
    (x1 x2 y1 y2 : Nat) (acked : List (Nat × Nat)) (received : List ((Nat × Nat) × Nat)) (rest : List Nat),
    0 < s.cfg.nI2c → s.cfg.i2cPresent = true → len ≠ 0 → acked.length = reg.length → received.length = len.toNat →
    BitVec.ofNat 32 idle.2 &&& maskBusy = 0 → shows started maskSb → shows address maskAddr →
    (∀ a ∈ acked, shows a maskBtf) → shows again maskSb → shows readAddress maskAddr →
    (∀ a ∈ received, shows a.1 maskI2cRxne) →
    s.script =
      startAnswers s idle started ++
        (if reg = [] then []
          else addressAnswers s address x1 x2 ++ bytesAnswers s acked ++ pollAnswers s 3 again) ++
        still s 1 ++ addressAnswers s readAddress y1 y2 ++ received.dropLast.flatMap (receivedAnswers s) ++
        still s 2 ++ received.getLast?.toList.flatMap (receivedAnswers s) ++ still s 1 ++ rest →
    ∃ t, exec (.i2cRead 0 addr8 reg len) s = .next t ∧
      TransferEnded s t
        ([.i2cStart 0] ++
          (if reg = [] then [] else [.i2cAddr 0 addr8] ++ reg.map (.i2cData 0) ++ [.i2cStart 0]) ++
          [.i2cAddr 0 (addr8 ||| 1)] ++ received.dropLast.map (fun a => .i2cRead 0 (BitVec.ofNat 8 a.2)) ++
          [.i2cStop 0] ++ received.getLast?.toList.map (fun a => .i2cRead 0 (BitVec.ofNat 8 a.2)))
        0 (received.map (fun a => BitVec.ofNat 8 a.2)) ((addr8 ||| 1).setWidth 32) rest

/-- R175, R176, R270: a poll of a bounded wait, held or just entered, that does not see its flag ends the transfer with the
wait's status when it sees a NACK that the wait watches for, with `I2C_TIMEOUT` when the clock is past the deadline, and
otherwise leaves the command held, with no register changed. The UART interrupt may run before the poll and before each
action of the end. -/
def Obligations.BoundedWaitEndsAtItsDeadline : Prop :=
  (∀ (s : State) (w : I2cWait) (t0 : Nat) (rest : List Micro), configOk s.cfg = true → s.resetRequest = false →
    s.halted = none → s.irq = false → s.todo = .pollT w t0 :: rest →
    readValue (boundary s) w.reg &&& w.mask ≠ w.want →
    (∀ status, w.nack = some status → readValue (boundary s) w.reg &&& maskAf ≠ 0 →
      ∃ t, step s = .next t ∧ TransferFailed w.bus status s t ∧ t.now = s.now) ∧
    ((w.nack = none ∨ readValue (boundary s) w.reg &&& maskAf = 0) →
      ∃ t, step s = .next t ∧ t.now = s.now + drawValue (readNext (boundary s) w.reg) ∧
        (s.cfg.i2cTimeout ≤ t.now - t0 → TransferFailed w.bus .timeout s t) ∧
        (t.now - t0 < s.cfg.i2cTimeout → SameButInterrupts { s with now := t.now } t ∧ UartInterruptsOnly s t))) ∧
  (∀ (s entered : State) (w : I2cWait) (rest : List Micro), entered = readClock (boundary s) →
    readValue entered w.reg &&& w.mask ≠ w.want →
    (∀ status, w.nack = some status → readValue entered w.reg &&& maskAf ≠ 0 →
      TransferFailed w.bus status s (drain (.awaitT w :: rest) s)) ∧
    ((w.nack = none ∨ readValue entered w.reg &&& maskAf = 0) →
      (s.cfg.i2cTimeout ≤ drawValue (readNext entered w.reg) →
        TransferFailed w.bus .timeout s (drain (.awaitT w :: rest) s)) ∧
      (drawValue (readNext entered w.reg) < s.cfg.i2cTimeout →
        ∃ t, drain (.awaitT w :: rest) s = t ∧ t.todo = .pollT w entered.now :: rest ∧ UartInterruptsOnly s t ∧
          SameButInterrupts { s with now := t.now, todo := t.todo } t)))

/-- R185, R263: an I2C transfer on bus 0 never halts and is never refused: it is held in a bounded wait, or it has
returned exactly one of the five statuses. -/
def Obligations.I2cTransfersEndInAStatus : Prop :=
  ∀ (s : State) (i : Instr), 0 < s.cfg.nI2c → s.cfg.i2cPresent = true →
    ((∃ addr8 bytes, i = .i2cWrite 0 addr8 bytes) ∨ (∃ addr8 reg len, len ≠ 0 ∧ i = .i2cRead 0 addr8 reg len)) →
    ∃ t, exec i s = .next t ∧ t.halted = s.halted ∧
      ((∃ w t0 rest, t.todo = .pollT w t0 :: rest ∧ t.responses = s.responses) ∨
        (t.todo = [] ∧ ∃ (status : I2cStatus) (payload : List Byte),
          t.responses = s.responses ++ [⟨statusWord status, payload⟩]))

/-- R301: an `I2C_WRITE` of n bytes has n + 3 waits; an `I2C_READ` of m register bytes and n bytes has m + n + 5, or
n + 3 when m = 0. -/
def Obligations.I2cWaitCounts : Prop :=
  ∀ (bus addr8 : Byte) (bytes : List Byte) (n : Nat),
    (i2cWriteProg bus addr8 bytes).countP isWait = bytes.length + 3 ∧
      (i2cReadProg bus addr8 bytes n).countP isWait = (if bytes = [] then n + 3 else bytes.length + n + 5)

/-! ### SPI (43_spi) -/

/-- R200: the first `SPI_SETUP` configures gate and pins; a later one changes no register; both return the control
word of the mode and the divisor. -/
def Obligations.SpiSetupConfiguresOnce : Prop :=
  ∀ (s : State) (mode : BitVec 2) (rate : Word), configOk s.cfg = true → s.inCritical = false →
    0 < s.cfg.nSpi → s.cfg.spiPresent = true →
    (s.spiInit = false →
      ∃ t, exec (.spiSetup 0 mode rate) s = .next t ∧ t.spiInit = true ∧
        t.rcc.apb2pcenr =
          s.rcc.apb2pcenr ||| 1#32 <<< 12 ||| 1#32 <<< (2 + s.cfg.spiSck.port.val) |||
            1#32 <<< (2 + s.cfg.spiMosi.port.val) ||| 1#32 <<< (2 + s.cfg.spiMiso.port.val) ∧
        nibble t s.cfg.spiSck = 0xB ∧ nibble t s.cfg.spiMosi = 0xB ∧ nibble t s.cfg.spiMiso = 0x8 ∧
        latch t s.cfg.spiMiso = true ∧ LatchesSameBut [s.cfg.spiMiso] s t ∧
        NibblesSameBut [s.cfg.spiSck, s.cfg.spiMosi, s.cfg.spiMiso] s t ∧
        Responded s t (spiCtrl mode (selectDivisor s.cfg s.cfg.spiPclk rate.toNat)) [] ∧
        PinFrame { s with spiInit := true } t) ∧
    (s.spiInit = true →
      ∃ t, exec (.spiSetup 0 mode rate) s = .next t ∧
        Responded s t (spiCtrl mode (selectDivisor s.cfg s.cfg.spiPclk rate.toNat)) [] ∧ ReadFrame s t)

/-- R202: the selected divisor is the smallest of 2, 4, ..., 128 whose clock does not exceed the rate, or 128 when none
is; so the clock never exceeds the rate unless the divisor is 128, and half the divisor would exceed it. For another
configuration the same between its least and its greatest divisor. -/
def Obligations.SelectedDivisorIsTheSmallest : Prop :=
  (∀ (cfg : Config) (clk rate : Nat), configOk cfg = true →
    selectDivisor cfg clk rate ∈ ([2, 4, 8, 16, 32, 64, 128] : List Nat) ∧
    cfg.spiDivMin ≤ selectDivisor cfg clk rate ∧ selectDivisor cfg clk rate ≤ cfg.spiDivMax ∧
    (clk / selectDivisor cfg clk rate ≤ rate ∨ selectDivisor cfg clk rate = cfg.spiDivMax) ∧
    (∀ d ∈ ([2, 4, 8, 16, 32, 64, 128] : List Nat), cfg.spiDivMin ≤ d → d < selectDivisor cfg clk rate →
      rate < clk / d) ∧
    (cfg.spiDivMin < selectDivisor cfg clk rate → rate < clk / (selectDivisor cfg clk rate / 2))) ∧
  Config.default.spiDivMin = 2 ∧ Config.default.spiDivMax = 128

/-- R98, R99, R112: the control word's fields: CPHA and CPOL from the mode, MSTR, SPE, SSI, SSM 1, BR = log2(div) - 1,
every other bit 0. -/
def Obligations.ControlWordFields : Prop :=
  ∀ (mode : BitVec 2) (k : Fin 7),
    spiCtrl mode (2 ^ (k.val + 1)) =
      BitVec.ofNat 32 (mode.toNat + 2 ^ 2 + 2 ^ 3 * k.val + 2 ^ 6 + 2 ^ 8 + 2 ^ 9)

/-- R204: `SPI_PREPARE` applies a control word that differs from the last one applied, and does nothing otherwise; on an
ungated controller `spi_last` changes alone. -/
def Obligations.SpiPrepareAppliesAChangedWord : Prop :=
  ∀ (s : State) (mode : BitVec 2) (div : Nat) (ctrl : BitVec 16), 0 < s.cfg.nSpi → s.cfg.spiPresent = true →
    div ∈ ([2, 4, 8, 16, 32, 64, 128] : List Nat) → s.cfg.spiDivMin ≤ div → div ≤ s.cfg.spiDivMax →
      ctrl.setWidth 32 = spiCtrl mode div →
    ∃ t, exec (.spiPrepare 0 ctrl) s = .next t ∧ Responded s t 0 [] ∧ t.spiLast = ctrl.setWidth 32 ∧
      t.spi.ctlr1 =
        (if ctrl.setWidth 32 ≠ s.spiLast ∧ clocked s (.spi .ctlr1) = true then ctrl.setWidth 32 else s.spi.ctlr1) ∧
      t.spi.ctlr2 = s.spi.ctlr2 ∧ t.spi.datar = s.spi.datar ∧ t.gpio = s.gpio ∧ t.rcc = s.rcc ∧
      PinFrame { s with spi := t.spi, spiLast := t.spiLast } t

/-- R203: an SPI command on a bus index from `N_SPI` (1 by default) on halts with `HALT_INVALID_BUS`, on an absent
controller with `HALT_UNIMPLEMENTED`, before any effect. -/
def Obligations.SpiBusErrorsHalt : Prop :=
  ∀ (s : State) (i : Instr) (bus : Byte),
    ((∃ mode rate, i = .spiSetup bus mode rate) ∨
      (∃ ctrl, isSpiCtrl s.cfg ctrl = true ∧ i = .spiPrepare bus ctrl) ∨
      (∃ readBack bytes, i = .spiTransfer bus readBack bytes)) →
    (s.cfg.nSpi ≤ bus.toNat → ∃ t, exec i s = .next t ∧ HaltedBy .invalidBus s t) ∧
    (bus.toNat < s.cfg.nSpi → s.cfg.spiPresent = false → ∃ t, exec i s = .next t ∧ HaltedBy .unimplemented s t)

/-- R205, R57: when every wait sees its flag at the first poll and no interrupt is taken, `SPI_TRANSFER` exchanges each byte
in order, returns the bytes received when read_back = 1 and the bytes sent otherwise, and changes nothing but the data
register of a gated controller, which holds the last byte sent. -/
def Obligations.SpiTransferExchangesTheBytes : Prop :=
  ∀ (s : State) (readBack : Bool) (bytes : List Byte) (answers : List (Nat × Nat × Nat)) (busy : Nat) (rest : List Nat),
    0 < s.cfg.nSpi → s.cfg.spiPresent = true → answers.length = bytes.length →
    (∀ a ∈ answers, BitVec.ofNat 32 a.1 &&& maskSpiTxe = maskSpiTxe ∧
      BitVec.ofNat 32 a.2.1 &&& maskSpiRxne = maskSpiRxne) →
    BitVec.ofNat 32 busy &&& maskBsy = 0 →
    s.script =
      still s 1 ++ answers.flatMap (exchangedAnswers s) ++ still s 1 ++ [busy] ++ still s 1 ++ rest →
    ∃ t, exec (.spiTransfer 0 readBack bytes) s = .next t ∧
      t.trace = s.trace ++ (bytes.zip answers).map (fun x => .spiByte 0 x.1 (BitVec.ofNat 8 x.2.2.2)) ∧
      Responded s t 0 (if readBack then answers.map (fun a => BitVec.ofNat 8 a.2.2) else bytes) ∧
      (clocked s (.spi .datar) = true →
        t.spi = { s.spi with datar := (bytes.getLast?.map (fun x => x.setWidth 32)).getD s.spi.datar }) ∧
      (clocked s (.spi .datar) = false → t.spi = s.spi) ∧
      t = { s with
        trace := t.trace, responses := t.responses, spi := t.spi, acc := 0, buf := [], todo := [], script := rest }

/-- R206, R241, R304, R270: a command held in an unbounded wait whose flag is not shown stays held: no response, no event
and no register changed but what the UART interrupt does, which may run before the poll; nothing when none is enabled. -/
def Obligations.UnboundedWaitKeepsTheCommandHeld : Prop :=
  ∀ (s : State) (r : Reg) (mask want : Word) (rest : List Micro), configOk s.cfg = true → s.resetRequest = false →
    s.halted = none → s.irq = false → s.todo = .await r mask want :: rest →
    readValue (boundary s) r &&& mask ≠ want →
    ∃ t, step s = .next t ∧ SameButInterrupts s t ∧ UartInterruptsOnly s t ∧
      (Quiet s → t = { s with script := t.script, drawn := t.drawn })

/-! ### UART (44_uart) -/

/-- R220 to R222: `UART_INIT` opens the gate, programs divisor and enables, and configures the two pins; absent, it
halts. -/
def Obligations.UartInitConfiguresTheUart : Prop :=
  ∀ s : State, configOk s.cfg = true → s.inCritical = false →
    (s.cfg.uartPresent = true →
      ∃ t, exec .uartInit s = .next t ∧
        t.rcc.apb2pcenr =
          s.rcc.apb2pcenr ||| 1#32 <<< 14 ||| 1#32 <<< (2 + s.cfg.uartRx.port.val) |||
            1#32 <<< (2 + s.cfg.uartTx.port.val) ∧
        t.uart.brr = BitVec.ofNat 32 (s.cfg.uartClk / s.cfg.uartBaud) ∧ t.uart.ctlr1 = 0x202C ∧
        t.uart.ctlr2 = s.uart.ctlr2 ∧ t.uart.ctlr3 = s.uart.ctlr3 ∧
        nibble t s.cfg.uartRx = 0x8 ∧ latch t s.cfg.uartRx = true ∧ nibble t s.cfg.uartTx = 0xB ∧
        LatchesSameBut [s.cfg.uartRx] s t ∧ NibblesSameBut [s.cfg.uartRx, s.cfg.uartTx] s t ∧ Responded s t 0 [] ∧
        (∃ es : List Event, t.trace = s.trace ++ es ∧ ∀ e ∈ es, isUartEvent e = true) ∧
        t = { s with
          gpio := t.gpio, rcc := { s.rcc with apb2pcenr := t.rcc.apb2pcenr }, uart := t.uart, trace := t.trace,
          responses := t.responses, acc := 0, buf := [], script := t.script, drawn := t.drawn }) ∧
    (s.cfg.uartPresent = false → ∃ t, exec .uartInit s = .next t ∧ HaltedBy .unimplemented s t)

/-- R223: `UART_TX_KICK` sets `TXEIE` in a gated UART: with no interrupt taken around it, that is all it changes; on an
ungated UART nothing is set. In every case it touches `TXEIE` alone of the control register, the divisor and the other
control registers stay, and the trace grows by UART events alone. On an absent UART it halts (R261). -/
def Obligations.UartTxKickSetsTheEnable : Prop :=
  (∀ s : State, s.inCritical = false → s.cfg.uartPresent = true →
    ∃ t, exec .uartTxKick s = .next t ∧ Responded s t 0 [] ∧
      (∀ n, n < 14 → n ≠ 7 → t.uart.ctlr1.getLsbD n = s.uart.ctlr1.getLsbD n) ∧
      t.uart.brr = s.uart.brr ∧ t.uart.ctlr2 = s.uart.ctlr2 ∧ t.uart.ctlr3 = s.uart.ctlr3 ∧
      (∃ es : List Event, t.trace = s.trace ++ es ∧ ∀ e ∈ es, isUartEvent e = true) ∧
      (clocked s (.uart .ctlr1) = false → t.uart = s.uart) ∧
      t = { s with
        uart := t.uart, trace := t.trace, responses := t.responses, acc := 0, buf := [], script := t.script,
        drawn := t.drawn }) ∧
  (∀ (s : State) (rest : List Nat), s.inCritical = false → s.cfg.uartPresent = true →
    clocked s (.uart .ctlr1) = true →
    (if uartArmed s.uart.ctlr1 then s.script = [0, 0] ++ rest else s.script = [0] ++ rest) →
    ∃ t, exec .uartTxKick s = .next t ∧ t.trace = s.trace ∧
      t.uart = { s.uart with ctlr1 := (s.uart.ctlr1 ||| 0x0080) &&& 0x00003FFF }) ∧
  (∀ s : State, s.cfg.uartPresent = false → ∃ t, exec .uartTxKick s = .next t ∧ HaltedBy .unimplemented s t)

/-- R228, R226, R230: the receive action takes one byte and pushes it when `RXNE` or `ORE` is 1, and does nothing
otherwise. -/
def Obligations.ReceiveHandlerPushesOneByte : Prop :=
  ∀ (s : State) (statr byte : Nat) (rest : List Nat), s.script = statr :: byte :: rest →
    (((BitVec.ofNat 32 statr).getLsbD 5 = true ∨ (BitVec.ofNat 32 statr).getLsbD 3 = true) →
      exec .uartRxHandler s =
        .next { s with script := rest, trace := s.trace ++ [.uartRx (BitVec.ofNat 8 byte)] }) ∧
    ((BitVec.ofNat 32 statr).getLsbD 5 = false → (BitVec.ofNat 32 statr).getLsbD 3 = false →
      exec .uartRxHandler s = .next { s with script := byte :: rest })

/-- R229, R227: on a gated UART the transmit action, when `TXEIE` and `TXE` are 1, sends the host's next byte, or clears
`TXEIE` when the queue is empty; otherwise it does nothing. On an ungated UART it writes no register. -/
def Obligations.TransmitHandlerSendsOrDisables : Prop :=
  (∀ (s : State) (statr pull : Nat) (rest : List Nat), s.script = statr :: pull :: rest →
    clocked s (.uart .ctlr1) = true →
    (s.uart.ctlr1.getLsbD 7 = true → (BitVec.ofNat 32 statr).getLsbD 7 = true →
      (∀ x, pull = x + 1 →
        exec .uartTxHandler s =
          .next { s with
            script := rest, trace := s.trace ++ [.uartTx (BitVec.ofNat 8 x)],
            uart := { s.uart with datar := (BitVec.ofNat 8 x).setWidth 32 } }) ∧
      (pull = 0 →
        exec .uartTxHandler s =
          .next { s with
            script := rest, uart := { s.uart with ctlr1 := s.uart.ctlr1 &&& ~~~0x80#32 &&& 0x3FFF#32 } })) ∧
    (s.uart.ctlr1.getLsbD 7 = false ∨ (BitVec.ofNat 32 statr).getLsbD 7 = false →
      exec .uartTxHandler s = .next { s with script := pull :: rest })) ∧
  (∀ s : State, clocked s (.uart .ctlr1) = false → ∃ t, exec .uartTxHandler s = .next t ∧ SameButInterrupts s t ∧
    t.uart = s.uart)

/-- R225, R270, R271: between commands a pending UART interrupt may be taken: the receive action runs, and the
foreground is where it was. -/
def Obligations.PendingInterruptMayBeTaken : Prop :=
  ∀ (s : State) (line statr byte again : Nat) (rest : List Nat), Ready s → s.stream = [] → s.inCritical = false →
    clocked s (.uart .ctlr1) = true → s.uart.ctlr1.getLsbD 5 = true → s.uart.ctlr1.getLsbD 7 = false →
    (BitVec.ofNat 32 line).getLsbD 5 = true → (BitVec.ofNat 32 statr).getLsbD 5 = true →
    s.script = [1, line, statr, byte, again] ++ rest →
    step s = .next { s with script := rest, trace := s.trace ++ [.uartRx (BitVec.ofNat 8 byte)] }

/-! ### Clocks (45_clock) -/

/-- R240: with each readiness flag shown at its first poll and no interrupt taken, `CLOCK_BRINGUP` completes: it leaves
the PLL selected at the configuration's multiplier (×12 by default) from the external oscillator, the block's gates open
and `clock_done` set, and keeps every other field. The premises on stored bits and history are the invariants of
`EveryStepKeepsReservedBitsClear` and `EveryStepKeepsTheReadinessHistory`. -/
def Obligations.BringupReachesThePll : Prop :=
  ∀ (s : State) (x1 hse x2 x3 pll sws : Nat) (rest : List Nat), s.clockDone = false →
    s.rcc.swPllSeen = false → 2 ≤ s.cfg.pllMul → s.cfg.pllMul ≤ 15 → (BitVec.ofNat 32 hse).getLsbD 17 = true →
    (BitVec.ofNat 32 pll).getLsbD 25 = true → (BitVec.ofNat 32 sws).extractLsb' 2 2 = 2 →
    s.script =
      still s 1 ++ [x1] ++ still s 2 ++ [hse] ++ still s 1 ++ [x2] ++ still s 4 ++ [x3] ++ still s 2 ++ [pll] ++
        still s 3 ++ [sws] ++ still s 6 ++ rest →
    RegistersMasked s → ReadinessHistory s →
    ∃ t, exec .clockBringup s = .next t ∧
      t.rcc =
        ⟨s.rcc.ctlr ||| 0x01010000,
          (s.rcc.cfgr0 &&& ~~~0x003F0003) ||| BitVec.ofNat 32 (2 ^ 16 + 2 ^ 18 * (s.cfg.pllMul - 2) + 2),
          s.rcc.apb2pcenr ||| 0x0000507C, s.rcc.apb1pcenr ||| 0x00200000, true, true, true⟩ ∧
      t.clockDone = true ∧ Responded s t 0 [] ∧
      t = { s with
        rcc := t.rcc, clockDone := true, responses := t.responses, acc := 0, buf := [], todo := [], script := rest }

/-- R246, R242: with the fields the bring-up writes, prescalers ÷1 and `SWS` at the multiplied clock, every bus clock
is 144 MHz from a 12 MHz crystal, as `SYSCLK_TARGET` and the buses' clock parameters say (other parameters that agree,
alike); from reset with `SWS` 0 the clock is the internal oscillator. -/
def Obligations.ClocksAfterBringup : Prop :=
  (∀ (cfg : Config) (cfgr0 : Word),
    (configOk cfg = true → clocksAgree cfg = true →
      cfgr0 &&& 0x003F3FFC = BitVec.ofNat 32 (2 ^ 16 + 2 ^ 18 * (cfg.pllMul - 2) + 8) →
      sysClk cfg cfgr0 = cfg.sysclkTarget ∧ hclk cfg cfgr0 = cfg.sysclkTarget ∧ pclk1 cfg cfgr0 = cfg.i2cPclk ∧
        pclk2 cfg cfgr0 = cfg.spiPclk ∧ pclk2 cfg cfgr0 = cfg.uartClk) ∧
    (cfgr0 &&& 0x0000000C = 0 → sysClk cfg cfgr0 = cfg.hsiFreq)) ∧
  clocksAgree Config.default = true ∧ Config.default.hseFreq = 12000000 ∧ Config.default.pllMul = 12 ∧
    Config.default.sysclkTarget = 144000000

/-! ### Raw access (46_host_access) -/

/-- R255, R57, R77: `REG_READ` returns the register's stored bits with the draw bits drawn, or a draw when its peripheral is
ungated, and changes no register. Whatever the UART's enables, it returns the stored bits of every gated register, but
`TXEIE` of `UART.CTLR1`, which an interrupt may clear before the read. -/
def Obligations.RawReadReturnsTheRegister : Prop :=
  ∀ (s : State) (addr : Word) (r : Reg), regAt s.cfg addr = some r →
    ∃ (t : State) (q : Word), exec (.regRead addr) s = .next t ∧ Responded s t q [] ∧ ReadFrame s t ∧
      (clocked s r = true → isUartReg r = false → q &&& ~~~drawMask s r = shown s r &&& ~~~drawMask s r) ∧
      (clocked s r = true → isUartReg r = true →
        ∀ n, n < 32 → (r = .uart .ctlr1 → n < 14 ∧ n ≠ 7) → (drawMask s r).getLsbD n = false →
          q.getLsbD n = (shown s r).getLsbD n) ∧
      (Quiet s →
        q =
          if clocked s r then shown s r ||| (BitVec.ofNat 32 (drawValue s) &&& drawMask s r)
          else BitVec.ofNat 32 (drawValue s))

/-- R256, R76, R57, R36, R37: `REG_WRITE` stores the writable bits of a gated register, sets and clears latch bits
through `BSHR` and `BCR`, changes no other register, nothing on an ungated peripheral, and no block state. Whatever
the UART's enables, that holds of every register outside the UART; of the UART's own it holds when no interrupt is
taken. The record on which the readiness draws depend takes the bits written to `RCC.CTLR` and `RCC.CFGR0` and nothing else
(R48 (b); log 5). -/
def Obligations.RawWriteStoresTheRegister : Prop :=
  ∀ (s : State) (addr value : Word) (r : Reg), regAt s.cfg addr = some r →
    ∃ t, exec (.regWrite addr value) s = .next t ∧ Responded s t 0 [] ∧
      (∀ r' : Reg,
        (isUartReg r' = false ∨ Quiet s ∧ (r = .uart .ctlr1 → ∃ rest, s.script = 0 :: rest)) →
        (clocked s r = true → r' = r → storeMask r ≠ 0 → storedBits t r' = value &&& storeMask r) ∧
        (clocked s r = false → storedBits t r' = storedBits s r') ∧
        (r' ≠ r → (∀ p : Fin 5, (r = .gpio p .bshr ∨ r = .gpio p .bcr) → r' ≠ .gpio p .outdr) →
          storedBits t r' = storedBits s r')) ∧
      (∀ (p : Fin 5) (n : Fin 16), clocked s r = true →
        (r = .gpio p .bshr →
          t.gpio[p].outdr.getLsbD n.val =
            (if value.getLsbD n.val then true
              else if value.getLsbD (n.val + 16) then false else s.gpio[p].outdr.getLsbD n.val)) ∧
        (r = .gpio p .bcr →
          t.gpio[p].outdr.getLsbD n.val =
            (if value.getLsbD n.val then false else s.gpio[p].outdr.getLsbD n.val))) ∧
      t.rcc.hseOnSeen = (s.rcc.hseOnSeen || (r == .rcc .ctlr && value.getLsbD 16)) ∧
      t.rcc.pllOnSeen = (s.rcc.pllOnSeen || (r == .rcc .ctlr && value.getLsbD 24)) ∧
      t.rcc.swPllSeen = (s.rcc.swPllSeen || (r == .rcc .cfgr0 && value.extractLsb' 0 2 == 2)) ∧
      (isUartReg r = false → UartInterruptsOnly s t) ∧
      (Quiet s → (r = .uart .ctlr1 → ∃ rest, s.script = 0 :: rest) → t.trace = s.trace) ∧
      t = { s with
        gpio := t.gpio, rcc := t.rcc, i2c := t.i2c, spi := t.spi, uart := t.uart, trace := t.trace,
        responses := t.responses, acc := 0, buf := [], script := t.script, drawn := t.drawn }

/-- R36, R37: a write of `BSHR` sets the latch bits named in its low half and clears those named in its high half, the
set winning; a write of `BCR` clears the bits named in its low half. -/
def Obligations.SetAndClearRegisters : Prop :=
  ∀ (s : State) (p : Fin 5) (v : Word) (n : Fin 16), clocked s (.gpio p .outdr) = true →
    (writeReg s (.gpio p .bshr) v).gpio[p].outdr.getLsbD n.val =
        (if v.getLsbD n.val then true else if v.getLsbD (n.val + 16) then false else s.gpio[p].outdr.getLsbD n.val) ∧
      (writeReg s (.gpio p .bcr) v).gpio[p].outdr.getLsbD n.val =
        (if v.getLsbD n.val then false else s.gpio[p].outdr.getLsbD n.val)

/-- R71, R72, R33 to R47: the 51 registers, each at its address under the default base addresses and found there; the
bits of each that a write stores; the bits that a read draws, `HSERDY`, `PLLRDY` and `SWS` once they may be set (R48
(b); log 5). -/
def Obligations.EveryRegisterHasItsAddress : Prop :=
  (∀ p : Fin 5,
      ([.cfglr, .cfghr, .indr, .outdr, .bshr, .bcr] : List GpioReg).map
        (fun r => (regAddr Config.default (.gpio p r)).toNat) =
        [0x00, 0x04, 0x08, 0x0C, 0x10, 0x14].map (fun o => 0x40010800 + 0x400 * p.val + o)) ∧
    ([.ctlr, .cfgr0, .apb2pcenr, .apb1pcenr] : List RccReg).map (fun r => regAddr Config.default (.rcc r)) =
      [0x40021000, 0x40021004, 0x40021018, 0x4002101C] ∧
    ([.ctlr1, .ctlr2, .datar, .star1, .star2, .ckcfgr, .rtr] : List I2cReg).map
      (fun r => regAddr Config.default (.i2c r)) =
      [0x40005400, 0x40005404, 0x40005410, 0x40005414, 0x40005418, 0x4000541C, 0x40005420] ∧
    ([.ctlr1, .ctlr2, .statr, .datar] : List SpiReg).map (fun r => regAddr Config.default (.spi r)) =
      [0x40013000, 0x40013004, 0x40013008, 0x4001300C] ∧
    ([.statr, .datar, .brr, .ctlr1, .ctlr2, .ctlr3] : List UartReg).map (fun r => regAddr Config.default (.uart r)) =
      [0x40013800, 0x40013804, 0x40013808, 0x4001380C, 0x40013810, 0x40013814] ∧
    allRegs.length = 51 ∧ allRegs.Nodup ∧ (∀ r : Reg, r ∈ allRegs) ∧
    (∀ r : Reg, regAt Config.default (regAddr Config.default r) = some r) ∧
    (∀ p : Fin 5,
      ([.cfglr, .cfghr, .indr, .outdr, .bshr, .bcr] : List GpioReg).map (fun r => storeMask (.gpio p r)) =
        [0xFFFFFFFF, 0xFFFFFFFF, 0, 0x0000FFFF, 0, 0]) ∧
    ([.ctlr, .cfgr0, .apb2pcenr, .apb1pcenr] : List RccReg).map (fun r => storeMask (.rcc r)) =
      [0x010D00F9, 0x07FFFFF3, 0xFFFFFFFF, 0x00200000] ∧
    ([.ctlr1, .ctlr2, .datar, .star1, .star2, .ckcfgr, .rtr] : List I2cReg).map (fun r => storeMask (.i2c r)) =
      [0x00008401, 0x0000003F, 0x000000FF, 0, 0, 0x0000CFFF, 0x0000003F] ∧
    ([.ctlr1, .ctlr2, .statr, .datar] : List SpiReg).map (fun r => storeMask (.spi r)) =
      [0x0000FFFF, 0xFFFFFFFF, 0, 0x000000FF] ∧
    ([.statr, .datar, .brr, .ctlr1, .ctlr2, .ctlr3] : List UartReg).map (fun r => storeMask (.uart r)) =
      [0, 0x000001FF, 0x0000FFFF, 0x00003FFF, 0xFFFFFFFF, 0xFFFFFFFF] ∧
    (∀ s : State,
      (∀ p : Fin 5,
        ([.cfglr, .cfghr, .indr, .outdr, .bshr, .bcr] : List GpioReg).map (fun r => drawMask s (.gpio p r)) =
          [0, 0, 0x0000FFFF, 0, 0, 0]) ∧
      drawMask s (.rcc .ctlr) =
        0x0000FF02 ||| (if s.rcc.hseOnSeen then 0x00020000 else 0) ||| (if s.rcc.pllOnSeen then 0x02000000 else 0) ∧
      drawMask s (.rcc .cfgr0) = (if s.rcc.swPllSeen then 0x0000000C else 0) ∧
      drawMask s (.rcc .apb2pcenr) = 0 ∧ drawMask s (.rcc .apb1pcenr) = 0 ∧
      ([.ctlr1, .ctlr2, .datar, .star1, .star2, .ckcfgr, .rtr] : List I2cReg).map (fun r => drawMask s (.i2c r)) =
        [0x00000300, 0, 0x000000FF, 0x000004C7, 0x00000007, 0, 0] ∧
      ([.ctlr1, .ctlr2, .statr, .datar] : List SpiReg).map (fun r => drawMask s (.spi r)) =
        [0, 0, 0x00000083, 0x000000FF] ∧
      ([.statr, .datar, .brr, .ctlr1, .ctlr2, .ctlr3] : List UartReg).map (fun r => drawMask s (.uart r)) =
        [0x000000FF, 0x000001FF, 0, 0, 0, 0])

/-! ### Invariants and rules about the whole machine -/

/-- R76: every step keeps the reserved and read-only bits of every register 0. -/
def Obligations.EveryStepKeepsReservedBitsClear : Prop :=
  ∀ s t : State, RegistersMasked s → step s = .next t → RegistersMasked t

/-- R54, R79: every step leaves the foreground outside critical spans, and no held command leaves one open. R304, R31:
what a step leaves held is the rest of one command, from one of its waits on. -/
def Obligations.EveryStepClosesCriticalSpans : Prop :=
  (∀ s t : State, SpansBetweenSteps s → step s = .next t → SpansBetweenSteps t) ∧
    (∀ s t : State, HeldCommand s → step s = .next t → HeldCommand t)

/-- R48 (b): every step keeps the record on which the readiness draws depend: an oscillator, multiplier or switch that
is on has been written on since reset. -/
def Obligations.EveryStepKeepsTheReadinessHistory : Prop :=
  ∀ s t : State, ReadinessHistory s → step s = .next t → ReadinessHistory t

/-- The four invariants hold after reset. -/
def Obligations.InvariantsHoldAtReset : Prop :=
  RegistersMasked State.reset ∧ SpansBetweenSteps State.reset ∧ ReadinessHistory State.reset ∧ HeldCommand State.reset

/-- R50, R52, R49: no command clears an initialised flag, an initialised channel or `clock_done`, and no step but reset
does. -/
def Obligations.NoCommandClearsAnInitialisedFlag : Prop :=
  (∀ (i : Instr) (s t : State), exec i s = .next t →
    (s.i2cInit = true → t.i2cInit = true) ∧ (s.spiInit = true → t.spiInit = true) ∧
      (s.clockDone = true → t.clockDone = true) ∧ (∀ c : Fin 4, s.motor[c].init = true → t.motor[c].init = true)) ∧
  (∀ s t : State, HeldCommand s → s.resetRequest = false → step s = .next t →
    (s.i2cInit = true → t.i2cInit = true) ∧ (s.spiInit = true → t.spiInit = true) ∧
      (s.clockDone = true → t.clockDone = true) ∧ (∀ c : Fin 4, s.motor[c].init = true → t.motor[c].init = true))

/-- R56, R261: each piece of block state is written by its own commands alone, `halted` by the commands of the table
of halt causes; and so for a step that goes on with a held command. -/
def Obligations.OnlyItsCommandWritesBlockState : Prop :=
  (∀ (i : Instr) (s t : State), exec i s = .next t →
    (isMotorCommand i = false → t.motor = s.motor) ∧ (isI2cSetup i = false → t.i2cInit = s.i2cInit) ∧
      (isSpiSetup i = false → t.spiInit = s.spiInit) ∧ (isSpiPrepare i = false → t.spiLast = s.spiLast) ∧
      (i ≠ .clockBringup → t.clockDone = s.clockDone) ∧ (haltCause s.cfg i = none → t.halted = s.halted) ∧
      (∀ code, haltCause s.cfg i = some code → t.halted = some code) ∧ t.cfg = s.cfg) ∧
  (∀ (i : Instr) (s t : State), HeldFrom s.cfg i s.todo → s.resetRequest = false → step s = .next t →
    t.motor = s.motor ∧ t.i2cInit = s.i2cInit ∧ t.spiInit = s.spiInit ∧ t.spiLast = s.spiLast ∧
      (i ≠ .clockBringup → t.clockDone = s.clockDone) ∧ t.halted = s.halted ∧ t.cfg = s.cfg)

/-- R278, R43: no command but a raw write clears a clock gate of the block, neither when it starts nor when a step
goes on with it from a wait. -/
def Obligations.OnlyRawWritesClearAGate : Prop :=
  (∀ (i : Instr) (s t : State), isRegWrite i = false → exec i s = .next t →
    s.rcc.apb2pcenr &&& t.rcc.apb2pcenr = s.rcc.apb2pcenr ∧
      (s.rcc.apb1pcenr.getLsbD 21 = true → t.rcc.apb1pcenr.getLsbD 21 = true)) ∧
  (∀ s t : State, HeldCommand s → s.todo ≠ [] → s.resetRequest = false → step s = .next t →
    s.rcc.apb2pcenr &&& t.rcc.apb2pcenr = s.rcc.apb2pcenr ∧
      (s.rcc.apb1pcenr.getLsbD 21 = true → t.rcc.apb1pcenr.getLsbD 21 = true))

/-- R104, R55: a command adds events to the trace and at most one response, and removes none; so does every step but
reset. -/
def Obligations.CommandsOnlyExtendTheRecord : Prop :=
  (∀ (i : Instr) (s t : State), exec i s = .next t →
    s.trace <+: t.trace ∧ (t.responses = s.responses ∨ ∃ r : Response, t.responses = s.responses ++ [r])) ∧
  (∀ s t : State, HeldCommand s → s.resetRequest = false → step s = .next t →
    s.trace <+: t.trace ∧ (t.responses = s.responses ∨ ∃ r : Response, t.responses = s.responses ++ [r]))

/-- R260, R262: a command that halts has no register effect and no response. -/
def Obligations.HaltingCommandsHaveNoEffect : Prop :=
  ∀ (i : Instr) (s t : State), s.halted = none → exec i s = .next t → t.halted ≠ none → ∃ code, HaltedBy code s t
end

