-- ==== Sys2Proof/Laws/Encoding.lean ====
section
/-!
SUPPORT. The fields of a header word, payload packing and the virtual identifiers, each with its inverse: what the
round trips of the encoder and the decoder rest on (30_encoding R102 to R108).
-/
namespace Sys2Proof

/-! ### Header fields (R102) -/

theorem opField_header (op : Op) (a : Byte) (b : BitVec 16) : opField (header op a b) = opCode op := by
  apply BitVec.eq_of_getLsbD_eq; intro i hi
  simp only [opField, header, BitVec.getLsbD_extractLsb', BitVec.getLsbD_append]; simp [hi]

theorem aField_header (op : Op) (a : Byte) (b : BitVec 16) : aField (header op a b) = a := by
  apply BitVec.eq_of_getLsbD_eq; intro i hi
  simp only [aField, header, BitVec.getLsbD_extractLsb', BitVec.getLsbD_append]
  simp [hi, show 16 + i < 24 by omega, show ¬16 + i < 16 by omega]

theorem bField_header (op : Op) (a : Byte) (b : BitVec 16) : bField (header op a b) = b := by
  apply BitVec.eq_of_getLsbD_eq; intro i hi
  simp only [bField, header, BitVec.getLsbD_extractLsb', BitVec.getLsbD_append]; simp [hi, show i < 24 by omega]

theorem bHigh_header (op : Op) (a h l : Byte) : bHigh (header op a (bPair h l)) = h := by
  apply BitVec.eq_of_getLsbD_eq; intro i hi
  simp only [bHigh, bPair, header, BitVec.getLsbD_extractLsb', BitVec.getLsbD_append]
  simp [hi, show 8 + i < 24 by omega, show 8 + i < 16 by omega]

theorem bLow_header (op : Op) (a h l : Byte) : bLow (header op a (bPair h l)) = l := by
  apply BitVec.eq_of_getLsbD_eq; intro i hi
  simp only [bLow, bPair, header, BitVec.getLsbD_extractLsb', BitVec.getLsbD_append]
  simp [hi, show i < 24 by omega, show i < 16 by omega]

theorem opOf_opCode (op : Op) : opOf (opCode op) = some op := by cases op <;> decide

/-- A header whose opcode is known is made of its fields. -/
theorem header_of_fields (h : Word) (op : Op) (e : opOf (opField h) = some op) :
    h = header op (aField h) (bField h) := by
  have hop : opCode op = opField h := by simpa using List.find?_some e
  apply BitVec.eq_of_getLsbD_eq; intro i hi
  simp only [header, hop, opField, aField, bField, BitVec.getLsbD_append, BitVec.getLsbD_extractLsb']
  by_cases h1 : i < 16
  · simp [h1, show i < 24 by omega]
  · by_cases h2 : i < 24
    · simp [h1, h2, show i - 16 < 8 by omega, show 16 + (i - 16) = i by omega]
    · simp [h2, show i - 24 < 8 by omega, show 24 + (i - 24) = i by omega]

theorem bField_pair (h : Word) : bField h = bPair (bHigh h) (bLow h) := by
  apply BitVec.eq_of_getLsbD_eq; intro i hi
  simp only [bPair, bHigh, bLow, bField, BitVec.getLsbD_append, BitVec.getLsbD_extractLsb']
  by_cases h1 : i < 8
  · simp [hi, h1]
  · simp [hi, h1, show i - 8 < 8 by omega, show 8 + (i - 8) = i by omega]

/-- The decoder reads the opcode of an encoded header. -/
theorem decode_header (cfg : Config) (op : Op) (a : Byte) (b : BitVec 16) (rest : List Word) :
    decode cfg (header op a b :: rest) = decodeOp cfg op (header op a b) rest := by
  simp [decode, opField_header, opOf_opCode]

/-! ### Operands -/

theorem takeBit_bitA (v : Bool) : takeBit (bitA v) = .ok v := by cases v <;> decide

theorem takeBit_inv {a : Byte} {v : Bool} (h : takeBit a = .ok v) : a = bitA v := by
  unfold takeBit at h
  split at h
  · cases h; subst_vars; rfl
  · split at h
    · cases h; subst_vars; rfl
    · cases h

theorem takeLength_ok {cfg : Config} {n : Nat} (h : isLength cfg n = true) : takeLength cfg n = .ok () := by
  simp [takeLength, h]

theorem takeLength_inv {cfg : Config} {n : Nat} {u : Unit} (h : takeLength cfg n = .ok u) : isLength cfg n = true := by
  unfold takeLength at h
  split at h
  · next k => exact k
  · cases h

/-- The value of a virtual identifier that fits field B (30_encoding R93). -/
theorem virtualId_toNat {cfg : Config} {c : Fin 4} {role : Role} (hc : c.val < cfg.nChannels)
    (hb : cfg.motorIdBase + 2 * cfg.nChannels ≤ 65536) :
    (virtualId cfg c role).toNat =
      cfg.motorIdBase + 2 * c.val + (match role with | .drive => 0 | .direction => 1) := by
  cases role <;> simp [virtualId] <;> omega

theorem virtualOf_virtualId {cfg : Config} {c : Fin 4} {role : Role} (hc : c.val < cfg.nChannels)
    (hb : cfg.motorIdBase + 2 * cfg.nChannels ≤ 65536) : virtualOf cfg (virtualId cfg c role) = some (c, role) := by
  have e := virtualId_toNat (role := role) hc hb
  have hv : isVirtualId cfg (virtualId cfg c role) = true := by
    unfold isVirtualId
    rw [e]
    cases role <;> simp <;> omega
  have h4 := c.isLt
  have hq : ((virtualId cfg c role).toNat - cfg.motorIdBase) / 2 % 4 = c.val := by
    rw [e]; cases role <;> dsimp only <;> omega
  unfold virtualOf
  rw [if_pos hv]
  simp only [Option.some.injEq, Prod.mk.injEq]
  refine ⟨Fin.ext hq, ?_⟩
  rw [e]
  cases role
  · exact if_pos (show (cfg.motorIdBase + 2 * c.val + 0 - cfg.motorIdBase) % 2 = 0 by omega)
  · exact if_neg (show ¬(cfg.motorIdBase + 2 * c.val + 1 - cfg.motorIdBase) % 2 = 0 by omega)

theorem virtualOf_none {cfg : Config} {id : BitVec 16} (h : isVirtualId cfg id = false) : virtualOf cfg id = none := by
  simp [virtualOf, h]

theorem not_virtual {cfg : Config} {id : BitVec 16} (h : virtualOf cfg id = none) : isVirtualId cfg id = false := by
  unfold virtualOf at h
  split at h
  · cases h
  · next hv => simpa using hv

/-- Each virtual identifier names one flag (30_encoding R93). -/
theorem virtualOf_inv {cfg : Config} {id : BitVec 16} {c : Fin 4} {role : Role} (h4 : cfg.nChannels ≤ 4)
    (h : virtualOf cfg id = some (c, role)) : c.val < cfg.nChannels ∧ id = virtualId cfg c role := by
  unfold virtualOf at h
  split at h
  · next hv =>
    replace hv : cfg.motorIdBase ≤ id.toNat ∧ id.toNat < cfg.motorIdBase + 2 * cfg.nChannels := of_decide_eq_true hv
    simp only [Option.some.injEq, Prod.mk.injEq] at h
    obtain ⟨hc, hr⟩ := h
    have hc' : (id.toNat - cfg.motorIdBase) / 2 % 4 = c.val := congrArg Fin.val hc
    have hlt := id.isLt
    refine ⟨by omega, ?_⟩
    apply BitVec.eq_of_toNat_eq
    split at hr <;> subst hr <;> simp [virtualId] <;> omega
  · cases h

/-! ### Payloads (R103) -/

theorem bytesOfWord_wordOfBytes (a b c d : Byte) : bytesOfWord (wordOfBytes a b c d) = [a, b, c, d] := by
  have e0 : (wordOfBytes a b c d).extractLsb' 0 8 = a := by
    apply BitVec.eq_of_getLsbD_eq; intro i hi
    simp only [wordOfBytes, BitVec.getLsbD_extractLsb', BitVec.getLsbD_append]
    simp [hi, show i < 16 by omega, show i < 24 by omega]
  have e1 : (wordOfBytes a b c d).extractLsb' 8 8 = b := by
    apply BitVec.eq_of_getLsbD_eq; intro i hi
    simp only [wordOfBytes, BitVec.getLsbD_extractLsb', BitVec.getLsbD_append]
    simp [hi, show 8 + i < 16 by omega, show 8 + i < 24 by omega]
  have e2 : (wordOfBytes a b c d).extractLsb' 16 8 = c := by
    apply BitVec.eq_of_getLsbD_eq; intro i hi
    simp only [wordOfBytes, BitVec.getLsbD_extractLsb', BitVec.getLsbD_append]
    simp [hi, show ¬16 + i < 16 by omega, show 16 + i < 24 by omega]
  have e3 : (wordOfBytes a b c d).extractLsb' 24 8 = d := by
    apply BitVec.eq_of_getLsbD_eq; intro i hi
    simp only [wordOfBytes, BitVec.getLsbD_extractLsb', BitVec.getLsbD_append]
    simp [hi, show ¬24 + i < 24 by omega]
  simp [bytesOfWord, e0, e1, e2, e3]

theorem wordOfBytes_bytes (w : Word) :
    wordOfBytes (w.extractLsb' 0 8) (w.extractLsb' 8 8) (w.extractLsb' 16 8) (w.extractLsb' 24 8) = w := by
  apply BitVec.eq_of_getLsbD_eq; intro i hi
  simp only [wordOfBytes, BitVec.getLsbD_extractLsb', BitVec.getLsbD_append]
  by_cases h1 : i < 8
  · simp [h1, show i < 16 by omega, show i < 24 by omega]
  · by_cases h2 : i < 16
    · simp [h1, h2, show i < 24 by omega, show i - 8 < 8 by omega, show 8 + (i - 8) = i by omega]
    · by_cases h3 : i < 24
      · simp [h2, h3, show i - 16 < 8 by omega, show 16 + (i - 16) = i by omega]
      · simp [h3, show i - 24 < 8 by omega, show 24 + (i - 24) = i by omega]

theorem packBytes_length : ∀ bytes, (packBytes bytes).length = payloadWords bytes.length
  | [] => rfl
  | [_] => by simp [packBytes, payloadWords]
  | [_, _] => by simp [packBytes, payloadWords]
  | [_, _, _] => by simp [packBytes, payloadWords]
  | _ :: _ :: _ :: _ :: rest => by simp [packBytes, packBytes_length rest, payloadWords]; omega

/-- The bytes of packed words are the payload, then zeros. -/
theorem packBytes_bytes : ∀ bytes, ∃ pad, (packBytes bytes).flatMap bytesOfWord = bytes ++ pad ∧ ∀ b ∈ pad, b = 0
  | [] => ⟨[], by simp [packBytes], by simp⟩
  | [a] => ⟨[0, 0, 0], by simp [packBytes, bytesOfWord_wordOfBytes], by simp⟩
  | [a, b] => ⟨[0, 0], by simp [packBytes, bytesOfWord_wordOfBytes], by simp⟩
  | [a, b, c] => ⟨[0], by simp [packBytes, bytesOfWord_wordOfBytes], by simp⟩
  | a :: b :: c :: d :: rest => by
    obtain ⟨pad, h1, h2⟩ := packBytes_bytes rest
    exact ⟨pad, by simp [packBytes, bytesOfWord_wordOfBytes, h1], h2⟩

theorem takePayload_packBytes (bytes : List Byte) (rest : List Word) :
    takePayload bytes.length (packBytes bytes ++ rest) = .ok (bytes, rest) := by
  unfold takePayload
  obtain ⟨pad, h1, h2⟩ := packBytes_bytes bytes
  have ht : (packBytes bytes ++ rest).take (payloadWords bytes.length) = packBytes bytes := by
    rw [← packBytes_length]; simp
  have hd : (packBytes bytes ++ rest).drop (payloadWords bytes.length) = rest := by rw [← packBytes_length]; simp
  rw [ht, hd, h1, if_neg (by simp [packBytes_length]), if_pos (by simpa using h2)]
  simp

/-- Words whose bytes after the n-th are 0 are the packing of their first n bytes. -/
theorem packBytes_of_words : ∀ (ws : List Word) (n : Nat), payloadWords n = ws.length →
    (∀ b ∈ (ws.flatMap bytesOfWord).drop n, b = 0) →
    packBytes ((ws.flatMap bytesOfWord).take n) = ws ∧ ((ws.flatMap bytesOfWord).take n).length = n
  | [], n, h, _ => by
    have : n = 0 := by simp [payloadWords] at h; omega
    subst this; simp [packBytes]
  | w :: ws, n, h, hz => by
    simp only [payloadWords, List.length_cons] at h
    simp only [List.flatMap_cons] at *
    have hw := wordOfBytes_bytes w
    by_cases hn : n < 4
    · have hws : ws = [] := List.length_eq_zero_iff.mp (by omega)
      subst hws
      simp only [List.flatMap_nil, List.append_nil, bytesOfWord] at *
      have : n = 1 ∨ n = 2 ∨ n = 3 := by omega
      rcases this with e | e | e <;> subst e <;> simp [packBytes] at *
      · obtain ⟨h1, h2, h3⟩ := hz; rw [h1, h2, h3] at hw; exact hw
      · obtain ⟨h1, h2⟩ := hz; rw [h1, h2] at hw; exact hw
      · rw [hz] at hw; exact hw
    · obtain ⟨m, rfl⟩ : ∃ m, n = m + 4 := ⟨n - 4, by omega⟩
      simp only [bytesOfWord, List.cons_append, List.nil_append, List.drop_succ_cons, List.take_succ_cons] at *
      obtain ⟨h1, h2⟩ := packBytes_of_words ws m (by simp [payloadWords]; omega) hz
      exact ⟨by simp [packBytes, h1, hw], by simp [h2]⟩

theorem takePayload_inv {n : Nat} {ws rest : List Word} {bytes : List Byte}
    (h : takePayload n ws = .ok (bytes, rest)) : ws = packBytes bytes ++ rest ∧ bytes.length = n := by
  unfold takePayload at h
  split at h
  · cases h
  · next hl =>
    split at h
    · next hz =>
      cases h
      obtain ⟨h1, h2⟩ := packBytes_of_words (ws.take (payloadWords n)) n (by simp; omega) (by simpa using hz)
      rw [h1]; exact ⟨by simp, h2⟩
    · cases h

theorem lengthByte_toNat (bytes : List Byte) (h : bytes.length ≤ 255) : (lengthByte bytes).toNat = bytes.length := by
  simp [lengthByte]; omega

/-! ### A command cut short -/

/-- What more words m at the end do to a decoding: nothing, but that they are left over; unless it waits for them. -/
def Extends {α : Type} (m : List Word) (a b : Except DecodeError (α × List Word)) : Prop :=
  a = .error .truncated ∨ b = a.map fun x => (x.1, x.2 ++ m)

theorem extends_ok {α : Type} (m rest : List Word) (x : α) : Extends m (.ok (x, rest)) (.ok (x, rest ++ m)) := .inr rfl

theorem extends_take {α β : Type} {m : List Word} {a b : Except DecodeError (α × List Word)}
    {f : α × List Word → Except DecodeError (β × List Word)} (h : Extends m a b)
    (hf : ∀ x rest, Extends m (f (x, rest)) (f (x, rest ++ m))) : Extends m (a >>= f) (b >>= f) := by
  rcases h with rfl | rfl
  · exact .inl rfl
  · cases a with
    | error e => exact .inr rfl
    | ok x => exact hf x.1 x.2

theorem extends_check {α β : Type} {m : List Word} (c : Except DecodeError α)
    {f g : α → Except DecodeError (β × List Word)} (h : ∀ x, Extends m (f x) (g x)) :
    Extends m (c >>= f) (c >>= g) := by
  cases c with
  | error e => exact .inr rfl
  | ok x => exact h x

theorem takeWord_extends (ws m : List Word) : Extends m (takeWord ws) (takeWord (ws ++ m)) := by
  cases ws with
  | nil => exact .inl rfl
  | cons w ws => exact .inr rfl

theorem takePayload_extends (n : Nat) (ws m : List Word) : Extends m (takePayload n ws) (takePayload n (ws ++ m)) := by
  unfold takePayload
  by_cases h : ws.length < payloadWords n
  · exact .inl (if_pos h)
  · have hl : payloadWords n ≤ ws.length := by omega
    have h' : ¬(ws ++ m).length < payloadWords n := by rw [List.length_append]; omega
    rw [if_neg h, if_neg h', List.take_append_of_le_length hl, List.drop_append_of_le_length hl]
    refine .inr ?_
    split <;> rfl

theorem decodeOp_extends (cfg : Config) (op : Op) (h : Word) (rest m : List Word) :
    Extends m (decodeOp cfg op h rest) (decodeOp cfg op h (rest ++ m)) := by
  unfold decodeOp
  cases op <;>
    first
    | exact extends_ok _ _ _
    | exact extends_check _ fun _ => extends_ok _ _ _
    | exact extends_check _ fun _ => extends_take (takeWord_extends _ _) fun _ _ => extends_ok _ _ _
    | exact extends_check _ fun _ => extends_take (takePayload_extends _ _ _) fun _ _ =>
        extends_check _ fun _ => extends_ok _ _ _
    | exact extends_check _ fun _ => extends_take (takeWord_extends _ _) fun _ _ =>
        extends_take (takeWord_extends _ _) fun _ _ => extends_ok _ _ _
    | exact extends_check _ fun _ => extends_take (takeWord_extends _ _) fun _ _ => extends_check _ fun _ =>
        extends_take (takePayload_extends _ _ _) fun _ _ => extends_check _ fun _ => extends_check _ fun _ =>
          extends_ok _ _ _
    | exact extends_check _ fun _ => by split <;> exact extends_ok _ _ _

/-- More words at the end of a stream change nothing of what its words decode to, or why they are refused; they matter to
a command cut short alone. -/
theorem decode_append {cfg : Config} {ws : List Word} (h : decode cfg ws ≠ .error .truncated) (m : List Word) :
    decode cfg (ws ++ m) = (decode cfg ws).map fun x => (x.1, x.2 ++ m) := by
  cases ws with
  | nil => exact absurd rfl h
  | cons w ws =>
    simp only [decode, List.cons_append] at h ⊢
    split
    · rfl
    next op e =>
      rw [e] at h
      exact (decodeOp_extends cfg op w ws m).resolve_left h

end Sys2Proof
end

