-- ==== Sys2Proof/Laws/State.lean ====
section
/-!
SUPPORT. One lemma per field for each named update of the state, so that no later proof unfolds a record update.
-/
namespace Sys2Proof.Machine

/-! ### Ports and channels -/

@[simp] theorem setPort_gpio (s : State) (p : Fin 5) (port : GpioPort) :
    (setPort s p port).gpio = s.gpio.set p port := rfl
@[simp] theorem setPort_cfg (s : State) (p : Fin 5) (port : GpioPort) : (setPort s p port).cfg = s.cfg := rfl
@[simp] theorem setPort_rcc (s : State) (p : Fin 5) (port : GpioPort) : (setPort s p port).rcc = s.rcc := rfl
@[simp] theorem setPort_i2c (s : State) (p : Fin 5) (port : GpioPort) : (setPort s p port).i2c = s.i2c := rfl
@[simp] theorem setPort_spi (s : State) (p : Fin 5) (port : GpioPort) : (setPort s p port).spi = s.spi := rfl
@[simp] theorem setPort_uart (s : State) (p : Fin 5) (port : GpioPort) : (setPort s p port).uart = s.uart := rfl
@[simp] theorem setPort_motor (s : State) (p : Fin 5) (port : GpioPort) : (setPort s p port).motor = s.motor := rfl
@[simp] theorem setPort_i2cInit (s : State) (p : Fin 5) (port : GpioPort) :
    (setPort s p port).i2cInit = s.i2cInit := rfl
@[simp] theorem setPort_spiInit (s : State) (p : Fin 5) (port : GpioPort) :
    (setPort s p port).spiInit = s.spiInit := rfl
@[simp] theorem setPort_spiLast (s : State) (p : Fin 5) (port : GpioPort) :
    (setPort s p port).spiLast = s.spiLast := rfl
@[simp] theorem setPort_clockDone (s : State) (p : Fin 5) (port : GpioPort) :
    (setPort s p port).clockDone = s.clockDone := rfl
@[simp] theorem setPort_halted (s : State) (p : Fin 5) (port : GpioPort) : (setPort s p port).halted = s.halted := rfl
@[simp] theorem setPort_inCritical (s : State) (p : Fin 5) (port : GpioPort) :
    (setPort s p port).inCritical = s.inCritical := rfl
@[simp] theorem setPort_trace (s : State) (p : Fin 5) (port : GpioPort) : (setPort s p port).trace = s.trace := rfl
@[simp] theorem setPort_stream (s : State) (p : Fin 5) (port : GpioPort) : (setPort s p port).stream = s.stream := rfl
@[simp] theorem setPort_irq (s : State) (p : Fin 5) (port : GpioPort) : (setPort s p port).irq = s.irq := rfl
@[simp] theorem setPort_responses (s : State) (p : Fin 5) (port : GpioPort) :
    (setPort s p port).responses = s.responses := rfl
@[simp] theorem setPort_resetRequest (s : State) (p : Fin 5) (port : GpioPort) :
    (setPort s p port).resetRequest = s.resetRequest := rfl
@[simp] theorem setPort_todo (s : State) (p : Fin 5) (port : GpioPort) : (setPort s p port).todo = s.todo := rfl
@[simp] theorem setPort_acc (s : State) (p : Fin 5) (port : GpioPort) : (setPort s p port).acc = s.acc := rfl
@[simp] theorem setPort_buf (s : State) (p : Fin 5) (port : GpioPort) : (setPort s p port).buf = s.buf := rfl
@[simp] theorem setPort_now (s : State) (p : Fin 5) (port : GpioPort) : (setPort s p port).now = s.now := rfl
@[simp] theorem setPort_script (s : State) (p : Fin 5) (port : GpioPort) : (setPort s p port).script = s.script := rfl
@[simp] theorem setPort_drawn (s : State) (p : Fin 5) (port : GpioPort) : (setPort s p port).drawn = s.drawn := rfl

@[simp] theorem setMotor_motor (s : State) (c : Fin 4) (m : Motor) : (setMotor s c m).motor = s.motor.set c m := rfl
@[simp] theorem setMotor_cfg (s : State) (c : Fin 4) (m : Motor) : (setMotor s c m).cfg = s.cfg := rfl
@[simp] theorem setMotor_gpio (s : State) (c : Fin 4) (m : Motor) : (setMotor s c m).gpio = s.gpio := rfl
@[simp] theorem setMotor_rcc (s : State) (c : Fin 4) (m : Motor) : (setMotor s c m).rcc = s.rcc := rfl
@[simp] theorem setMotor_i2c (s : State) (c : Fin 4) (m : Motor) : (setMotor s c m).i2c = s.i2c := rfl
@[simp] theorem setMotor_spi (s : State) (c : Fin 4) (m : Motor) : (setMotor s c m).spi = s.spi := rfl
@[simp] theorem setMotor_uart (s : State) (c : Fin 4) (m : Motor) : (setMotor s c m).uart = s.uart := rfl
@[simp] theorem setMotor_i2cInit (s : State) (c : Fin 4) (m : Motor) : (setMotor s c m).i2cInit = s.i2cInit := rfl
@[simp] theorem setMotor_spiInit (s : State) (c : Fin 4) (m : Motor) : (setMotor s c m).spiInit = s.spiInit := rfl
@[simp] theorem setMotor_spiLast (s : State) (c : Fin 4) (m : Motor) : (setMotor s c m).spiLast = s.spiLast := rfl
@[simp] theorem setMotor_clockDone (s : State) (c : Fin 4) (m : Motor) :
    (setMotor s c m).clockDone = s.clockDone := rfl
@[simp] theorem setMotor_halted (s : State) (c : Fin 4) (m : Motor) : (setMotor s c m).halted = s.halted := rfl
@[simp] theorem setMotor_inCritical (s : State) (c : Fin 4) (m : Motor) :
    (setMotor s c m).inCritical = s.inCritical := rfl
@[simp] theorem setMotor_trace (s : State) (c : Fin 4) (m : Motor) : (setMotor s c m).trace = s.trace := rfl
@[simp] theorem setMotor_stream (s : State) (c : Fin 4) (m : Motor) : (setMotor s c m).stream = s.stream := rfl
@[simp] theorem setMotor_irq (s : State) (c : Fin 4) (m : Motor) : (setMotor s c m).irq = s.irq := rfl
@[simp] theorem setMotor_responses (s : State) (c : Fin 4) (m : Motor) :
    (setMotor s c m).responses = s.responses := rfl
@[simp] theorem setMotor_resetRequest (s : State) (c : Fin 4) (m : Motor) :
    (setMotor s c m).resetRequest = s.resetRequest := rfl
@[simp] theorem setMotor_todo (s : State) (c : Fin 4) (m : Motor) : (setMotor s c m).todo = s.todo := rfl
@[simp] theorem setMotor_acc (s : State) (c : Fin 4) (m : Motor) : (setMotor s c m).acc = s.acc := rfl
@[simp] theorem setMotor_buf (s : State) (c : Fin 4) (m : Motor) : (setMotor s c m).buf = s.buf := rfl
@[simp] theorem setMotor_now (s : State) (c : Fin 4) (m : Motor) : (setMotor s c m).now = s.now := rfl
@[simp] theorem setMotor_script (s : State) (c : Fin 4) (m : Motor) : (setMotor s c m).script = s.script := rfl
@[simp] theorem setMotor_drawn (s : State) (c : Fin 4) (m : Motor) : (setMotor s c m).drawn = s.drawn := rfl

/-! ### Events and responses -/

@[simp] theorem emit_trace (s : State) (e : Event) : (emit s e).trace = s.trace ++ [e] := rfl
@[simp] theorem emit_cfg (s : State) (e : Event) : (emit s e).cfg = s.cfg := rfl
@[simp] theorem emit_gpio (s : State) (e : Event) : (emit s e).gpio = s.gpio := rfl
@[simp] theorem emit_rcc (s : State) (e : Event) : (emit s e).rcc = s.rcc := rfl
@[simp] theorem emit_i2c (s : State) (e : Event) : (emit s e).i2c = s.i2c := rfl
@[simp] theorem emit_spi (s : State) (e : Event) : (emit s e).spi = s.spi := rfl
@[simp] theorem emit_uart (s : State) (e : Event) : (emit s e).uart = s.uart := rfl
@[simp] theorem emit_motor (s : State) (e : Event) : (emit s e).motor = s.motor := rfl
@[simp] theorem emit_i2cInit (s : State) (e : Event) : (emit s e).i2cInit = s.i2cInit := rfl
@[simp] theorem emit_spiInit (s : State) (e : Event) : (emit s e).spiInit = s.spiInit := rfl
@[simp] theorem emit_spiLast (s : State) (e : Event) : (emit s e).spiLast = s.spiLast := rfl
@[simp] theorem emit_clockDone (s : State) (e : Event) : (emit s e).clockDone = s.clockDone := rfl
@[simp] theorem emit_halted (s : State) (e : Event) : (emit s e).halted = s.halted := rfl
@[simp] theorem emit_inCritical (s : State) (e : Event) : (emit s e).inCritical = s.inCritical := rfl
@[simp] theorem emit_stream (s : State) (e : Event) : (emit s e).stream = s.stream := rfl
@[simp] theorem emit_irq (s : State) (e : Event) : (emit s e).irq = s.irq := rfl
@[simp] theorem emit_responses (s : State) (e : Event) : (emit s e).responses = s.responses := rfl
@[simp] theorem emit_resetRequest (s : State) (e : Event) : (emit s e).resetRequest = s.resetRequest := rfl
@[simp] theorem emit_todo (s : State) (e : Event) : (emit s e).todo = s.todo := rfl
@[simp] theorem emit_acc (s : State) (e : Event) : (emit s e).acc = s.acc := rfl
@[simp] theorem emit_buf (s : State) (e : Event) : (emit s e).buf = s.buf := rfl
@[simp] theorem emit_now (s : State) (e : Event) : (emit s e).now = s.now := rfl
@[simp] theorem emit_script (s : State) (e : Event) : (emit s e).script = s.script := rfl
@[simp] theorem emit_drawn (s : State) (e : Event) : (emit s e).drawn = s.drawn := rfl

@[simp] theorem respond_responses (s : State) (q : Word) (payload : List Byte) :
    (respond s q payload).responses = s.responses ++ [⟨q, payload⟩] := rfl
@[simp] theorem respond_acc (s : State) (q : Word) (payload : List Byte) : (respond s q payload).acc = 0 := rfl
@[simp] theorem respond_buf (s : State) (q : Word) (payload : List Byte) : (respond s q payload).buf = [] := rfl
@[simp] theorem respond_cfg (s : State) (q : Word) (payload : List Byte) : (respond s q payload).cfg = s.cfg := rfl
@[simp] theorem respond_gpio (s : State) (q : Word) (payload : List Byte) : (respond s q payload).gpio = s.gpio := rfl
@[simp] theorem respond_rcc (s : State) (q : Word) (payload : List Byte) : (respond s q payload).rcc = s.rcc := rfl
@[simp] theorem respond_i2c (s : State) (q : Word) (payload : List Byte) : (respond s q payload).i2c = s.i2c := rfl
@[simp] theorem respond_spi (s : State) (q : Word) (payload : List Byte) : (respond s q payload).spi = s.spi := rfl
@[simp] theorem respond_uart (s : State) (q : Word) (payload : List Byte) : (respond s q payload).uart = s.uart := rfl
@[simp] theorem respond_motor (s : State) (q : Word) (payload : List Byte) :
    (respond s q payload).motor = s.motor := rfl
@[simp] theorem respond_i2cInit (s : State) (q : Word) (payload : List Byte) :
    (respond s q payload).i2cInit = s.i2cInit := rfl
@[simp] theorem respond_spiInit (s : State) (q : Word) (payload : List Byte) :
    (respond s q payload).spiInit = s.spiInit := rfl
@[simp] theorem respond_spiLast (s : State) (q : Word) (payload : List Byte) :
    (respond s q payload).spiLast = s.spiLast := rfl
@[simp] theorem respond_clockDone (s : State) (q : Word) (payload : List Byte) :
    (respond s q payload).clockDone = s.clockDone := rfl
@[simp] theorem respond_halted (s : State) (q : Word) (payload : List Byte) :
    (respond s q payload).halted = s.halted := rfl
@[simp] theorem respond_inCritical (s : State) (q : Word) (payload : List Byte) :
    (respond s q payload).inCritical = s.inCritical := rfl
@[simp] theorem respond_trace (s : State) (q : Word) (payload : List Byte) :
    (respond s q payload).trace = s.trace := rfl
@[simp] theorem respond_stream (s : State) (q : Word) (payload : List Byte) :
    (respond s q payload).stream = s.stream := rfl
@[simp] theorem respond_irq (s : State) (q : Word) (payload : List Byte) : (respond s q payload).irq = s.irq := rfl
@[simp] theorem respond_resetRequest (s : State) (q : Word) (payload : List Byte) :
    (respond s q payload).resetRequest = s.resetRequest := rfl
@[simp] theorem respond_todo (s : State) (q : Word) (payload : List Byte) : (respond s q payload).todo = s.todo := rfl
@[simp] theorem respond_now (s : State) (q : Word) (payload : List Byte) : (respond s q payload).now = s.now := rfl
@[simp] theorem respond_script (s : State) (q : Word) (payload : List Byte) :
    (respond s q payload).script = s.script := rfl
@[simp] theorem respond_drawn (s : State) (q : Word) (payload : List Byte) :
    (respond s q payload).drawn = s.drawn := rfl

/-! ### Draws -/

/-- A draw changes the draw stream alone. -/
theorem drawNext_eq (s : State) :
    drawNext s = { s with script := (drawNext s).script, drawn := (drawNext s).drawn } := by
  unfold drawNext; split <;> rfl

@[simp] theorem drawNext_cfg (s : State) : (drawNext s).cfg = s.cfg := by rw [drawNext_eq]
@[simp] theorem drawNext_gpio (s : State) : (drawNext s).gpio = s.gpio := by rw [drawNext_eq]
@[simp] theorem drawNext_rcc (s : State) : (drawNext s).rcc = s.rcc := by rw [drawNext_eq]
@[simp] theorem drawNext_i2c (s : State) : (drawNext s).i2c = s.i2c := by rw [drawNext_eq]
@[simp] theorem drawNext_spi (s : State) : (drawNext s).spi = s.spi := by rw [drawNext_eq]
@[simp] theorem drawNext_uart (s : State) : (drawNext s).uart = s.uart := by rw [drawNext_eq]
@[simp] theorem drawNext_motor (s : State) : (drawNext s).motor = s.motor := by rw [drawNext_eq]
@[simp] theorem drawNext_i2cInit (s : State) : (drawNext s).i2cInit = s.i2cInit := by rw [drawNext_eq]
@[simp] theorem drawNext_spiInit (s : State) : (drawNext s).spiInit = s.spiInit := by rw [drawNext_eq]
@[simp] theorem drawNext_spiLast (s : State) : (drawNext s).spiLast = s.spiLast := by rw [drawNext_eq]
@[simp] theorem drawNext_clockDone (s : State) : (drawNext s).clockDone = s.clockDone := by rw [drawNext_eq]
@[simp] theorem drawNext_halted (s : State) : (drawNext s).halted = s.halted := by rw [drawNext_eq]
@[simp] theorem drawNext_inCritical (s : State) : (drawNext s).inCritical = s.inCritical := by rw [drawNext_eq]
@[simp] theorem drawNext_trace (s : State) : (drawNext s).trace = s.trace := by rw [drawNext_eq]
@[simp] theorem drawNext_stream (s : State) : (drawNext s).stream = s.stream := by rw [drawNext_eq]
@[simp] theorem drawNext_irq (s : State) : (drawNext s).irq = s.irq := by rw [drawNext_eq]
@[simp] theorem drawNext_responses (s : State) : (drawNext s).responses = s.responses := by rw [drawNext_eq]
@[simp] theorem drawNext_resetRequest (s : State) : (drawNext s).resetRequest = s.resetRequest := by rw [drawNext_eq]
@[simp] theorem drawNext_todo (s : State) : (drawNext s).todo = s.todo := by rw [drawNext_eq]
@[simp] theorem drawNext_acc (s : State) : (drawNext s).acc = s.acc := by rw [drawNext_eq]
@[simp] theorem drawNext_buf (s : State) : (drawNext s).buf = s.buf := by rw [drawNext_eq]
@[simp] theorem drawNext_now (s : State) : (drawNext s).now = s.now := by rw [drawNext_eq]

@[simp] theorem readClock_now (s : State) : (readClock s).now = s.now + drawValue s := rfl
@[simp] theorem readClock_script (s : State) : (readClock s).script = (drawNext s).script := rfl
@[simp] theorem readClock_drawn (s : State) : (readClock s).drawn = (drawNext s).drawn := rfl
@[simp] theorem readClock_cfg (s : State) : (readClock s).cfg = s.cfg := drawNext_cfg s
@[simp] theorem readClock_gpio (s : State) : (readClock s).gpio = s.gpio := drawNext_gpio s
@[simp] theorem readClock_rcc (s : State) : (readClock s).rcc = s.rcc := drawNext_rcc s
@[simp] theorem readClock_i2c (s : State) : (readClock s).i2c = s.i2c := drawNext_i2c s
@[simp] theorem readClock_spi (s : State) : (readClock s).spi = s.spi := drawNext_spi s
@[simp] theorem readClock_uart (s : State) : (readClock s).uart = s.uart := drawNext_uart s
@[simp] theorem readClock_motor (s : State) : (readClock s).motor = s.motor := drawNext_motor s
@[simp] theorem readClock_i2cInit (s : State) : (readClock s).i2cInit = s.i2cInit := drawNext_i2cInit s
@[simp] theorem readClock_spiInit (s : State) : (readClock s).spiInit = s.spiInit := drawNext_spiInit s
@[simp] theorem readClock_spiLast (s : State) : (readClock s).spiLast = s.spiLast := drawNext_spiLast s
@[simp] theorem readClock_clockDone (s : State) : (readClock s).clockDone = s.clockDone := drawNext_clockDone s
@[simp] theorem readClock_halted (s : State) : (readClock s).halted = s.halted := drawNext_halted s
@[simp] theorem readClock_inCritical (s : State) : (readClock s).inCritical = s.inCritical := drawNext_inCritical s
@[simp] theorem readClock_trace (s : State) : (readClock s).trace = s.trace := drawNext_trace s
@[simp] theorem readClock_stream (s : State) : (readClock s).stream = s.stream := drawNext_stream s
@[simp] theorem readClock_irq (s : State) : (readClock s).irq = s.irq := drawNext_irq s
@[simp] theorem readClock_responses (s : State) : (readClock s).responses = s.responses := drawNext_responses s
@[simp] theorem readClock_resetRequest (s : State) :
    (readClock s).resetRequest = s.resetRequest := drawNext_resetRequest s
@[simp] theorem readClock_todo (s : State) : (readClock s).todo = s.todo := drawNext_todo s
@[simp] theorem readClock_acc (s : State) : (readClock s).acc = s.acc := drawNext_acc s
@[simp] theorem readClock_buf (s : State) : (readClock s).buf = s.buf := drawNext_buf s

/-! ### States that differ in the interrupt context's fields alone -/

theorem same_cfg {s t : State} (h : SameButInterrupts s t) : t.cfg = s.cfg := by rw [h]
theorem same_gpio {s t : State} (h : SameButInterrupts s t) : t.gpio = s.gpio := by rw [h]
theorem same_rcc {s t : State} (h : SameButInterrupts s t) : t.rcc = s.rcc := by rw [h]
theorem same_i2c {s t : State} (h : SameButInterrupts s t) : t.i2c = s.i2c := by rw [h]
theorem same_spi {s t : State} (h : SameButInterrupts s t) : t.spi = s.spi := by rw [h]
theorem same_motor {s t : State} (h : SameButInterrupts s t) : t.motor = s.motor := by rw [h]
theorem same_i2cInit {s t : State} (h : SameButInterrupts s t) : t.i2cInit = s.i2cInit := by rw [h]
theorem same_spiInit {s t : State} (h : SameButInterrupts s t) : t.spiInit = s.spiInit := by rw [h]
theorem same_spiLast {s t : State} (h : SameButInterrupts s t) : t.spiLast = s.spiLast := by rw [h]
theorem same_clockDone {s t : State} (h : SameButInterrupts s t) : t.clockDone = s.clockDone := by rw [h]
theorem same_halted {s t : State} (h : SameButInterrupts s t) : t.halted = s.halted := by rw [h]
theorem same_inCritical {s t : State} (h : SameButInterrupts s t) : t.inCritical = s.inCritical := by rw [h]
theorem same_stream {s t : State} (h : SameButInterrupts s t) : t.stream = s.stream := by rw [h]
theorem same_irq {s t : State} (h : SameButInterrupts s t) : t.irq = s.irq := by rw [h]
theorem same_responses {s t : State} (h : SameButInterrupts s t) : t.responses = s.responses := by rw [h]
theorem same_resetRequest {s t : State} (h : SameButInterrupts s t) : t.resetRequest = s.resetRequest := by rw [h]
theorem same_todo {s t : State} (h : SameButInterrupts s t) : t.todo = s.todo := by rw [h]
theorem same_acc {s t : State} (h : SameButInterrupts s t) : t.acc = s.acc := by rw [h]
theorem same_buf {s t : State} (h : SameButInterrupts s t) : t.buf = s.buf := by rw [h]
theorem same_now {s t : State} (h : SameButInterrupts s t) : t.now = s.now := by rw [h]

end Sys2Proof.Machine
end

