-- ==== Sys2Proof/Laws/Ops.lean ====
section
/-!
SUPPORT. What each shared operation can do: reads, writes, the interrupt context, the runner of actions and waits.
Proofs about commands cite these lemmas instead of unfolding the operations.
-/
namespace Sys2Proof.Machine

/-! ### What a well-formed configuration gives (00_scope R7) -/

theorem configOk_pins {cfg : Config} (h : configOk cfg = true) :
    (ownedPins cfg).Nodup ∧ ∀ pin ∈ ownedPins cfg, ownedPinOk cfg pin = true := by
  simp only [configOk, pinsOk, Bool.and_eq_true, decide_eq_true_eq, List.all_eq_true] at h
  exact h.1.1.1

theorem configOk_baud {cfg : Config} (h : configOk cfg = true) :
    0 < cfg.uartBaud ∧ 16 ≤ uartDivisor cfg ∧ uartDivisor cfg ≤ 65535 := by
  simp only [configOk, baudOk, Bool.and_eq_true, decide_eq_true_eq, and_assoc] at h
  exact ⟨h.2.1, h.2.2.1, h.2.2.2.1⟩

/-- The machine's shape (log 20). -/
structure Shape (cfg : Config) : Prop where
  ports : cfg.nPorts ≤ 5
  bits : cfg.nBits ≤ 16
  channels : cfg.nChannels ≤ 4
  i2c : cfg.nI2c ≤ 1
  spi : cfg.nSpi ≤ 1
  base : cfg.nPhys ≤ cfg.motorIdBase
  top : cfg.motorIdBase + 2 * cfg.nChannels ≤ 65536
  length : cfg.maxLen ≤ 255
  least : isDivisor cfg cfg.spiDivMin = true
  greatest : isDivisor cfg cfg.spiDivMax = true
  multiplier : 2 ≤ cfg.pllMul ∧ cfg.pllMul ≤ 15

theorem configOk_shape {cfg : Config} (h : configOk cfg = true) : Shape cfg := by
  simp only [configOk, shapeOk, Bool.and_eq_true, decide_eq_true_eq, and_assoc] at h
  obtain ⟨-, -, h1, h2, h3, h4, h5, h6, h7, h8, h9, h10, h11, h12, -⟩ := h
  exact ⟨h1, h2, h3, h4, h5, h6, h7, h8, h9, h10, h11, h12⟩

theorem configOk_reset {cfg : Config} (h : configOk cfg = true) : resetOk cfg.reset = true := by
  simp only [configOk, Bool.and_eq_true] at h
  exact h.2

/-! ### The interrupt context's frame as a relation -/

theorem same_refl (s : State) : SameButInterrupts s s := rfl

theorem same_trans {s t u : State} (h : SameButInterrupts s t) (k : SameButInterrupts t u) : SameButInterrupts s u := by
  unfold SameButInterrupts at *; rw [k, h]

/-- The part of `UartInterruptsOnly` that does not ask for an interrupt enable. -/
def UartContext (s t : State) : Prop :=
  t.uart.brr = s.uart.brr ∧ t.uart.ctlr2 = s.uart.ctlr2 ∧ t.uart.ctlr3 = s.uart.ctlr3 ∧
    (∀ n, n < 14 → n ≠ 7 → t.uart.ctlr1.getLsbD n = s.uart.ctlr1.getLsbD n) ∧
    (s.uart.ctlr1.getLsbD 7 = false → t.uart = s.uart) ∧
    (∃ es : List Event, t.trace = s.trace ++ es ∧ ∀ e ∈ es, isUartEvent e = true)

theorem context_refl (s : State) : UartContext s s :=
  ⟨rfl, rfl, rfl, fun _ _ _ => rfl, fun _ => rfl, [], by simp, by simp⟩

theorem context_trans {s t u : State} (h : UartContext s t) (k : UartContext t u) : UartContext s u := by
  obtain ⟨h1, h2, h3, h4, h5, es, h6, h7⟩ := h
  obtain ⟨k1, k2, k3, k4, k5, fs, k6, k7⟩ := k
  refine ⟨k1.trans h1, k2.trans h2, k3.trans h3, fun n a b => (k4 n a b).trans (h4 n a b),
    fun q => (k5 (by rw [h5 q]; exact q)).trans (h5 q), es ++ fs, ?_, ?_⟩
  · rw [k6, h6, List.append_assoc]
  · intro e he; exact (List.mem_append.mp he).elim (h7 e) (k7 e)

/-- A state with the same UART and trace is in the context relation. -/
theorem context_of_eq {s t : State} (h : t.uart = s.uart) (k : t.trace = s.trace) : UartContext s t := by
  have := context_refl s
  unfold UartContext at *; rw [h, k]; exact this

theorem interruptsOnly_iff (s t : State) :
    UartInterruptsOnly s t ↔
      UartContext s t ∧ (uartArmed s.uart.ctlr1 = false → t.uart = s.uart ∧ t.trace = s.trace) := by
  unfold UartInterruptsOnly UartContext; tauto

theorem interruptsOnly_of_eq {s t : State} (h : t.uart = s.uart) (k : t.trace = s.trace) : UartInterruptsOnly s t :=
  (interruptsOnly_iff s t).mpr ⟨context_of_eq h k, fun _ => ⟨h, k⟩⟩

theorem interruptsOnly_trans {s t u : State} (h : UartInterruptsOnly s t) (k : UartInterruptsOnly t u) :
    UartInterruptsOnly s u := by
  rw [interruptsOnly_iff] at *
  refine ⟨context_trans h.1 k.1, fun q => ?_⟩
  obtain ⟨a, b⟩ := h.2 q
  obtain ⟨c, d⟩ := k.2 (by rw [a]; exact q)
  exact ⟨c.trans a, d.trans b⟩

/-! ### Reads -/

/-- Whether a register is clocked depends on the RCC registers alone. -/
theorem clocked_congr {s t : State} (h : t.rcc = s.rcc) (r : Reg) : clocked t r = clocked s r := by
  cases r <;> simp [clocked, h]

/-- The draw bits of a register depend on the RCC history alone. -/
theorem drawMask_congr {s t : State} (h : t.rcc = s.rcc) (r : Reg) : drawMask t r = drawMask s r := by
  cases r with
  | rcc r => cases r <;> simp [drawMask, h]
  | gpio p r => cases r <;> rfl
  | i2c r => cases r <;> rfl
  | spi r => cases r <;> rfl
  | uart r => cases r <;> rfl

theorem readNext_same (s : State) (r : Reg) : SameButInterrupts s (readNext s r) := by
  unfold readNext; split
  · unfold SameButInterrupts; rw [drawNext_eq]
  · rfl

theorem readNext_uart (s : State) (r : Reg) : (readNext s r).uart = s.uart := by
  unfold readNext; split <;> simp

theorem readNext_trace (s : State) (r : Reg) : (readNext s r).trace = s.trace := by
  unfold readNext; split <;> simp

/-- A clocked register without draw bits reads as stored. -/
theorem readValue_calm {s : State} {r : Reg} (h : clocked s r = true) (k : drawMask s r = 0) :
    readValue s r = shown s r := by
  simp [readValue, h, k]

/-- A read of a clocked register without draw bits consumes no draw. -/
theorem readNext_calm {s : State} {r : Reg} (h : clocked s r = true) (k : drawMask s r = 0) : readNext s r = s := by
  simp [readNext, readDraws, h, k]

/-! ### Writes -/

/-- A write to an unclocked peripheral is ignored (10_state R57). -/
theorem writeReg_unclocked {s : State} {r : Reg} (h : clocked s r = false) (v : Word) : writeReg s r v = s := by
  simp [writeReg, h]

theorem writeReg_clocked {s : State} {r : Reg} (h : clocked s r = true) (v : Word) : writeReg s r v = storeReg s r v := by
  simp [writeReg, h]

/-- A register write changes registers alone. -/
theorem writeReg_frame (s : State) (r : Reg) (v : Word) :
    writeReg s r v =
      { s with
        gpio := (writeReg s r v).gpio, rcc := (writeReg s r v).rcc, i2c := (writeReg s r v).i2c,
        spi := (writeReg s r v).spi, uart := (writeReg s r v).uart } := by
  unfold writeReg storeReg
  split
  · cases r with
    | gpio p r => cases r <;> rfl
    | rcc r => cases r <;> rfl
    | i2c r => cases r <;> rfl
    | spi r => cases r <;> rfl
    | uart r => cases r <;> rfl
  · rfl

/-! ### The interrupt context -/

theorem uartRxAction_same (s : State) : SameButInterrupts s (uartRxAction s) := by
  unfold uartRxAction
  have h := readNext_same s (.uart .statr)
  have k := readNext_same (readNext s (.uart .statr)) (.uart .datar)
  dsimp only
  split
  · exact same_trans (same_trans h k) rfl
  · exact h

theorem emit_context (s : State) {e : Event} (h : isUartEvent e = true) : UartContext s (emit s e) :=
  ⟨rfl, rfl, rfl, fun _ _ _ => rfl, fun _ => rfl, [e], rfl, by simpa using h⟩

theorem uartRxAction_context (s : State) : UartContext s (uartRxAction s) := by
  unfold uartRxAction
  dsimp only
  split
  · refine context_trans ?_ (emit_context _ rfl)
    exact context_of_eq (by rw [readNext_uart, readNext_uart]) (by rw [readNext_trace, readNext_trace])
  · exact context_of_eq (readNext_uart _ _) (readNext_trace _ _)

theorem writeUart_same (s : State) (r : UartReg) (v : Word) : SameButInterrupts s (writeReg s (.uart r) v) := by
  unfold writeReg; split
  · cases r <;> rfl
  · rfl

theorem drawNext_same (s : State) : SameButInterrupts s (drawNext s) := by
  unfold SameButInterrupts; rw [drawNext_eq]

theorem uartTxAction_same (s : State) : SameButInterrupts s (uartTxAction s) := by
  unfold uartTxAction
  dsimp only
  have h := same_trans (readNext_same s (.uart .ctlr1)) (readNext_same (readNext s (.uart .ctlr1)) (.uart .statr))
  have k := same_trans h (drawNext_same _)
  split
  · split
    · exact same_trans (same_trans k (writeUart_same _ _ _)) rfl
    · exact same_trans k (writeUart_same _ _ _)
  · exact h

/-- On a clocked UART the handler's test of `TXEIE` reads the stored bit. -/
theorem txeie_stored {s : State} (h : clocked s (.uart .ctlr1) = true) :
    (readValue s (.uart .ctlr1) &&& maskTxeie != 0) = s.uart.ctlr1.getLsbD 7 := by
  rw [readValue_calm h rfl]
  show (s.uart.ctlr1 &&& 0x80#32 != 0) = _
  rw [show (0x80#32) = BitVec.twoPow 32 7 from by decide, BitVec.and_twoPow]
  cases s.uart.ctlr1.getLsbD 7 <;> decide

theorem uartTxAction_context (s : State) : UartContext s (uartTxAction s) := by
  unfold uartTxAction
  dsimp only
  have hcl : ∀ r, clocked (drawNext (readNext (readNext s (.uart .ctlr1)) (.uart .statr))) (.uart r) =
      clocked s (.uart .ctlr1) := fun r => by
    have e : clocked s (.uart r) = clocked s (.uart .ctlr1) := rfl
    rw [← e]; apply clocked_congr; simp [same_rcc (readNext_same _ _)]
  split
  next hg =>
   have hset : clocked s (.uart .ctlr1) = true → s.uart.ctlr1.getLsbD 7 = true := fun hc => by
    rw [← txeie_stored hc]; exact (Bool.and_eq_true _ _ ▸ hg).1
   split
   · refine context_trans ?_ (emit_context _ rfl)
     unfold writeReg
     split
     next hc =>
        have hs := hset ((hcl _).symm.trans hc)
        refine ⟨by simp [readNext_uart, storeReg], by simp [readNext_uart, storeReg], by simp [readNext_uart, storeReg],
          by simp [readNext_uart, storeReg], fun h => ?_, [], by simp [readNext_trace, storeReg], by simp⟩
        rw [hs] at h; cases h
     next => exact context_of_eq (by simp [readNext_uart]) (by simp [readNext_trace])
   · unfold writeReg
     split
     next hc =>
        have hc' := (hcl _).symm.trans hc
        have hs := hset hc'
        rw [readValue_calm hc' rfl]
        refine ⟨?_, ?_, ?_, ?_, ?_, [], ?_, ?_⟩
        · simp [storeReg, readNext_uart]
        · simp [storeReg, readNext_uart]
        · simp [storeReg, readNext_uart]
        · intro n hn h7
          have : n = 0 ∨ n = 1 ∨ n = 2 ∨ n = 3 ∨ n = 4 ∨ n = 5 ∨ n = 6 ∨ n = 8 ∨ n = 9 ∨ n = 10 ∨ n = 11 ∨ n = 12 ∨ n = 13 := by
            omega
          rcases this with h | h | h | h | h | h | h | h | h | h | h | h | h <;> subst h <;>
            simp [storeReg, storeMask, shown, maskTxeie]
        · intro h; rw [hs] at h; cases h
        · simp [storeReg, readNext_trace]
        · simp
     next => exact context_of_eq (by simp [readNext_uart]) (by simp [readNext_trace])
  next => exact context_of_eq (by simp [readNext_uart]) (by simp [readNext_trace])

theorem takeInterrupt_same (s : State) : SameButInterrupts s (takeInterrupt s) :=
  same_trans (uartRxAction_same s) (uartTxAction_same _)

theorem takeInterrupt_context (s : State) : UartContext s (takeInterrupt s) :=
  context_trans (uartRxAction_context s) (uartTxAction_context _)

theorem offerInterrupt_same (s : State) : SameButInterrupts s (offerInterrupt s) := by
  unfold offerInterrupt
  split
  · split
    · exact same_trans (drawNext_same s) (takeInterrupt_same _)
    · exact drawNext_same s
  · rfl

theorem offerInterrupt_only (s : State) : UartInterruptsOnly s (offerInterrupt s) := by
  rw [interruptsOnly_iff]
  unfold offerInterrupt
  split
  next ha =>
    refine ⟨?_, fun h => by simp [h] at ha⟩
    have hd : UartContext s (drawNext s) := context_of_eq (by simp) (by simp)
    split
    · exact context_trans hd (takeInterrupt_context _)
    · exact hd
  next => exact ⟨context_refl s, fun _ => ⟨rfl, rfl⟩⟩

theorem offerInterrupts_same (k : Nat) (s : State) : SameButInterrupts s (offerInterrupts k s) := by
  induction k generalizing s with
  | zero => rfl
  | succ k ih => exact same_trans (offerInterrupt_same s) (ih _)

theorem offerInterrupts_only (k : Nat) (s : State) : UartInterruptsOnly s (offerInterrupts k s) := by
  induction k generalizing s with
  | zero => exact interruptsOnly_of_eq rfl rfl
  | succ k ih => exact interruptsOnly_trans (offerInterrupt_only s) (ih _)

/-- A boundary changes the interrupt context's fields alone. -/
theorem boundary_same (s : State) : SameButInterrupts s (boundary s) := by
  unfold boundary; split
  · exact same_trans (drawNext_same s) (offerInterrupts_same _ _)
  · rfl

/-- What the interrupt context may have done at a boundary. -/
theorem boundary_only (s : State) : UartInterruptsOnly s (boundary s) := by
  unfold boundary; split
  · exact interruptsOnly_trans (interruptsOnly_of_eq (by simp) (by simp)) (offerInterrupts_only _ _)
  · exact interruptsOnly_of_eq rfl rfl

/-- With no interrupt enable set a boundary does nothing (44_uart R224). -/
theorem boundary_quiet {s : State} (h : Quiet s) : boundary s = s := by
  unfold Quiet at h; simp [boundary, interruptible, h]

/-! ### Boundaries at which no interrupt is taken -/

theorem still_quiet {s : State} (h : Quiet s) (n : Nat) : still s n = [] := by
  unfold Quiet at h; simp [still, interruptible, h]

theorem still_add (s : State) (m n : Nat) : still s (m + n) = still s m ++ still s n := by
  unfold still; split
  · exact (List.replicate_append_replicate).symm
  · rfl

/-- The answers depend on the UART's enables, the critical span and the halt alone. -/
theorem still_congr {s t : State} (h : t.uart = s.uart) (k : t.inCritical = s.inCritical) (l : t.halted = s.halted) :
    still t = still s := by
  funext n; unfold still interruptible; rw [h, k, l]

/-- A boundary whose answer is that no interrupt is taken uses up that answer and does nothing else. -/
theorem boundary_still {s : State} {rest : List Nat} (h : s.script = still s 1 ++ rest) :
    boundary s = { s with script := rest } := by
  unfold boundary
  unfold still at h
  split
  next k =>
    rw [if_pos k] at h
    have hv : drawValue s = 0 := by simp [drawValue, h]
    have hn : drawNext s = { s with script := rest } := by simp [drawNext, h]
    rw [hv, hn]; rfl
  next k =>
    rw [if_neg k] at h
    cases s; simp_all

/-- Inside a critical span a boundary does nothing (20_memory R79). -/
theorem boundary_critical {s : State} (h : s.inCritical = true) : boundary s = s := by simp [boundary, interruptible, h]

/-- A halted block takes no interrupt (60_exceptions R260). -/
theorem boundary_halted {s : State} (h : s.halted ≠ none) : boundary s = s := by
  cases k : s.halted with
  | none => exact absurd k h
  | some c => simp [boundary, interruptible, k]

@[simp] theorem boundary_cfg (s : State) : (boundary s).cfg = s.cfg := same_cfg (boundary_same s)
@[simp] theorem boundary_gpio (s : State) : (boundary s).gpio = s.gpio := same_gpio (boundary_same s)
@[simp] theorem boundary_rcc (s : State) : (boundary s).rcc = s.rcc := same_rcc (boundary_same s)
@[simp] theorem boundary_i2c (s : State) : (boundary s).i2c = s.i2c := same_i2c (boundary_same s)
@[simp] theorem boundary_spi (s : State) : (boundary s).spi = s.spi := same_spi (boundary_same s)
@[simp] theorem boundary_motor (s : State) : (boundary s).motor = s.motor := same_motor (boundary_same s)
@[simp] theorem boundary_i2cInit (s : State) : (boundary s).i2cInit = s.i2cInit := same_i2cInit (boundary_same s)
@[simp] theorem boundary_spiInit (s : State) : (boundary s).spiInit = s.spiInit := same_spiInit (boundary_same s)
@[simp] theorem boundary_spiLast (s : State) : (boundary s).spiLast = s.spiLast := same_spiLast (boundary_same s)
@[simp] theorem boundary_clockDone (s : State) : (boundary s).clockDone = s.clockDone :=
  same_clockDone (boundary_same s)
@[simp] theorem boundary_haltedField (s : State) : (boundary s).halted = s.halted := same_halted (boundary_same s)
@[simp] theorem boundary_inCritical (s : State) : (boundary s).inCritical = s.inCritical :=
  same_inCritical (boundary_same s)
@[simp] theorem boundary_stream (s : State) : (boundary s).stream = s.stream := same_stream (boundary_same s)
@[simp] theorem boundary_irq (s : State) : (boundary s).irq = s.irq := same_irq (boundary_same s)
@[simp] theorem boundary_responses (s : State) : (boundary s).responses = s.responses :=
  same_responses (boundary_same s)
@[simp] theorem boundary_resetRequest (s : State) : (boundary s).resetRequest = s.resetRequest :=
  same_resetRequest (boundary_same s)
@[simp] theorem boundary_todo (s : State) : (boundary s).todo = s.todo := same_todo (boundary_same s)
@[simp] theorem boundary_acc (s : State) : (boundary s).acc = s.acc := same_acc (boundary_same s)
@[simp] theorem boundary_buf (s : State) : (boundary s).buf = s.buf := same_buf (boundary_same s)
@[simp] theorem boundary_now (s : State) : (boundary s).now = s.now := same_now (boundary_same s)

@[simp] theorem clocked_boundary (s : State) (r : Reg) : clocked (boundary s) r = clocked s r :=
  clocked_congr (boundary_rcc s) r

/-! ### The runner -/

@[simp] theorem runActs_nil (s : State) : runActs [] s = s := rfl

theorem runActs_cons (a : Action) (as : List Action) (s : State) :
    runActs (a :: as) s = runActs as (act (boundary s) a) := rfl

theorem runActs_append (as bs : List Action) (s : State) : runActs (as ++ bs) s = runActs bs (runActs as s) := by
  induction as generalizing s with
  | nil => rfl
  | cons a as ih => exact ih _

theorem drain_act (a : Action) (rest : List Micro) (s : State) :
    drain (.act a :: rest) s = drain rest (act (boundary s) a) := rfl

/-- The actions of a command run before what follows them. -/
theorem drain_acts (as : List Action) (rest : List Micro) (s : State) :
    drain (acts as ++ rest) s = drain rest (runActs as s) := by
  induction as generalizing s with
  | nil => rfl
  | cons a as ih => exact ih _

/-- A relation that every boundary, action, draw and response keeps is kept by a list of actions. -/
theorem runActs_induction {P : State → Prop} (hb : ∀ s, P s → P (boundary s)) (ha : ∀ s a, P s → P (act s a))
    (as : List Action) (s : State) (h : P s) : P (runActs as s) := by
  induction as generalizing s with
  | nil => exact h
  | cons a as ih => exact ih _ (ha _ a (hb s h))

end Sys2Proof.Machine
end

