-- ==== Sys2Proof/Laws/PerInstr.lean ====
section
/-!
SUPPORT. Statements about every instruction as syntax, one lemma per constructor. `EncodeLength`: the encoding of a
well-formed command begins with a header that names the command's opcode and announces exactly its number of words
(30_encoding R102, R105, R109).
-/
namespace Sys2Proof.Laws.EncodeLength

/-- The encoding is a header and operand words; the header's OP byte is the command's, and the length that R109 reads
from the header is the encoding's. -/
def Statement (i : Instr) : Prop :=
  ∀ cfg : Config, cfg.maxLen ≤ 255 → i.wellFormed cfg = true →
    ∃ (h : Word) (rest : List Word), encode cfg i = h :: rest ∧ opOf (opField h) = some i.op ∧
      (encode cfg i).length = commandWords h

/-- A command from its header and the words after it. -/
theorem of_header {cfg : Config} {i : Instr} {a : Byte} {b : BitVec 16} {rest : List Word}
    (he : encode cfg i = header i.op a b :: rest)
    (hn : rest.length = operandWords i.op + payloadWords (payloadLength i.op (header i.op a b))) :
    ∃ (h : Word) (rest : List Word), encode cfg i = h :: rest ∧ opOf (opField h) = some i.op ∧
      (encode cfg i).length = commandWords h := by
  have ho : opOf (opField (header i.op a b)) = some i.op := by rw [opField_header, opOf_opCode]
  refine ⟨_, rest, he, ho, ?_⟩
  rw [he, commandWords, ho, List.length_cons, hn]
  simp only; omega

/-- A command without a payload. -/
theorem of_plain {i : Instr} {a : Byte} (b : Config → BitVec 16) {rest : List Word}
    (he : ∀ cfg, encode cfg i = header i.op a (b cfg) :: rest) (hn : rest.length = operandWords i.op)
    (hp : ∀ h, payloadLength i.op h = 0) : Statement i :=
  fun cfg _ _ => of_header (he cfg) (by rw [hn, hp]; rfl)

/-- The announced length of a well-formed payload. -/
theorem payload_length {cfg : Config} {bytes : List Byte} (hm : cfg.maxLen ≤ 255)
    (h : isLength cfg bytes.length = true) (op : Op) (a l : Byte) :
    (bHigh (header op a (bPair (lengthByte bytes) l))).toNat = bytes.length := by
  rw [bHigh_header, lengthByte_toNat _ ((of_decide_eq_true h).trans hm)]

theorem gpioSetup (id : BitVec 16) (v : Bool) : Statement (.gpioSetup id v) :=
  of_plain (fun _ => id) (fun _ => rfl) rfl fun _ => rfl
theorem motorSetup (c : Fin 4) (role : Role) (v : Bool) : Statement (.motorSetup c role v) :=
  of_plain (fun cfg => virtualId cfg c role) (fun _ => rfl) rfl fun _ => rfl
theorem gpioWrite (id : BitVec 16) (v : Bool) : Statement (.gpioWrite id v) :=
  of_plain (fun _ => id) (fun _ => rfl) rfl fun _ => rfl
theorem motorWrite (c : Fin 4) (role : Role) (v : Bool) : Statement (.motorWrite c role v) :=
  of_plain (fun cfg => virtualId cfg c role) (fun _ => rfl) rfl fun _ => rfl
theorem gpioToggle (id : BitVec 16) : Statement (.gpioToggle id) :=
  of_plain (fun _ => id) (fun _ => rfl) rfl fun _ => rfl
theorem motorToggle (c : Fin 4) (role : Role) : Statement (.motorToggle c role) :=
  of_plain (fun cfg => virtualId cfg c role) (fun _ => rfl) rfl fun _ => rfl
theorem gpioReset (id : BitVec 16) (v : Bool) : Statement (.gpioReset id v) :=
  of_plain (fun _ => id) (fun _ => rfl) rfl fun _ => rfl
theorem motorReset (c : Fin 4) (role : Role) (v : Bool) : Statement (.motorReset c role v) :=
  of_plain (fun cfg => virtualId cfg c role) (fun _ => rfl) rfl fun _ => rfl
theorem gpioInputSetup (id : BitVec 16) (pull : Byte) : Statement (.gpioInputSetup id pull) :=
  of_plain (fun _ => id) (fun _ => rfl) rfl fun _ => rfl
theorem gpioInputRead (id : BitVec 16) : Statement (.gpioInputRead id) :=
  of_plain (fun _ => id) (fun _ => rfl) rfl fun _ => rfl
theorem i2cSetup (bus : Byte) (addr7 : BitVec 7) (rate : Word) : Statement (.i2cSetup bus addr7 rate) :=
  of_plain (fun _ => addr7.setWidth 16) (fun _ => rfl) rfl fun _ => rfl

theorem i2cWrite (bus addr8 : Byte) (bytes : List Byte) : Statement (.i2cWrite bus addr8 bytes) := by
  intro cfg hm h
  have hp : isLength cfg bytes.length = true := ((Bool.and_eq_true ..).mp h).2
  refine of_header (i := .i2cWrite bus addr8 bytes) rfl ?_
  rw [packBytes_length]
  simp only [Instr.op, operandWords, payloadLength, payload_length hm hp]; omega

theorem i2cRead (bus addr8 : Byte) (reg : List Byte) (len : Byte) : Statement (.i2cRead bus addr8 reg len) := by
  intro cfg hm h
  have hp : isLength cfg reg.length = true := ((Bool.and_eq_true ..).mp h).2
  refine of_header (i := .i2cRead bus addr8 reg len) rfl ?_
  rw [List.length_cons, packBytes_length]
  simp only [Instr.op, operandWords, payloadLength, payload_length hm hp]; omega

theorem spiSetup (bus : Byte) (mode : BitVec 2) (rate : Word) : Statement (.spiSetup bus mode rate) :=
  of_plain (fun _ => mode.setWidth 16) (fun _ => rfl) rfl fun _ => rfl
theorem spiPrepare (bus : Byte) (ctrl : BitVec 16) : Statement (.spiPrepare bus ctrl) :=
  of_plain (fun _ => ctrl) (fun _ => rfl) rfl fun _ => rfl

theorem spiTransfer (bus : Byte) (readBack : Bool) (bytes : List Byte) :
    Statement (.spiTransfer bus readBack bytes) := by
  intro cfg hm h
  refine of_header (i := .spiTransfer bus readBack bytes) rfl ?_
  rw [packBytes_length]
  simp only [Instr.op, operandWords, payloadLength, payload_length hm (bytes := bytes) h]; omega

theorem uartInit : Statement .uartInit := of_plain (fun _ => 0) (fun _ => rfl) rfl fun _ => rfl
theorem uartTxKick : Statement .uartTxKick := of_plain (fun _ => 0) (fun _ => rfl) rfl fun _ => rfl
theorem clockBringup : Statement .clockBringup := of_plain (fun _ => 0) (fun _ => rfl) rfl fun _ => rfl
theorem regRead (addr : Word) : Statement (.regRead addr) :=
  of_plain (fun _ => 0) (fun _ => rfl) rfl fun _ => rfl
theorem regWrite (addr value : Word) : Statement (.regWrite addr value) :=
  of_plain (fun _ => 0) (fun _ => rfl) rfl fun _ => rfl
theorem uartRxHandler : Statement .uartRxHandler := of_plain (fun _ => 0) (fun _ => rfl) rfl fun _ => rfl
theorem uartTxHandler : Statement .uartTxHandler := of_plain (fun _ => 0) (fun _ => rfl) rfl fun _ => rfl

end Sys2Proof.Laws.EncodeLength
end

