-- ==== Sys2Proof/Laws/Pins.lean ====
section
/-!
SUPPORT. What the shared steps of the pin multiplexer do (40_gpio R131 to R134), as relations that compose: which latch
bits and config nibbles may differ, and what the named pin's bits become.
-/
namespace Sys2Proof.Machine

/-! ### The frame of a pin step -/

/-- What a step on pins and gates may change: ports, the gate register, the interrupt context's fields, the read
register. -/
def PinStep (s t : State) : Prop :=
  t = { s with
    gpio := t.gpio, rcc := { s.rcc with apb2pcenr := t.rcc.apb2pcenr }, uart := t.uart, trace := t.trace,
    acc := t.acc, script := t.script, drawn := t.drawn } ∧
  UartInterruptsOnly s t

/-- A pin step that changes latch bits of the pins `ls` and nibbles of the pins `ns` alone. -/
def PinStepOn (ls ns : List Pin) (s t : State) : Prop :=
  PinStep s t ∧ LatchesSameBut ls s t ∧ NibblesSameBut ns s t

theorem PinStep.trans {s t u : State} (h : PinStep s t) (k : PinStep t u) : PinStep s u := by
  refine ⟨?_, interruptsOnly_trans h.2 k.2⟩
  rw [k.1, h.1]

theorem PinStep.cfg {s t : State} (h : PinStep s t) : t.cfg = s.cfg := by rw [h.1]
theorem PinStep.inCritical {s t : State} (h : PinStep s t) : t.inCritical = s.inCritical := by rw [h.1]
theorem PinStep.motor {s t : State} (h : PinStep s t) : t.motor = s.motor := by rw [h.1]
theorem PinStep.responses {s t : State} (h : PinStep s t) : t.responses = s.responses := by rw [h.1]
theorem PinStep.halted {s t : State} (h : PinStep s t) : t.halted = s.halted := by rw [h.1]

theorem PinStep.rcc {s t : State} (h : PinStep s t) (k : t.rcc.apb2pcenr = s.rcc.apb2pcenr) : t.rcc = s.rcc := by
  rw [h.1, k]

theorem pinStep_of_same {s t : State} (h : SameButInterrupts s t) (k : UartInterruptsOnly s t) : PinStep s t := by
  refine ⟨?_, k⟩; rw [h]

theorem latchesSame_trans {ls ms : List Pin} {s t u : State} (h : LatchesSameBut ls s t) (k : LatchesSameBut ms t u) :
    LatchesSameBut (ls ++ ms) s u := fun p n q =>
  (k p n fun pin m => q pin (List.mem_append_right _ m)).trans (h p n fun pin m => q pin (List.mem_append_left _ m))

theorem nibblesSame_trans {ls ms : List Pin} {s t u : State} (h : NibblesSameBut ls s t) (k : NibblesSameBut ms t u) :
    NibblesSameBut (ls ++ ms) s u := fun p n =>
  ⟨fun q => ((k p n).1 fun pin m => q pin (List.mem_append_right _ m)).trans
      ((h p n).1 fun pin m => q pin (List.mem_append_left _ m)),
    fun q => ((k p n).2 fun pin m => q pin (List.mem_append_right _ m)).trans
      ((h p n).2 fun pin m => q pin (List.mem_append_left _ m))⟩

theorem latchesSame_mono {ls ms : List Pin} {s t : State} (h : LatchesSameBut ls s t) (k : ∀ p ∈ ls, p ∈ ms) :
    LatchesSameBut ms s t := fun p n q => h p n fun pin m => q pin (k pin m)

theorem nibblesSame_mono {ls ms : List Pin} {s t : State} (h : NibblesSameBut ls s t) (k : ∀ p ∈ ls, p ∈ ms) :
    NibblesSameBut ms s t := fun p n =>
  ⟨fun q => (h p n).1 fun pin m => q pin (k pin m), fun q => (h p n).2 fun pin m => q pin (k pin m)⟩

theorem latchesSame_of_gpio {s t : State} (h : t.gpio = s.gpio) : LatchesSameBut [] s t := fun p n _ => by rw [h]

theorem nibblesSame_of_gpio {s t : State} (h : t.gpio = s.gpio) : NibblesSameBut [] s t := fun p n => by simp [h]

theorem PinStepOn.trans {ls ns ms os : List Pin} {s t u : State} (h : PinStepOn ls ns s t) (k : PinStepOn ms os t u) :
    PinStepOn (ls ++ ms) (ns ++ os) s u :=
  ⟨h.1.trans k.1, latchesSame_trans h.2.1 k.2.1, nibblesSame_trans h.2.2 k.2.2⟩

theorem PinStepOn.mono {ls ns ms os : List Pin} {s t : State} (h : PinStepOn ls ns s t) (k : ∀ p ∈ ls, p ∈ ms)
    (l : ∀ p ∈ ns, p ∈ os) : PinStepOn ms os s t :=
  ⟨h.1, latchesSame_mono h.2.1 k, nibblesSame_mono h.2.2 l⟩

theorem pinStepOn_of_same {s t : State} (h : SameButInterrupts s t) (k : UartInterruptsOnly s t) :
    PinStepOn [] [] s t :=
  ⟨pinStep_of_same h k, latchesSame_of_gpio (same_gpio h), nibblesSame_of_gpio (same_gpio h)⟩

theorem pinStepOn_boundary (s : State) : PinStepOn [] [] s (boundary s) :=
  pinStepOn_of_same (boundary_same s) (boundary_only s)

/-! ### Pins apart -/

/-- A latch bit outside the changed pins is kept. -/
theorem latch_kept {ls : List Pin} {s t : State} (h : LatchesSameBut ls s t) {pin : Pin} (k : pin ∉ ls) :
    latch t pin = latch s pin := by
  refine h pin.port pin.bit.val fun q m e => k ?_
  rcases q with ⟨qp, qb⟩; rcases pin with ⟨pp, pb⟩
  simp only [Fin.val_inj] at e
  rw [← e.1, ← e.2] at m; exact m

/-- A nibble outside the changed pins is kept. -/
theorem nibble_kept {ns : List Pin} {s t : State} (h : NibblesSameBut ns s t) {pin : Pin} (k : pin ∉ ns) :
    nibble t pin = nibble s pin := by
  rcases pin with ⟨p, b⟩
  have apart : ∀ q ∈ ns, ∀ n, n < 4 → inNibble q p (decide (8 ≤ b.val)) (4 * (b.val % 8) + n) = false := by
    intro q m n hn
    rcases q with ⟨qp, qb⟩
    by_contra e
    simp only [inNibble, Bool.not_eq_false, Bool.and_eq_true, decide_eq_true_eq, beq_iff_eq,
      decide_eq_decide] at e
    obtain ⟨⟨e1, e2⟩, e3⟩ := e
    apply k
    have : qb = b := by omega
    rw [e1, ← this]; exact m
  apply BitVec.eq_of_getLsbD_eq
  intro n hn
  simp only [nibble, cfgReg, cfgShift, BitVec.getLsbD_extractLsb', hn, decide_true, Bool.true_and]
  by_cases hb : b.val < 8
  · have := (h p (4 * (b.val % 8) + n)).1 fun q m => by
      have := apart q m n hn; simpa [show ¬ 8 ≤ b.val by omega] using this
    simpa [hb, shown] using this
  · have := (h p (4 * (b.val % 8) + n)).2 fun q m => by
      have := apart q m n hn; simpa [show 8 ≤ b.val by omega] using this
    simpa [hb, shown] using this

/-- Whether a port is clocked depends on the gate register alone. -/
theorem portClocked_congr {s t : State} (h : t.rcc.apb2pcenr = s.rcc.apb2pcenr) (pin : Pin) :
    portClocked t pin = portClocked s pin := by simp [portClocked, clocked, h]

/-- Opening a port's gate clocks it. -/
theorem portClocked_opened {s t : State} {pin : Pin}
    (h : t.rcc.apb2pcenr = s.rcc.apb2pcenr ||| 1#32 <<< (2 + pin.port.val)) : portClocked t pin = true := by
  have := pin.port.isLt
  simp [portClocked, clocked, h]
  omega

/-! ### Register accesses -/

theorem readNext_acc (s : State) (r : Reg) : (readNext s r).acc = s.acc := by unfold readNext; split <;> simp

@[simp] theorem readNext_rcc (s : State) (r : Reg) : (readNext s r).rcc = s.rcc := same_rcc (readNext_same s r)
@[simp] theorem readNext_gpio (s : State) (r : Reg) : (readNext s r).gpio = s.gpio := same_gpio (readNext_same s r)

/-- A read keeps everything but the read register and the draws. -/
theorem pinStepOn_read (s : State) (r : Reg) : PinStepOn [] [] s (act s (.read r)) := by
  refine ⟨⟨?_, interruptsOnly_of_eq (readNext_uart s r) (readNext_trace s r)⟩, latchesSame_of_gpio (readNext_gpio s r),
    nibblesSame_of_gpio (readNext_gpio s r)⟩
  show _ = _
  have h := readNext_same s r
  simp only [act]
  rw [h]

theorem setPort_eq (s : State) (p : Fin 5) (port : GpioPort) : setPort s p port = { s with gpio := s.gpio.set p port } := rfl

theorem pinStep_gpio (s : State) (g : Vector GpioPort 5) : PinStep s { s with gpio := g } :=
  ⟨rfl, interruptsOnly_of_eq rfl rfl⟩

theorem vector_getSet {α : Type} (v : Vector α 5) (p q : Fin 5) (x : α) :
    (v.set p x)[q] = if p = q then x else v[q] := by
  simp only [Fin.getElem_fin, Vector.getElem_set, Fin.val_inj]

/-! ### The shared steps -/

theorem pinMask_bit (pin : Pin) {n : Nat} (h : n < 32) : (pinMask pin).getLsbD n = decide (n = pin.bit.val) := by
  have all : ∀ (b : Fin 16) (n : Fin 32), (1#32 <<< b.val).getLsbD n.val = decide (n.val = b.val) := by decide
  exact all pin.bit ⟨n, h⟩

theorem lowHalf_bit (b : Fin 16) : BitVec.getLsbD (0x0000FFFF : Word) b.val = true := by
  have all : ∀ b : Fin 16, BitVec.getLsbD (0x0000FFFF : Word) b.val = true := by decide
  exact all b

theorem and_ones (w : Word) : w &&& 4294967295#32 = w := by
  rw [show (4294967295#32) = BitVec.allOnes 32 from by decide]; exact BitVec.and_allOnes

/-- `DriveLevel` (40_gpio R133) changes one latch bit, on a clocked port alone. -/
theorem driveLevel_spec (s : State) (pin : Pin) (v : Bool) :
    PinStepOn [pin] [] s (act s (driveLevel pin v)) ∧
      (act s (driveLevel pin v)).rcc.apb2pcenr = s.rcc.apb2pcenr ∧
      (portClocked s pin = true → latch (act s (driveLevel pin v)) pin = v) ∧
      (portClocked s pin = false → act s (driveLevel pin v) = s) := by
  have hb := pin.bit.isLt
  have hc : ∀ r, clocked s (.gpio pin.port r) = portClocked s pin := fun r => rfl
  have hm : ∀ n, n < 32 → (pinMask pin).getLsbD n = decide (n = pin.bit.val) := fun n => pinMask_bit pin
  cases hg : portClocked s pin with
  | false =>
    have : act s (driveLevel pin v) = s := by simp [driveLevel, act, writeReg, hc, hg]
    rw [this]
    exact ⟨⟨pinStep_of_same rfl (interruptsOnly_of_eq rfl rfl), fun _ _ _ => rfl, fun _ _ => ⟨fun _ => rfl, fun _ => rfl⟩⟩,
      rfl, by simp, fun _ => rfl⟩
  | true =>
    cases v with
    | true =>
      have : act s (driveLevel pin true) = setPort s pin.port
          { s.gpio[pin.port] with
            outdr := (s.gpio[pin.port].outdr &&& ~~~(pinMask pin >>> 16)) ||| (pinMask pin &&& 0x0000FFFF) } := by
        simp [driveLevel, act, writeReg, hc, hg, storeReg, sourceValue]
      rw [this, setPort_eq]
      refine ⟨⟨pinStep_gpio _ _, ?_, ?_⟩, rfl, fun _ => ?_, by simp⟩
      · intro p n h
        simp only [vector_getSet]
        split
        next e =>
          subst e
          have hn : n ≠ pin.bit.val := by simpa using h pin
          by_cases hn32 : n < 32
          · have h2 := hm n hn32
            have h3 : (pinMask pin).getLsbD (16 + n) = false := by
              by_cases h4 : 16 + n < 32
              · rw [hm _ h4]; simp; omega
              · exact BitVec.getLsbD_of_ge _ _ (by omega)
            simp only [BitVec.getLsbD_or, BitVec.getLsbD_and, BitVec.getLsbD_not, BitVec.getLsbD_ushiftRight, h2, h3, hn,
              hn32]
            simp
          · rw [BitVec.getLsbD_of_ge _ _ (by omega), BitVec.getLsbD_of_ge _ _ (by omega)]
        next => rfl
      · intro p n
        simp only [vector_getSet]
        split <;> simp_all
      · simp only [latch, vector_getSet, if_true]
        simp only [BitVec.getLsbD_or, BitVec.getLsbD_and]
        rw [hm _ (by omega), lowHalf_bit]
        simp
    | false =>
      have : act s (driveLevel pin false) = setPort s pin.port
          { s.gpio[pin.port] with
            outdr := s.gpio[pin.port].outdr &&& ~~~(pinMask pin &&& 0x0000FFFF) } := by
        simp [driveLevel, act, writeReg, hc, hg, storeReg, sourceValue]
      rw [this, setPort_eq]
      refine ⟨⟨pinStep_gpio _ _, ?_, ?_⟩, rfl, fun _ => ?_, by simp⟩
      · intro p n h
        simp only [vector_getSet]
        split
        next e =>
          subst e
          have hn : n ≠ pin.bit.val := by simpa using h pin
          by_cases hn32 : n < 32
          · simp only [BitVec.getLsbD_and, BitVec.getLsbD_not, hm n hn32, hn, hn32]
            simp
          · rw [BitVec.getLsbD_of_ge _ _ (by omega), BitVec.getLsbD_of_ge _ _ (by omega)]
        next => rfl
      · intro p n
        simp only [vector_getSet]
        split <;> simp_all
      · simp only [latch, vector_getSet, if_true]
        simp only [BitVec.getLsbD_not, BitVec.getLsbD_and]
        rw [hm _ (by omega), lowHalf_bit]
        simp

/-- `EnablePortGate` and the other gate updates of `APB2PCENR` (40_gpio R131): the named bits are set. -/
theorem setGates2_spec (s : State) (bits : Word) :
    PinStepOn [] [] s (runActs (setBits (.rcc .apb2pcenr) bits) s) ∧
      (runActs (setBits (.rcc .apb2pcenr) bits) s).rcc.apb2pcenr = s.rcc.apb2pcenr ||| bits := by
  have h0 := pinStepOn_boundary s
  have h1 := pinStepOn_read (boundary s) (.rcc .apb2pcenr)
  have h2 := pinStepOn_boundary (act (boundary s) (.read (.rcc .apb2pcenr)))
  have hacc : (act (boundary s) (.read (.rcc .apb2pcenr))).acc = s.rcc.apb2pcenr := by
    show readValue (boundary s) (.rcc .apb2pcenr) = _
    rw [readValue_calm rfl rfl]; simp [shown]
  have e : runActs (setBits (.rcc .apb2pcenr) bits) s =
      storeReg (boundary (act (boundary s) (.read (.rcc .apb2pcenr)))) (.rcc .apb2pcenr) (s.rcc.apb2pcenr ||| bits) := by
    simp only [setBits, runActs_cons, runActs_nil]
    show writeReg _ _ (sourceValue _ _) = _
    rw [writeReg_clocked rfl, boundary_acc, hacc]
    simp [sourceValue, and_ones]
  rw [e]
  have h3 := (h0.trans h1).trans h2
  refine ⟨PinStepOn.mono (h3.trans (ls := []) (ms := []) (ns := []) (os := []) ⟨⟨rfl, interruptsOnly_of_eq rfl rfl⟩, latchesSame_of_gpio rfl, nibblesSame_of_gpio rfl⟩)
    (by simp) (by simp), ?_⟩
  simp [storeReg, storeMask, and_ones]

/-- Two inserts of a nibble at field k: the field holds the nibble, the other bits are kept. -/
theorem insertNibble (w : Word) (k : Nat) (hk : k < 8) (nib : BitVec 4) :
    ((w &&& ~~~(0xF#32 <<< (4 * k))) ||| (nib.setWidth 32 <<< (4 * k))).extractLsb' (4 * k) 4 = nib ∧
      ∀ n, n / 4 ≠ k →
        ((w &&& ~~~(0xF#32 <<< (4 * k))) ||| (nib.setWidth 32 <<< (4 * k))).getLsbD n = w.getLsbD n := by
  have hF : ∀ i, (0xF#32).getLsbD i = decide (i < 4) := by
    intro i
    by_cases h : i < 32
    · have : ∀ i : Fin 32, (0xF#32).getLsbD i.val = decide (i.val < 4) := by decide
      exact this ⟨i, h⟩
    · rw [BitVec.getLsbD_of_ge _ _ (by omega)]; simp; omega
  constructor
  · apply BitVec.eq_of_getLsbD_eq
    intro i hi
    simp only [BitVec.getLsbD_extractLsb', BitVec.getLsbD_or, BitVec.getLsbD_and, BitVec.getLsbD_not,
      BitVec.getLsbD_shiftLeft, BitVec.getLsbD_setWidth, hF]
    have h1 : 4 * k + i < 32 := by omega
    have h2 : ¬ 4 * k + i < 4 * k := by omega
    have h3 : 4 * k + i - 4 * k = i := by omega
    have h4 : i < 32 := by omega
    simp [h1, hi, h3, h4]
  · intro n hn
    by_cases h32 : n < 32
    · simp only [BitVec.getLsbD_or, BitVec.getLsbD_and, BitVec.getLsbD_not, BitVec.getLsbD_shiftLeft,
        BitVec.getLsbD_setWidth, hF]
      by_cases h1 : n < 4 * k
      · simp [h32, h1]
      · have h2 : ¬ n - 4 * k < 4 := by omega
        have h3 : nib.getLsbD (n - 4 * k) = false := BitVec.getLsbD_of_ge _ _ (by omega)
        simp only [h32, h1, h2, h3]; simp
    · rw [BitVec.getLsbD_of_ge _ _ (by omega), BitVec.getLsbD_of_ge _ _ (by omega)]

/-- The read-modify-write of a config nibble (40_gpio R132), on a clocked port alone. -/
theorem setNibble_spec (s : State) (pin : Pin) (nib : BitVec 4) :
    PinStepOn [] [pin] s (runActs (setNibble pin nib) s) ∧
      (runActs (setNibble pin nib) s).rcc.apb2pcenr = s.rcc.apb2pcenr ∧
      (portClocked s pin = true → nibble (runActs (setNibble pin nib) s) pin = nib) ∧
      (portClocked s pin = false → (runActs (setNibble pin nib) s).gpio = s.gpio) := by
  have h0 := pinStepOn_boundary s
  have h1 := pinStepOn_read (boundary s) (cfgReg pin)
  generalize hu : act (boundary s) (.read (cfgReg pin)) = u at h1
  have h2 := pinStepOn_boundary u
  have h3 := PinStepOn.mono ((h0.trans h1).trans h2) (ms := []) (os := [pin]) (by simp) (by simp)
  have e : runActs (setNibble pin nib) s =
      writeReg (boundary u) (cfgReg pin) ((u.acc &&& ~~~cfgMask pin) ||| cfgBits pin nib) := by
    simp only [setNibble, runActs_cons, runActs_nil, hu]
    show writeReg _ _ (sourceValue _ _) = _
    rw [boundary_acc]; rfl
  have hg2 : u.rcc = s.rcc := by rw [← hu]; show (readNext _ _).rcc = _; simp
  have hgp : u.gpio = s.gpio := by rw [← hu]; show (readNext _ _).gpio = _; simp
  have hcl : clocked (boundary u) (cfgReg pin) = portClocked s pin := by
    rw [clocked_boundary, clocked_congr hg2]; rfl
  rw [e]
  cases hg : portClocked s pin with
  | false =>
    rw [writeReg_unclocked (by rw [hcl, hg])]
    refine ⟨h3, by simp [hg2], by simp, fun _ => by simp [hgp]⟩
  | true =>
    rw [writeReg_clocked (by rw [hcl, hg])]
    have hacc : u.acc = shown s (cfgReg pin) := by
      rw [← hu]
      show readValue _ _ = _
      have hc : clocked (boundary s) (cfgReg pin) = true := by rw [clocked_boundary]; exact hg
      have hd : drawMask (boundary s) (cfgReg pin) = 0 := by unfold cfgReg; split <;> rfl
      rw [readValue_calm hc hd]
      unfold cfgReg; split <;> simp [shown]
    rw [hacc]
    have hk : pin.bit.val % 8 < 8 := Nat.mod_lt _ (by decide)
    by_cases hb : pin.bit.val < 8
    · have er : cfgReg pin = .gpio pin.port .cfglr := by simp [cfgReg, hb]
      obtain ⟨i1, i2⟩ := insertNibble s.gpio[pin.port].cfglr _ hk nib
      simp only [er, storeReg, storeMask, setPort_eq, shown]
      rw [show ((0xFFFFFFFF : Word)) = 4294967295#32 from rfl, and_ones]
      refine ⟨PinStepOn.mono (h3.trans (ls := []) (ms := []) (ns := [pin]) (os := [pin])
        ⟨pinStep_gpio _ _, ?_, ?_⟩) (by simp) (by simp), by simp [hg2], fun _ => ?_, by simp⟩
      · intro p n h
        simp only [vector_getSet]; split <;> simp_all
      · intro p n
        simp only [vector_getSet]
        split
        next e' =>
          subst e'
          refine ⟨fun h => ?_, fun h => rfl⟩
          have hn : n / 4 ≠ pin.bit.val % 8 := by
            have := h pin (by simp); simpa [inNibble, hb] using this
          simp only [boundary_gpio, hgp]
          exact i2 n hn
        next => exact ⟨fun _ => rfl, fun _ => rfl⟩
      · simp only [nibble, er, shown, vector_getSet, if_true]
        exact i1
    · have er : cfgReg pin = .gpio pin.port .cfghr := by simp [cfgReg, hb]
      obtain ⟨i1, i2⟩ := insertNibble s.gpio[pin.port].cfghr _ hk nib
      simp only [er, storeReg, storeMask, setPort_eq, shown]
      rw [show ((0xFFFFFFFF : Word)) = 4294967295#32 from rfl, and_ones]
      refine ⟨PinStepOn.mono (h3.trans (ls := []) (ms := []) (ns := [pin]) (os := [pin])
        ⟨pinStep_gpio _ _, ?_, ?_⟩) (by simp) (by simp), by simp [hg2], fun _ => ?_, by simp⟩
      · intro p n h
        simp only [vector_getSet]; split <;> simp_all
      · intro p n
        simp only [vector_getSet]
        split
        next e' =>
          subst e'
          refine ⟨fun h => rfl, fun h => ?_⟩
          have hn : n / 4 ≠ pin.bit.val % 8 := by
            have := h pin (by simp); simpa [inNibble, Nat.le_of_not_lt hb] using this
          simp only [boundary_gpio, hgp]
          exact i2 n hn
        next => exact ⟨fun _ => rfl, fun _ => rfl⟩
      · simp only [nibble, er, shown, vector_getSet, if_true]
        exact i1

theorem enablePortGate_spec (s : State) (p : Fin 5) :
    PinStepOn [] [] s (runActs (enablePortGate p) s) ∧
      (runActs (enablePortGate p) s).rcc.apb2pcenr = s.rcc.apb2pcenr ||| 1#32 <<< (2 + p.val) :=
  setGates2_spec s _

/-! ### Critical spans -/

theorem PinStep.uncritical {s t : State} (h : PinStep { s with inCritical := true } t) :
    PinStep s { t with inCritical := s.inCritical } := by
  obtain ⟨h1, h2⟩ := h
  refine ⟨?_, h2⟩
  rw [h1]

/-- A critical span is its body between the two edges; the body meets no interrupt (20_memory R79). -/
theorem runActs_critical (body : List Action) (s : State)
    (h : (runActs body { boundary s with inCritical := true }).inCritical = true) :
    runActs (critical body) s =
      { runActs body { boundary s with inCritical := true } with inCritical := false } := by
  rw [critical, List.cons_append, runActs_cons, runActs_append]
  show act (boundary (runActs body { boundary s with inCritical := true })) .leave = _
  rw [boundary_critical h]; rfl

/-- A critical span whose body is a pin step is a pin step, and leaves the ports and gates as the body does. -/
theorem critical_spec (body : List Action) (s : State) (ls ns : List Pin) (hc : s.inCritical = false)
    (h : PinStepOn ls ns { boundary s with inCritical := true }
      (runActs body { boundary s with inCritical := true })) :
    PinStepOn ls ns s (runActs (critical body) s) ∧
      (runActs (critical body) s).gpio = (runActs body { boundary s with inCritical := true }).gpio ∧
      (runActs (critical body) s).rcc = (runActs body { boundary s with inCritical := true }).rcc := by
  rw [runActs_critical body s h.1.inCritical]
  have h1 := h.1.uncritical
  rw [show (boundary s).inCritical = false by rw [boundary_inCritical, hc]] at h1
  have h2 : PinStepOn ls ns (boundary s)
      { runActs body { boundary s with inCritical := true } with inCritical := false } := ⟨h1, h.2.1, h.2.2⟩
  exact ⟨PinStepOn.mono ((pinStepOn_boundary s).trans h2) (by simp) (by simp), rfl, rfl⟩

theorem latch_congr {s t : State} (h : t.gpio = s.gpio) (pin : Pin) : latch t pin = latch s pin := by
  simp [latch, h]

theorem nibble_congr {s t : State} (h : t.gpio = s.gpio) (pin : Pin) : nibble t pin = nibble s pin := by
  unfold nibble cfgReg; split <;> simp [shown, h]

/-- `CfgWrite` (40_gpio R132). -/
theorem cfgWrite_spec (s : State) (pin : Pin) (nib : BitVec 4) (hc : s.inCritical = false) :
    PinStepOn [] [pin] s (runActs (cfgWrite pin nib) s) ∧
      (runActs (cfgWrite pin nib) s).rcc.apb2pcenr = s.rcc.apb2pcenr ∧
      (portClocked s pin = true → nibble (runActs (cfgWrite pin nib) s) pin = nib) ∧
      (portClocked s pin = false → (runActs (cfgWrite pin nib) s).gpio = s.gpio) := by
  obtain ⟨a1, a2, a3, a4⟩ := setNibble_spec { boundary s with inCritical := true } pin nib
  obtain ⟨b1, b2, b3⟩ := critical_spec (setNibble pin nib) s [] [pin] hc a1
  have hp : portClocked { boundary s with inCritical := true } pin = portClocked s pin :=
    portClocked_congr (by simp) pin
  rw [hp] at a3 a4
  refine ⟨b1, ?_, fun g => ?_, fun g => ?_⟩
  · show (runActs (critical _) s).rcc.apb2pcenr = _
    rw [b3, a2]; simp
  · exact (nibble_congr b2 pin).trans (a3 g)
  · exact (b2.trans (a4 g)).trans (boundary_gpio s)

/-- The level and then the mode of a pin (40_gpio R135, R138), outside or inside a critical span. -/
theorem levelAndMode_spec (s : State) (pin : Pin) (v : Bool) (nib : BitVec 4) :
    PinStepOn [pin] [pin] s (runActs (driveLevel pin v :: setNibble pin nib) s) ∧
      (runActs (driveLevel pin v :: setNibble pin nib) s).rcc.apb2pcenr = s.rcc.apb2pcenr ∧
      (portClocked s pin = true →
        latch (runActs (driveLevel pin v :: setNibble pin nib) s) pin = v ∧
          nibble (runActs (driveLevel pin v :: setNibble pin nib) s) pin = nib) ∧
      (portClocked s pin = false → (runActs (driveLevel pin v :: setNibble pin nib) s).gpio = s.gpio) := by
  rw [runActs_cons]
  obtain ⟨a1, a2, a3, a4⟩ := driveLevel_spec (boundary s) pin v
  obtain ⟨b1, b2, b3, b4⟩ := setNibble_spec (act (boundary s) (driveLevel pin v)) pin nib
  have hp : portClocked (boundary s) pin = portClocked s pin := portClocked_congr (by simp) pin
  have hq : portClocked (act (boundary s) (driveLevel pin v)) pin = portClocked s pin :=
    (portClocked_congr a2 pin).trans hp
  rw [hp] at a3 a4
  rw [hq] at b3 b4
  refine ⟨PinStepOn.mono (((pinStepOn_boundary s).trans a1).trans b1) (by simp) (by simp), ?_, fun g => ⟨?_, b3 g⟩,
    fun g => ?_⟩
  · rw [b2, a2]; simp
  · rw [latch_kept b1.2.1 (by simp)]; exact a3 g
  · rw [b4 g, a4 g]; simp

/-- A critical span that drives a pin's level and then selects its mode (40_gpio R135, R138). -/
theorem levelAndModeSpan_spec (s : State) (pin : Pin) (v : Bool) (nib : BitVec 4) (hc : s.inCritical = false) :
    PinStepOn [pin] [pin] s (runActs (critical (driveLevel pin v :: setNibble pin nib)) s) ∧
      (runActs (critical (driveLevel pin v :: setNibble pin nib)) s).rcc.apb2pcenr = s.rcc.apb2pcenr ∧
      (portClocked s pin = true →
        latch (runActs (critical (driveLevel pin v :: setNibble pin nib)) s) pin = v ∧
          nibble (runActs (critical (driveLevel pin v :: setNibble pin nib)) s) pin = nib) ∧
      (portClocked s pin = false →
        (runActs (critical (driveLevel pin v :: setNibble pin nib)) s).gpio = s.gpio) := by
  obtain ⟨a1, a2, a3, a4⟩ := levelAndMode_spec { boundary s with inCritical := true } pin v nib
  obtain ⟨b1, b2, b3⟩ := critical_spec _ s [pin] [pin] hc a1
  have hp : portClocked { boundary s with inCritical := true } pin = portClocked s pin :=
    portClocked_congr (by simp) pin
  rw [hp] at a3 a4
  refine ⟨b1, by rw [b3, a2]; simp, fun g => ?_, fun g => ?_⟩
  · exact ⟨(latch_congr b2 pin).trans (a3 g).1, (nibble_congr b2 pin).trans (a3 g).2⟩
  · exact (b2.trans (a4 g)).trans (boundary_gpio s)

/-- The body of `GPIO_SETUP` (40_gpio R135). -/
theorem setupPin_spec (s : State) (pin : Pin) (v : Bool) (hc : s.inCritical = false) :
    PinStepOn [pin] [pin] s (runActs (setupPin pin v) s) ∧
      (runActs (setupPin pin v) s).rcc.apb2pcenr = s.rcc.apb2pcenr ||| 1#32 <<< (2 + pin.port.val) ∧
      latch (runActs (setupPin pin v) s) pin = v ∧ nibble (runActs (setupPin pin v) s) pin = nibOutPp50 := by
  rw [setupPin, runActs_append]
  obtain ⟨a1, a2⟩ := enablePortGate_spec s pin.port
  have hg := portClocked_opened a2
  obtain ⟨b1, b2, b3, _⟩ :=
    levelAndModeSpan_spec (runActs (enablePortGate pin.port) s) pin v nibOutPp50 (by rw [a1.1.inCritical, hc])
  exact ⟨PinStepOn.mono (a1.trans b1) (by simp) (by simp), by rw [b2, a2], (b3 hg).1, (b3 hg).2⟩

/-- `PinPeripheral` (40_gpio R134). -/
theorem pinPeripheral_spec (s : State) (pin : Pin) (nib : BitVec 4) (pullup : Bool) (hc : s.inCritical = false) :
    PinStepOn (if pullup then [pin] else []) [pin] s (runActs (pinPeripheral pin nib pullup) s) ∧
      (runActs (pinPeripheral pin nib pullup) s).rcc.apb2pcenr =
        s.rcc.apb2pcenr ||| 1#32 <<< (2 + pin.port.val) ∧
      (pullup = true → latch (runActs (pinPeripheral pin nib pullup) s) pin = true) ∧
      nibble (runActs (pinPeripheral pin nib pullup) s) pin = nib := by
  rw [pinPeripheral, runActs_append, runActs_append]
  obtain ⟨a1, a2⟩ := enablePortGate_spec s pin.port
  generalize runActs (enablePortGate pin.port) s = t at a1 a2
  have hg := portClocked_opened a2
  have ht : t.inCritical = false := by rw [a1.1.inCritical, hc]
  cases pullup with
  | false =>
    obtain ⟨b1, b2, b3, _⟩ := cfgWrite_spec t pin nib ht
    exact ⟨PinStepOn.mono (a1.trans b1) (by simp) (by simp), b2.trans a2, by simp, b3 hg⟩
  | true =>
    simp only [if_true, runActs_cons, runActs_nil]
    obtain ⟨b1, b2, b3, _⟩ := driveLevel_spec (boundary t) pin true
    have hb : portClocked (boundary t) pin = true := (portClocked_congr (by simp) pin).trans hg
    have hd : portClocked (act (boundary t) (driveLevel pin true)) pin = true := (portClocked_congr b2 pin).trans hb
    have b4 := (pinStepOn_boundary t).trans b1
    obtain ⟨c1, c2, c3, _⟩ := cfgWrite_spec (act (boundary t) (driveLevel pin true)) pin nib (by rw [b4.1.inCritical, ht])
    refine ⟨PinStepOn.mono ((a1.trans b4).trans c1) (by simp) (by simp), ?_, fun _ => ?_, c3 hd⟩
    · rw [c2, b2, boundary_rcc, a2]
    · rw [latch_kept c1.2.1 (by simp)]; exact b3 hb

/-! ### The response -/

/-- A pin command that ends in a response, as `PinFrame` and `Responded` say it. -/
theorem respond_spec (s u : State) (q : Word) (ls ns : List Pin) (h : PinStepOn ls ns s u) :
    let t := runActs [.respond q] u
    PinFrame s t ∧ Responded s t q [] ∧ LatchesSameBut ls s t ∧ NibblesSameBut ns s t ∧ t.gpio = u.gpio ∧
      t.rcc = u.rcc := by
  intro t
  have e : t = respond (boundary u) q [] := rfl
  have hb := PinStepOn.mono (h.trans (pinStepOn_boundary u)) (ms := ls) (os := ns) (by simp) (by simp)
  rw [e]
  refine ⟨⟨?_, hb.1.2⟩, ⟨?_, rfl, rfl⟩, hb.2.1, hb.2.2, by simp, by simp⟩
  · have := hb.1.1
    unfold respond
    rw [this]
  · rw [respond_responses, boundary_responses, h.1.responses]

end Sys2Proof.Machine
end

