-- ==== Sys2Proof/Laws/Registers.lean ====
section
/-!
SUPPORT. What a register write does to each of the 51 registers, said once: a stored register takes the masked value and
no other register changes; `BSHR` and `BCR` change the latch alone.
-/
namespace Sys2Proof.Machine

/-- What the state stores for a register depends on the peripherals alone. -/
theorem storedBits_congr {s t : State} (h1 : t.gpio = s.gpio) (h2 : t.rcc = s.rcc) (h3 : t.i2c = s.i2c)
    (h4 : t.spi = s.spi) (h5 : t.uart = s.uart) (r : Reg) : storedBits t r = storedBits s r := by
  cases r with
  | gpio p r => cases r <;> simp [storedBits, shown, h1]
  | rcc r => cases r <;> simp [storedBits, shown, h2]
  | i2c r => cases r <;> simp [storedBits, shown, h3]
  | spi r => cases r <;> simp [storedBits, shown, h4]
  | uart r => cases r <;> simp [storedBits, shown, h5]

/-- What a port stores for one of its registers. -/
def portBits (g : GpioPort) : GpioReg → Word
  | .cfglr => g.cfglr
  | .cfghr => g.cfghr
  | .outdr => g.outdr
  | _ => 0

theorem storedBits_setPort_same (s : State) (p : Fin 5) (g : GpioPort) (r : GpioReg) :
    storedBits (setPort s p g) (.gpio p r) = portBits g r := by
  cases r <;> simp [storedBits, shown, setPort, portBits]

theorem storedBits_setPort_other (s : State) {p q : Fin 5} (h : q ≠ p) (g : GpioPort) (r : GpioReg) :
    storedBits (setPort s p g) (.gpio q r) = storedBits s (.gpio q r) := by
  have : (s.gpio.set p g)[q] = s.gpio[q] :=
    Vector.getElem_set_ne (xs := s.gpio) (x := g) p.isLt q.isLt (fun k => h (Fin.ext k.symm))
  cases r <;> simp [storedBits, shown, setPort, this]

/-- A port update that agrees with the port on every register but one changes that register alone. -/
theorem storedBits_setPort (s : State) (p : Fin 5) (g : GpioPort) (r : GpioReg)
    (hg : ∀ x, x ≠ r → portBits g x = storedBits s (.gpio p x)) {r' : Reg} (e : r' ≠ .gpio p r) :
    storedBits (setPort s p g) r' = storedBits s r' := by
  cases r' with
  | gpio q x =>
    by_cases hq : q = p
    · subst hq
      rw [storedBits_setPort_same]
      exact hg x (fun h => e (by rw [h]))
    · exact storedBits_setPort_other s hq g x
  | rcc x => cases x <;> rfl
  | i2c x => cases x <;> rfl
  | spi x => cases x <;> rfl
  | uart x => cases x <;> rfl

/-- A write to a register that stores bits stores them, and changes no other register (20_memory R76). -/
theorem storedBits_storeReg (s : State) (r r' : Reg) (v : Word) (hm : storeMask r ≠ 0) :
    storedBits (storeReg s r v) r' = if r' = r then v &&& storeMask r else storedBits s r' := by
  by_cases e : r' = r
  · subst e
    rw [if_pos rfl]
    cases r' with
    | gpio p r => cases r <;> first | exact absurd rfl hm | exact storedBits_setPort_same ..
    | rcc r => cases r <;> rfl
    | i2c r => cases r <;> first | rfl | exact absurd rfl hm
    | spi r => cases r <;> first | rfl | exact absurd rfl hm
    | uart r => cases r <;> first | rfl | exact absurd rfl hm
  · rw [if_neg e]
    cases r with
    | gpio p r =>
      cases r with
      | cfglr => exact storedBits_setPort s p _ _ (fun x hx => by cases x <;> first | rfl | exact absurd rfl hx) e
      | cfghr => exact storedBits_setPort s p _ _ (fun x hx => by cases x <;> first | rfl | exact absurd rfl hx) e
      | outdr => exact storedBits_setPort s p _ _ (fun x hx => by cases x <;> first | rfl | exact absurd rfl hx) e
      | indr => exact absurd rfl hm
      | bshr => exact absurd rfl hm
      | bcr => exact absurd rfl hm
    | rcc r =>
      cases r <;> cases r' with
      | gpio q x => cases x <;> rfl
      | rcc x => cases x <;> first | rfl | exact absurd rfl e
      | i2c x => cases x <;> rfl
      | spi x => cases x <;> rfl
      | uart x => cases x <;> rfl
    | i2c r =>
      cases r <;> cases r' with
      | gpio q x => cases x <;> rfl
      | rcc x => cases x <;> rfl
      | i2c x => cases x <;> first | rfl | exact absurd rfl e
      | spi x => cases x <;> rfl
      | uart x => cases x <;> rfl
    | spi r =>
      cases r <;> cases r' with
      | gpio q x => cases x <;> rfl
      | rcc x => cases x <;> rfl
      | i2c x => cases x <;> rfl
      | spi x => cases x <;> first | rfl | exact absurd rfl e
      | uart x => cases x <;> rfl
    | uart r =>
      cases r <;> cases r' with
      | gpio q x => cases x <;> rfl
      | rcc x => cases x <;> rfl
      | i2c x => cases x <;> rfl
      | spi x => cases x <;> rfl
      | uart x => cases x <;> first | rfl | exact absurd rfl e

/-- `BSHR` and `BCR` change the latch of their port alone (10_state R36, R37). -/
theorem storedBits_latchWrite (s : State) (p : Fin 5) (r : GpioReg) (v : Word) (hr : r = .bshr ∨ r = .bcr) {r' : Reg}
    (e : r' ≠ .gpio p .outdr) : storedBits (storeReg s (.gpio p r) v) r' = storedBits s r' := by
  rcases hr with h | h <;> subst h <;>
    exact storedBits_setPort s p _ .outdr (fun x hx => by cases x <;> first | rfl | exact absurd rfl hx) e

/-- A write to a register that only reads, or to the input register, changes nothing (20_memory R76). -/
theorem storeReg_readOnly (s : State) {r : Reg} (v : Word) (hm : storeMask r = 0)
    (hr : ∀ p, r ≠ .gpio p .bshr ∧ r ≠ .gpio p .bcr) : storeReg s r v = s := by
  cases r with
  | gpio p r =>
    cases r with
    | cfglr => exact absurd hm (by simp [storeMask])
    | cfghr => exact absurd hm (by simp [storeMask])
    | outdr => exact absurd hm (by simp [storeMask])
    | indr => rfl
    | bshr => exact absurd rfl (hr p).1
    | bcr => exact absurd rfl (hr p).2
  | rcc r => cases r <;> exact absurd hm (by decide)
  | i2c r => cases r <;> first | rfl | exact absurd hm (by decide)
  | spi r => cases r <;> first | rfl | exact absurd hm (by decide)
  | uart r => cases r <;> first | rfl | exact absurd hm (by decide)

/-! ### The record of readiness -/

/-- A mask of one bit tests that bit. -/
theorem mask_of_bit (v : Word) (n : Nat) (h : n < 32) : (v &&& BitVec.twoPow 32 n != 0) = v.getLsbD n := by
  rw [BitVec.and_twoPow]
  cases v.getLsbD n with
  | false => simp
  | true =>
    have : (BitVec.twoPow 32 n) ≠ 0 := by
      intro e
      have := congrArg (fun x => x.getLsbD n) e
      simp [h] at this
    simpa using this

/-- The switch field as a bit field and through its mask. -/
theorem switch_of_mask (v : Word) : (v &&& maskSw == 2) = (v.extractLsb' 0 2 == 2) := by
  have e : v &&& maskSw = (v.extractLsb' 0 2).setWidth 32 := by
    apply BitVec.eq_of_getLsbD_eq; intro i hi
    have hm : ∀ i : Fin 32, maskSw.getLsbD i.val = decide (i.val < 2) := by decide
    rw [BitVec.getLsbD_and, hm ⟨i, hi⟩]
    by_cases h : i < 2 <;> simp [hi, h]
  rw [e]
  generalize v.extractLsb' 0 2 = x
  revert x; decide

/-- A register write adds to the record on which the readiness draws depend the bits it sets in `RCC.CTLR` and the switch it
selects in `RCC.CFGR0`, and no other write touches that record (10_state R48 (b); log 5). -/
theorem writeReg_history (s : State) (r : Reg) (v : Word) :
    (writeReg s r v).rcc.hseOnSeen = (s.rcc.hseOnSeen || (r == .rcc .ctlr && v.getLsbD 16)) ∧
      (writeReg s r v).rcc.pllOnSeen = (s.rcc.pllOnSeen || (r == .rcc .ctlr && v.getLsbD 24)) ∧
      (writeReg s r v).rcc.swPllSeen = (s.rcc.swPllSeen || (r == .rcc .cfgr0 && v.extractLsb' 0 2 == 2)) := by
  have h1 : (v &&& maskHseOn != 0) = v.getLsbD 16 := mask_of_bit v 16 (by decide)
  have h2 : (v &&& maskPllOn != 0) = v.getLsbD 24 := mask_of_bit v 24 (by decide)
  cases r with
  | rcc r =>
    rw [writeReg_clocked rfl]
    cases r with
    | ctlr =>
      refine ⟨?_, ?_, by simp [storeReg]⟩
      · show (s.rcc.hseOnSeen || (v &&& maskHseOn != 0)) = _
        rw [h1]; simp
      · show (s.rcc.pllOnSeen || (v &&& maskPllOn != 0)) = _
        rw [h2]; simp
    | cfgr0 =>
      refine ⟨by simp [storeReg], by simp [storeReg], ?_⟩
      show (s.rcc.swPllSeen || (v &&& maskSw == 2)) = _
      rw [switch_of_mask]; simp
    | apb2pcenr => simp [storeReg]
    | apb1pcenr => simp [storeReg]
  | gpio p r =>
    unfold writeReg storeReg
    cases r <;> split <;> simp
  | i2c r => unfold writeReg storeReg; cases r <;> split <;> simp
  | spi r => unfold writeReg storeReg; cases r <;> split <;> simp
  | uart r => unfold writeReg storeReg; cases r <;> split <;> simp

end Sys2Proof.Machine
end

