-- ==== Sys2Proof/Laws/Runner.lean ====
section
/-!
SUPPORT. What running a command can do, said once: every state a command leaves is reached through boundaries, the
command's own actions, reads and clock readings. Claims about every command cite `exec_induction` and look at the
actions alone.
-/
namespace Sys2Proof.Machine

/-! ### The actions a command may run -/

/-- The actions a failed bounded wait may run, for any status (42_i2c R176). -/
def failures (bus : Byte) : List Action :=
  [.nack, .timeout, .startNack, .addrNack, .ok].flatMap (failActs bus)

/-- The actions a piece of a command may run. -/
def microActions : Micro → List Action
  | .act a => [a]
  | .await _ _ _ => []
  | .awaitT w => failures w.bus
  | .pollT w _ => failures w.bus

/-- The actions a resolved pin command may run (40_gpio R130). -/
def physicalActions (cfg : Config) (id : BitVec 16) (body : Pin → List Action) : List Action :=
  match classify cfg id with
  | .physical pin => body pin
  | .virtual _ _ => []
  | .invalid => []

/-- The actions the foreground command of an instruction may run from a state. -/
def commandActions (s : State) : Instr → List Action
  | .gpioSetup id v => physicalActions s.cfg id fun pin => setupPin pin v ++ [.respond (idWord id)]
  | .gpioWrite id v => physicalActions s.cfg id fun pin => gpioWriteActs pin v
  | .gpioToggle id => physicalActions s.cfg id gpioToggleActs
  | .gpioReset id v => physicalActions s.cfg id fun pin => gpioResetActs pin v
  | .gpioInputSetup id pull => physicalActions s.cfg id (gpioInputSetupActs id pull)
  | .gpioInputRead id => physicalActions s.cfg id gpioInputReadActs
  | .motorSetup c role v => motorActs s c (motorWritten s c role v) (virtualIdWord s.cfg c role)
  | .motorWrite c role v => motorActs s c (motorWritten s c role v) 0
  | .motorToggle c role => motorActs s c (motorToggled s c role) 0
  | .motorReset c role v => motorResetActs s c (motorWritten s c role v)
  | .i2cSetup _ addr7 rate => i2cSetupActs s addr7 rate
  | .i2cWrite bus addr8 bytes => (i2cWriteProg bus addr8 bytes).flatMap microActions
  | .i2cRead bus addr8 reg len => (i2cReadProg bus addr8 reg len.toNat).flatMap microActions
  | .spiSetup _ mode rate => spiSetupActs s mode rate
  | .spiPrepare _ ctrl => spiPrepareActs s (ctrl.setWidth 32)
  | .spiTransfer bus readBack bytes => (spiTransferProg bus readBack bytes).flatMap microActions
  | .uartInit => uartInitActs s.cfg
  | .uartTxKick => uartTxKickActs
  | .clockBringup => (bringupProg s.cfg).flatMap microActions
  | .regRead addr => (regAt s.cfg addr).toList.flatMap regReadActs
  | .regWrite addr value => (regAt s.cfg addr).toList.flatMap fun r => regWriteActs r value
  | .uartRxHandler => []
  | .uartTxHandler => []

/-! ### Induction over a run -/

/-- What a property must survive, beside the actions, to hold at the end of a run. -/
structure KeptByRuns (P : State → Prop) : Prop where
  boundary : ∀ s, P s → P (boundary s)
  read : ∀ s r, P s → P (readNext s r)
  clock : ∀ s, P s → P (readClock s)
  hold : ∀ s todo, P s → P { s with todo := todo }

/-- A property that draws and the two interrupt actions keep is kept by a look at the UART line. -/
theorem offerInterrupt_keeps {P : State → Prop} (hd : ∀ s, P s → P (drawNext s)) (hrx : ∀ s, P s → P (uartRxAction s))
    (htx : ∀ s, P s → P (uartTxAction s)) (s : State) (h : P s) : P (offerInterrupt s) := by
  unfold offerInterrupt takeInterrupt
  split
  · split
    · exact htx _ (hrx _ (hd _ h))
    · exact hd _ h
  · exact h

/-- A property that draws and the two interrupt actions keep is kept by every boundary. -/
theorem boundary_keeps {P : State → Prop} (hd : ∀ s, P s → P (drawNext s)) (hrx : ∀ s, P s → P (uartRxAction s))
    (htx : ∀ s, P s → P (uartTxAction s)) (s : State) (h : P s) : P (boundary s) := by
  have many : ∀ k s, P s → P (offerInterrupts k s) := by
    intro k
    induction k with
    | zero => exact fun _ h => h
    | succ k ih => exact fun s h => ih _ (offerInterrupt_keeps hd hrx htx s h)
  unfold boundary
  split
  · exact many _ _ (hd _ h)
  · exact h

/-- A property that the actions of a list and every boundary keep is kept by the list. -/
theorem runActs_keeps {P : State → Prop} (hb : ∀ s, P s → P (boundary s)) (as : List Action)
    (ha : ∀ a ∈ as, ∀ s, P s → P (act s a)) (s : State) (h : P s) : P (runActs as s) := by
  induction as generalizing s with
  | nil => exact h
  | cons a as ih =>
    exact ih (fun b hb' => ha b (List.mem_cons_of_mem _ hb')) _ (ha a (List.mem_cons_self ..) _ (hb s h))

theorem mem_failures {bus : Byte} {status : I2cStatus} {a : Action} (h : a ∈ failActs bus status) : a ∈ failures bus := by
  refine List.mem_flatMap.mpr ⟨status, ?_, h⟩
  cases status <;> decide

theorem failTransfer_keeps {P : State → Prop} (hp : KeptByRuns P) {bus : Byte}
    (ha : ∀ a ∈ failures bus, ∀ s, P s → P (act s a)) (status : I2cStatus) (s : State) (h : P s) :
    P (failTransfer bus status s) :=
  runActs_keeps hp.boundary _ (fun a k => ha a (mem_failures k)) _ (hp.hold _ _ h)

/-- A property of a poll's outcome, whichever it is. -/
def PollResult.holds (P : State → Prop) : PollResult → Prop
  | .ok s => P s
  | .failed _ s => P s
  | .again s => P s

theorem pollOnce_keeps {P : State → Prop} (hp : KeptByRuns P) (w : I2cWait) (t0 : Nat) (s : State) (h : P s) :
    (pollOnce w t0 s).holds P := by
  have h1 := hp.read s w.reg h
  have h2 := hp.clock _ h1
  unfold pollOnce
  dsimp only
  split
  · exact h1
  · split
    · exact h1
    · split <;> exact h2

/-- A property that a program's actions keep, and that survives boundaries, reads and waits, holds after the program. -/
theorem drain_keeps {P : State → Prop} (hp : KeptByRuns P) (prog : List Micro)
    (ha : ∀ a ∈ prog.flatMap microActions, ∀ s, P s → P (act s a)) (s : State) (h : P s) : P (drain prog s) := by
  induction prog generalizing s with
  | nil => exact hp.hold _ _ h
  | cons m rest ih =>
    have hm : ∀ a ∈ microActions m, ∀ s, P s → P (act s a) :=
      fun a k => ha a (by rw [List.flatMap_cons]; exact List.mem_append_left _ k)
    have ih' := ih fun a k => ha a (by rw [List.flatMap_cons]; exact List.mem_append_right _ k)
    have hb := hp.boundary s h
    cases m with
    | act a => exact ih' _ (hm a (by simp [microActions]) _ hb)
    | await r mask want =>
      rw [drain]
      split
      · exact ih' _ (hp.read _ _ hb)
      · exact hp.hold _ _ (hp.read _ _ hb)
    | awaitT w =>
      rw [drain]
      have k := pollOnce_keeps hp w (readClock (boundary s)).now _ (hp.clock _ hb)
      split <;> rename_i e <;> rw [e] at k
      · exact ih' _ k
      · exact failTransfer_keeps hp hm _ _ k
      · exact hp.hold _ _ k
    | pollT w t0 =>
      rw [drain]
      have k := pollOnce_keeps hp w t0 _ hb
      split <;> rename_i e <;> rw [e] at k
      · exact ih' _ k
      · exact failTransfer_keeps hp hm _ _ k
      · exact hp.hold _ _ k

/-! ### What an instruction can do -/

/-- Every next state of an instruction, by how it is reached: an interrupt action, a halt before any effect, a list of
actions, or a program with waits. -/
theorem exec_cases {i : Instr} {s t : State} (h : exec i s = .next t) :
    (i = .uartRxHandler ∧ t = uartRxAction s) ∨ (i = .uartTxHandler ∧ t = uartTxAction s) ∨
      (∃ code, t = haltCommand s code) ∨ t = runActs (commandActions s i) s ∨
      ∃ prog, t = drain prog s ∧ commandActions s i = prog.flatMap microActions := by
  have pin : ∀ (id : BitVec 16) (body : Pin → List Action), (.next (withPhysical id s body) : Host.Outcome State Fault Refusal) = .next t →
      (∃ code, t = haltCommand s code) ∨ t = runActs (physicalActions s.cfg id body) s := by
    intro id body h
    cases h
    unfold withPhysical physicalActions
    cases classify s.cfg id with
    | physical pin => exact .inr rfl
    | virtual c role => exact .inl ⟨_, rfl⟩
    | invalid => exact .inl ⟨_, rfl⟩
  cases i with
  | gpioSetup id v => exact .inr (.inr ((pin id _ h).imp_right .inl))
  | gpioWrite id v => exact .inr (.inr ((pin id _ h).imp_right .inl))
  | gpioToggle id => exact .inr (.inr ((pin id _ h).imp_right .inl))
  | gpioReset id v => exact .inr (.inr ((pin id _ h).imp_right .inl))
  | gpioInputSetup id pull => exact .inr (.inr ((pin id _ h).imp_right .inl))
  | gpioInputRead id => exact .inr (.inr ((pin id _ h).imp_right .inl))
  | motorSetup c role v => cases h; exact .inr (.inr (.inr (.inl rfl)))
  | motorWrite c role v => cases h; exact .inr (.inr (.inr (.inl rfl)))
  | motorToggle c role => cases h; exact .inr (.inr (.inr (.inl rfl)))
  | motorReset c role v => cases h; exact .inr (.inr (.inr (.inl rfl)))
  | i2cSetup bus addr7 rate =>
    simp only [exec, execI2cSetup] at h
    split at h <;> cases h
    · exact .inr (.inr (.inl ⟨_, rfl⟩))
    · exact .inr (.inr (.inr (.inl rfl)))
  | i2cWrite bus addr8 bytes =>
    simp only [exec, execI2cWrite] at h
    split at h <;> cases h
    · exact .inr (.inr (.inl ⟨_, rfl⟩))
    · exact .inr (.inr (.inr (.inr ⟨_, rfl, rfl⟩)))
  | i2cRead bus addr8 reg len =>
    simp only [exec, execI2cRead] at h
    split at h
    · cases h
    · split at h <;> cases h
      · exact .inr (.inr (.inl ⟨_, rfl⟩))
      · exact .inr (.inr (.inr (.inr ⟨_, rfl, rfl⟩)))
  | spiSetup bus mode rate =>
    simp only [exec, execSpiSetup] at h
    split at h <;> cases h
    · exact .inr (.inr (.inl ⟨_, rfl⟩))
    · exact .inr (.inr (.inr (.inl rfl)))
  | spiPrepare bus ctrl =>
    simp only [exec, execSpiPrepare] at h
    split at h
    · split at h <;> cases h
      · exact .inr (.inr (.inl ⟨_, rfl⟩))
      · exact .inr (.inr (.inr (.inl rfl)))
    · cases h
  | spiTransfer bus readBack bytes =>
    simp only [exec, execSpiTransfer] at h
    split at h <;> cases h
    · exact .inr (.inr (.inl ⟨_, rfl⟩))
    · exact .inr (.inr (.inr (.inr ⟨_, rfl, rfl⟩)))
  | uartInit =>
    simp only [exec, execUartInit] at h
    split at h <;> cases h
    · exact .inr (.inr (.inr (.inl rfl)))
    · exact .inr (.inr (.inl ⟨_, rfl⟩))
  | uartTxKick =>
    simp only [exec, execUartTxKick] at h
    split at h <;> cases h
    · exact .inr (.inr (.inr (.inl rfl)))
    · exact .inr (.inr (.inl ⟨_, rfl⟩))
  | clockBringup =>
    simp only [exec, execClockBringup] at h
    split at h <;> cases h
    exact .inr (.inr (.inr (.inr ⟨_, rfl, rfl⟩)))
  | regRead addr =>
    simp only [exec, execRegRead] at h
    split at h <;> cases h
    next r hr => exact .inr (.inr (.inr (.inl (by simp [commandActions, hr]))))
  | regWrite addr value =>
    simp only [exec, execRegWrite] at h
    split at h <;> cases h
    next r hr => exact .inr (.inr (.inr (.inl (by simp [commandActions, hr]))))
  | uartRxHandler => cases h; exact .inl ⟨rfl, rfl⟩
  | uartTxHandler => cases h; exact .inr (.inl ⟨rfl, rfl⟩)

/-- A property that an instruction's actions, the interrupt actions and a halt keep holds in its next state. -/
theorem exec_induction {P : State → Prop} {i : Instr} {s t : State} (hp : KeptByRuns P)
    (hrx : P s → P (uartRxAction s)) (htx : P s → P (uartTxAction s)) (hh : ∀ s code, P s → P (raiseHalt s code))
    (ha : ∀ a ∈ commandActions s i, ∀ u, P u → P (act u a)) (h : exec i s = .next t) (hs : P s) : P t := by
  rcases exec_cases h with ⟨-, rfl⟩ | ⟨-, rfl⟩ | ⟨code, rfl⟩ | rfl | ⟨prog, rfl, e⟩
  · exact hrx hs
  · exact htx hs
  · exact hh _ _ (hp.boundary _ hs)
  · exact runActs_keeps hp.boundary _ ha s hs
  · exact drain_keeps hp prog (e ▸ ha) s hs

/-- Every next state of a step, by how it is reached: reset, an interrupt asked for, a fetched command, a wait for words, a
held command that goes on. -/
theorem step_cases {s t : State} (h : step s = .next t) :
    (configOk s.cfg = true ∧ s.resetRequest = true ∧ t = takeReset s) ∨
      s.resetRequest = false ∧ s.halted = none ∧
        ((s.irq = true ∧ s.inCritical = false ∧ t = offerInterrupt { s with irq := false }) ∨
          (s.todo = [] ∧ ∃ i rest, decode s.cfg s.stream = .ok (i, rest) ∧ i.isAction = false ∧
            exec i { s with stream := rest } = .next t) ∨
          (s.todo = [] ∧ t = boundary s) ∨ ∃ m rest, s.todo = m :: rest ∧ t = drain (m :: rest) s) := by
  unfold step at h
  split at h
  · cases h
  next hc =>
    split at h
    next hr => cases h; exact .inl ⟨by simpa using hc, hr, rfl⟩
    next hr =>
      refine .inr ⟨by simpa using hr, ?_⟩
      split at h
      · cases h
      next hn =>
        refine ⟨hn, ?_⟩
        unfold contextStep at h
        split at h
        next ha =>
          cases h
          simp only [Bool.and_eq_true, Bool.not_eq_true'] at ha
          exact .inl ⟨ha.1, ha.2, rfl⟩
        · unfold foregroundStep at h
          split at h
          next ht =>
            unfold fetchStep at h
            split at h
            next i rest hd =>
              split at h
              · cases h
              next hi => exact .inr (.inl ⟨ht, i, rest, hd, by simpa using hi, h⟩)
            · cases h
            · cases h
            · cases h
            · cases h
            · cases h; exact .inr (.inr (.inl ⟨ht, rfl⟩))
          next m rest ht => cases h; exact .inr (.inr (.inr ⟨m, rest, ht, rfl⟩))

end Sys2Proof.Machine
end

