-- ==== Sys2Proof/Laws/Transfers.lean ====
section
/-!
SUPPORT. What polls, bounded waits and the interrupt actions do, for given answers of the environment: a read of a
draw register, a wait that sees its flag, a NACK or its deadline, the failure of a transfer (42_i2c R175, R176), and
one run of each UART handler (44_uart R228, R229).
-/
namespace Sys2Proof.Machine

/-- A boundary does nothing in a state whose UART is that of a quiet state. -/
theorem boundary_quiet_of {s u : State} (h : Quiet s) (e : u.uart = s.uart) : boundary u = u :=
  boundary_quiet (by unfold Quiet; rw [e]; exact h)

/-! ### Reads of draw registers -/

/-- A read whose tested bits are all draws tests the scripted answer, clocked or not. -/
theorem read_scripted {s : State} {r : Reg} {v : Nat} {rest : List Nat} {mask : Word} (hs : s.script = v :: rest)
    (h0 : shown s r = 0) (hd : drawMask s r ≠ 0) (hm : drawMask s r &&& mask = mask) :
    readValue s r &&& mask = BitVec.ofNat 32 v &&& mask ∧ readNext s r = { s with script := rest } := by
  have hv : drawValue s = v := by simp [drawValue, hs]
  have zero_or : ∀ x : Word, (0 : Word) ||| x = x := fun x => BitVec.zero_or
  constructor
  · unfold readValue
    split
    · rw [h0, hv, zero_or, BitVec.and_assoc, hm]
    · rw [hv]
  · have : readDraws s r = true := by unfold readDraws; rw [bne_iff_ne.mpr hd]; simp
    simp [readNext, this, drawNext, hs]

/-- The low byte of a read of a data register is the scripted answer's. -/
theorem read_dataByte {s : State} {r : Reg} {v : Nat} {rest : List Nat} (hs : s.script = v :: rest)
    (hr : r = .i2c .datar ∨ r = .spi .datar ∨ r = .uart .datar) :
    (readValue s r).extractLsb' 0 8 = BitVec.ofNat 8 v ∧ readNext s r = { s with script := rest } := by
  have h0 : shown s r = 0 := by rcases hr with h | h | h <;> subst h <;> rfl
  have hd : drawMask s r ≠ 0 := by rcases hr with h | h | h <;> subst h <;> (simp only [drawMask]; decide)
  have hm : drawMask s r &&& 0xFF = 0xFF := by rcases hr with h | h | h <;> subst h <;> (simp only [drawMask]; decide)
  obtain ⟨a, b⟩ := read_scripted hs h0 hd hm
  refine ⟨?_, b⟩
  have low : ∀ w : Word, w.extractLsb' 0 8 = (w &&& 0xFF).extractLsb' 0 8 := by
    intro w
    apply BitVec.eq_of_getLsbD_eq; intro i hi
    have ones : ∀ i : Fin 8, BitVec.getLsbD (0xFF : Word) (0 + i.val) = true := by decide
    simp only [BitVec.getLsbD_extractLsb', BitVec.getLsbD_and, ones ⟨i, hi⟩]; simp
  rw [low, a, ← low]
  apply BitVec.eq_of_getLsbD_eq; intro i hi
  simp only [BitVec.getLsbD_extractLsb', BitVec.getLsbD_ofNat]; simp [hi]; omega

/-- A clock reading with a scripted answer. -/
theorem readClock_scripted {s : State} {d : Nat} {rest : List Nat} (hs : s.script = d :: rest) :
    readClock s = { s with now := s.now + d, script := rest } := by
  simp [readClock, drawNext, drawValue, hs]

/-! ### Bounded waits (42_i2c R175) -/

/-- The flags a bounded wait tests are draws of an I2C status register. -/
def WaitsOnStatus (w : I2cWait) : Prop :=
  (w.reg = .i2c .star1 ∧ (0x000004C7 : Word) &&& w.mask = w.mask) ∨
    (w.reg = .i2c .star2 ∧ (0x00000007 : Word) &&& w.mask = w.mask)

theorem waitStar1_status (bus : Byte) (flag : Word) (onNack : Option I2cStatus)
    (h : (0x000004C7 : Word) &&& flag = flag) : WaitsOnStatus ⟨bus, .i2c .star1, flag, flag, onNack⟩ := .inl ⟨rfl, h⟩

theorem waitsOnStatus_read {w : I2cWait} (hw : WaitsOnStatus w) {s : State} {v : Nat} {rest : List Nat}
    (hs : s.script = v :: rest) :
    readValue s w.reg &&& w.mask = BitVec.ofNat 32 v &&& w.mask ∧ readNext s w.reg = { s with script := rest } := by
  rcases hw with ⟨h, k⟩ | ⟨h, k⟩ <;> rw [h] <;> exact read_scripted hs rfl (by simp only [drawMask]; decide) k

/-- The script after a boundary and the clock reading of a bounded wait. -/
theorem pollAnswers_one (s : State) (a : Nat × Nat) (rest : List Nat) :
    pollAnswers s 1 a ++ rest = still s 1 ++ a.1 :: a.2 :: rest := by simp [pollAnswers]

/-- A bounded wait that sees its flag at the first poll takes two draws and goes on. -/
theorem drain_wait_ok {s : State} {w : I2cWait} {a : Nat × Nat} {rest : List Nat} {tail : List Micro}
    (hw : WaitsOnStatus w) (hs : s.script = pollAnswers s 1 a ++ rest) (hv : BitVec.ofNat 32 a.2 &&& w.mask = w.want) :
    drain (.awaitT w :: tail) s = drain tail { s with now := s.now + a.1, script := rest } := by
  rw [pollAnswers_one] at hs
  rw [drain]
  simp only [boundary_still hs, readClock_scripted (s := { s with script := a.1 :: a.2 :: rest }) rfl]
  obtain ⟨h, b⟩ := waitsOnStatus_read hw (s := { s with now := s.now + a.1, script := a.2 :: rest }) rfl
  simp only [pollOnce]
  rw [h, hv, if_pos rfl, b]

/-- A bounded wait that sees a NACK it watches for fails with its status. -/
theorem drain_wait_nack {s : State} {w : I2cWait} {status : I2cStatus} {a : Nat × Nat} {rest : List Nat}
    {tail : List Micro} (hw : WaitsOnStatus w) (hr : w.reg = .i2c .star1) (hn : w.nack = some status)
    (hs : s.script = pollAnswers s 1 a ++ rest) (hv : BitVec.ofNat 32 a.2 &&& w.mask ≠ w.want)
    (ha : BitVec.ofNat 32 a.2 &&& maskAf ≠ 0) :
    drain (.awaitT w :: tail) s = failTransfer w.bus status { s with now := s.now + a.1, script := rest } := by
  rw [pollAnswers_one] at hs
  rw [drain]
  simp only [boundary_still hs, readClock_scripted (s := { s with script := a.1 :: a.2 :: rest }) rfl]
  obtain ⟨h, b⟩ := waitsOnStatus_read hw (s := { s with now := s.now + a.1, script := a.2 :: rest }) rfl
  obtain ⟨c, -⟩ := read_scripted (s := { s with now := s.now + a.1, script := a.2 :: rest }) (r := w.reg) (mask := maskAf)
    rfl (by rw [hr]; rfl) (by rw [hr]; simp only [drawMask]; decide) (by rw [hr]; simp only [drawMask]; decide)
  simp only [pollOnce]
  rw [h, if_neg hv, b, c, hn, bne_iff_ne.mpr ha]

/-- A bounded wait without a NACK to watch for that misses its flag is past its deadline, or stays held. -/
theorem drain_wait_miss {s : State} {w : I2cWait} {a : Nat × Nat} {e : Nat} {rest : List Nat} {tail : List Micro}
    (hw : WaitsOnStatus w) (hn : w.nack = none) (hs : s.script = pollAnswers s 1 a ++ e :: rest)
    (hv : BitVec.ofNat 32 a.2 &&& w.mask ≠ w.want) :
    drain (.awaitT w :: tail) s =
      if s.cfg.i2cTimeout ≤ e then failTransfer w.bus .timeout { s with now := s.now + a.1 + e, script := rest }
      else { s with now := s.now + a.1 + e, script := rest, todo := .pollT w (s.now + a.1) :: tail } := by
  rw [pollAnswers_one] at hs
  rw [drain]
  simp only [boundary_still hs, readClock_scripted (s := { s with script := a.1 :: a.2 :: e :: rest }) rfl]
  obtain ⟨h, b⟩ := waitsOnStatus_read hw (s := { s with now := s.now + a.1, script := a.2 :: e :: rest }) rfl
  simp only [pollOnce]
  rw [h, if_neg hv, b, hn]
  simp only [readClock_scripted (s := { s with now := s.now + a.1, script := e :: rest }) rfl]
  have hsub : s.now + a.1 + e - (s.now + a.1) = e := by omega
  simp only [hsub, ge_iff_le]
  by_cases h : s.cfg.i2cTimeout ≤ e
  · simp only [if_pos h]
  · simp only [if_neg h]

/-! ### Pieces of an I2C transfer without interrupts -/

/-- A change of the controller's registers, where its gate is open. -/
def onController (gated : Bool) (f : I2c → I2c) (i : I2c) : I2c := if gated then f i else i

/-- s after a piece of a transfer: events added, the controller's registers changed, the clock advanced. -/
def advanced (s : State) (es : List Event) (f : I2c → I2c) (d : Nat) (acc : Word) (rest : List Nat) : State :=
  { s with
    trace := s.trace ++ es, i2c := onController (clocked s (.i2c .ctlr1)) f s.i2c, now := s.now + d, acc := acc
    script := rest }

theorem advanced_advanced (s : State) (es es' : List Event) (f g : I2c → I2c) (d d' : Nat) (a a' : Word)
    (rest rest' : List Nat) :
    advanced (advanced s es f d a rest) es' g d' a' rest' =
      advanced s (es ++ es') (fun i => g (f i)) (d + d') a' rest' := by
  have h : ∀ (c : Bool) (i : I2c), onController c g (onController c f i) = onController c (fun i => g (f i)) i := by
    intro c i; cases c <;> rfl
  unfold advanced
  simp only [clocked, List.append_assoc, Nat.add_assoc, h]

/-- The answers of boundaries are the same after a piece of a transfer. -/
@[simp] theorem still_advanced (s : State) (es : List Event) (f : I2c → I2c) (d : Nat) (acc : Word) (rest : List Nat) :
    still (advanced s es f d acc rest) = still s := still_congr rfl rfl rfl

@[simp] theorem pollAnswers_advanced (s : State) (es : List Event) (f : I2c → I2c) (d : Nat) (acc : Word)
    (rest : List Nat) : pollAnswers (advanced s es f d acc rest) = pollAnswers s := by
  funext n a; unfold pollAnswers; rw [still_advanced]

theorem write_star1 (s : State) (v : Word) : writeReg s (.i2c .star1) v = s := by unfold writeReg; split <;> rfl

theorem write_i2cCtlr1 (s : State) (v : Word) :
    writeReg s (.i2c .ctlr1) v =
      advanced s [] (fun i => { i with ctlr1 := v &&& storeMask (.i2c .ctlr1) }) 0 s.acc s.script := by
  unfold writeReg advanced onController; rw [List.append_nil]; split <;> rfl

theorem write_i2cDatar (s : State) (b : Byte) :
    writeReg s (.i2c .datar) (b.setWidth 32) =
      advanced s [] (fun i => { i with datar := b.setWidth 32 }) 0 s.acc s.script := by
  have low : b.setWidth 32 &&& storeMask (.i2c .datar) = b.setWidth 32 := by
    apply BitVec.eq_of_toNat_eq
    have hb := b.isLt
    simp only [BitVec.toNat_and, BitVec.toNat_setWidth]
    rw [show (storeMask (.i2c .datar)).toNat = 2 ^ 8 - 1 from rfl, Nat.and_two_pow_sub_one_eq_mod]
    omega
  unfold writeReg advanced onController
  rw [List.append_nil, show clocked s (.i2c .datar) = clocked s (.i2c .ctlr1) from rfl]
  split
  · simp only [storeReg, low]; rfl
  · rfl

/-- One action at a boundary that takes no interrupt. -/
theorem drain_act_still {s : State} {rest : List Nat} {a : Action} {tail : List Micro}
    (hs : s.script = still s 1 ++ rest) :
    drain (.act a :: tail) s = drain tail (act { s with script := rest } a) := by
  rw [drain_act, boundary_still hs]

/-- `respondBuf` as the last action. -/
theorem drain_end {s : State} {rest : List Nat} (q : Word) (hs : s.script = still s 1 ++ rest) :
    drain (acts [.respondBuf q]) s = { respond s q s.buf with todo := [], script := rest } := by
  show drain [.act (.respondBuf q)] s = _
  rw [drain_act_still hs]; rfl

/-- `CTLR1` and its event. -/
theorem drain_ctlr1 {s : State} {rest : List Nat} (v : Word) (e : Event) (tail : List Micro)
    (hs : s.script = still s 2 ++ rest) :
    drain (acts [.write (.i2c .ctlr1) (.const v), .emit e] ++ tail) s =
      drain tail (advanced s [e] (fun i => { i with ctlr1 := v &&& storeMask (.i2c .ctlr1) }) 0 s.acc rest) := by
  rw [still_add s 1 1, List.append_assoc] at hs
  show drain (.act _ :: .act _ :: tail) s = _
  rw [drain_act_still hs]
  show drain _ (writeReg _ _ _) = _
  rw [show sourceValue _ (.const v) = v from rfl, write_i2cCtlr1, drain_act_still (rest := rest) (by simp; rfl)]
  exact congrArg (drain tail) (by simp only [act, emit, advanced, List.append_nil]; rfl)

/-- `DATAR` and its event. -/
theorem drain_datar {s : State} {rest : List Nat} (b : Byte) (e : Event) (tail : List Micro)
    (hs : s.script = still s 2 ++ rest) :
    drain (acts [.write (.i2c .datar) (.const (b.setWidth 32)), .emit e] ++ tail) s =
      drain tail (advanced s [e] (fun i => { i with datar := b.setWidth 32 }) 0 s.acc rest) := by
  rw [still_add s 1 1, List.append_assoc] at hs
  show drain (.act _ :: .act _ :: tail) s = _
  rw [drain_act_still hs]
  show drain _ (writeReg _ _ _) = _
  rw [show sourceValue _ (.const (b.setWidth 32)) = b.setWidth 32 from rfl, write_i2cDatar,
    drain_act_still (rest := rest) (by simp; rfl)]
  exact congrArg (drain tail) (by simp only [act, emit, advanced, List.append_nil]; rfl)

/-- The answers of n + 1 boundaries and a poll, as those of n boundaries and of a wait. -/
theorem pollAnswers_add (s : State) (n : Nat) (a : Nat × Nat) :
    pollAnswers s (n + 1) a = still s n ++ pollAnswers s 1 a := by
  simp [pollAnswers, still_add]

/-- `Start(b, false)` on an idle bus whose start is acknowledged; the boundary of the command's first action is not
among its answers (42_i2c R177). -/
theorem drain_start {s : State} {idle started : Nat × Nat} {rest : List Nat} (tail : List Micro)
    (hs : s.script = pollAnswers s 1 idle ++ (pollAnswers s 3 started ++ rest))
    (hi : BitVec.ofNat 32 idle.2 &&& maskBusy = 0) (h : shows started maskSb) :
    drain (startProg 0 false ++ tail) s =
      drain tail (advanced s [.i2cStart 0] (fun i => { i with ctlr1 := 1 }) (idle.1 + started.1) s.acc rest) := by
  simp only [startProg, Bool.false_eq_true, if_false, List.cons_append, List.nil_append, List.append_assoc, waitStar1]
  rw [drain_wait_ok (.inr ⟨rfl, by decide⟩) hs hi,
    drain_ctlr1 (rest := pollAnswers s 1 started ++ rest) _ _ _
      (by show pollAnswers s 3 started ++ rest = still s 2 ++ _; rw [pollAnswers_add s 2, List.append_assoc]),
    drain_wait_ok (a := started) (rest := rest) (waitStar1_status 0 maskSb none (by decide))
      (by rw [pollAnswers_advanced]; rfl) h]
  exact congrArg (drain tail) (by simp only [advanced, Nat.zero_add, Nat.add_assoc]; rfl)

/-- `Start(b, true)` (42_i2c R177). -/
theorem drain_restart {s : State} {started : Nat × Nat} {rest : List Nat} (tail : List Micro)
    (hs : s.script = pollAnswers s 3 started ++ rest) (h : shows started maskSb) :
    drain (startProg 0 true ++ tail) s =
      drain tail (advanced s [.i2cStart 0] (fun i => { i with ctlr1 := 1 }) started.1 s.acc rest) := by
  rw [pollAnswers_add s 2, List.append_assoc] at hs
  simp only [startProg, if_true, List.cons_append, List.nil_append, List.append_assoc, waitStar1]
  rw [drain_ctlr1 _ _ _ hs,
    drain_wait_ok (a := started) (rest := rest) (waitStar1_status 0 maskSb none (by decide))
      (by rw [pollAnswers_advanced]; rfl) h]
  rfl

/-- The two reads that clear `ADDR` (10_state R45). -/
theorem drain_clearAddr {s : State} {x1 x2 : Nat} {rest : List Nat} (tail : List Micro)
    (hs : s.script = still s 1 ++ (x1 :: (still s 1 ++ (x2 :: rest)))) :
    ∃ acc, drain (acts [.read (.i2c .star1), .read (.i2c .star2)] ++ tail) s =
      drain tail { s with acc := acc, script := rest } := by
  have next : ∀ (u : State) (r : Reg) (x : Nat) (l : List Nat), u.script = x :: l →
      r = .i2c .star1 ∨ r = .i2c .star2 → readNext u r = { u with script := l } := by
    intro u r x l hu hr
    rcases hr with h | h <;> subst h <;>
      exact (read_scripted (mask := 0) hu rfl (by simp only [drawMask]; decide) (by simp)).2
  show ∃ acc, drain (.act _ :: .act _ :: tail) s = _
  rw [drain_act_still hs]
  simp only [act]
  rw [next { s with script := x1 :: (still s 1 ++ (x2 :: rest)) } _ x1 _ rfl (.inl rfl)]
  generalize readValue _ (.i2c .star1) = a
  rw [drain_act_still (rest := x2 :: rest) (by rfl)]
  simp only [act]
  rw [next { s with acc := a, script := x2 :: rest } _ x2 _ rfl (.inr rfl)]
  exact ⟨_, rfl⟩

/-- `SendAddress` that is acknowledged (42_i2c R178). -/
theorem drain_address {s : State} {byte : Byte} {onNack : I2cStatus} {acked : Nat × Nat} {x1 x2 : Nat}
    {rest : List Nat} (tail : List Micro) (hs : s.script = addressAnswers s acked x1 x2 ++ rest)
    (h : shows acked maskAddr) :
    ∃ acc, drain (addressProg 0 byte onNack ++ tail) s =
      drain tail (advanced s [.i2cAddr 0 byte] (fun i => { i with datar := byte.setWidth 32 }) acked.1 acc rest) := by
  simp only [addressAnswers, pollAnswers_add s 2, List.append_assoc] at hs
  simp only [addressProg, List.append_assoc, List.cons_append, List.nil_append, waitStar1]
  rw [drain_datar _ _ _ hs,
    drain_wait_ok (a := acked) (rest := still s 1 ++ (x1 :: (still s 1 ++ (x2 :: rest))))
      (waitStar1_status 0 maskAddr (some onNack) (by decide)) (by rw [pollAnswers_advanced]; rfl) h]
  obtain ⟨acc, e⟩ := drain_clearAddr (x1 := x1) (x2 := x2) (rest := rest) tail
    (s := { advanced s [.i2cAddr 0 byte] (fun i => { i with datar := byte.setWidth 32 }) 0 s.acc
              (pollAnswers s 1 acked ++ (still s 1 ++ (x1 :: (still s 1 ++ (x2 :: rest))))) with
            now := s.now + 0 + acked.1, script := still s 1 ++ (x1 :: (still s 1 ++ (x2 :: rest))) }) (by rfl)
  exact ⟨acc, e⟩

/-- `SendByte` that is acknowledged (42_i2c R179). -/
theorem drain_byte {s : State} {byte : Byte} {acked : Nat × Nat} {rest : List Nat} (tail : List Micro)
    (hs : s.script = pollAnswers s 3 acked ++ rest) (h : shows acked maskBtf) :
    drain (sendByteProg 0 byte ++ tail) s =
      drain tail (advanced s [.i2cData 0 byte] (fun i => { i with datar := byte.setWidth 32 }) acked.1 s.acc rest) := by
  rw [pollAnswers_add s 2, List.append_assoc] at hs
  simp only [sendByteProg, List.append_assoc, List.cons_append, List.nil_append, waitStar1]
  rw [drain_datar _ _ _ hs,
    drain_wait_ok (a := acked) (rest := rest) (waitStar1_status 0 maskBtf (some .nack) (by decide))
      (by rw [pollAnswers_advanced]; rfl) h]
  rfl

/-- Bytes sent one after another, each acknowledged. -/
theorem drain_bytes (tail : List Micro) (bytes : List Byte) (acked : List (Nat × Nat)) (s : State) (rest : List Nat)
    (hl : acked.length = bytes.length) (h : ∀ a ∈ acked, shows a maskBtf)
    (hs : s.script = bytesAnswers s acked ++ rest) :
    drain (bytes.flatMap (sendByteProg 0) ++ tail) s =
      drain tail
        (advanced s (bytes.map (.i2cData 0))
          (fun i => { i with datar := (bytes.getLast?.map (fun b => b.setWidth 32)).getD i.datar })
          (acked.map (·.1)).sum s.acc rest) := by
  induction bytes generalizing acked s with
  | nil =>
    cases List.length_eq_zero_iff.mp hl
    refine congrArg (drain tail) ?_
    have : ∀ c : Bool, onController c (fun i : I2c => i) s.i2c = s.i2c := fun c => by cases c <;> rfl
    simp only [advanced, List.map_nil, List.append_nil, List.getLast?_nil, Option.map_none, Option.getD_none,
      List.sum_nil, Nat.add_zero, this]
    have hs' : s.script = rest := hs
    rw [← hs']
  | cons b bytes ih =>
    cases acked with
    | nil => cases hl
    | cons a acked =>
      rw [bytesAnswers, List.flatMap_cons, List.append_assoc] at hs
      rw [List.flatMap_cons, List.append_assoc, drain_byte _ hs (h _ (List.mem_cons_self ..)),
        ih acked _ (by simpa using hl) (fun x hx => h x (List.mem_cons_of_mem _ hx))
          (by rw [bytesAnswers, pollAnswers_advanced]; rfl),
        advanced_advanced]
      simp only [advanced, List.getLast?_cons]
      refine congrArg (drain tail) ?_
      cases bytes.getLast? <;> rfl

/-- `PE | STOP` and its event. -/
theorem drain_stop {s : State} {rest : List Nat} (tail : List Micro) (hs : s.script = still s 2 ++ rest) :
    drain (stopProg 0 ++ tail) s =
      drain tail (advanced s [.i2cStop 0] (fun i => { i with ctlr1 := 1 }) 0 s.acc rest) := by
  rw [stopProg, drain_ctlr1 _ _ _ hs]; rfl

/-! ### The failure of a transfer (42_i2c R176) -/

/-- A failed transfer releases the bus, and returns its status with the buffer. -/
theorem failTransfer_still {s : State} {rest : List Nat} (bus : Byte) (status : I2cStatus)
    (hs : s.script = still s 4 ++ rest) :
    failTransfer bus status s =
      { respond (advanced s [.i2cStop bus] (fun i => { i with ctlr1 := 1 }) 0 s.acc rest) (statusWord status) s.buf with
        todo := [] } := by
  rw [still_add s 1 3, List.append_assoc] at hs
  have still3 : still s 3 = still s 1 ++ (still s 1 ++ still s 1) := by rw [still_add s 1 2, still_add s 1 1]
  rw [still3, List.append_assoc, List.append_assoc] at hs
  unfold failTransfer failActs
  rw [runActs_cons, boundary_still (by exact hs)]
  show runActs _ (writeReg _ _ _) = _
  rw [write_star1, runActs_cons, boundary_still (rest := still s 1 ++ (still s 1 ++ rest)) (by rfl)]
  show runActs _ (writeReg _ _ _) = _
  rw [write_i2cCtlr1, runActs_cons, boundary_still (rest := still s 1 ++ rest) (by rw [still_advanced]; rfl), runActs_cons,
    boundary_still (rest := rest) (by rfl)]
  have stop : ctlr1Stop &&& storeMask (.i2c .ctlr1) = 1 := by decide
  simp only [sourceValue, stop, runActs_nil, act, emit, respond, advanced, List.append_nil]
  rfl

/-- A byte put in `DATAR`, an address or data, whose wait sees a NACK (42_i2c R178, R179). -/
theorem drain_refused {s : State} {flag : Word} {refused : Nat × Nat} {rest : List Nat} (status : I2cStatus) (b : Byte)
    (e : Event) (tail : List Micro) (hm : (0x000004C7 : Word) &&& flag = flag) (hf : flag ≠ 0)
    (hs : s.script = pollAnswers s 3 refused ++ (still s 4 ++ rest)) (h : nacks refused flag) :
    drain (acts [.write (.i2c .datar) (.const (b.setWidth 32)), .emit e] ++ waitStar1 0 flag (some status) :: tail) s =
      { respond
          (advanced s [e, .i2cStop 0] (fun i => { i with ctlr1 := 1, datar := b.setWidth 32 }) refused.1 s.acc rest)
          (statusWord status) s.buf with
        todo := [] } := by
  rw [pollAnswers_add s 2, List.append_assoc] at hs
  rw [drain_datar _ _ _ hs]
  unfold waitStar1
  rw [drain_wait_nack (a := refused) (rest := still s 4 ++ rest) (waitStar1_status 0 flag (some status) hm) rfl rfl
      (by rw [pollAnswers_advanced]; rfl) (by rw [h.1]; exact hf.symm) h.2,
    failTransfer_still (rest := rest) 0 status (by rfl)]
  have e1 : ({ advanced s [e] (fun i => { i with datar := b.setWidth 32 }) 0 s.acc
        (pollAnswers s 1 refused ++ (still s 4 ++ rest)) with
      now := s.now + 0 + refused.1, script := still s 4 ++ rest } : State) =
      advanced s [e] (fun i => { i with datar := b.setWidth 32 }) refused.1 s.acc (still s 4 ++ rest) := rfl
  exact congrArg (fun u : State => ({ respond u (statusWord status) s.buf with todo := [] } : State))
    ((congrArg (fun u => advanced u [.i2cStop 0] (fun i => { i with ctlr1 := 1 }) 0 s.acc rest) e1).trans
      (advanced_advanced ..))

/-- What a transfer's end says of the state it started in. -/
theorem transferEnded_of {s : State} {es : List Event} {f : I2c → I2c} {d : Nat} {acc sent : Word} {rest : List Nat}
    {buf : List Byte} (q : Word) (payload : List Byte) (hf : f s.i2c = { s.i2c with ctlr1 := 0x0001, datar := sent }) :
    TransferEnded s { respond (advanced { s with buf := buf } es f d acc rest) q payload with todo := [] } es q payload
      sent rest := by
  refine ⟨rfl, ⟨rfl, rfl, rfl⟩, fun h => ?_, fun h => ?_, rfl⟩
  · have h' : clocked { s with buf := buf } (.i2c .ctlr1) = true := h
    simp only [respond, advanced, h', onController, if_true]
    exact hf
  · have h' : clocked { s with buf := buf } (.i2c .ctlr1) = false := h
    simp only [respond, advanced, h', onController]
    rfl

/-! ### The receive phase (42_i2c R182) -/

/-- A byte received: its wait, the read of `DATAR`, its event; the STOP stands before the last one. -/
theorem drain_received {s : State} {n k : Nat} {a : (Nat × Nat) × Nat} {rest : List Nat} (tail : List Micro)
    (hs : s.script = (if k + 1 = n then still s 2 else []) ++ (receivedAnswers s a ++ rest))
    (h : shows a.1 maskI2cRxne) :
    ∃ acc, drain (receiveByteProg 0 n k ++ tail) s =
      drain tail
        { advanced s ((if k + 1 = n then [.i2cStop 0] else []) ++ [.i2cRead 0 (BitVec.ofNat 8 a.2)])
            (fun i => if k + 1 = n then { i with ctlr1 := 1 } else i) a.1.1 acc rest with
          buf := s.buf.set k (BitVec.ofNat 8 a.2) } := by
  have core : ∀ u : State, u.script = receivedAnswers u a ++ rest →
      ∃ acc, drain (waitStar1 0 maskI2cRxne none :: (acts [.read (.i2c .datar), .i2cLatch 0 k] ++ tail)) u =
        drain tail
          { advanced u [.i2cRead 0 (BitVec.ofNat 8 a.2)] (fun i => i) a.1.1 acc rest with
            buf := u.buf.set k (BitVec.ofNat 8 a.2) } := by
    intro u hu
    simp only [receivedAnswers, List.append_assoc] at hu
    unfold waitStar1
    rw [drain_wait_ok (a := a.1) (waitStar1_status 0 maskI2cRxne none (by decide)) hu h]
    show ∃ acc, drain (.act _ :: .act _ :: tail) _ = _
    rw [drain_act_still (rest := a.2 :: (still u 1 ++ rest)) (by rfl)]
    obtain ⟨low, next⟩ := read_dataByte (v := a.2) (rest := still u 1 ++ rest) (r := .i2c .datar)
      (s := { u with now := u.now + a.1.1, script := a.2 :: (still u 1 ++ rest) }) rfl (.inl rfl)
    simp only [act]
    rw [next]
    generalize readValue _ (.i2c .datar) = acc at low
    rw [drain_act_still (rest := rest) (by rfl)]
    have id : ∀ c i, onController c (fun i => i) i = i := by intro c i; cases c <;> rfl
    refine ⟨acc, congrArg (drain tail) ?_⟩
    simp only [act, emit, low, advanced, id]
  unfold receiveByteProg
  by_cases hk : k + 1 = n
  · rw [if_pos hk] at hs
    simp only [if_pos hk, List.append_assoc]
    rw [drain_stop _ hs]
    obtain ⟨acc, e⟩ := core (advanced s [.i2cStop 0] (fun i => { i with ctlr1 := 1 }) 0 s.acc (receivedAnswers s a ++ rest))
      (by unfold receivedAnswers; rw [still_advanced, pollAnswers_advanced]; rfl)
    refine ⟨acc, Eq.trans e (congrArg (drain tail) ?_)⟩
    rw [advanced_advanced, Nat.zero_add]; rfl
  · rw [if_neg hk] at hs
    simp only [if_neg hk, List.nil_append]
    exact core s hs

/-- Pieces of a transfer one after another, with a buffer set by each. -/
theorem advanced_buf (s : State) (es es' : List Event) (f g : I2c → I2c) (d d' : Nat) (a a' : Word)
    (rest rest' : List Nat) (b b' : List Byte) :
    { advanced { advanced s es f d a rest with buf := b } es' g d' a' rest' with buf := b' } =
      { advanced s (es ++ es') (fun i => g (f i)) (d + d') a' rest' with buf := b' } :=
  congrArg (fun u : State => { u with buf := b' }) (advanced_advanced s es es' f g d d' a a' rest rest')

/-- The bytes of `ReceiveBytes` from index k on. -/
theorem drain_receive (n : Nat) (tail : List Micro) (received : List ((Nat × Nat) × Nat)) (k : Nat) (s : State)
    (rest : List Nat) (hne : received ≠ []) (hk : k + received.length = n) (hb : s.buf.length = n)
    (h : ∀ a ∈ received, shows a.1 maskI2cRxne)
    (hs : s.script =
      received.dropLast.flatMap (receivedAnswers s) ++
        (still s 2 ++ (received.getLast?.toList.flatMap (receivedAnswers s) ++ rest))) :
    ∃ d acc, drain ((List.range' k received.length).flatMap (receiveByteProg 0 n) ++ tail) s =
      drain tail
        { advanced s
            (received.dropLast.map (fun a => .i2cRead 0 (BitVec.ofNat 8 a.2)) ++ [.i2cStop 0] ++
              received.getLast?.toList.map (fun a => .i2cRead 0 (BitVec.ofNat 8 a.2)))
            (fun i => { i with ctlr1 := 1 }) d acc rest with
          buf := s.buf.take k ++ received.map (fun a => BitVec.ofNat 8 a.2) } := by
  induction received generalizing k s with
  | nil => exact absurd rfl hne
  | cons a received ih =>
    have ha := h a (List.mem_cons_self ..)
    rw [List.length_cons, List.range'_succ, List.flatMap_cons, List.append_assoc]
    cases received with
    | nil =>
      have hn : k + 1 = n := hk
      obtain ⟨acc, e⟩ := drain_received (n := n) (k := k) (a := a) (rest := rest) tail
        (by rw [if_pos hn]; simpa using hs) ha
      refine ⟨a.1.1, acc, Eq.trans e (congrArg (drain tail) ?_)⟩
      have hset : s.buf.set k (BitVec.ofNat 8 a.2) = s.buf.take k ++ [BitVec.ofNat 8 a.2] := by
        rw [List.set_eq_take_append_cons_drop, if_pos (by omega), List.drop_eq_nil_of_le (by omega)]
      simp only [if_pos hn, hset]
      rfl
    | cons a' received =>
      have hn : ¬k + 1 = n := by simp only [List.length_cons] at hk; omega
      rw [List.dropLast_cons_cons, List.flatMap_cons, List.append_assoc, List.getLast?_cons_cons] at hs
      obtain ⟨acc, e⟩ := drain_received (n := n) (k := k) (a := a)
        (rest := (a' :: received).dropLast.flatMap (receivedAnswers s) ++
          (still s 2 ++ ((a' :: received).getLast?.toList.flatMap (receivedAnswers s) ++ rest)))
        ((List.range' (k + 1) (a' :: received).length).flatMap (receiveByteProg 0 n) ++ tail)
        (by rw [if_neg hn]; exact hs) ha
      simp only [if_neg hn] at e
      rw [e]
      obtain ⟨d, acc', e'⟩ := ih (k + 1)
        { advanced s [.i2cRead 0 (BitVec.ofNat 8 a.2)] (fun i => i) a.1.1 acc
            ((a' :: received).dropLast.flatMap (receivedAnswers s) ++
              (still s 2 ++ ((a' :: received).getLast?.toList.flatMap (receivedAnswers s) ++ rest))) with
          buf := s.buf.set k (BitVec.ofNat 8 a.2) }
        (by simp) (by simp only [List.length_cons] at hk ⊢; omega) (by simpa using hb)
        (fun x hx => h x (List.mem_cons_of_mem _ hx)) rfl
      refine ⟨a.1.1 + d, acc', Eq.trans e' (congrArg (drain tail) ?_)⟩
      rw [advanced_buf]
      have hset : (s.buf.set k (BitVec.ofNat 8 a.2)).take (k + 1) = s.buf.take k ++ [BitVec.ofNat 8 a.2] := by
        have hlt : k < s.buf.length := by simp only [List.length_cons] at hk; omega
        rw [List.set_eq_take_append_cons_drop, if_pos hlt, List.take_append]
        simp [show k + 1 - min k s.buf.length = 1 by omega]
      simp only [hset]
      simp

/-! ### The interrupt actions (44_uart R228, R229) -/

/-- The status a handler reads is the scripted answer, clocked or not. -/
theorem uartStatus_scripted {s : State} {v : Nat} {rest : List Nat} (hs : s.script = v :: rest) :
    readNext s (.uart .statr) = { s with script := rest } ∧
      uartReceives (readValue s (.uart .statr)) =
        ((BitVec.ofNat 32 v).getLsbD 5 || (BitVec.ofNat 32 v).getLsbD 3) ∧
      uartTransmits (readValue s (.uart .statr)) = (BitVec.ofNat 32 v).getLsbD 7 := by
  obtain ⟨a, b⟩ := read_scripted hs (r := .uart .statr) (mask := 0xFF) rfl (by simp only [drawMask]; decide)
    (by simp only [drawMask]; decide)
  have bit : ∀ n : Fin 8, (readValue s (.uart .statr)).getLsbD n.val = (BitVec.ofNat 32 v).getLsbD n.val := by
    intro n
    have k := congrArg (fun w : Word => w.getLsbD n.val) a
    have ones : ∀ n : Fin 8, BitVec.getLsbD (0xFF : Word) n.val = true := by decide
    simpa only [BitVec.getLsbD_and, ones n, Bool.and_true] using k
  refine ⟨b, ?_, bit 7⟩
  show ((readValue s (.uart .statr)).getLsbD (5 : Fin 8).val || (readValue s (.uart .statr)).getLsbD (3 : Fin 8).val) = _
  rw [bit 5, bit 3]; rfl

theorem uartRxAction_takes {s : State} {statr byte : Nat} {rest : List Nat} (hs : s.script = statr :: byte :: rest)
    (h : (BitVec.ofNat 32 statr).getLsbD 5 = true ∨ (BitVec.ofNat 32 statr).getLsbD 3 = true) :
    uartRxAction s = { s with script := rest, trace := s.trace ++ [.uartRx (BitVec.ofNat 8 byte)] } := by
  obtain ⟨a, b, -⟩ := uartStatus_scripted hs
  obtain ⟨c, d⟩ := read_dataByte (s := { s with script := byte :: rest }) rfl (.inr (.inr rfl))
  unfold uartRxAction
  simp only [a, b, c, d]
  rw [if_pos (by simpa using h)]; rfl

theorem uartRxAction_skips {s : State} {statr : Nat} {rest : List Nat} (hs : s.script = statr :: rest)
    (h : (BitVec.ofNat 32 statr).getLsbD 5 = false) (k : (BitVec.ofNat 32 statr).getLsbD 3 = false) :
    uartRxAction s = { s with script := rest } := by
  obtain ⟨a, b, -⟩ := uartStatus_scripted hs
  unfold uartRxAction
  simp only [a, b, h, k]
  rfl

end Sys2Proof.Machine
end

