-- ==== Sys2Proof/Tests/Slice0.lean ====
section
/-!
SUPPORT. The model's own tests: words written out bit by bit from the encoding tables, one ill-formed term per check of
WellFormed, single steps whose results 95_test_vectors gives, and for every obligation with hypotheses a concrete
state and operands that meet them.
-/
-- One body after another: a kernel evaluation that waits its turn holds a thread.
set_option Elab.async false

namespace Sys2Proof.Tests
open Sys2Proof.Machine

/-- The state after an instruction; the state itself when there is none. -/
def after (i : Instr) (s : State) : State :=
  match exec i s with
  | .next t => t
  | .fault _ => s
  | .refused _ => s

/-- The state after a step that finds these words in the stream. -/
def afterWords (ws : List Word) (s : State) : State :=
  match step { s with stream := ws } with
  | .next t => t
  | .fault _ => s
  | .refused _ => s

/-- Why an outcome is a refusal. -/
def refusalOf : Host.Outcome State Fault Refusal → Option Refusal
  | .refused r => some r
  | _ => none

/-- Why an outcome is a fault. -/
def faultOf : Host.Outcome State Fault Refusal → Option Fault
  | .fault f => some f
  | _ => none

/-- The gates that `CLOCK_BRINGUP` opens (45_clock R243). -/
def gated (s : State) : State := { s with rcc := { s.rcc with apb2pcenr := 0x0000507C, apb1pcenr := 0x00200000 } }

/-- A UART with receive interrupts enabled (44_uart R220). -/
def uartOn : Uart := ⟨0, 0x04E2, 0x202C, 0, 0⟩

/-- A block whose UART takes receive interrupts, with scripted answers: every boundary takes a draw. -/
def armedWith (answers : List Nat) : State := { gated .reset with uart := uartOn, script := answers }

/-- The instruction of a word sequence, its rest and its encoding. -/
def reads (ws : List Word) (i : Instr) : Bool := decide (decode Config.default ws = .ok (i, [])) && decide (encode Config.default i = ws)

/-! ### WellFormed refuses (30_encoding R103, R106, R108) -/

theorem test_illFormed_pinRows :
    (Instr.gpioSetup 0x80 false).wellFormed Config.default = false ∧ (Instr.gpioWrite 0x87 true).wellFormed Config.default = false ∧
      (Instr.gpioToggle 0x80).wellFormed Config.default = false ∧ (Instr.gpioReset 0x87 true).wellFormed Config.default = false := by decide

/-- Under a configuration of two channels. -/
theorem test_illFormed_channel :
    let two := { Config.default with nChannels := 2 }
    (Instr.motorSetup 2 .drive true).wellFormed two = false ∧ (Instr.motorWrite 3 .drive true).wellFormed two = false ∧
      (Instr.motorToggle 2 .drive).wellFormed two = false ∧ (Instr.motorReset 3 .drive true).wellFormed two = false ∧
      (Instr.motorToggle 1 .drive).wellFormed two = true ∧ classify two 0x84 = .invalid := by decide

theorem test_illFormed_wireAddress :
    (Instr.i2cWrite 0 0xA1 []).wellFormed Config.default = false ∧ (Instr.i2cRead 0 0xA1 [] 1).wellFormed Config.default = false := by decide

theorem test_illFormed_payload :
    (Instr.i2cWrite 0 0xA0 (List.replicate 256 0)).wellFormed Config.default = false ∧
      (Instr.i2cRead 0 0xA0 (List.replicate 256 0) 1).wellFormed Config.default = false ∧
      (Instr.spiTransfer 0 true (List.replicate 256 0)).wellFormed Config.default = false ∧
      (Instr.spiTransfer 0 true (List.replicate 255 0)).wellFormed Config.default = true ∧
      (Instr.i2cRead 0 0xA0 [] 5).wellFormed { Config.default with maxLen := 4 } = false ∧
      decode { Config.default with maxLen := 4 } [0x120000A0, 5] = .error .overlong := by decide +kernel

/-! ### Words written out from 30_encoding R102, R105: OP, A, B, then operand words and payload -/

theorem test_decode_gpio :
    reads [0b00000001_00000001_0000000001001111] (.gpioSetup 79 true) = true ∧
      reads [0b00000010_00000000_0000000000000101] (.gpioWrite 5 false) = true ∧
      reads [0b00000011_00000000_0000000000101101] (.gpioToggle 45) = true ∧
      reads [0b00000100_00000001_0000000000011001] (.gpioReset 25 true) = true ∧
      reads [0b00000101_11111111_0000000000101101] (.gpioInputSetup 45 0xFF) = true ∧
      reads [0b00000110_00000000_0000000000101101] (.gpioInputRead 45) = true := by decide

theorem test_decode_motor :
    reads [0b00000001_00000000_0000000010000100] (.motorSetup 2 .drive false) = true ∧
      reads [0b00000010_00000001_0000000010000100] (.motorWrite 2 .drive true) = true ∧
      reads [0b00000011_00000000_0000000010000111] (.motorToggle 3 .direction) = true ∧
      reads [0b00000100_00000001_0000000010000001] (.motorReset 0 .direction true) = true := by decide

theorem test_decode_i2c :
    reads [0b00010000_00000001_0000000001010000, 100000] (.i2cSetup 1 0x50 100000) = true ∧
      reads [0b00010001_00000000_0000001010100000, 0x00005510] (.i2cWrite 0 0xA0 [0x10, 0x55]) = true ∧
      reads [0b00010001_00000000_0000010110100000, 0x04030201, 5] (.i2cWrite 0 0xA0 [1, 2, 3, 4, 5]) = true ∧
      reads [0b00010010_00000000_0000000110100000, 1, 0x10] (.i2cRead 0 0xA0 [0x10] 1) = true := by decide

theorem test_decode_spi :
    reads [0b00100000_00000000_0000000000000011, 72000000] (.spiSetup 0 3 72000000) = true ∧
      reads [0b00100001_00000000_0000001101011100] (.spiPrepare 0 0x035C) = true ∧
      reads [0b00100010_00000000_0000001000000001, 0x0000009F] (.spiTransfer 0 true [0x9F, 0x00]) = true := by decide

theorem test_decode_uart_clock :
    reads [0b00110000_00000000_0000000000000000] .uartInit = true ∧
      reads [0b00110001_00000000_0000000000000000] .uartTxKick = true ∧
      reads [0b01000000_00000000_0000000000000000] .clockBringup = true ∧
      reads [0b11110000_00000000_0000000000000000] .uartRxHandler = true ∧
      reads [0b11110001_00000000_0000000000000000] .uartTxHandler = true := by decide

theorem test_decode_raw :
    reads [0b01010000_00000000_0000000000000000, 0x4001080C] (.regRead 0x4001080C) = true ∧
      reads [0b01010001_00000000_0000000000000000, 0x40010810, 0x20] (.regWrite 0x40010810 0x20) = true := by decide

/-- The assembler text of V-E2, V-E6 and V-E17. -/
theorem test_asm :
    (Instr.gpioSetup 79 true).asm = "gpio.setup 79, 1" ∧ (Instr.motorWrite 2 .drive true).asm = "motor.write M2.drive, 1" ∧
      (Instr.regWrite 0x40010810 0x20).asm = "reg.write 1073809424, 32" := by decide +kernel

/-! ### GPIO (95_test_vectors §2.2) -/

/-- V-G1. -/
theorem test_gpioSetup_pa5 :
    let t := afterWords [0x01000005] .reset
    t.rcc.apb2pcenr = 4 ∧ t.gpio[0] = ⟨0x44344444, 0x44444444, 0⟩ ∧ t.responses = [⟨5, []⟩] := by decide +kernel

/-- V-G2. -/
theorem test_gpioSetup_pa15 :
    let t := afterWords [0x0101000F] .reset
    t.gpio[0] = ⟨0x44444444, 0x34444444, 0x8000⟩ ∧ t.responses = [⟨15, []⟩] := by decide +kernel

/-- V-G4's write, on port A gated. -/
theorem test_gpioWrite_gated :
    (after (.gpioWrite 5 true) (gated .reset)).gpio[0] = ⟨0x44444444, 0x44444444, 0x20⟩ := by decide +kernel

/-- V-G14. -/
theorem test_gpioWrite_ungated :
    (after (.gpioWrite 5 true) .reset).gpio[0].outdr = 0 ∧ (after (.gpioWrite 5 true) .reset).responses = [⟨0, []⟩] := by
  decide +kernel

/-- V-G6: the toggle leaves the mode of PA0. -/
theorem test_gpioToggle :
    (after (.gpioToggle 0) (gated .reset)).gpio[0] = ⟨0x44444444, 0x44444444, 0x0001⟩ := by decide +kernel

/-- V-G13's reset of PB9, a floating input that becomes an output (R138's example; log 31). -/
theorem test_gpioReset :
    (after (.gpioReset 25 true) (gated .reset)).gpio[1] = ⟨0x44444444, 0x44444434, 0x0200⟩ := by decide +kernel

/-- V-G15. -/
theorem test_gpioReset_ungated :
    (after (.gpioReset 5 true) .reset).gpio[0] = ⟨0x44444444, 0x44444444, 0⟩ := by decide +kernel

/-- V-G8. -/
theorem test_gpioInputSetup_up :
    let t := afterWords [0x0501002D] .reset
    t.rcc.apb2pcenr = 0x10 ∧ t.gpio[2] = ⟨0x44444444, 0x44844444, 0x2000⟩ ∧ t.responses = [⟨45, []⟩] := by decide +kernel

/-- V-G9, V-G10. -/
theorem test_gpioInputSetup_down_float :
    (after (.gpioInputSetup 45 0xFF) .reset).gpio[2] = ⟨0x44444444, 0x44844444, 0⟩ ∧
      (after (.gpioInputSetup 45 0) .reset).gpio[2] = ⟨0x44444444, 0x44444444, 0⟩ := by decide +kernel

/-- V-G12: an ungated read is a draw. -/
theorem test_gpioInputRead :
    (after (.gpioInputRead 45) { State.reset with script := [0xFFFF] }).responses = [⟨1, []⟩] ∧
      (after (.gpioInputRead 45) { gated .reset with script := [0] }).responses = [⟨0, []⟩] := by decide +kernel

/-- V-G16, V-G17, V-X4. -/
theorem test_halt_invalidPin :
    let t := afterWords [0x01000050] .reset
    t.halted = some .invalidPin ∧ t.trace = [.halt .invalidPin] ∧ t.rcc.apb2pcenr = 0 ∧ t.responses = [] ∧
      (afterWords [0x05000080] .reset).halted = some .invalidPin := by decide +kernel

/-- R35: what the latch and the mode put on a line: a push-pull output, a pull up, a floating input, an alternate
function. -/
theorem test_pinLine :
    pinLine (after (.gpioSetup 5 true) .reset) ⟨0, 5⟩ = .driven true ∧
      pinLine (after (.gpioInputSetup 45 0x01) .reset) ⟨2, 13⟩ = .pulled true ∧
      pinLine (after (.gpioInputSetup 45 0xFF) .reset) ⟨2, 13⟩ = .pulled false ∧
      pinLine .reset ⟨0, 5⟩ = .undriven ∧ pinLineOf (pinModeOf 0xB) true = .peripheral := by decide +kernel

/-! ### Motor channels (95_test_vectors §2.3) -/

/-- V-M5. -/
theorem test_motorSetup :
    let t := afterWords [0x01000084] .reset
    t.motor[2] = ⟨true, false, false⟩ ∧ t.rcc.apb2pcenr = 8 ∧ t.gpio[1] = ⟨0x44444433, 0x44444444, 0⟩ ∧
      t.responses = [⟨0x84, []⟩] := by decide +kernel

/-- V-M13. -/
theorem test_motorWrite :
    let t := afterWords [0x02010086] .reset
    t.motor[3] = ⟨true, true, false⟩ ∧ t.gpio[1] = ⟨0x44443344, 0x44444444, 0x0004⟩ ∧ t.responses = [⟨0, []⟩] := by
  decide +kernel

/-- V-M8. -/
theorem test_motorToggle :
    let t := after (.motorToggle 1 .drive) .reset
    t.motor[1] = ⟨true, true, false⟩ ∧ t.gpio[0] = ⟨0x44443344, 0x44444444, 0x0004⟩ := by decide +kernel

/-- V-M9: reverse. -/
theorem test_motorToggle_reverse :
    let t := after (.motorToggle 1 .direction)
      (setMotor (gated .reset) 1 ⟨true, true, false⟩)
    t.motor[1] = ⟨true, true, true⟩ ∧ t.gpio[0].outdr = 0x0008 := by decide +kernel

/-- V-M12: the modes are rewritten, the low line is high. -/
theorem test_motorReset :
    let t := after (.motorReset 0 .drive true) (setMotor (gated .reset) 0 ⟨true, false, true⟩)
    t.motor[0] = ⟨true, true, true⟩ ∧ t.gpio[0] = ⟨0x44444433, 0x44444444, 0x0002⟩ := by decide +kernel

/-! ### I2C (95_test_vectors §2.4) -/

/-- V-I10. -/
theorem test_i2cSetup :
    let t := afterWords [0x10000050, 100000] .reset
    t.responses = [⟨0xA0, []⟩] ∧ t.rcc.apb1pcenr = 0x00200000 ∧ t.rcc.apb2pcenr = 8 ∧
      t.gpio[1] = ⟨0xFF444444, 0x44444444, 0x00C0⟩ ∧ t.i2c = ⟨1, 0x3F, 0, 0x2D0, 0x3F⟩ ∧ t.i2cInit = true := by
  decide +kernel

/-- V-I1 to V-I8. -/
theorem test_i2c_dividers :
    [100000, 400000, 1000000, 50000, 17583, 17582, 10, 0].map (i2cCcr Config.default) =
      [720, 180, 180, 1440, 4094, 4095, 4095, 4095] := by decide +kernel

/-- Scenario 3, V-I15: BUSY 0, SB 1, then AF without ADDR. -/
theorem test_i2cWrite_absentDevice :
    let t := afterWords [0x110001A0, 0x10] { gated .reset with script := [0, 0, 0, 0x0001, 0, 0x0400] }
    t.responses = [⟨3, []⟩] ∧ t.trace = [.i2cStart 0, .i2cAddr 0 0xA0, .i2cStop 0] ∧ t.todo = [] := by decide +kernel

/-- V-I17: BUSY 0, SB, ADDR and its two clearing reads, BTF twice. -/
theorem test_i2cWrite_twoBytes :
    let t := afterWords [0x110002A0, 0x5510]
      { gated .reset with script := [0, 0, 0, 1, 0, 2, 0, 0, 0, 4, 0, 4] }
    t.responses = [⟨0, []⟩] ∧ t.i2c.ctlr1 = 0x0001 ∧
      t.trace = [.i2cStart 0, .i2cAddr 0 0xA0, .i2cData 0 0x10, .i2cData 0 0x55, .i2cStop 0] := by decide +kernel

/-- V-I19: the STOP before the last byte. -/
theorem test_i2cRead_twoBytes :
    let t := afterWords [0x120001A0, 2, 0]
      { gated .reset with script := [0, 0, 0, 1, 0, 2, 0, 0, 0, 4, 0, 1, 0, 2, 0, 0, 0, 0x40, 0x12, 0, 0x40, 0x34] }
    t.responses = [⟨0, [0x12, 0x34]⟩] ∧
      t.trace =
        [.i2cStart 0, .i2cAddr 0 0xA0, .i2cData 0 0, .i2cStart 0, .i2cAddr 0 0xA1, .i2cRead 0 0x12, .i2cStop 0,
          .i2cRead 0 0x34] := by decide +kernel

/-- R104: the same response as words, and one without a payload. -/
theorem test_responseWords :
    responseWords ⟨0, [0x12, 0x34, 0x56, 0x78, 0x9A]⟩ = [0, 0x78563412, 0x0000009A] ∧ responseWords ⟨0xA0, []⟩ = [0xA0] := by
  decide

/-- V-I23: the second byte's wait ends at its deadline, 5000 microseconds. -/
theorem test_i2cRead_timeout :
    let t := afterWords [0x120001A0, 3, 0]
      { gated .reset with
        script := [0, 0, 0, 1, 0, 2, 0, 0, 0, 4, 0, 1, 0, 2, 0, 0, 0, 0x40, 0x11, 0, 0, 5000] }
    t.responses = [⟨2, [0x11, 0, 0]⟩] := by decide +kernel

/-! ### SPI (95_test_vectors §2.5) -/

/-- V-S13. -/
theorem test_spiSetup :
    let t := afterWords [0x20000000, 10000000] .reset
    t.responses = [⟨0x035C, []⟩] ∧ t.rcc.apb2pcenr = 0x1008 ∧ t.gpio[1] = ⟨0x44444444, 0xB8B44444, 0x4000⟩ ∧
      t.spi = ⟨0, 0, 0⟩ ∧ t.spiInit = true := by decide +kernel

/-- V-S1 to V-S12: mode, rate, control word. -/
theorem test_spi_controlWords :
    ([(0, 10000000), (3, 72000000), (0, 100000000), (0, 71999999), (2, 36000000), (0, 18000000), (1, 4500000),
        (0, 2250000), (0, 2249999), (0, 1125000), (0, 1000000), (1, 0)] : List (BitVec 2 × Nat)).map
      (fun x => spiCtrl x.1 (selectDivisor Config.default 144000000 x.2)) =
      [0x035C, 0x0347, 0x0344, 0x034C, 0x034E, 0x0354, 0x0365, 0x036C, 0x0374, 0x0374, 0x0374, 0x0375] := by
  decide +kernel

/-- V-S17. -/
theorem test_spiPrepare :
    let t := after (.spiPrepare 0 0x0347) { gated .reset with spiLast := 0x035C }
    t.spi.ctlr1 = 0x0347 ∧ t.spiLast = 0x0347 ∧ t.responses = [⟨0, []⟩] := by decide +kernel

/-- V-S22 to V-S24. -/
theorem test_spiPrepare_refused :
    ([0x0000, 0x037C, 0x03DC] : List (BitVec 16)).all
      (fun c => refusalOf (exec (.spiPrepare 0 c) .reset) == some .spiControlWord) = true := by decide +kernel

/-- V-S18. -/
theorem test_spiTransfer :
    let t := after (.spiTransfer 0 true [0x9F, 0x00])
      { gated .reset with script := [2, 1, 0xFF, 2, 1, 0xEF, 0] }
    t.responses = [⟨0, [0xFF, 0xEF]⟩] ∧ t.trace = [.spiByte 0 0x9F 0xFF, .spiByte 0 0x00 0xEF] := by decide +kernel

/-- V-S21: held in the first wait. -/
theorem test_spiTransfer_held :
    let t := after (.spiTransfer 0 false [1]) { gated .reset with script := [0] }
    t.responses = [] ∧ t.todo.head? = some (.await (.spi .statr) 2 2) := by decide +kernel

/-! ### UART (95_test_vectors §2.6) -/

/-- V-U12, with no interrupt taken at the boundaries after `CTLR1` is written. -/
theorem test_uartInit :
    let t := afterWords [0x30000000] { State.reset with script := List.replicate 20 0 }
    t.responses = [⟨0, []⟩] ∧ t.rcc.apb2pcenr = 0x4004 ∧ t.uart.brr = 0x04E2 ∧ t.uart.ctlr1 = 0x202C ∧
      t.gpio[0] = ⟨0x44444444, 0x444448B4, 0x0400⟩ := by decide +kernel

/-- V-U20. -/
theorem test_uartInit_absent :
    (after .uartInit { State.reset with cfg := { Config.default with uartPresent := false } }).halted =
      some .unimplemented := by decide +kernel

/-- R261: a UART command on an absent UART. -/
theorem test_uartTxKick_absent :
    (after .uartTxKick { State.reset with cfg := { Config.default with uartPresent := false } }).halted =
      some .unimplemented := by decide +kernel

/-- V-U13. -/
theorem test_uartTxKick :
    (after .uartTxKick
      { gated .reset with uart := ⟨0, 0x04E2, 0x202C, 0, 0⟩, script := List.replicate 5 0 }).uart.ctlr1 = 0x20AC := by
  decide +kernel

/-- V-U15, V-U16: a byte on `RXNE`, a byte on `ORE`. -/
theorem test_uartRxHandler :
    let s := { gated .reset with uart := ⟨0, 0x04E2, 0x202C, 0, 0⟩ }
    (after .uartRxHandler { s with script := [0x20, 0x41] }).trace = [.uartRx 0x41] ∧
      (after .uartRxHandler { s with script := [0x08, 0] }).trace = [.uartRx 0] := by decide +kernel

/-- V-U17: a byte sent, then the queue empty; V-U18: no `TXE`. -/
theorem test_uartTxHandler :
    let s := { gated .reset with uart := ⟨0, 0x04E2, 0x20AC, 0, 0⟩ }
    (after .uartTxHandler { s with script := [0x80, 0x4F + 1] }).trace = [.uartTx 0x4F] ∧
      (after .uartTxHandler { s with script := [0x80, 0] }).uart.ctlr1 = 0x202C ∧
      (after .uartTxHandler { s with script := [0, 7] }).uart = s.uart := by decide +kernel

/-- V-U19: one interrupt, taken while the block waits for a command. -/
theorem test_interrupt_idle :
    (afterWords []
      { gated .reset with
        uart := ⟨0, 0x04E2, 0x20AC, 0, 0⟩, script := [1, 0xA0, 0x20, 0x55, 0x80, 0x0D + 1] }).trace =
      [.uartRx 0x55, .uartTx 0x0D] := by decide +kernel

/-- V-U15 through the dispatch, `irq` cleared; V-U18: with the line 0 nothing happens. -/
theorem test_interrupt_asked :
    (afterWords [] { armedWith [0x20, 0x20, 0x41, 0] with irq := true }).trace = [.uartRx 0x41] ∧
      (afterWords [] { armedWith [0x20, 0x20, 0x41, 0] with irq := true }).irq = false ∧
      (afterWords [] { armedWith [0x80, 0x20, 0x41] with irq := true }).trace = [] := by decide +kernel

/-- A raw write of `FS`, or a rate above 100 kHz, leaves the I2C wire rate free (93_implementation_defined I21). -/
theorem test_wireRates_free :
    sclRate 144000000 0x82D0 = Config.fastSclRate 144000000 0x82D0 ∧
      sclRate 144000000 180 = Config.fastSclRate 144000000 180 ∧ sclRate 144000000 0 = Config.rateOfZeroDivider 144000000 :=
  ⟨rfl, rfl, rfl⟩

/-- The interrupt-line vectors. -/
theorem test_interrupt_line :
    [uartIrqLine 0 0xA8, uartIrqLine 0x20 0xA0, uartIrqLine 0x20 0x88, uartIrqLine 0x20 0x80, uartIrqLine 0xA0 0x80,
      uartIrqLine 0xA0 0] = [false, true, true, false, true, false] := by decide

/-! ### Clocks (95_test_vectors §2.7) -/

/-- Scenario 5, V-C1. -/
theorem test_clockBringup :
    let t := afterWords [0x40000000] { State.reset with script := [2, 0x00020002, 2, 0x00020002, 0x02020002, 8] }
    t.rcc.cfgr0 = 0x00290002 ∧ t.rcc.ctlr = 0x01010081 ∧ t.rcc.apb2pcenr = 0x507C ∧ t.rcc.apb1pcenr = 0x00200000 ∧
      t.clockDone = true ∧ t.responses = [⟨0, []⟩] ∧ t.todo = [] := by decide +kernel

/-- V-C3: held in the first wait after write 1. -/
theorem test_clockBringup_held :
    let t := after .clockBringup { State.reset with script := [2, 2] }
    t.rcc.ctlr = 0x00010081 ∧ t.clockDone = false ∧ t.responses = [] ∧
      t.todo.head? = some (.await (.rcc .ctlr) 0x00020000 0x00020000) := by decide +kernel

/-- The clock formulas of R242. -/
theorem test_clockFormulas :
    sysClk Config.default 0x00280008 = 48000000 ∧ sysClk Config.default 0x002B0008 = 72000000 ∧
      sysClk Config.default 0x00110008 = 72000000 ∧ sysClk Config.default 0x00290000 = 8000000 ∧
      sysClk Config.default 0x00290004 = 12000000 ∧ hclk Config.default 0x00290088 = 72000000 := by decide +kernel

/-- R302 with the dividers of V-I1, V-U12 and of `BR` 3. -/
theorem test_wireRates :
    sclRate 144000000 720 = 100000 ∧ baudRate 144000000 0x04E2 = 115200 ∧ sckRate 144000000 0x035C = 9000000 := by
  decide +kernel

/-! ### Raw access (95_test_vectors §2.8) -/

/-- V-R8. -/
theorem test_regRead :
    (afterWords [0x50000000, 0x40021018] .reset).responses = [⟨0, []⟩] := by decide +kernel

/-- V-R5, V-R6, V-R7. -/
theorem test_regRead_refused :
    ([0x40010818, 0x40010802, 0x20000000] : List Word).all
      (fun a => refusalOf (step { State.reset with stream := [0x50000000, a] }) == some .notARegister) = true := by
  decide +kernel

/-- V-R2, V-R3. -/
theorem test_regWrite_bshr :
    let s := setPort (gated .reset) 0 ⟨0x44444444, 0x44444444, 0x0020⟩
    (after (.regWrite 0x40010810 0x00200000) s).gpio[0].outdr = 0 ∧
      (after (.regWrite 0x40010810 0x00200020) (gated .reset)).gpio[0].outdr = 0x0020 := by decide +kernel

/-- V-R9. -/
theorem test_regWrite_ungated :
    let t := afterWords [0x51000000, 0x40013808, 0x04E2] .reset
    t.uart.brr = 0 ∧ t.responses = [⟨0, []⟩] := by decide +kernel

/-! ### Refusals and their order (95_test_vectors §2.9, P4) -/

/-- V-X1, V-X2, V-X3, V-G20, V-U21, and padding (R106). -/
theorem test_refusals :
    ([0x00000000, 0x07000005, 0xF0000000] : List Word).all
        (fun w => refusalOf (step { State.reset with stream := [w] }) == some .illegalOpcode) = true ∧
      ([0x01020050, 0x03010005, 0x01020005] : List Word).all
        (fun w => refusalOf (step { State.reset with stream := [w] }) == some .reservedField) = true ∧
      refusalOf (step { State.reset with stream := [0x110001A0, 0x0000FF10] }) = some .payloadPadding := by
  decide +kernel

/-- V-X5. -/
theorem test_halted_takesNoStep :
    faultOf (step { State.reset with halted := some .invalidPin, stream := [0x02000005] }) =
      some (.halted .invalidPin) := by
  decide +kernel

/-- V-U10, V-U11. -/
theorem test_illFormed_baud :
    configOk { Config.default with uartBaud := 2000 } = false ∧
      configOk { Config.default with uartBaud := 10000000 } = false ∧
      configOk { Config.default with uartBaud := 9000000 } = true := by decide +kernel

/-- Parameters that no rule describes: six ports, a channel's identifier among the physical ones, a divisor without a
code, `HSEON` set by reset. -/
theorem test_illFormed_shape :
    ([{ Config.default with nPorts := 6 }, { Config.default with motorIdBase := 79 },
        { Config.default with spiDivMax := 256 },
        { Config.default with reset := { Config.defaultReset with rccCtlr := 0x00010081 } }] : List Config).all
      (fun cfg => !configOk cfg) = true ∧
      configOk { Config.default with nPorts := 3, nChannels := 2, reset := { Config.defaultReset with uartBrr := 16 } } =
        true := by decide +kernel

/-- The classification table of §2.1. -/
theorem test_classify :
    ([0, 45, 79, 80, 0x7F, 0x80, 0x81, 0x86, 0x87, 0x88, 0xFFFF] : List (BitVec 16)).map (classify Config.default) =
      [.physical ⟨0, 0⟩, .physical ⟨2, 13⟩, .physical ⟨4, 15⟩, .invalid, .invalid, .virtual 0 .drive,
        .virtual 0 .direction, .virtual 3 .drive, .virtual 3 .direction, .invalid, .invalid] := by decide +kernel

/-! ### Witnesses: a state and operands that meet the hypotheses of each obligation -/

/-- A block that is ready for its next command, with the words given. -/
def readyWith (ws : List Word) : State := { State.reset with stream := ws }

theorem ready_readyWith (ws : List Word) : Ready (readyWith ws) :=
  ⟨by show configOk Config.default = true; decide +kernel, rfl, rfl, rfl, rfl⟩

/-- After reset every register is masked. -/
theorem reset_masked : RegistersMasked State.reset := by
  intro r
  cases r with
  | gpio p r => revert p; cases r <;> decide
  | rcc r => cases r <;> decide
  | i2c r => cases r <;> decide
  | spi r => cases r <;> decide
  | uart r => cases r <;> decide

/-- Any state with the registers of reset is masked. -/
theorem masked_like_reset {s : State} (h1 : s.gpio = State.reset.gpio) (h2 : s.rcc = State.reset.rcc)
    (h3 : s.i2c = State.reset.i2c) (h4 : s.spi = State.reset.spi) (h5 : s.uart = State.reset.uart) :
    RegistersMasked s := fun r => by
  rw [storedBits_congr h1 h2 h3 h4 h5 r]; exact reset_masked r

/-- A bounded wait for `SB`. -/
def sampleWait : I2cWait := ⟨0, .i2c .star1, maskSb, maskSb, none⟩

theorem witness_DecodeOfEncodeIsTheCommand :
    configOk Config.default = true ∧ (Instr.i2cWrite 0 0xA0 [1, 2, 3, 4, 5]).wellFormed Config.default = true ∧
      (Instr.motorWrite 3 .direction true).wellFormed Config.default = true ∧ (Instr.gpioWrite 0x7F true).wellFormed Config.default = true ∧
      (Instr.gpioWrite 0x88 true).wellFormed Config.default = true := by decide +kernel

theorem witness_DecodedWordsAreTheEncoding :
    configOk Config.default = true ∧
      decode Config.default [0x110005A0, 0x04030201, 5, 7] = .ok (.i2cWrite 0 0xA0 [1, 2, 3, 4, 5], [7]) := by decide +kernel

theorem witness_IllegalOpcodesAreRefused :
    Ready (readyWith [0x07000000]) ∧
      (opField 0x07000000 ∉
        ([0x01, 0x02, 0x03, 0x04, 0x05, 0x06, 0x10, 0x11, 0x12, 0x20, 0x21, 0x22, 0x30, 0x31, 0x40, 0x50, 0x51, 0xF0,
          0xF1] : List Byte)) ∧
      opField 0xF0000000 = 0xF0 ∧ opField 0xF1000000 = 0xF1 := ⟨ready_readyWith _, by decide, by decide, by decide⟩

theorem witness_ReservedFieldsAreRefused :
    Ready (readyWith [0x01020000]) ∧ (opField 0x01020000 = 0x01 ∧ aField 0x01020000 >>> 1 ≠ 0) ∧
      (opField 0x03010005 = 0x03 ∧ aField 0x03010005 ≠ 0) ∧ (opField 0x10000080 = 0x10 ∧ bField 0x10000080 >>> 7 ≠ 0) ∧
      (opField 0x110000A1 = 0x11 ∧ (0x110000A1 : Word).getLsbD 0 = true) ∧
      (opField 0x120000A0 = 0x12 ∧ (0x00000100 : Word) >>> 8 ≠ 0) ∧
      (opField 0x20000004 = 0x20 ∧ bField 0x20000004 >>> 2 ≠ 0) ∧
      (opField 0x22000002 = 0x22 ∧ bField 0x22000002 &&& 0x00FE ≠ 0) ∧
      (opField 0x50010000 = 0x50 ∧ aField 0x50010000 ≠ 0) ∧ (opField 0x31000001 = 0x31 ∧ bField 0x31000001 ≠ 0) :=
  ⟨ready_readyWith _, by decide⟩

/-- One payload byte and a nonzero byte after it, for the three commands with a payload. -/
theorem witness_ReservedFieldsAreRefused_padding :
    Ready (readyWith [0x110001A0, 0x0000FF10]) ∧
      (opField 0x110001A0 = 0x11 ∧ (0x110001A0 : Word).getLsbD 0 = false) ∧
      (opField 0x120001A0 = 0x12 ∧ (0x120001A0 : Word).getLsbD 0 = false ∧ (0x000000FF : Word) >>> 8 = 0) ∧
      (opField 0x22000101 = 0x22 ∧ bField 0x22000101 &&& 0x00FE = 0) ∧
      payloadWords (bHigh 0x110001A0).toNat ≤ [(0x0000FF10 : Word)].length ∧
      ∃ b ∈ ((([0x0000FF10] : List Word).take (payloadWords (bHigh 0x110001A0).toNat)).flatMap bytesOfWord).drop
        (bHigh 0x110001A0).toNat, b ≠ 0 :=
  ⟨ready_readyWith _, by decide⟩

/-- The code after the largest divisor's. -/
theorem witness_ReservedFieldsAreRefused_control :
    ∀ mode ∈ ([0, 1, 2, 3] : List (BitVec 2)), ∀ div ∈ ([2, 4, 8, 16, 32, 64, 128] : List Nat),
      State.reset.cfg.spiDivMin ≤ div → div ≤ State.reset.cfg.spiDivMax →
        (0x037C : BitVec 16).setWidth 32 ≠ spiCtrl mode div := by decide

theorem witness_CommandsOutsideTheSpecAreRefused :
    (0x40010801 : Word).extractLsb' 0 2 ≠ 0 ∧ (∀ r : Reg, hasReg State.reset.cfg r = true → regAddr State.reset.cfg r ≠ 0x40010818) ∧
      { State.reset with clockDone := true }.clockDone = true := by
  refine ⟨by decide, fun r _ => ?_, rfl⟩
  cases r with
  | gpio p r => revert p; cases r <;> decide
  | rcc r => cases r <;> decide
  | i2c r => cases r <;> decide
  | spi r => cases r <;> decide
  | uart r => cases r <;> decide

theorem witness_StepRunsTheDecodedCommand :
    Ready (readyWith [0x02010005]) ∧ decode (readyWith [0x02010005]).cfg (readyWith [0x02010005]).stream = .ok (.gpioWrite 5 true, []) ∧
      (Instr.gpioWrite 5 true).isAction = false := ⟨ready_readyWith _, by decide, rfl⟩

/-- A pending receive, and a line that is 0. -/
theorem witness_StepTakesTheInterruptAskedFor :
    let s := { armedWith [0x20] with irq := true }
    let u := { armedWith [0x80] with irq := true }
    configOk s.cfg = true ∧ s.resetRequest = false ∧ s.halted = none ∧ s.inCritical = false ∧ s.irq = true ∧
      uartIrqLine s.uart.ctlr1 (BitVec.ofNat 32 (drawValue s)) = true ∧
      uartIrqLine u.uart.ctlr1 (BitVec.ofNat 32 (drawValue u)) = false := by
  decide +kernel

theorem witness_StepResumesAHeldCommand :
    let s := { State.reset with todo := [.await (.spi .statr) maskBsy 0] }
    configOk s.cfg = true ∧ s.resetRequest = false ∧ s.halted = none ∧ s.irq = false ∧
      s.todo = .await (.spi .statr) maskBsy 0 :: [] := by decide +kernel

/-- No word; the header of a raw read without its address; a payload that lacks its second word. -/
theorem witness_EmptyStreamWaits :
    (Ready (readyWith []) ∧ decode Config.default (readyWith []).stream = .error .truncated ∧ Quiet (readyWith [])) ∧
      Ready (readyWith [0x50000000]) ∧ decode Config.default (readyWith [0x50000000]).stream = .error .truncated ∧
      Ready (readyWith [0x110005A0, 0x04030201]) ∧
      (Instr.i2cWrite 0 0xA0 [1, 2, 3, 4, 5]).wellFormed Config.default = true ∧ ([5] : List Word) ≠ [] ∧
      encode Config.default (.i2cWrite 0 0xA0 [1, 2, 3, 4, 5]) = (readyWith [0x110005A0, 0x04030201]).stream ++ [5] :=
  ⟨⟨ready_readyWith _, rfl, rfl⟩, ready_readyWith _, by decide, ready_readyWith _, by decide⟩

theorem witness_HaltedBlockWaitsForReset :
    let s := { State.reset with halted := some .invalidBus }
    let u := { State.reset with resetRequest := true, halted := some .invalidPin, now := 7 }
    configOk s.cfg = true ∧ s.resetRequest = false ∧ s.halted = some .invalidBus ∧ configOk u.cfg = true ∧
      u.resetRequest = true := by decide +kernel

/-- Two lines on one pin, an owned pin that is not mapped, baud 0, divisors 15 and 65536. -/
theorem witness_IllFormedConfigurationIsRefused :
    let twice := { Config.default with motorLo := #v[⟨0, 0⟩, ⟨0, 3⟩, ⟨1, 1⟩, ⟨1, 3⟩] }
    let unmapped := { Config.default with pinMapped := 0 }
    let noBaud := { Config.default with uartBaud := 0 }
    let fast := { Config.default with uartBaud := 1, uartClk := 15 }
    let slow := { Config.default with uartBaud := 1, uartClk := 65536 }
    ¬(twice.motorHi.toList ++ twice.motorLo.toList ++
        [twice.i2cScl, twice.i2cSda, twice.spiSck, twice.spiMosi, twice.spiMiso, twice.uartTx, twice.uartRx]).Nodup ∧
      ((⟨0, 9⟩ : Pin) ∈ [unmapped.uartTx] ∧ unmapped.pinMapped.getLsbD (unmapped.nBits * 0 + 9) = false) ∧
      ((⟨1, 15⟩ : Pin) ∈ [{ Config.default with nPorts := 1 }.spiMosi] ∧ { Config.default with nPorts := 1 }.nPorts ≤ 1) ∧
      ((⟨1, 15⟩ : Pin) ∈ [{ Config.default with nBits := 15 }.spiMosi] ∧ { Config.default with nBits := 15 }.nBits ≤ 15) ∧
      noBaud.uartBaud = 0 ∧
      fast.uartClk / fast.uartBaud < 16 ∧ 65535 < slow.uartClk / slow.uartBaud := by decide +kernel

/-- Identifiers 0 and 79 are pins, 80, 0x80 and 0x87 are not. -/
theorem witness_pinCommands :
    State.reset.inCritical = false ∧ classify State.reset.cfg 0 = .physical ⟨0, 0⟩ ∧
      classify State.reset.cfg 79 = .physical ⟨4, 15⟩ ∧ (∀ pin, classify State.reset.cfg 80 ≠ .physical pin) ∧
      (∀ pin, classify State.reset.cfg 0x80 ≠ .physical pin) ∧ ∀ pin, classify State.reset.cfg 0x87 ≠ .physical pin := by
  have h1 : classify State.reset.cfg 80 = .invalid := by decide
  have h2 : classify State.reset.cfg 0x80 = .virtual 0 .drive := by decide
  have h3 : classify State.reset.cfg 0x87 = .virtual 3 .direction := by decide
  exact ⟨rfl, by decide, by decide, fun _ e => PinClass.noConfusion (h1.symm.trans e),
    fun _ e => PinClass.noConfusion (h2.symm.trans e), fun _ e => PinClass.noConfusion (h3.symm.trans e)⟩

theorem witness_GpioSetupConfiguresTheOutput :
    State.reset.inCritical = false ∧ classify State.reset.cfg 79 = .physical ⟨4, 15⟩ := ⟨rfl, by decide⟩

/-- The write's port ungated and gated. -/
theorem witness_GpioWriteDrivesTheLatch :
    classify State.reset.cfg 5 = .physical ⟨0, 5⟩ ∧ portClocked State.reset ⟨0, 5⟩ = false ∧
      classify (gated .reset).cfg 5 = .physical ⟨0, 5⟩ ∧ portClocked (gated .reset) ⟨0, 5⟩ = true := by decide

theorem witness_GpioToggleInvertsTheLatch :
    State.reset.inCritical = false ∧ RegistersMasked State.reset ∧ classify State.reset.cfg 79 = .physical ⟨4, 15⟩ :=
  ⟨rfl, reset_masked, by decide⟩

theorem witness_GpioResetReappliesTheOutput :
    (gated .reset).inCritical = false ∧ classify (gated .reset).cfg 25 = .physical ⟨1, 9⟩ ∧
      portClocked (gated .reset) ⟨1, 9⟩ = true := by decide

/-- The pulls at the edges of their ranges: 0, 1 and 127, -1 and -128. -/
theorem witness_GpioInputSetupSelectsThePull :
    State.reset.inCritical = false ∧ classify State.reset.cfg 45 = .physical ⟨2, 13⟩ ∧ (0x00 : Byte).toInt = 0 ∧
      0 < (0x01 : Byte).toInt ∧ 0 < (0x7F : Byte).toInt ∧ (0xFF : Byte).toInt < 0 ∧ (0x80 : Byte).toInt < 0 := by decide

theorem witness_GpioInputReadReturnsTheDrawnLevel :
    classify State.reset.cfg 45 = .physical ⟨2, 13⟩ ∧ Quiet State.reset := ⟨by decide, rfl⟩

theorem witness_IdentifiersAreClassified :
    let cfg := Config.default
    configOk cfg = true ∧ (0 : BitVec 16).toNat = cfg.nBits * (⟨0, 0⟩ : Pin).port.val + (⟨0, 0⟩ : Pin).bit.val ∧
      ((⟨4, 15⟩ : Pin).port.val < cfg.nPorts ∧ (⟨4, 15⟩ : Pin).bit.val < cfg.nBits ∧
        (79 : BitVec 16).toNat = cfg.nBits * (⟨4, 15⟩ : Pin).port.val + (⟨4, 15⟩ : Pin).bit.val) ∧
      (0x80 : BitVec 16).toNat = cfg.motorIdBase + 2 * (0 : Fin 4).val ∧
      ((3 : Fin 4).val < cfg.nChannels ∧ (0x87 : BitVec 16).toNat = cfg.motorIdBase + 2 * (3 : Fin 4).val + 1) ∧
      (cfg.nPorts * cfg.nBits ≤ (80 : BitVec 16).toNat ∧ (0x7F : BitVec 16).toNat < cfg.motorIdBase) ∧
      cfg.motorIdBase + 2 * cfg.nChannels ≤ (0x88 : BitVec 16).toNat := by decide +kernel

/-- A fresh channel and an initialised one, for the four motor commands. -/
theorem witness_motorCommands :
    configOk State.reset.cfg = true ∧ (3 : Fin 4).val < State.reset.cfg.nChannels ∧ State.reset.inCritical = false ∧
      State.reset.motor[(2 : Fin 4)].init = false ∧
      configOk (setMotor State.reset 2 ⟨true, true, false⟩).cfg = true ∧
      (setMotor State.reset 2 ⟨true, true, false⟩).inCritical = false ∧
      (setMotor State.reset 2 ⟨true, true, false⟩).motor[(2 : Fin 4)].init = true := by decide +kernel

/-- A fresh channel; an initialised one on gated ports, with one line asserted. -/
theorem witness_AtMostOneLineAtEveryBoundary :
    let s := setPort (setMotor (gated .reset) 2 ⟨true, true, false⟩) 1 ⟨0x44444433, 0x44444444, 1⟩
    (configOk State.reset.cfg = true ∧ State.reset.inCritical = false ∧ atMostOneLine State.reset 2 = true ∧
        State.reset.motor[(2 : Fin 4)].init = false) ∧
      configOk s.cfg = true ∧ s.inCritical = false ∧ atMostOneLine s 2 = true ∧ s.motor[(2 : Fin 4)].init = true ∧
      portClocked s (hiPin s.cfg 2) = true ∧ portClocked s (loPin s.cfg 2) = true := by decide +kernel

theorem witness_I2cSetupConfiguresOnce :
    configOk State.reset.cfg = true ∧ State.reset.inCritical = false ∧ 0 < State.reset.cfg.nI2c ∧
      State.reset.cfg.i2cPresent = true ∧
      State.reset.i2cInit = false ∧ { State.reset with i2cInit := true }.i2cInit = true := by decide +kernel

/-- Bus indices 1 and 255, and an absent controller on bus 0. -/
theorem witness_I2cBusErrorsHalt :
    (∃ addr8 bytes, Instr.i2cWrite 1 0 [] = .i2cWrite 1 addr8 bytes) ∧ Config.default.nI2c ≤ (1 : Byte).toNat ∧
      Config.default.nI2c ≤ (255 : Byte).toNat ∧ (0 : Byte).toNat < { Config.default with i2cPresent := false }.nI2c ∧
      (∃ addr8 reg len, len ≠ 0 ∧ Instr.i2cRead 0 0 [] 1 = .i2cRead 0 addr8 reg len) ∧
      { Config.default with i2cPresent := false }.i2cPresent = false :=
  ⟨⟨_, _, rfl⟩, by decide, by decide, by decide, ⟨_, _, 1, by decide, rfl⟩, rfl⟩

/-- V-I17's answers; with the UART armed the same, each boundary's 0 before them. -/
theorem witness_I2cWriteCompletes :
    let s := { State.reset with script := [0, 0, 0, 1, 0, 2, 0, 0, 0, 4, 0, 4] }
    let u := armedWith ([0, 0, 0, 0, 0, 0, 0, 0, 1, 0, 0, 0, 0, 2, 0, 0, 0, 0] ++ [0, 0, 0, 0, 4, 0, 0, 0, 0, 4, 0, 0, 0, 7])
    (0 < s.cfg.nI2c ∧ s.cfg.i2cPresent = true ∧ u.cfg = s.cfg ∧ still s 1 = [] ∧ still u 1 = [0]) ∧
      ([(0, 4), (0, 4)] : List (Nat × Nat)).length = ([0x10, 0x55] : List Byte).length ∧
      BitVec.ofNat 32 0 &&& maskBusy = 0 ∧ shows (0, 1) maskSb ∧ shows (0, 2) maskAddr ∧
      (∀ a ∈ ([(0, 4), (0, 4)] : List (Nat × Nat)), shows a maskBtf) ∧
      s.script =
        startAnswers s (0, 0) (0, 1) ++ addressAnswers s (0, 2) 0 0 ++ bytesAnswers s [(0, 4), (0, 4)] ++ still s 3 ++ [] ∧
      u.script =
        startAnswers u (0, 0) (0, 1) ++ addressAnswers u (0, 2) 0 0 ++ bytesAnswers u [(0, 4), (0, 4)] ++ still u 3 ++
          [7] := by
  simp only [shows]; decide

/-- Scenario 3's answers, for a write and for a read with a register byte, and with the UART armed; a busy bus at the
deadline itself. -/
theorem witness_I2cWriteFailsWithAStatus :
    let s := { State.reset with script := [0, 0, 0, 1, 0, 0x400] }
    let u := armedWith [0, 0, 0, 0, 0, 0, 0, 0, 1, 0, 0, 0, 0, 0x400, 0, 0, 0, 0]
    let v := { State.reset with script := [0, 2, 5000] }
    (sendsBytes (.i2cWrite 0 0xA0 [0x10]) 0xA0 [0x10] [] ∧ sendsBytes (.i2cRead 0 0xA0 [0x10] 2) 0xA0 [0x10] [0, 0]) ∧
      (0 < s.cfg.nI2c ∧ s.cfg.i2cPresent = true ∧ BitVec.ofNat 32 0 &&& maskBusy = 0 ∧ shows (0, 1) maskSb ∧
        nacks (0, 0x400) maskAddr ∧
        s.script = startAnswers s (0, 0) (0, 1) ++ pollAnswers s 3 (0, 0x400) ++ still s 4 ++ [] ∧
        u.script = startAnswers u (0, 0) (0, 1) ++ pollAnswers u 3 (0, 0x400) ++ still u 4 ++ []) ∧
      BitVec.ofNat 32 2 &&& maskBusy ≠ 0 ∧ v.cfg.i2cTimeout ≤ 5000 ∧
      v.script = pollAnswers v 2 (0, 2) ++ [5000] ++ still v 4 ++ [] :=
  ⟨⟨.inl ⟨rfl, rfl⟩, .inr ⟨2, by decide, by decide, rfl, rfl⟩⟩, by simp only [shows, nacks]; decide⟩

/-- A NACK of the second byte of three: data bytes of a write, register bytes of a read. -/
theorem witness_I2cWriteFailsWithAStatus_data :
    let s := { State.reset with script := [0, 0, 0, 1, 0, 2, 0, 0, 0, 4, 0, 0x400] }
    (sendsBytes (.i2cWrite 0 0xA0 [1, 2, 3]) 0xA0 ([1] ++ 2 :: [3]) [] ∧
        sendsBytes (.i2cRead 0 0xA0 [1, 2, 3] 1) 0xA0 ([1] ++ 2 :: [3]) [0]) ∧
      ([(0, 4)] : List (Nat × Nat)).length = ([1] : List Byte).length ∧ shows (0, 1) maskSb ∧ shows (0, 2) maskAddr ∧
      (∀ a ∈ ([(0, 4)] : List (Nat × Nat)), shows a maskBtf) ∧ nacks (0, 0x400) maskBtf ∧
      s.script =
        startAnswers s (0, 0) (0, 1) ++ addressAnswers s (0, 2) 0 0 ++ bytesAnswers s [(0, 4)] ++
          pollAnswers s 3 (0, 0x400) ++ still s 4 ++ [] :=
  ⟨⟨.inl ⟨rfl, rfl⟩, .inr ⟨1, by decide, by decide, rfl, rfl⟩⟩, by simp only [shows, nacks]; decide⟩

/-- A NACK of the read address after a repeated START, and after the first START. -/
theorem witness_I2cWriteFailsWithAStatus_read :
    let s := { State.reset with script := [0, 0, 0, 1, 0, 2, 0, 0, 0, 4, 0, 1, 0, 0x400] }
    let u := { State.reset with script := [0, 0, 0, 1, 0, 0x400] }
    (2 : Byte) ≠ 0 ∧ BitVec.ofNat 32 0 &&& maskBusy = 0 ∧ shows (0, 1) maskSb ∧ shows (0, 2) maskAddr ∧
      (∀ a ∈ ([(0, 4)] : List (Nat × Nat)), shows a maskBtf) ∧ nacks (0, 0x400) maskAddr ∧
      s.script =
        startAnswers s (0, 0) (0, 1) ++
          (if ([0x10] : List Byte) = [] then []
            else addressAnswers s (0, 2) 0 0 ++ bytesAnswers s [(0, 4)] ++ pollAnswers s 3 (0, 1)) ++
          still s 1 ++ pollAnswers s 3 (0, 0x400) ++ still s 4 ++ [] ∧
      u.script =
        startAnswers u (0, 0) (0, 1) ++
          (if ([] : List Byte) = [] then []
            else addressAnswers u (0, 2) 0 0 ++ bytesAnswers u [] ++ pollAnswers u 3 (0, 1)) ++
          still u 1 ++ pollAnswers u 3 (0, 0x400) ++ still u 4 ++ [] := by
  simp only [shows, nacks]; decide

/-- A read of one byte with a register byte, of one without and the UART armed, and of two bytes. -/
theorem witness_I2cReadCompletes :
    let s := { State.reset with script := [0, 0, 0, 1, 0, 2, 0, 0, 0, 4, 0, 1, 0, 2, 0, 0, 0, 0x40, 0x7E] }
    let u :=
      armedWith ([0, 0, 0, 0, 0, 0, 0, 0, 1, 0, 0, 0, 0, 0, 2, 0, 0, 0, 0] ++ [0, 0, 0, 0, 0x40, 0, 0x7E, 0, 0])
    let v := { State.reset with script := [0, 0, 0, 1, 0, 2, 0, 0, 0, 0x40, 0x12, 0, 0x40, 0x34] }
    (0 < s.cfg.nI2c ∧ s.cfg.i2cPresent = true ∧ (1 : Byte) ≠ 0 ∧ [((0, 0x40), 0x7E)].length = (1 : Byte).toNat ∧
        [((0, 0x40), 0x12), ((0, 0x40), 0x34)].length = (2 : Byte).toNat) ∧
      BitVec.ofNat 32 0 &&& maskBusy = 0 ∧ shows (0, 1) maskSb ∧ shows (0, 2) maskAddr ∧
      (∀ a ∈ ([(0, 4)] : List (Nat × Nat)), shows a maskBtf) ∧
      (∀ a ∈ [((0, 0x40), 0x12), ((0, 0x40), 0x34), ((0, 0x40), 0x7E)], shows a.1 maskI2cRxne) ∧
      s.script =
        startAnswers s (0, 0) (0, 1) ++
          (if ([0] : List Byte) = [] then []
            else addressAnswers s (0, 2) 0 0 ++ bytesAnswers s [(0, 4)] ++ pollAnswers s 3 (0, 1)) ++
          still s 1 ++ addressAnswers s (0, 2) 0 0 ++ [((0, 0x40), 0x7E)].dropLast.flatMap (receivedAnswers s) ++
          still s 2 ++ [((0, 0x40), 0x7E)].getLast?.toList.flatMap (receivedAnswers s) ++ still s 1 ++ [] ∧
      u.script =
        startAnswers u (0, 0) (0, 1) ++ [] ++
          still u 1 ++ addressAnswers u (0, 2) 0 0 ++ [((0, 0x40), 0x7E)].dropLast.flatMap (receivedAnswers u) ++
          still u 2 ++ [((0, 0x40), 0x7E)].getLast?.toList.flatMap (receivedAnswers u) ++ still u 1 ++ [] ∧
      v.script =
        startAnswers v (0, 0) (0, 1) ++ [] ++ still v 1 ++ addressAnswers v (0, 2) 0 0 ++
          [((0, 0x40), 0x12), ((0, 0x40), 0x34)].dropLast.flatMap (receivedAnswers v) ++ still v 2 ++
          [((0, 0x40), 0x12), ((0, 0x40), 0x34)].getLast?.toList.flatMap (receivedAnswers v) ++ still v 1 ++ [] := by
  simp only [shows]; decide

/-- A held poll that sees no `SB`: at the deadline itself, one microsecond before it, and with the UART armed. -/
theorem witness_BoundedWaitEndsAtItsDeadline :
    let s := { State.reset with script := [0, 5000], todo := [.pollT sampleWait 0] }
    let u := { State.reset with script := [0, 4999], todo := [.pollT sampleWait 0] }
    let v := { armedWith [0, 0, 5000] with todo := [.pollT sampleWait 0] }
    (configOk s.cfg = true ∧ s.resetRequest = false ∧ s.halted = none ∧ s.irq = false ∧
        s.todo = .pollT sampleWait 0 :: [] ∧ sampleWait.nack = none) ∧
      (readValue (boundary s) sampleWait.reg &&& sampleWait.mask ≠ sampleWait.want ∧
        s.cfg.i2cTimeout ≤ s.now + drawValue (readNext (boundary s) sampleWait.reg) - 0) ∧
      (readValue (boundary u) sampleWait.reg &&& sampleWait.mask ≠ sampleWait.want ∧
        u.now + drawValue (readNext (boundary u) sampleWait.reg) - 0 < u.cfg.i2cTimeout) ∧
      uartArmed v.uart.ctlr1 = true ∧ readValue (boundary v) sampleWait.reg &&& sampleWait.mask ≠ sampleWait.want ∧
      v.cfg.i2cTimeout ≤ v.now + drawValue (readNext (boundary v) sampleWait.reg) - 0 := by
  decide +kernel

/-- A NACK at a later poll of a wait for `ADDR`, and at the first; a first poll at the deadline and one before it. -/
theorem witness_BoundedWaitEndsAtItsDeadline_first :
    let w : I2cWait := ⟨0, .i2c .star1, maskAddr, maskAddr, some .addrNack⟩
    let s := { State.reset with script := [0x400], todo := [.pollT w 0] }
    let entered := readClock (boundary { State.reset with script := [3, 0x400] })
    let late := readClock (boundary { State.reset with script := [3, 0, 5000] })
    let early := readClock (boundary { State.reset with script := [3, 0, 4999] })
    w.nack = some .addrNack ∧
      (readValue (boundary s) w.reg &&& w.mask ≠ w.want ∧ readValue (boundary s) w.reg &&& maskAf ≠ 0) ∧
      (readValue entered w.reg &&& w.mask ≠ w.want ∧ readValue entered w.reg &&& maskAf ≠ 0) ∧
      (readValue late w.reg &&& w.mask ≠ w.want ∧ readValue late w.reg &&& maskAf = 0 ∧
        late.cfg.i2cTimeout ≤ drawValue (readNext late w.reg)) ∧
      readValue early w.reg &&& w.mask ≠ w.want ∧ readValue early w.reg &&& maskAf = 0 ∧
      drawValue (readNext early w.reg) < early.cfg.i2cTimeout := by decide +kernel

theorem witness_I2cTransfersEndInAStatus :
    0 < State.reset.cfg.nI2c ∧ State.reset.cfg.i2cPresent = true ∧ (∃ addr8 bytes, Instr.i2cWrite 0 0xA0 [] = .i2cWrite 0 addr8 bytes) ∧
      (∃ addr8 reg len, len ≠ 0 ∧ Instr.i2cRead 0 0xA0 [] 1 = .i2cRead 0 addr8 reg len) :=
  ⟨by decide, rfl, ⟨_, _, rfl⟩, ⟨_, _, 1, by decide, rfl⟩⟩

theorem witness_SpiSetupConfiguresOnce :
    configOk State.reset.cfg = true ∧ State.reset.inCritical = false ∧ 0 < State.reset.cfg.nSpi ∧
      State.reset.cfg.spiPresent = true ∧
      State.reset.spiInit = false ∧ { State.reset with spiInit := true }.spiInit = true := by decide +kernel

theorem witness_SelectedDivisorIsTheSmallest :
    let cfg := Config.default
    configOk cfg = true ∧ cfg.spiDivMin < selectDivisor cfg 144000000 71999999 ∧
      2 ∈ ([2, 4, 8, 16, 32, 64, 128] : List Nat) ∧ cfg.spiDivMin ≤ 2 ∧ 2 < selectDivisor cfg 144000000 0 := by
  decide +kernel

theorem witness_SpiPrepareAppliesAChangedWord :
    0 < State.reset.cfg.nSpi ∧ State.reset.cfg.spiPresent = true ∧ 16 ∈ ([2, 4, 8, 16, 32, 64, 128] : List Nat) ∧
      State.reset.cfg.spiDivMin ≤ 16 ∧ 16 ≤ State.reset.cfg.spiDivMax ∧
      (0x035C : BitVec 16).setWidth 32 = spiCtrl 0 16 ∧ (0x035C : BitVec 16).setWidth 32 ≠ State.reset.spiLast ∧
      clocked (gated .reset) (.spi .ctlr1) = true := by decide

theorem witness_SpiBusErrorsHalt :
    (∃ mode rate, Instr.spiSetup 1 0 0 = .spiSetup 1 mode rate) ∧
      (∃ ctrl, isSpiCtrl Config.default ctrl = true ∧ Instr.spiPrepare 255 0x035C = .spiPrepare 255 ctrl) ∧
      (∃ readBack bytes, Instr.spiTransfer 0 true [] = .spiTransfer 0 readBack bytes) ∧ Config.default.nSpi ≤ (1 : Byte).toNat ∧
      (0 : Byte).toNat < { Config.default with spiPresent := false }.nSpi ∧
      { Config.default with spiPresent := false }.spiPresent = false :=
  ⟨⟨_, _, rfl⟩, ⟨0x035C, by decide, rfl⟩, ⟨_, _, rfl⟩, by decide, by decide, rfl⟩

/-- V-S18's answers; one byte with the UART armed. -/
theorem witness_SpiTransferExchangesTheBytes :
    let s := { State.reset with script := [2, 1, 0xFF, 2, 1, 0xEF, 0] }
    let u := armedWith [0, 0, 2, 0, 0, 1, 0, 0xFF, 0, 0, 0, 0]
    (0 < s.cfg.nSpi ∧ s.cfg.spiPresent = true ∧
        ([(2, 1, 0xFF), (2, 1, 0xEF)] : List (Nat × Nat × Nat)).length = ([0x9F, 0x00] : List Byte).length) ∧
      (∀ a ∈ ([(2, 1, 0xFF), (2, 1, 0xEF)] : List (Nat × Nat × Nat)),
        BitVec.ofNat 32 a.1 &&& maskSpiTxe = maskSpiTxe ∧ BitVec.ofNat 32 a.2.1 &&& maskSpiRxne = maskSpiRxne) ∧
      BitVec.ofNat 32 0 &&& maskBsy = 0 ∧
      s.script =
        still s 1 ++ ([(2, 1, 0xFF), (2, 1, 0xEF)] : List (Nat × Nat × Nat)).flatMap (exchangedAnswers s) ++
          still s 1 ++ [0] ++ still s 1 ++ [] ∧
      u.script =
        still u 1 ++ ([(2, 1, 0xFF)] : List (Nat × Nat × Nat)).flatMap (exchangedAnswers u) ++ still u 1 ++ [0] ++
          still u 1 ++ [] := by decide

/-- `TXE` not shown, without interrupts and with a receive interrupt taken before the poll. -/
theorem witness_UnboundedWaitKeepsTheCommandHeld :
    let s := { State.reset with script := [0], todo := [.await (.spi .statr) maskSpiTxe maskSpiTxe] }
    let u :=
      { armedWith [1, 0x20, 0x20, 0x41, 0, 0] with todo := [.await (.spi .statr) maskSpiTxe maskSpiTxe] }
    (configOk s.cfg = true ∧ s.resetRequest = false ∧ s.halted = none ∧ s.irq = false ∧
        s.todo = .await (.spi .statr) maskSpiTxe maskSpiTxe :: [] ∧
        readValue (boundary s) (.spi .statr) &&& maskSpiTxe ≠ maskSpiTxe ∧ uartArmed s.uart.ctlr1 = false) ∧
      (boundary u).trace = [.uartRx 0x41] ∧ readValue (boundary u) (.spi .statr) &&& maskSpiTxe ≠ maskSpiTxe := by
  decide +kernel

theorem witness_UartInitConfiguresTheUart :
    configOk State.reset.cfg = true ∧ State.reset.inCritical = false ∧ State.reset.cfg.uartPresent = true ∧
      configOk { Config.default with uartPresent := false } = true ∧
      { Config.default with uartPresent := false }.uartPresent = false := by decide +kernel

/-- An armed UART and an unarmed one, both gated, an ungated one, and none. -/
theorem witness_UartTxKickSetsTheEnable :
    let s := { gated .reset with uart := uartOn, script := [0, 0] }
    let u := { gated .reset with script := [0] }
    (s.inCritical = false ∧ s.cfg.uartPresent = true ∧ clocked s (.uart .ctlr1) = true ∧ uartArmed s.uart.ctlr1 = true ∧ s.script = [0, 0] ++ []) ∧
      (u.inCritical = false ∧ clocked u (.uart .ctlr1) = true ∧ uartArmed u.uart.ctlr1 = false ∧
        u.script = [0] ++ []) ∧
      clocked State.reset (.uart .ctlr1) = false ∧ { Config.default with uartPresent := false }.uartPresent = false := by
  decide

/-- `RXNE` alone, `ORE` alone, neither. -/
theorem witness_ReceiveHandlerPushesOneByte :
    { State.reset with script := [0x20, 0x41] }.script = 0x20 :: 0x41 :: [] ∧
      (BitVec.ofNat 32 0x20).getLsbD 5 = true ∧ (BitVec.ofNat 32 0x08).getLsbD 3 = true ∧
      (BitVec.ofNat 32 0xD7).getLsbD 5 = false ∧ (BitVec.ofNat 32 0xD7).getLsbD 3 = false := by decide

/-- A byte to send, an empty queue, `TXEIE` 0, `TXE` 0, an ungated UART. -/
theorem witness_TransmitHandlerSendsOrDisables :
    let s := { gated .reset with uart := { uartOn with ctlr1 := 0x20AC }, script := [0x80, 0x50] }
    (s.script = 0x80 :: 0x50 :: [] ∧ clocked s (.uart .ctlr1) = true ∧ s.uart.ctlr1.getLsbD 7 = true ∧
        (BitVec.ofNat 32 0x80).getLsbD 7 = true ∧ 0x50 = 0x4F + 1) ∧
      uartOn.ctlr1.getLsbD 7 = false ∧ (BitVec.ofNat 32 0x7F).getLsbD 7 = false ∧
      clocked State.reset (.uart .ctlr1) = false := by decide

theorem witness_PendingInterruptMayBeTaken :
    let s := { gated .reset with uart := uartOn, script := [1, 0x20, 0x20, 0x41, 0] }
    Ready s ∧ s.stream = [] ∧ s.inCritical = false ∧ clocked s (.uart .ctlr1) = true ∧ s.uart.ctlr1.getLsbD 5 = true ∧
      s.uart.ctlr1.getLsbD 7 = false ∧ (BitVec.ofNat 32 0x20).getLsbD 5 = true ∧
      s.script = [1, 0x20, 0x20, 0x41, 0] ++ [] :=
  ⟨⟨by show configOk Config.default = true; decide +kernel, rfl, rfl, rfl, rfl⟩, rfl, rfl, rfl, rfl, rfl, by decide, rfl⟩

/-- Scenario 5's answers, after reset, and with the UART armed; a state with the switch on the internal oscillator and
`PLLON` set. -/
theorem witness_BringupReachesThePll :
    let s := { State.reset with script := [2, 0x20002, 2, 0x20002, 0x2020002, 8] }
    let u := { s with rcc := ⟨0x01000081, 0, 0, 0, false, true, false⟩ }
    let v :=
      armedWith ([0, 2, 0, 0, 0x20002, 0, 2, 0, 0, 0, 0, 0x20002] ++ [0, 0, 0x2020002, 0, 0, 0, 8, 0, 0, 0, 0, 0, 0])
    RegistersMasked s ∧ ReadinessHistory s ∧ ReadinessHistory u ∧ s.clockDone = false ∧
      s.rcc.swPllSeen = false ∧ 2 ≤ s.cfg.pllMul ∧ s.cfg.pllMul ≤ 15 ∧ (BitVec.ofNat 32 0x20002).getLsbD 17 = true ∧
      (BitVec.ofNat 32 0x2020002).getLsbD 25 = true ∧ (BitVec.ofNat 32 8).extractLsb' 2 2 = 2 ∧
      s.script =
        still s 1 ++ [2] ++ still s 2 ++ [0x20002] ++ still s 1 ++ [2] ++ still s 4 ++ [0x20002] ++ still s 2 ++
          [0x2020002] ++ still s 3 ++ [8] ++ still s 6 ++ [] ∧
      v.script =
        still v 1 ++ [2] ++ still v 2 ++ [0x20002] ++ still v 1 ++ [2] ++ still v 4 ++ [0x20002] ++ still v 2 ++
          [0x2020002] ++ still v 3 ++ [8] ++ still v 6 ++ [] :=
  ⟨masked_like_reset rfl rfl rfl rfl rfl, by unfold ReadinessHistory; decide, by unfold ReadinessHistory; decide, rfl,
    rfl, by decide⟩

/-- The defaults, and a crystal of 8 MHz multiplied by 9. -/
theorem witness_ClocksAfterBringup :
    let other :=
      { Config.default with
        hseFreq := 8000000, pllMul := 9, sysclkTarget := 72000000, i2cPclk := 72000000, spiPclk := 72000000,
        uartClk := 72000000 }
    configOk Config.default = true ∧ clocksAgree Config.default = true ∧
      (0x0029000A : Word) &&& 0x003F3FFC = BitVec.ofNat 32 (2 ^ 16 + 2 ^ 18 * (Config.default.pllMul - 2) + 8) ∧
      configOk other = true ∧ clocksAgree other = true ∧
      (0x001D000A : Word) &&& 0x003F3FFC = BitVec.ofNat 32 (2 ^ 16 + 2 ^ 18 * (other.pllMul - 2) + 8) ∧
      (0 : Word) &&& 0x0000000C = 0 := by decide +kernel

/-- Gated and ungated registers without interrupts; `UART.CTLR1` and `UART.BRR` of an armed UART. -/
theorem witness_RawReadReturnsTheRegister :
    let u := armedWith []
    (regAt State.reset.cfg 0x40021018 = some (.rcc .apb2pcenr) ∧ clocked State.reset (.rcc .apb2pcenr) = true ∧
        isUartReg (.rcc .apb2pcenr) = false ∧ regAt State.reset.cfg 0x40010800 = some (.gpio 0 .cfglr) ∧
        clocked State.reset (.gpio 0 .cfglr) = false ∧ uartArmed State.reset.uart.ctlr1 = false) ∧
      uartArmed u.uart.ctlr1 = true ∧ regAt u.cfg 0x4001380C = some (.uart .ctlr1) ∧ clocked u (.uart .ctlr1) = true ∧
      isUartReg (.uart .ctlr1) = true ∧ (drawMask u (.uart .ctlr1)).getLsbD 13 = false ∧
      regAt u.cfg 0x40013808 = some (.uart .brr) ∧ (drawMask u (.uart .brr)).getLsbD 31 = false := by decide

/-- A stored register gated and ungated; a set of and a clear of latch bits; `UART.CTLR1` with no interrupt taken; a
register of an armed UART. -/
theorem witness_RawWriteStoresTheRegister :
    let s := { gated .reset with script := [0] }
    Quiet s ∧ regAt s.cfg 0x40010800 = some (.gpio 0 .cfglr) ∧ clocked s (.gpio 0 .cfglr) = true ∧
      storeMask (.gpio 0 .cfglr) ≠ 0 ∧ isUartReg (.gpio 0 .cfglr) = false ∧ clocked State.reset (.gpio 0 .cfglr) = false ∧
      regAt s.cfg 0x40010810 = some (.gpio 0 .bshr) ∧ clocked s (.gpio 0 .bshr) = true ∧
      regAt s.cfg 0x40011814 = some (.gpio 4 .bcr) ∧ clocked s (.gpio 4 .bcr) = true ∧
      Reg.gpio 0 .cfglr ≠ .gpio 0 .bshr ∧ Reg.gpio 0 .cfglr ≠ .gpio 0 .outdr ∧
      regAt s.cfg 0x4001380C = some (.uart .ctlr1) ∧ s.script = 0 :: [] ∧
      uartArmed { s with uart := uartOn }.uart.ctlr1 = true :=
  ⟨rfl, by decide⟩

theorem witness_SetAndClearRegisters : clocked (gated .reset) (.gpio 4 .outdr) = true := by decide

theorem witness_invariants :
    RegistersMasked State.reset ∧ SpansBetweenSteps State.reset ∧ ReadinessHistory State.reset ∧
      HeldCommand State.reset ∧ ∃ t, step State.reset = .next t := by
  refine ⟨reset_masked, ⟨rfl, rfl⟩, by unfold ReadinessHistory; decide, .inl rfl, ?_⟩
  exact ⟨boundary State.reset, by
    have h : configOk State.reset.cfg = true := by decide +kernel
    simp only [step, h]; rfl⟩

/-- A command that completes, for the statements about every command. -/
theorem witness_everyCommand :
    let s := { State.reset with i2cInit := true, spiInit := true, clockDone := true }
    (∃ t, exec (.gpioWrite 5 true) s = .next t) ∧ isRegWrite (.gpioWrite 5 true) = false ∧
      isMotorCommand (.gpioWrite 5 true) = false ∧ isI2cSetup (.gpioWrite 5 true) = false ∧
      isSpiSetup (.gpioWrite 5 true) = false ∧ isSpiPrepare (.gpioWrite 5 true) = false ∧
      Instr.gpioWrite 5 true ≠ .clockBringup ∧ s.i2cInit = true ∧ s.spiInit = true ∧ s.clockDone = true ∧
      (setMotor s 0 freshMotor).motor[(0 : Fin 4)].init = true := ⟨⟨_, rfl⟩, by decide⟩

/-- A transfer held in its first wait. -/
def heldTransfer : State := { State.reset with todo := (spiTransferProg 0 false [1]).drop 1, script := [0] }

/-- Its next step goes on. -/
theorem witness_heldCommand :
    HeldFrom heldTransfer.cfg (.spiTransfer 0 false [1]) heldTransfer.todo ∧ HeldCommand heldTransfer ∧
      heldTransfer.todo ≠ [] ∧ heldTransfer.resetRequest = false ∧ Instr.spiTransfer 0 false [1] ≠ .clockBringup ∧
      ∃ t, step heldTransfer = .next t := by
  have h : HeldFrom heldTransfer.cfg (.spiTransfer 0 false [1]) heldTransfer.todo :=
    ⟨[.act (.setBuf [1])], .await (.spi .statr) maskSpiTxe maskSpiTxe, _, rfl, rfl⟩
  have hc : configOk heldTransfer.cfg = true := by decide +kernel
  exact ⟨h, .inr ⟨_, h⟩, by decide, rfl, by decide, drain heldTransfer.todo heldTransfer, by simp only [step, hc]; rfl⟩

/-- The halts of the table, one of each code. -/
theorem witness_haltCause :
    haltCause Config.default (.gpioWrite 80 true) = some .invalidPin ∧
      haltCause Config.default (.i2cWrite 1 0 []) = some .invalidBus ∧
      haltCause { Config.default with uartPresent := false } .uartTxKick = some .unimplemented ∧
      haltCause Config.default (.gpioWrite 5 true) = none := by decide

theorem witness_HaltingCommandsHaveNoEffect :
    State.reset.halted = none ∧ ∃ t, exec (.gpioWrite 80 true) State.reset = .next t ∧ t.halted ≠ none :=
  ⟨rfl, _, rfl, by decide +kernel⟩

end Sys2Proof.Tests
end

/-!
PROOFS. The rules of 00_scope: the refused configuration (R7) and the step that goes on with a held command (R10).
-/
namespace Sys2Proof.Machine

/-! ### The branches of a step -/

/-- An ill-formed configuration is refused before reset, halt and command are looked at (00_scope R7). -/
theorem step_illFormed {s : State} (hc : configOk s.cfg ≠ true) : step s = .refused .illFormedConfig := by
  rw [step, if_pos (by simpa using hc)]

/-- With no reset asked for and no halt, a step is one of the interrupt context or the foreground. -/
theorem step_running {s : State} (hc : configOk s.cfg = true) (hr : s.resetRequest = false) (hn : s.halted = none) :
    step s = contextStep s := by
  simp [step, hc, hr, hn]

/-- With no interrupt asked for, the step is the foreground's. -/
theorem contextStep_noInterrupt {s : State} (hi : s.irq = false) : contextStep s = foregroundStep s := by
  simp [contextStep, hi]

/-- The foreground goes on with the command in progress before it takes another (10_state R31). -/
theorem foregroundStep_held {s : State} {m : Micro} {rest : List Micro} (ht : s.todo = m :: rest) :
    foregroundStep s = .next (drain (m :: rest) s) := by
  rw [foregroundStep, ht]

/-! ### What an owned pin needs -/

/-- An owned pin is one of the configuration's ports and bits, and mapped (30_encoding R92). -/
theorem ownedPinOk_iff {cfg : Config} {pin : Pin} :
    ownedPinOk cfg pin = true ↔ pin.port.val < cfg.nPorts ∧ pin.bit.val < cfg.nBits ∧
      cfg.pinMapped.getLsbD (pinId cfg pin) = true := by
  simp only [ownedPinOk, Bool.and_eq_true, decide_eq_true_eq, and_assoc]

/-! ### The obligations -/

/-- Settles O13: each of the ways contradicts what a well-formed configuration gives. -/
theorem illFormedConfigurationIsRefused : Obligations.IllFormedConfigurationIsRefused := by
  intro s bad
  refine step_illFormed fun hc => ?_
  obtain ⟨distinct, owned⟩ := configOk_pins hc
  obtain ⟨baud, least, greatest⟩ := configOk_baud hc
  rcases bad with shared | ⟨pin, mem, outside⟩ | undefined | low | high
  · exact shared distinct
  · obtain ⟨port, bit, mapped⟩ := ownedPinOk_iff.mp (owned pin mem)
    rcases outside with noPort | noBit | unmapped
    · exact noPort.not_gt port
    · exact noBit.not_gt bit
    · exact Bool.false_ne_true (unmapped.symm.trans mapped)
  · exact baud.ne' undefined
  · exact least.not_gt low
  · exact greatest.not_gt high

/-- Settles O9: neither reset, halt nor interrupt comes before the held command. -/
theorem stepResumesAHeldCommand : Obligations.StepResumesAHeldCommand := by
  intro s m rest hc hr hn hi ht
  rw [step_running hc hr hn, contextStep_noInterrupt hi, foregroundStep_held ht]

end Sys2Proof.Machine

/-!
PROOFS. What register accesses leave unchanged, the readiness history (10_state R48), the set and clear registers (R36, R37)
and the step that takes a command from the stream (R31).
-/
namespace Sys2Proof.Machine

/-! ### Register accesses leave everything but registers and draws -/

@[simp] theorem readNext_halted (s : State) (r : Reg) : (readNext s r).halted = s.halted :=
  same_halted (readNext_same s r)
@[simp] theorem readNext_inCritical (s : State) (r : Reg) : (readNext s r).inCritical = s.inCritical :=
  same_inCritical (readNext_same s r)
@[simp] theorem readNext_responses (s : State) (r : Reg) : (readNext s r).responses = s.responses :=
  same_responses (readNext_same s r)
@[simp] theorem readNext_todo (s : State) (r : Reg) : (readNext s r).todo = s.todo := same_todo (readNext_same s r)

@[simp] theorem writeReg_cfg (s : State) (r : Reg) (v : Word) : (writeReg s r v).cfg = s.cfg := by rw [writeReg_frame]
@[simp] theorem writeReg_motor (s : State) (r : Reg) (v : Word) : (writeReg s r v).motor = s.motor := by
  rw [writeReg_frame]
@[simp] theorem writeReg_i2cInit (s : State) (r : Reg) (v : Word) : (writeReg s r v).i2cInit = s.i2cInit := by
  rw [writeReg_frame]
@[simp] theorem writeReg_spiInit (s : State) (r : Reg) (v : Word) : (writeReg s r v).spiInit = s.spiInit := by
  rw [writeReg_frame]
@[simp] theorem writeReg_spiLast (s : State) (r : Reg) (v : Word) : (writeReg s r v).spiLast = s.spiLast := by
  rw [writeReg_frame]
@[simp] theorem writeReg_clockDone (s : State) (r : Reg) (v : Word) : (writeReg s r v).clockDone = s.clockDone := by
  rw [writeReg_frame]
@[simp] theorem writeReg_halted (s : State) (r : Reg) (v : Word) : (writeReg s r v).halted = s.halted := by
  rw [writeReg_frame]
@[simp] theorem writeReg_inCritical (s : State) (r : Reg) (v : Word) : (writeReg s r v).inCritical = s.inCritical := by
  rw [writeReg_frame]
@[simp] theorem writeReg_trace (s : State) (r : Reg) (v : Word) : (writeReg s r v).trace = s.trace := by
  rw [writeReg_frame]
@[simp] theorem writeReg_responses (s : State) (r : Reg) (v : Word) : (writeReg s r v).responses = s.responses := by
  rw [writeReg_frame]
@[simp] theorem writeReg_buf (s : State) (r : Reg) (v : Word) : (writeReg s r v).buf = s.buf := by rw [writeReg_frame]
@[simp] theorem writeReg_todo (s : State) (r : Reg) (v : Word) : (writeReg s r v).todo = s.todo := by
  rw [writeReg_frame]

/-! ### The readiness history (R48 (b)) -/

/-- The history speaks of the RCC registers alone. -/
theorem readinessHistory_congr {s t : State} (h : t.rcc = s.rcc) (k : ReadinessHistory s) : ReadinessHistory t := by
  unfold ReadinessHistory; rw [h]; exact k

/-- A write outside RCC leaves the RCC registers. -/
theorem writeReg_rcc_of_other {r : Reg} (h : ∀ x, r ≠ .rcc x) (s : State) (v : Word) :
    (writeReg s r v).rcc = s.rcc := by
  unfold writeReg storeReg
  cases r with
  | rcc x => exact absurd rfl (h x)
  | gpio p x => cases x <;> split <;> rfl
  | i2c x => cases x <;> split <;> rfl
  | spi x => cases x <;> split <;> rfl
  | uart x => cases x <;> split <;> rfl

/-- A field that a register stores whole is read back from the masked value as it was written. -/
theorem storeMask_field {r : Reg} {field : Word} (h : storeMask r &&& field = field) (v : Word) :
    v &&& storeMask r &&& field = v &&& field := by
  rw [BitVec.and_assoc, h]

/-- A write that turns an oscillator, the multiplier or the switch on records it. -/
theorem writeReg_readinessHistory (s : State) (r : Reg) (v : Word) (h : ReadinessHistory s) :
    ReadinessHistory (writeReg s r v) := by
  obtain ⟨hse, pll, switch⟩ := h
  cases r with
  | rcc x =>
    rw [writeReg_clocked rfl]
    cases x with
    | ctlr =>
      refine ⟨fun on => ?_, fun on => ?_, switch⟩
      · have written : v &&& maskHseOn ≠ 0 := by
          rwa [← storeMask_field (r := .rcc .ctlr) (by decide) v]
        simpa [storeReg] using .inr written
      · have written : v &&& maskPllOn ≠ 0 := by
          rwa [← storeMask_field (r := .rcc .ctlr) (by decide) v]
        simpa [storeReg] using .inr written
    | cfgr0 =>
      refine ⟨hse, pll, fun on => ?_⟩
      have written : v &&& maskSw = 2 := by
        rwa [← storeMask_field (r := .rcc .cfgr0) (by decide) v]
      simp [storeReg, written]
    | apb2pcenr => exact ⟨hse, pll, switch⟩
    | apb1pcenr => exact ⟨hse, pll, switch⟩
  | gpio p x => exact readinessHistory_congr (writeReg_rcc_of_other (by simp) s v) ⟨hse, pll, switch⟩
  | i2c x => exact readinessHistory_congr (writeReg_rcc_of_other (by simp) s v) ⟨hse, pll, switch⟩
  | spi x => exact readinessHistory_congr (writeReg_rcc_of_other (by simp) s v) ⟨hse, pll, switch⟩
  | uart x => exact readinessHistory_congr (writeReg_rcc_of_other (by simp) s v) ⟨hse, pll, switch⟩

/-- Only a write changes RCC registers. -/
theorem act_readinessHistory (a : Action) (s : State) (h : ReadinessHistory s) : ReadinessHistory (act s a) := by
  cases a with
  | read r => exact readinessHistory_congr (readNext_rcc s r) h
  | write r v => exact writeReg_readinessHistory s r _ h
  | _ => exact readinessHistory_congr rfl h

theorem readinessHistory_keptByRuns : KeptByRuns ReadinessHistory where
  boundary s := readinessHistory_congr (boundary_rcc s)
  read s r := readinessHistory_congr (readNext_rcc s r)
  clock s := readinessHistory_congr (readClock_rcc s)
  hold _ _ := readinessHistory_congr rfl

/-- Under a well-formed configuration reset leaves nothing on (log 20). -/
theorem takeReset_readinessHistory {s : State} (h : configOk s.cfg = true) : ReadinessHistory (takeReset s) := by
  have ok := configOk_reset h
  simp only [resetOk, Bool.and_eq_true, beq_iff_eq] at ok
  obtain ⟨⟨⟨-, off⟩, switch⟩, -⟩ := ok
  have part : ∀ field, (maskHseOn ||| maskPllOn) &&& field = field → s.cfg.reset.rccCtlr &&& field = 0 := by
    intro field hf
    rw [← hf, ← BitVec.and_assoc, off]
    exact BitVec.zero_and
  exact ⟨fun on => absurd (part maskHseOn (by decide)) on, fun on => absurd (part maskPllOn (by decide)) on,
    fun on => absurd (switch.symm.trans on) (by decide)⟩

/-- Settles O54: the step is a reset, or changes RCC registers by writes alone. -/
theorem everyStepKeepsTheReadinessHistory : Obligations.EveryStepKeepsTheReadinessHistory := by
  intro s t hs h
  have runs := readinessHistory_keptByRuns
  rcases step_cases h with ⟨hc, -, rfl⟩ | ⟨-, -, ⟨-, -, rfl⟩ | ⟨-, i, rest, -, -, he⟩ | ⟨-, rfl⟩ | ⟨m, rest, -, rfl⟩⟩
  · exact takeReset_readinessHistory hc
  · exact readinessHistory_congr (same_rcc (offerInterrupt_same _)) hs
  · exact exec_induction runs (readinessHistory_congr (same_rcc (uartRxAction_same _)))
      (readinessHistory_congr (same_rcc (uartTxAction_same _))) (fun _ _ => readinessHistory_congr rfl)
      (fun a _ => act_readinessHistory a) he (readinessHistory_congr rfl hs)
  · exact runs.boundary _ hs
  · exact drain_keeps runs _ (fun a _ => act_readinessHistory a) s hs

/-! ### Set and clear registers (R36, R37) -/

/-- Settles O50: on a gated port both writes act on the stored latch, bit by bit. -/
theorem setAndClearRegisters : Obligations.SetAndClearRegisters := by
  intro s p v n hc
  have gated : ∀ r, clocked s (.gpio p r) = true := fun _ => hc
  have low : BitVec.getLsbD (0x0000FFFF : Word) n.val = true := lowHalf_bit n
  have width : n.val < 32 := by omega
  rw [writeReg_clocked (gated _), writeReg_clocked (gated _)]
  constructor
  · simp only [storeReg, setPort_gpio, vector_getSet, if_true, BitVec.getLsbD_or, BitVec.getLsbD_and,
      BitVec.getLsbD_not, BitVec.getLsbD_ushiftRight, low, width, Nat.add_comm 16]
    cases v.getLsbD n.val <;> cases v.getLsbD (n.val + 16) <;> simp
  · simp only [storeReg, setPort_gpio, vector_getSet, if_true, BitVec.getLsbD_and, BitVec.getLsbD_not, low, width]
    cases v.getLsbD n.val <;> simp

/-! ### A step of the foreground (R31) -/

/-- With nothing held the foreground takes the command that the stream begins with. -/
theorem foregroundStep_decoded {s : State} {i : Instr} {rest : List Word} (ht : s.todo = [])
    (hd : decode s.cfg s.stream = .ok (i, rest)) (hi : i.isAction = false) :
    foregroundStep s = exec i { s with stream := rest } := by
  have fetches : foregroundStep s = fetchStep s := by rw [foregroundStep, ht]
  rw [fetches, fetchStep, hd]
  simp only [hi, Bool.false_eq_true, if_false]

/-- Settles O7: a ready block fetches, and the fetched command runs on the rest of the stream. -/
theorem stepRunsTheDecodedCommand : Obligations.StepRunsTheDecodedCommand := by
  intro s i rest ⟨hc, hr, hn, hirq, ht⟩ hd hi
  rw [step_running hc hr hn, contextStep_noInterrupt hirq, foregroundStep_decoded ht hd hi]

end Sys2Proof.Machine

/-!
PROOFS. The shape of a command (10_state R54, R56; 30_encoding R104; 20_memory R79): a body that closes its critical spans
and acts on the block state of its own command alone, then one response.
-/
namespace Sys2Proof.Machine

/-! ### What an action leaves unchanged -/

theorem act_todo (s : State) (a : Action) : (act s a).todo = s.todo := by
  cases a with
  | read r => exact readNext_todo s r
  | write r v => exact writeReg_todo s r _
  | _ => rfl

theorem act_halted (s : State) (a : Action) : (act s a).halted = s.halted := by
  cases a with
  | read r => exact readNext_halted s r
  | write r v => exact writeReg_halted s r _
  | _ => rfl

theorem runActs_todo (as : List Action) (s : State) : (runActs as s).todo = s.todo :=
  runActs_keeps (P := fun u => u.todo = s.todo) (fun u h => (boundary_todo u).trans h) as
    (fun a _ u h => (act_todo u a).trans h) s rfl

/-- A list of actions as a program differs from the list in that it leaves nothing held. -/
theorem drain_actions (as : List Action) (s : State) : drain (acts as) s = { runActs as s with todo := [] } := by
  have h := drain_acts as [] s
  rwa [List.append_nil] at h

/-! ### The next states of an instruction -/

/-- How an instruction reaches a next state: an interrupt action, the halt of the table of halt causes, or, when the
table names none, its actions or its program with waits (60_exceptions R261, R262). -/
inductive Executes (s : State) : Instr → State → Prop
  | receive : Executes s .uartRxHandler (uartRxAction s)
  | transmit : Executes s .uartTxHandler (uartTxAction s)
  | halt {i : Instr} {code : HaltCode} (cause : haltCause s.cfg i = some code) : Executes s i (haltCommand s code)
  | actions {i : Instr} (cause : haltCause s.cfg i = none) (noWaits : waitingProgram s.cfg i = []) :
    Executes s i (runActs (commandActions s i) s)
  | program {i : Instr} (cause : haltCause s.cfg i = none) : Executes s i (drain (waitingProgram s.cfg i) s)

/-- A pin command halts as the table says, or runs its actions on the resolved pin (40_gpio R130). -/
theorem withPhysical_executes {s : State} {i : Instr} {id : BitVec 16} {body : Pin → List Action}
    (hc : haltCause s.cfg i = pinCause s.cfg id) (ha : commandActions s i = physicalActions s.cfg id body)
    (hw : waitingProgram s.cfg i = []) : Executes s i (withPhysical id s body) := by
  unfold withPhysical
  cases hp : classify s.cfg id with
  | physical pin =>
    have runs := Executes.actions (s := s) (by rw [hc, pinCause, hp]) hw
    rwa [ha, physicalActions, hp] at runs
  | virtual c role => exact .halt (by rw [hc, pinCause, hp])
  | invalid => exact .halt (by rw [hc, pinCause, hp])

/-- Every next state of an instruction is reached in one of these ways. -/
theorem exec_executes {i : Instr} {s t : State} (h : exec i s = .next t) : Executes s i t := by
  cases i with
  | gpioSetup id v => cases h; exact withPhysical_executes rfl rfl rfl
  | gpioWrite id v => cases h; exact withPhysical_executes rfl rfl rfl
  | gpioToggle id => cases h; exact withPhysical_executes rfl rfl rfl
  | gpioReset id v => cases h; exact withPhysical_executes rfl rfl rfl
  | gpioInputSetup id pull => cases h; exact withPhysical_executes rfl rfl rfl
  | gpioInputRead id => cases h; exact withPhysical_executes rfl rfl rfl
  | motorSetup c role v => cases h; exact .actions rfl rfl
  | motorWrite c role v => cases h; exact .actions rfl rfl
  | motorToggle c role => cases h; exact .actions rfl rfl
  | motorReset c role v => cases h; exact .actions rfl rfl
  | i2cSetup bus addr7 rate =>
    simp only [exec, execI2cSetup] at h
    split at h <;> cases h
    next hc => exact .halt hc
    next hc => exact .actions hc rfl
  | i2cWrite bus addr8 bytes =>
    simp only [exec, execI2cWrite] at h
    split at h <;> cases h
    next hc => exact .halt hc
    next hc => exact .program hc
  | i2cRead bus addr8 reg len =>
    simp only [exec, execI2cRead] at h
    split at h
    · cases h
    · split at h <;> cases h
      next hc => exact .halt hc
      next hc => exact .program hc
  | spiSetup bus mode rate =>
    simp only [exec, execSpiSetup] at h
    split at h <;> cases h
    next hc => exact .halt hc
    next hc => exact .actions hc rfl
  | spiPrepare bus ctrl =>
    simp only [exec, execSpiPrepare] at h
    split at h
    · split at h <;> cases h
      next hc => exact .halt hc
      next hc => exact .actions hc rfl
    · cases h
  | spiTransfer bus readBack bytes =>
    simp only [exec, execSpiTransfer] at h
    split at h <;> cases h
    next hc => exact .halt hc
    next hc => exact .program hc
  | uartInit =>
    simp only [exec, execUartInit] at h
    split at h <;> cases h
    next hc => exact .actions (if_pos hc) rfl
    next hc => exact .halt (if_neg hc)
  | uartTxKick =>
    simp only [exec, execUartTxKick] at h
    split at h <;> cases h
    next hc => exact .actions (if_pos hc) rfl
    next hc => exact .halt (if_neg hc)
  | clockBringup =>
    simp only [exec, execClockBringup] at h
    split at h <;> cases h
    exact .program rfl
  | regRead addr =>
    simp only [exec, execRegRead] at h
    split at h <;> cases h
    next r hr =>
      have runs := Executes.actions (s := s) (i := .regRead addr) rfl rfl
      simpa [commandActions, hr] using runs
  | regWrite addr value =>
    simp only [exec, execRegWrite] at h
    split at h <;> cases h
    next r hr =>
      have runs := Executes.actions (s := s) (i := .regWrite addr value) rfl rfl
      simpa [commandActions, hr] using runs
  | uartRxHandler => cases h; exact .receive
  | uartTxHandler => cases h; exact .transmit

/-! ### Critical spans -/

/-- In a critical span after the piece m, when c says whether before it (20_memory R79). -/
def spanAfter (c : Bool) : Micro → Bool
  | .act .enter => true
  | .act .leave => false
  | _ => c

/-- The piece m may stand where c says whether a critical span is open. -/
def spanAllows (c : Bool) : Micro → Bool
  | .act .enter => !c
  | .act .leave => c
  | .act _ => true
  | _ => !c

/-- `spansClosed` goes through a program piece by piece. -/
theorem spansClosed_cons (c : Bool) (m : Micro) (rest : List Micro) :
    spansClosed c (m :: rest) = (spanAllows c m && spansClosed (spanAfter c m) rest) := by
  cases m with
  | act a => cases a <;> rfl
  | _ => rfl

theorem spansClosed_append {ms ns : List Micro} {c : Bool} (h : spansClosed c ms = true)
    (k : spansClosed false ns = true) : spansClosed c (ms ++ ns) = true := by
  induction ms generalizing c with
  | nil =>
    have closed : c = false := by simpa [spansClosed] using h
    rwa [List.nil_append, closed]
  | cons m ms ih =>
    rw [spansClosed_cons, Bool.and_eq_true] at h
    rw [List.cons_append, spansClosed_cons, h.1, ih h.2, Bool.and_self]

/-- An action changes `in_critical` as it opens or closes a span (10_state R54). -/
theorem act_inCritical (s : State) (a : Action) : (act s a).inCritical = spanAfter s.inCritical (.act a) := by
  cases a with
  | read r => exact readNext_inCritical s r
  | write r v => exact writeReg_inCritical s r _
  | _ => rfl

/-! ### Bodies and commands -/

/-- A register access. -/
def isAccess : Action → Bool
  | .read _ => true
  | .write _ _ => true
  | _ => false

/-- An action that ends a command with its response (30_encoding R104). -/
def isResponse : Action → Bool
  | .respond _ => true
  | .respondRead => true
  | .respondBit _ => true
  | .respondBuf _ => true
  | _ => false

/-- `CLOCK_BRINGUP`. -/
def isBringup : Instr → Bool
  | .clockBringup => true
  | _ => false

theorem isBringup_of_ne {i : Instr} (h : i ≠ .clockBringup) : isBringup i = false := by
  cases i with
  | clockBringup => exact absurd rfl h
  | _ => rfl

/-- An action on block state stands in the commands that own that state alone (10_state R56), and never makes a motor
channel uninitialised. -/
def ownAction (i : Instr) : Action → Bool
  | .setMotor _ m => isMotorCommand i && m.init
  | .setI2cInit => isI2cSetup i
  | .setSpiInit => isSpiSetup i
  | .setSpiLast _ => isSpiPrepare i
  | .setClockDone => isBringup i
  | _ => true

theorem ownAction_setMotor (i : Instr) (c : Fin 4) (m : Motor) :
    ownAction i (.setMotor c m) = (isMotorCommand i && m.init) := rfl
theorem ownAction_setI2cInit (i : Instr) : ownAction i .setI2cInit = isI2cSetup i := rfl
theorem ownAction_setSpiInit (i : Instr) : ownAction i .setSpiInit = isSpiSetup i := rfl
theorem ownAction_setSpiLast (i : Instr) (w : Word) : ownAction i (.setSpiLast w) = isSpiPrepare i := rfl
theorem ownAction_setClockDone (i : Instr) : ownAction i .setClockDone = isBringup i := rfl

/-- A piece that may stand before the response of a command: none that responds, and no wait already entered. -/
def isBodyPiece (i : Instr) : Micro → Bool
  | .act a => !isResponse a && ownAction i a
  | .pollT _ _ => false
  | _ => true

/-- A part of a command before its response, its critical spans closed. -/
structure BodyOf (i : Instr) (prog : List Micro) : Prop where
  closed : spansClosed false prog = true
  pieces : prog.all (isBodyPiece i) = true

/-- What an instruction runs: a body and its response, or nothing. -/
inductive CommandOf (i : Instr) : List Micro → Prop
  | nothing : CommandOf i []
  | responds {body : List Micro} {r : Action} (h : BodyOf i body) (hr : isResponse r = true) :
    CommandOf i (body ++ [.act r])

theorem acts_append (as bs : List Action) : acts (as ++ bs) = acts as ++ acts bs := List.map_append

namespace BodyOf

variable {i : Instr}

theorem nil : BodyOf i [] := ⟨rfl, rfl⟩

/-- An action outside critical spans that only its own commands may take. -/
theorem action {a : Action} (hs : spansClosed false [.act a] = true) (hr : isResponse a = false)
    (ho : ownAction i a = true) : BodyOf i [.act a] :=
  ⟨hs, by rw [List.all_cons, isBodyPiece, hr, ho]; rfl⟩

theorem append {ms ns : List Micro} (h : BodyOf i ms) (k : BodyOf i ns) : BodyOf i (ms ++ ns) :=
  ⟨spansClosed_append h.closed k.closed, by rw [List.all_append, h.pieces, k.pieces, Bool.and_self]⟩

theorem flatMap {α : Type} {f : α → List Micro} (h : ∀ x, BodyOf i (f x)) (xs : List α) :
    BodyOf i (xs.flatMap f) := by
  induction xs with
  | nil => exact nil
  | cons x xs ih => exact (h x).append ih

/-- Register accesses neither open nor close a span. -/
theorem spansClosed_accesses {as : List Action} (h : as.all isAccess = true) (c : Bool) (rest : List Micro) :
    spansClosed c (acts as ++ rest) = spansClosed c rest := by
  induction as with
  | nil => rfl
  | cons a as ih =>
    rw [List.all_cons, Bool.and_eq_true] at h
    cases a with
    | read r => exact ih h.2
    | write r v => exact ih h.2
    | _ => cases h.1

theorem accesses_pieces {as : List Action} (h : as.all isAccess = true) : (acts as).all (isBodyPiece i) = true := by
  rw [acts, List.all_map, List.all_eq_true]
  intro a ha
  have access := List.all_eq_true.mp h a ha
  cases a with
  | read r => rfl
  | write r v => rfl
  | _ => cases access

theorem accesses {as : List Action} (h : as.all isAccess = true) : BodyOf i (acts as) := by
  refine ⟨?_, accesses_pieces h⟩
  have closed := spansClosed_accesses h false []
  rwa [List.append_nil] at closed

/-- A critical span around register accesses (20_memory R79). -/
theorem critical {as : List Action} (h : as.all isAccess = true) : BodyOf i (acts (critical as)) := by
  constructor
  · show spansClosed true (acts (as ++ [.leave])) = true
    rw [acts_append, spansClosed_accesses h]
    rfl
  · show (acts (as ++ [.leave])).all (isBodyPiece i) = true
    rw [acts_append, List.all_append, accesses_pieces h]
    rfl

theorem enablePortGate (p : Fin 5) : BodyOf i (acts (enablePortGate p)) := accesses rfl

theorem cfgWrite (pin : Pin) (nib : BitVec 4) : BodyOf i (acts (cfgWrite pin nib)) := critical rfl

theorem setupPin (pin : Pin) (v : Bool) : BodyOf i (acts (setupPin pin v)) := by
  rw [Machine.setupPin, acts_append]
  exact (enablePortGate _).append (critical rfl)

theorem pinPeripheral (pin : Pin) (nib : BitVec 4) (pullup : Bool) :
    BodyOf i (acts (pinPeripheral pin nib pullup)) := by
  rw [Machine.pinPeripheral, acts_append, acts_append]
  refine ((enablePortGate _).append ?_).append (cfgWrite pin nib)
  cases pullup with
  | false => exact nil
  | true => exact accesses rfl

theorem applyLines (cfg : Config) (c : Fin 4) (m : Motor) : BodyOf i (acts (applyLines cfg c m)) :=
  critical (by rw [List.all_map]; exact List.all_eq_true.mpr fun _ _ => rfl)

theorem resetLines (cfg : Config) (c : Fin 4) (m : Motor) : BodyOf i (acts (resetLines cfg c m)) :=
  critical (by rw [List.all_flatMap]; exact List.all_eq_true.mpr fun _ _ => rfl)

end BodyOf

/-! ### Every instruction's actions and program are a command -/

theorem commandOf_acts {i : Instr} {as : List Action} {r : Action} (h : BodyOf i (acts as)) (hr : isResponse r = true) :
    CommandOf i (acts (as ++ [r])) := by
  rw [acts_append]; exact .responds h hr

theorem physicalActions_commandOf {i : Instr} {cfg : Config} {id : BitVec 16} {body : Pin → List Action}
    (h : ∀ pin, CommandOf i (acts (body pin))) : CommandOf i (acts (physicalActions cfg id body)) := by
  unfold physicalActions
  cases classify cfg id with
  | physical pin => exact h pin
  | virtual c role => exact .nothing
  | invalid => exact .nothing

theorem gpioInputSetupActs_commandOf {i : Instr} (id : BitVec 16) (pull : Byte) (pin : Pin) :
    CommandOf i (acts (gpioInputSetupActs id pull pin)) := by
  refine commandOf_acts ?_ rfl
  rw [acts_append]
  refine (BodyOf.enablePortGate _).append ?_
  split
  · exact .cfgWrite pin _
  · exact (BodyOf.accesses (as := [driveLevel pin _]) rfl).append (.cfgWrite pin _)

theorem motorReady_init (s : State) (c : Fin 4) : (motorReady s c).init = true := by
  unfold motorReady
  split
  next h => exact h
  next => rfl

theorem setFlag_init (m : Motor) (role : Role) (v : Bool) : (setFlag m role v).init = m.init := by cases role <;> rfl

theorem motorWritten_init (s : State) (c : Fin 4) (role : Role) (v : Bool) : (motorWritten s c role v).init = true :=
  (setFlag_init _ role v).trans (motorReady_init s c)

/-- The block state of a motor command's channel. -/
theorem setMotor_bodyOf {i : Instr} (hi : isMotorCommand i = true) (c : Fin 4) {m : Motor} (hm : m.init = true) :
    BodyOf i (acts [.setMotor c m]) :=
  .action rfl rfl (by rw [ownAction_setMotor, hi, hm]; rfl)

theorem lazyInit_bodyOf {i : Instr} (hi : isMotorCommand i = true) (s : State) (c : Fin 4) :
    BodyOf i (acts (lazyInit s c)) := by
  unfold lazyInit
  split
  · exact .nil
  · rw [acts_append, acts_append]
    exact ((BodyOf.setupPin _ _).append (.setupPin _ _)).append (setMotor_bodyOf hi c rfl)

theorem motorActs_commandOf {i : Instr} (hi : isMotorCommand i = true) (s : State) (c : Fin 4) {m : Motor}
    (hm : m.init = true) (q : Word) : CommandOf i (acts (motorActs s c m q)) := by
  refine commandOf_acts ?_ rfl
  rw [acts_append, acts_append]
  exact ((lazyInit_bodyOf hi s c).append (setMotor_bodyOf hi c hm)).append (.applyLines s.cfg c m)

theorem motorResetActs_commandOf {i : Instr} (hi : isMotorCommand i = true) (s : State) (c : Fin 4) {m : Motor}
    (hm : m.init = true) : CommandOf i (acts (motorResetActs s c m)) := by
  refine commandOf_acts ?_ rfl
  rw [acts_append, acts_append]
  exact ((lazyInit_bodyOf hi s c).append (setMotor_bodyOf hi c hm)).append (.resetLines s.cfg c m)

theorem i2cSetupActs_commandOf {i : Instr} (hi : isI2cSetup i = true) (s : State) (addr7 : BitVec 7) (rate : Word) :
    CommandOf i (acts (i2cSetupActs s addr7 rate)) := by
  refine commandOf_acts ?_ rfl
  split
  · exact .nil
  · rw [i2cConfigure, acts_append, acts_append, acts_append]
    refine (((BodyOf.accesses rfl).append (.pinPeripheral _ _ _)).append (.pinPeripheral _ _ _)).append ?_
    exact (BodyOf.accesses (as := [.write _ _, .write _ _, .write _ _, .write _ _, .write _ _]) rfl).append
      (.action rfl rfl ((ownAction_setI2cInit i).trans hi))

theorem spiSetupActs_commandOf {i : Instr} (hi : isSpiSetup i = true) (s : State) (mode : BitVec 2) (rate : Word) :
    CommandOf i (acts (spiSetupActs s mode rate)) := by
  refine commandOf_acts ?_ rfl
  split
  · exact .nil
  · rw [spiConfigure, acts_append, acts_append, acts_append, acts_append]
    refine ((((BodyOf.accesses rfl).append (.pinPeripheral _ _ _)).append (.pinPeripheral _ _ _)).append
      (.pinPeripheral _ _ _)).append ?_
    exact .action rfl rfl ((ownAction_setSpiInit i).trans hi)

theorem spiPrepareActs_commandOf {i : Instr} (hi : isSpiPrepare i = true) (s : State) (ctrl : Word) :
    CommandOf i (acts (spiPrepareActs s ctrl)) := by
  refine commandOf_acts ?_ rfl
  split
  · exact .nil
  · exact (BodyOf.accesses (as := [.write _ _, .write _ _, .write _ _]) rfl).append
      (.action rfl rfl ((ownAction_setSpiLast i ctrl).trans hi))

theorem uartInitActs_commandOf {i : Instr} (cfg : Config) : CommandOf i (acts (uartInitActs cfg)) := by
  refine commandOf_acts ?_ rfl
  rw [acts_append, acts_append, acts_append]
  exact (((BodyOf.accesses rfl).append (.accesses rfl)).append (.pinPeripheral _ _ _)).append (.pinPeripheral _ _ _)

/-- What an instruction without waits runs is a command of its own. -/
theorem commandActions_commandOf (s : State) (i : Instr) (noWaits : waitingProgram s.cfg i = []) :
    CommandOf i (acts (commandActions s i)) := by
  cases i with
  | gpioSetup id v => exact physicalActions_commandOf fun pin => commandOf_acts (.setupPin pin v) rfl
  | gpioWrite id v =>
    exact physicalActions_commandOf fun pin => commandOf_acts (as := [driveLevel pin v]) (.accesses rfl) rfl
  | gpioToggle id => exact physicalActions_commandOf fun pin => commandOf_acts (.critical rfl) rfl
  | gpioReset id v => exact physicalActions_commandOf fun pin => commandOf_acts (.critical rfl) rfl
  | gpioInputSetup id pull => exact physicalActions_commandOf (gpioInputSetupActs_commandOf id pull)
  | gpioInputRead id =>
    exact physicalActions_commandOf fun pin =>
      commandOf_acts (as := [.read (.gpio pin.port .indr)]) (.accesses rfl) rfl
  | motorSetup c role v => exact motorActs_commandOf rfl s c (motorWritten_init s c role v) _
  | motorWrite c role v => exact motorActs_commandOf rfl s c (motorWritten_init s c role v) _
  | motorToggle c role => exact motorActs_commandOf rfl s c (motorWritten_init s c role _) _
  | motorReset c role v => exact motorResetActs_commandOf rfl s c (motorWritten_init s c role v)
  | i2cSetup bus addr7 rate => exact i2cSetupActs_commandOf rfl s addr7 rate
  | spiSetup bus mode rate => exact spiSetupActs_commandOf rfl s mode rate
  | spiPrepare bus ctrl => exact spiPrepareActs_commandOf rfl s _
  | uartInit => exact uartInitActs_commandOf s.cfg
  | uartTxKick => exact commandOf_acts (.critical rfl) rfl
  | regRead addr =>
    cases hr : regAt s.cfg addr with
    | none => rw [commandActions, hr]; exact .nothing
    | some r => rw [commandActions, hr]; exact commandOf_acts (as := [.read r]) (.accesses rfl) rfl
  | regWrite addr value =>
    cases hr : regAt s.cfg addr with
    | none => rw [commandActions, hr]; exact .nothing
    | some r => rw [commandActions, hr]; exact commandOf_acts (as := [.write r (.const value)]) (.accesses rfl) rfl
  | uartRxHandler => exact .nothing
  | uartTxHandler => exact .nothing
  | i2cWrite bus addr8 bytes => cases noWaits
  | i2cRead bus addr8 reg len => cases noWaits
  | spiTransfer bus readBack bytes => cases noWaits
  | clockBringup => cases noWaits

theorem startProg_bodyOf {i : Instr} (bus : Byte) (again : Bool) : BodyOf i (startProg bus again) := by
  cases again <;> exact ⟨rfl, rfl⟩

theorem addressProg_bodyOf {i : Instr} (bus byte : Byte) (onNack : I2cStatus) :
    BodyOf i (addressProg bus byte onNack) :=
  ⟨rfl, rfl⟩

theorem sendBytes_bodyOf {i : Instr} (bus : Byte) (bytes : List Byte) : BodyOf i (bytes.flatMap (sendByteProg bus)) :=
  .flatMap (fun _ => ⟨rfl, rfl⟩) bytes

theorem receiveProg_bodyOf {i : Instr} (bus : Byte) (n : Nat) : BodyOf i (receiveProg bus n) := by
  refine .flatMap (fun k => ?_) _
  unfold receiveByteProg
  split <;> exact ⟨rfl, rfl⟩

theorem readPrologue_bodyOf {i : Instr} (bus addr8 : Byte) (reg : List Byte) :
    BodyOf i (readPrologue bus addr8 reg) := by
  unfold readPrologue
  split
  · exact startProg_bodyOf bus false
  · exact (((startProg_bodyOf bus false).append (addressProg_bodyOf ..)).append (sendBytes_bodyOf bus reg)).append
      (startProg_bodyOf bus true)

theorem spiBytesProg_bodyOf {i : Instr} (bus : Byte) (readBack : Bool) (k : Nat) (bytes : List Byte) :
    BodyOf i (spiBytesProg bus readBack k bytes) := by
  induction bytes generalizing k with
  | nil => exact .nil
  | cons sent rest ih => exact BodyOf.append (ms := spiByteProg bus readBack k sent) ⟨rfl, rfl⟩ (ih (k + 1))

/-- The program of a transfer or of the bring-up is a command of its own. -/
theorem waitingProgram_commandOf (cfg : Config) (i : Instr) : CommandOf i (waitingProgram cfg i) := by
  cases i with
  | i2cWrite bus addr8 bytes =>
    refine .responds ?_ rfl
    exact ((((BodyOf.append ⟨rfl, rfl⟩ (startProg_bodyOf bus false)).append (addressProg_bodyOf ..)).append
      (sendBytes_bodyOf bus bytes)).append ⟨rfl, rfl⟩)
  | i2cRead bus addr8 reg len =>
    refine .responds ?_ rfl
    exact (((BodyOf.append ⟨rfl, rfl⟩ (readPrologue_bodyOf bus addr8 reg)).append ⟨rfl, rfl⟩).append
      (addressProg_bodyOf ..)).append (receiveProg_bodyOf bus _)
  | spiTransfer bus readBack bytes =>
    refine .responds ?_ rfl
    exact (BodyOf.append ⟨rfl, rfl⟩ (spiBytesProg_bodyOf bus readBack 0 bytes)).append ⟨rfl, rfl⟩
  | clockBringup =>
    have split : bringupProg cfg = (bringupProg cfg).dropLast ++ [.act (.respond 0)] := rfl
    rw [waitingProgram, split]
    exact .responds ⟨rfl, rfl⟩ rfl
  | _ => exact .nothing

/-! ### What the shape gives -/

/-- No piece but the last one responds. -/
def RespondsLast (prog : List Micro) : Prop := prog.Pairwise fun m _ => ∀ a, m = .act a → isResponse a = false

theorem CommandOf.closed {i : Instr} {prog : List Micro} (h : CommandOf i prog) : spansClosed false prog = true := by
  cases h with
  | nothing => rfl
  | @responds body r h hr =>
    refine spansClosed_append h.closed ?_
    cases r with
    | respond q => rfl
    | respondRead => rfl
    | respondBit n => rfl
    | respondBuf q => rfl
    | _ => cases hr

theorem CommandOf.respondsLast {i : Instr} {prog : List Micro} (h : CommandOf i prog) : RespondsLast prog := by
  cases h with
  | nothing => exact .nil
  | @responds body r h hr =>
    have silent : ∀ m ∈ body, ∀ a, m = .act a → isResponse a = false := by
      rintro m hm a rfl
      have piece := List.all_eq_true.mp h.pieces _ hm
      simp only [isBodyPiece, Bool.and_eq_true, Bool.not_eq_true'] at piece
      exact piece.1
    refine List.pairwise_append.mpr ⟨?_, List.pairwise_singleton _ _, fun m hm _ _ => silent m hm⟩
    exact List.Pairwise.imp_of_mem (fun hm _ _ => silent _ hm) (List.pairwise_of_forall (fun _ _ => trivial))

/-- The actions of a failed wait act on no block state. -/
theorem failures_own (i : Instr) (bus : Byte) : ∀ a ∈ failures bus, ownAction i a = true :=
  List.all_eq_true.mp rfl

theorem microActions_own {i : Instr} {m : Micro} (h : isBodyPiece i m = true) :
    ∀ a ∈ microActions m, ownAction i a = true := by
  cases m with
  | act a =>
    simp only [isBodyPiece, Bool.and_eq_true] at h
    simpa [microActions] using h.2
  | await r mask want => simp [microActions]
  | awaitT w => exact failures_own i w.bus
  | pollT w t0 => cases h

theorem CommandOf.own {i : Instr} {prog : List Micro} (h : CommandOf i prog) :
    ∀ a ∈ prog.flatMap microActions, ownAction i a = true := by
  cases h with
  | nothing => simp
  | @responds body r h hr =>
    intro a ha
    rw [List.flatMap_append, List.mem_append] at ha
    rcases ha with ha | ha
    · obtain ⟨m, hm, ha⟩ := List.mem_flatMap.mp ha
      exact microActions_own (List.all_eq_true.mp h.pieces m hm) a ha
    · have last : a = r := by simpa [microActions] using ha
      subst last
      cases a with
      | respond q => rfl
      | respondRead => rfl
      | respondBit n => rfl
      | respondBuf q => rfl
      | _ => cases hr

/-- A command as it starts holds no wait already entered. -/
theorem CommandOf.notEntered {i : Instr} {prog : List Micro} (h : CommandOf i prog) (w : I2cWait) (t0 : Nat) :
    .pollT w t0 ∉ prog := by
  cases h with
  | nothing => simp
  | responds h hr =>
    intro hm
    rcases List.mem_append.mp hm with hm | hm
    · cases List.all_eq_true.mp h.pieces _ hm
    · simp at hm

end Sys2Proof.Machine

/-!
PROOFS. What a run of a command leaves: the place it is held in, its critical spans, its responses and the block state it
may change; and the obligations on every command and every step (R49 to R56; 60_exceptions R261; log 12).
-/
namespace Sys2Proof.Machine

/-! ### Induction over a run with its waits -/

/-- What a boundary and a poll may change: the interrupt context's fields, the draws and the clock; and what is held. -/
def Polled (s u : State) : Prop :=
  u = { s with
    uart := u.uart, trace := u.trace, script := u.script, drawn := u.drawn, now := u.now, todo := u.todo }

theorem polled_inCritical {s u : State} (h : Polled s u) : u.inCritical = s.inCritical := by rw [h]
theorem polled_responses {s u : State} (h : Polled s u) : u.responses = s.responses := by rw [h]

theorem polled_of_same {s t u : State} (h : Polled s t) (k : SameButInterrupts t u) : Polled s u := by
  unfold Polled at *; rw [k, h]

theorem polled_keptByRuns (s : State) : KeptByRuns (Polled s) where
  boundary u h := polled_of_same h (boundary_same u)
  read u r h := polled_of_same h (readNext_same u r)
  clock u h := by
    have draws := polled_of_same h (drawNext_same u)
    unfold Polled readClock at *; rw [draws]
  hold u todo h := by unfold Polled at *; rw [h]

/-- The piece `held` is the wait `m` as a command is held in it: a bounded wait has been entered (42_i2c R175). -/
def HeldAs : Micro → Micro → Prop
  | .act _, _ => False
  | .await r mask want, held => held = .await r mask want
  | .awaitT w, held => ∃ t0, held = .pollT w t0
  | .pollT w t0, held => held = .pollT w t0

/-- What `Q`, of the rest of a program and the state before it, and `R`, of the state after the program, must keep for `R`
to follow from `Q`. -/
structure DrainRule (Q : List Micro → State → Prop) (R : State → Prop) : Prop where
  done : ∀ s, Q [] s → R { s with todo := [] }
  action : ∀ a rest s, Q (.act a :: rest) s → Q rest (act (boundary s) a)
  pass : ∀ m rest s u, isWait m = true → Q (m :: rest) s → Polled s u → Q rest u
  hold : ∀ m held rest s u, HeldAs m held → Q (m :: rest) s → Polled s u → R { u with todo := held :: rest }
  fail : ∀ m rest s u bus status, isWait m = true → Q (m :: rest) s → Polled s u → R (failTransfer bus status u)

/-- A run passes a wait, fails in it, or is held in it. -/
theorem DrainRule.run {Q : List Micro → State → Prop} {R : State → Prop} (rule : DrainRule Q R) (prog : List Micro)
    (s : State) (h : Q prog s) : R (drain prog s) := by
  induction prog generalizing s with
  | nil => exact rule.done s h
  | cons m rest ih =>
    have runs := polled_keptByRuns s
    have before : Polled s (boundary s) := runs.boundary s rfl
    cases m with
    | act a => exact ih _ (rule.action a rest s h)
    | await r mask want =>
      have polled := runs.read _ r before
      rw [drain]
      split
      · exact ih _ (rule.pass _ rest s _ rfl h polled)
      · exact rule.hold (.await r mask want) _ rest s _ rfl h polled
    | awaitT w =>
      have polled := pollOnce_keeps runs w (readClock (boundary s)).now _ (runs.clock _ before)
      rw [drain]
      split <;> rename_i e <;> rw [e] at polled
      · exact ih _ (rule.pass _ rest s _ rfl h polled)
      · exact rule.fail _ rest s _ _ _ rfl h polled
      · exact rule.hold (.awaitT w) _ rest s _ ⟨_, rfl⟩ h polled
    | pollT w t0 =>
      have polled := pollOnce_keeps runs w t0 _ before
      rw [drain]
      split <;> rename_i e <;> rw [e] at polled
      · exact ih _ (rule.pass _ rest s _ rfl h polled)
      · exact rule.fail _ rest s _ _ _ rfl h polled
      · exact rule.hold (.pollT w t0) _ rest s _ rfl h polled

theorem HeldAs.isWait {m held : Micro} (h : HeldAs m held) : isWait m = true ∧ isWait held = true := by
  cases m with
  | act a => exact h.elim
  | await r mask want => cases h; exact ⟨rfl, rfl⟩
  | awaitT w => obtain ⟨t0, rfl⟩ := h; exact ⟨rfl, rfl⟩
  | pollT w t0 => cases h; exact ⟨rfl, rfl⟩

/-! ### Failed transfers -/

@[simp] theorem failTransfer_todo (bus : Byte) (status : I2cStatus) (s : State) :
    (failTransfer bus status s).todo = [] := by rw [failTransfer, runActs_todo]

@[simp] theorem failTransfer_inCritical (bus : Byte) (status : I2cStatus) (s : State) :
    (failTransfer bus status s).inCritical = s.inCritical := by
  simp [failTransfer, failActs, runActs_cons, act]

/-- A failed transfer responds once, with its status (42_i2c R176). -/
theorem failTransfer_responses (bus : Byte) (status : I2cStatus) (s : State) :
    (failTransfer bus status s).responses = s.responses ++ [⟨statusWord status, s.buf⟩] := by
  simp [failTransfer, failActs, runActs_cons, act]

/-! ### Critical spans between steps (R54) -/

/-- A wait stands outside critical spans (20_memory R79). -/
theorem spansClosed_wait {m : Micro} (h : isWait m = true) (c : Bool) (rest : List Micro) :
    spansClosed c (m :: rest) = (!c && spansClosed c rest) := by
  cases m with
  | act a => cases h
  | _ => rfl

theorem spans_drainRule : DrainRule (fun prog s => spansClosed s.inCritical prog = true) SpansBetweenSteps where
  done s h := ⟨by simpa [spansClosed] using h, rfl⟩
  action a rest s h := by
    rw [spansClosed_cons, Bool.and_eq_true] at h
    rw [act_inCritical, boundary_inCritical]; exact h.2
  pass m rest s u hm h k := by
    rw [spansClosed_wait hm, Bool.and_eq_true] at h
    rw [polled_inCritical k]; exact h.2
  hold m held rest s u hm h k := by
    rw [spansClosed_wait hm.isWait.1, Bool.and_eq_true, Bool.not_eq_true'] at h
    refine ⟨(polled_inCritical k).trans h.1, ?_⟩
    rw [spansClosed_wait hm.isWait.2, ← h.1, h.2, h.1]; rfl
  fail m rest s u bus status hm h k := by
    rw [spansClosed_wait hm, Bool.and_eq_true, Bool.not_eq_true'] at h
    exact ⟨by rw [failTransfer_inCritical, polled_inCritical k, h.1], by rw [failTransfer_todo]; rfl⟩

/-- A list of actions that closes its spans leaves the foreground outside them. -/
theorem runActs_inCritical {as : List Action} {s : State} (h : spansClosed s.inCritical (acts as) = true) :
    (runActs as s).inCritical = false := by
  have ended := spans_drainRule.run _ s h
  rw [drain_actions] at ended
  exact ended.1

theorem spansBetweenSteps_of_same {s t : State} (h : SameButInterrupts s t) (k : SpansBetweenSteps s) :
    SpansBetweenSteps t := by
  unfold SpansBetweenSteps; rw [same_inCritical h, same_todo h]; exact k

/-- An instruction that starts outside critical spans with nothing held ends so, or is held outside them. -/
theorem exec_spans {i : Instr} {s t : State} (hc : s.inCritical = false) (ht : s.todo = []) (h : exec i s = .next t) :
    SpansBetweenSteps t := by
  have start : SpansBetweenSteps s := ⟨hc, by rw [ht]; rfl⟩
  cases exec_executes h with
  | receive => exact spansBetweenSteps_of_same (uartRxAction_same s) start
  | transmit => exact spansBetweenSteps_of_same (uartTxAction_same s) start
  | halt cause =>
    have waiting := spansBetweenSteps_of_same (boundary_same s) start
    exact waiting
  | actions cause noWaits =>
    refine ⟨runActs_inCritical ?_, by rw [runActs_todo, ht]; rfl⟩
    rw [hc]; exact (commandActions_commandOf s i noWaits).closed
  | program cause => exact spans_drainRule.run _ s (by rw [hc]; exact (waitingProgram_commandOf s.cfg i).closed)

/-! ### What is held (70_reset R304; log 12) -/

/-- `prog` is the rest of `program`, from one of its waits on when it is held there. -/
def RestOf (program prog : List Micro) : Prop :=
  (∃ before, program = before ++ prog) ∨ ∃ before wait after, program = before ++ wait :: after ∧ heldAt wait after prog

theorem heldAt_of_heldAs {m held : Micro} {rest : List Micro} (hm : ∀ w t0, m ≠ .pollT w t0) (h : HeldAs m held) :
    heldAt m rest (held :: rest) := by
  cases m with
  | act a => exact h
  | await r mask want => cases h; rfl
  | awaitT w => obtain ⟨t0, rfl⟩ := h; exact ⟨t0, rfl⟩
  | pollT w t0 => exact absurd rfl (hm w t0)

/-- What is held of a command goes on with what follows its wait. -/
theorem heldAt_cons {wait : Micro} {after todo : List Micro} (h : heldAt wait after todo) :
    ∃ m, todo = m :: after ∧ HeldAs wait m ∧ ∀ held, HeldAs m held → held = m := by
  cases wait with
  | act a => exact h.elim
  | await r mask want => exact ⟨_, h, rfl, fun _ k => k⟩
  | awaitT w => obtain ⟨t0, rfl⟩ := h; exact ⟨_, rfl, ⟨t0, rfl⟩, fun _ k => k⟩
  | pollT w t0 => exact h.elim

theorem restOf_tail {program rest : List Micro} {m : Micro} (h : RestOf program (m :: rest)) : RestOf program rest := by
  rcases h with ⟨before, rfl⟩ | ⟨before, wait, after, rfl, h⟩
  · exact .inl ⟨before ++ [m], by simp⟩
  · obtain ⟨m', e, -⟩ := heldAt_cons h
    cases e
    exact .inl ⟨before ++ [wait], by simp⟩

/-- What a program leaves held is nothing, or the program from one of its waits on. -/
def LeavesHeld (program todo : List Micro) : Prop :=
  todo = [] ∨ ∃ before wait after, program = before ++ wait :: after ∧ heldAt wait after todo

theorem held_drainRule {program : List Micro} (fresh : ∀ w t0, .pollT w t0 ∉ program) :
    DrainRule (fun prog _ => RestOf program prog) (fun u => LeavesHeld program u.todo) where
  done _ _ := .inl rfl
  action _ _ _ h := restOf_tail h
  pass _ _ _ _ _ h _ := restOf_tail h
  hold m held rest s u hm h _ := by
    rcases h with ⟨before, rfl⟩ | ⟨before, wait, after, rfl, h⟩
    · have notEntered : ∀ w t0, m ≠ .pollT w t0 := by
        rintro w t0 rfl
        exact fresh w t0 (by simp)
      exact .inr ⟨before, m, rest, rfl, heldAt_of_heldAs notEntered hm⟩
    · obtain ⟨m', e, -, same⟩ := heldAt_cons h
      cases e
      obtain rfl := same held hm
      exact .inr ⟨before, wait, rest, rfl, h⟩
  fail _ _ _ u bus status _ _ _ := .inl (failTransfer_todo bus status u)

/-- A program of a command, begun or resumed, leaves nothing held or a later part of itself. -/
theorem drain_held {cfg : Config} {i : Instr} {prog : List Micro} (h : RestOf (waitingProgram cfg i) prog) (s : State) :
    (drain prog s).todo = [] ∨ HeldFrom cfg i (drain prog s).todo :=
  (held_drainRule (waitingProgram_commandOf cfg i).notEntered).run prog s h

/-! ### Responses (30_encoding R104) -/

/-- At most one response more. -/
def Answered (s t : State) : Prop := t.responses = s.responses ∨ ∃ r : Response, t.responses = s.responses ++ [r]

theorem act_responses_of_silent {a : Action} (h : isResponse a = false) (s : State) :
    (act s a).responses = s.responses := by
  cases a with
  | read r => exact readNext_responses s r
  | write r v => exact writeReg_responses s r _
  | respond q => cases h
  | respondRead => cases h
  | respondBit n => cases h
  | respondBuf q => cases h
  | _ => rfl

theorem act_responses_of_response {a : Action} (h : isResponse a = true) (s : State) :
    ∃ r, (act s a).responses = s.responses ++ [r] := by
  cases a with
  | respond q => exact ⟨_, rfl⟩
  | respondRead => exact ⟨_, rfl⟩
  | respondBit n => exact ⟨_, rfl⟩
  | respondBuf q => exact ⟨_, rfl⟩
  | _ => cases h

/-- The rest of a program that has not responded yet, or no rest after the one response. -/
def AnswersOnce (s : State) (prog : List Micro) (u : State) : Prop :=
  RespondsLast prog ∧ (u.responses = s.responses ∨ prog = [] ∧ ∃ r, u.responses = s.responses ++ [r])

/-- Before a piece there is no response yet. -/
theorem AnswersOnce.cons {s u : State} {m : Micro} {rest : List Micro} (h : AnswersOnce s (m :: rest) u) :
    RespondsLast rest ∧ u.responses = s.responses := by
  obtain ⟨last, same | ⟨nil, -⟩⟩ := h
  · exact ⟨(List.pairwise_cons.mp last).2, same⟩
  · cases nil

theorem answered_drainRule (s : State) : DrainRule (AnswersOnce s) (Answered s) where
  done u h := h.2.imp_right And.right
  action a rest u h := by
    obtain ⟨tail, same⟩ := h.cons
    refine ⟨tail, ?_⟩
    cases ha : isResponse a with
    | false => exact .inl (by rw [act_responses_of_silent ha, boundary_responses, same])
    | true =>
      have last : rest = [] := by
        cases rest with
        | nil => rfl
        | cons m rest =>
          have silent := (List.pairwise_cons.mp h.1).1 m (List.mem_cons_self ..) a rfl
          rw [ha] at silent; cases silent
      obtain ⟨r, hr⟩ := act_responses_of_response ha (boundary u)
      exact .inr ⟨last, r, by rw [hr, boundary_responses, same]⟩
  pass m rest u v _ h k := ⟨h.cons.1, .inl ((polled_responses k).trans h.cons.2)⟩
  hold m held rest u v _ h k := .inl ((polled_responses k).trans h.cons.2)
  fail m rest u v bus status _ h k := by
    refine .inr ⟨⟨statusWord status, v.buf⟩, ?_⟩
    rw [failTransfer_responses, polled_responses k, h.cons.2]

theorem drain_answered {prog : List Micro} (h : RespondsLast prog) (s : State) : Answered s (drain prog s) :=
  (answered_drainRule s).run prog s ⟨h, .inl rfl⟩

theorem runActs_answered {as : List Action} (h : RespondsLast (acts as)) (s : State) : Answered s (runActs as s) := by
  have answered := drain_answered h s
  rwa [drain_actions] at answered

/-- The rest of a command from one of its waits on responds once, at its end. -/
theorem heldFrom_respondsLast {cfg : Config} {i : Instr} {todo : List Micro} (h : HeldFrom cfg i todo) :
    RespondsLast todo := by
  obtain ⟨before, wait, after, e, h⟩ := h
  obtain ⟨m, rfl, hm, -⟩ := heldAt_cons h
  have program := (waitingProgram_commandOf cfg i).respondsLast
  rw [e] at program
  have tail := (List.pairwise_cons.mp (List.pairwise_append.mp program).2.1).2
  refine List.pairwise_cons.mpr ⟨?_, tail⟩
  rintro - - a rfl
  cases hm.isWait.2

/-! ### Block state and trace (R49 to R52, R55, R56) -/

/-- The block state that commands own, and the configuration. -/
def blockState (s : State) : Vector Motor 4 × Bool × Bool × Word × Bool × Config :=
  (s.motor, s.i2cInit, s.spiInit, s.spiLast, s.clockDone, s.cfg)

/-- What running the command `i` may do to block state: its own command alone changes each piece, an initialised flag or
channel stays so, the trace only grows. -/
structure BlockStep (i : Instr) (s t : State) : Prop where
  motor : isMotorCommand i = false → t.motor = s.motor
  channel : ∀ c : Fin 4, s.motor[c].init = true → t.motor[c].init = true
  i2cInit : isI2cSetup i = false → t.i2cInit = s.i2cInit
  i2cStays : s.i2cInit = true → t.i2cInit = true
  spiInit : isSpiSetup i = false → t.spiInit = s.spiInit
  spiStays : s.spiInit = true → t.spiInit = true
  spiLast : isSpiPrepare i = false → t.spiLast = s.spiLast
  clockDone : isBringup i = false → t.clockDone = s.clockDone
  clockStays : s.clockDone = true → t.clockDone = true
  cfg : t.cfg = s.cfg
  trace : s.trace <+: t.trace

namespace BlockStep

variable {i : Instr} {s t u : State}

theorem of_blockState (h : blockState t = blockState s) (k : s.trace <+: t.trace) : BlockStep i s t := by
  simp only [blockState, Prod.mk.injEq] at h
  obtain ⟨motor, i2c, spi, last, clock, cfg⟩ := h
  exact ⟨fun _ => motor, fun c => by rw [motor]; exact id, fun _ => i2c, fun h => i2c.trans h, fun _ => spi,
    fun h => spi.trans h, fun _ => last, fun _ => clock, fun h => clock.trans h, cfg, k⟩

theorem of_sameTrace (h : blockState t = blockState s) (k : t.trace = s.trace) : BlockStep i s t :=
  of_blockState h ⟨[], by rw [List.append_nil, k]⟩

theorem refl (s : State) : BlockStep i s s := of_sameTrace rfl rfl

theorem trans (h : BlockStep i s t) (k : BlockStep i t u) : BlockStep i s u where
  motor hi := (k.motor hi).trans (h.motor hi)
  channel c hc := k.channel c (h.channel c hc)
  i2cInit hi := (k.i2cInit hi).trans (h.i2cInit hi)
  i2cStays hs := k.i2cStays (h.i2cStays hs)
  spiInit hi := (k.spiInit hi).trans (h.spiInit hi)
  spiStays hs := k.spiStays (h.spiStays hs)
  spiLast hi := (k.spiLast hi).trans (h.spiLast hi)
  clockDone hi := (k.clockDone hi).trans (h.clockDone hi)
  clockStays hs := k.clockStays (h.clockStays hs)
  cfg := k.cfg.trans h.cfg
  trace := h.trace.trans k.trace

/-- The interrupt context changes no block state (20_memory R83) and only adds events. -/
theorem of_context (h : SameButInterrupts s t) (k : UartContext s t) : BlockStep i s t := by
  obtain ⟨-, -, -, -, -, es, trace, -⟩ := k
  refine of_blockState ?_ ⟨es, trace.symm⟩
  simp only [blockState, same_motor h, same_i2cInit h, same_spiInit h, same_spiLast h, same_clockDone h, same_cfg h]

theorem of_boundary (s : State) : BlockStep i s (boundary s) :=
  of_context (boundary_same s) ((interruptsOnly_iff _ _).mp (boundary_only s)).1

/-- A read changes no block state. -/
theorem of_read (s : State) (r : Reg) : BlockStep i s (readNext s r) :=
  of_context (readNext_same s r) (context_of_eq (readNext_uart s r) (readNext_trace s r))

/-- An action that the command may take (`ownAction`) does nothing else to block state. -/
theorem of_act {a : Action} (own : ownAction i a = true) (s : State) : BlockStep i s (act s a) := by
  cases a with
  | read r => exact (of_read s r).trans (of_sameTrace rfl rfl)
  | write r v => exact of_sameTrace (by simp [blockState, act]) (by simp [act])
  | emit e => exact of_blockState rfl ⟨[e], rfl⟩
  | i2cLatch bus k => exact of_blockState rfl ⟨_, rfl⟩
  | spiLatch bus k sent readBack => exact of_blockState rfl ⟨_, rfl⟩
  | setMotor c m =>
    rw [ownAction_setMotor, Bool.and_eq_true] at own
    refine { refl s with motor := fun hi => ?_, channel := fun d hd => ?_ }
    · rw [own.1] at hi; cases hi
    · show (s.motor.set c m)[d].init = true
      by_cases hcd : c.val = d.val
      · simp [hcd, own.2]
      · simpa [Vector.getElem_set_ne _ _ hcd] using hd
  | setI2cInit =>
    refine { refl s with i2cInit := fun hi => ?_, i2cStays := fun _ => rfl }
    rw [← ownAction_setI2cInit, own] at hi; cases hi
  | setSpiInit =>
    refine { refl s with spiInit := fun hi => ?_, spiStays := fun _ => rfl }
    rw [← ownAction_setSpiInit, own] at hi; cases hi
  | setSpiLast w =>
    refine { refl s with spiLast := fun hi => ?_ }
    rw [← ownAction_setSpiLast i w, own] at hi; cases hi
  | setClockDone =>
    refine { refl s with clockDone := fun hi => ?_, clockStays := fun _ => rfl }
    rw [← ownAction_setClockDone, own] at hi; cases hi
  | _ => exact of_sameTrace rfl rfl

theorem keptByRuns (i : Instr) (s : State) : KeptByRuns (BlockStep i s) where
  boundary u h := h.trans (of_boundary u)
  read u r h := h.trans (of_read u r)
  clock u h := h.trans (of_sameTrace (by simp [blockState]) (by simp))
  hold u todo h := h.trans (of_sameTrace rfl rfl)

theorem of_runActs {as : List Action} (own : ∀ a ∈ as, ownAction i a = true) (s : State) : BlockStep i s (runActs as s) :=
  runActs_keeps (keptByRuns i s).boundary as (fun _ ha _ h => h.trans (of_act (own _ ha) _)) s (refl s)

theorem of_drain {prog : List Micro} (own : ∀ a ∈ prog.flatMap microActions, ownAction i a = true) (s : State) :
    BlockStep i s (drain prog s) :=
  drain_keeps (keptByRuns i s) prog (fun _ ha _ h => h.trans (of_act (own _ ha) _)) s (refl s)

/-- Every instruction changes its own block state alone. -/
theorem of_exec (h : exec i s = .next t) : BlockStep i s t := by
  cases exec_executes h with
  | receive => exact of_context (uartRxAction_same s) (uartRxAction_context s)
  | transmit => exact of_context (uartTxAction_same s) (uartTxAction_context s)
  | halt cause => exact (of_boundary s).trans (of_blockState rfl ⟨_, rfl⟩)
  | actions cause noWaits =>
    refine of_runActs (fun a ha => (commandActions_commandOf s i noWaits).own a ?_) s
    exact List.mem_flatMap.mpr ⟨.act a, List.mem_map_of_mem ha, List.mem_singleton_self a⟩
  | program cause => exact of_drain (waitingProgram_commandOf s.cfg i).own s

/-- An interrupt that the host asks for changes no block state. -/
theorem of_interrupt (s : State) : BlockStep i s (offerInterrupt { s with irq := false }) :=
  (of_sameTrace (s := s) (t := { s with irq := false }) rfl rfl).trans
    (of_context (offerInterrupt_same _) ((interruptsOnly_iff _ _).mp (offerInterrupt_only _)).1)

end BlockStep

/-! ### `halted` (60_exceptions R260, R261) -/

theorem halted_keptByRuns (h : Option HaltCode) : KeptByRuns fun s => s.halted = h where
  boundary s := (boundary_haltedField s).trans
  read s r := (readNext_halted s r).trans
  clock s := (readClock_halted s).trans
  hold _ _ h := h

theorem runActs_halted (as : List Action) (s : State) : (runActs as s).halted = s.halted :=
  runActs_keeps (halted_keptByRuns _).boundary as (fun a _ u => (act_halted u a).trans) s rfl

theorem drain_halted (prog : List Micro) (s : State) : (drain prog s).halted = s.halted :=
  drain_keeps (halted_keptByRuns _) prog (fun a _ u => (act_halted u a).trans) s rfl

/-- An instruction halts with the code of the table of halt causes, and not at all when the table names none. -/
theorem exec_halted {i : Instr} {s t : State} (h : exec i s = .next t) :
    t.halted = (haltCause s.cfg i).or s.halted := by
  cases exec_executes h with
  | receive => exact same_halted (uartRxAction_same s)
  | transmit => exact same_halted (uartTxAction_same s)
  | halt cause => rw [cause]; rfl
  | actions cause noWaits => rw [cause, runActs_halted]; rfl
  | program cause => rw [cause, drain_halted]; rfl

/-! ### Steps that go on with a held command -/

/-- The command that is held is a transfer or the bring-up, which own no other block state. -/
theorem heldFrom_owner {cfg : Config} {i : Instr} {todo : List Micro} (h : HeldFrom cfg i todo) :
    isMotorCommand i = false ∧ isI2cSetup i = false ∧ isSpiSetup i = false ∧ isSpiPrepare i = false := by
  obtain ⟨before, wait, after, e, -⟩ := h
  cases i with
  | i2cWrite bus addr8 bytes => exact ⟨rfl, rfl, rfl, rfl⟩
  | i2cRead bus addr8 reg len => exact ⟨rfl, rfl, rfl, rfl⟩
  | spiTransfer bus readBack bytes => exact ⟨rfl, rfl, rfl, rfl⟩
  | clockBringup => exact ⟨rfl, rfl, rfl, rfl⟩
  | _ => simp [waitingProgram] at e

theorem heldAs_actions {wait m : Micro} (h : HeldAs wait m) : microActions m = microActions wait := by
  cases wait with
  | act a => exact h.elim
  | await r mask want => cases h; rfl
  | awaitT w => obtain ⟨t0, rfl⟩ := h; rfl
  | pollT w t0 => cases h; rfl

/-- The actions still to come of a held command are its own. -/
theorem heldFrom_own {cfg : Config} {i : Instr} {todo : List Micro} (h : HeldFrom cfg i todo) :
    ∀ a ∈ todo.flatMap microActions, ownAction i a = true := by
  obtain ⟨before, wait, after, e, h⟩ := h
  obtain ⟨m, rfl, hm, -⟩ := heldAt_cons h
  intro a ha
  refine (waitingProgram_commandOf cfg i).own a ?_
  rw [List.flatMap_cons, heldAs_actions hm, ← List.flatMap_cons] at ha
  rw [e, List.flatMap_append]
  exact List.mem_append_right _ ha

/-- A step without a reset, with a command held: an interrupt that was asked for, or the command goes on. -/
theorem step_of_heldFrom {i : Instr} {s t : State} (held : HeldFrom s.cfg i s.todo) (hr : s.resetRequest = false)
    (h : step s = .next t) : t = offerInterrupt { s with irq := false } ∨ t = drain s.todo s := by
  have busy : s.todo ≠ [] := by
    obtain ⟨_, _, _, _, held⟩ := held
    obtain ⟨m, e, -⟩ := heldAt_cons held
    rw [e]; exact List.cons_ne_nil _ _
  rcases step_cases h with ⟨-, reset, -⟩ | ⟨-, -, ⟨-, -, rfl⟩ | ⟨idle, -⟩ | ⟨idle, -⟩ | ⟨m, rest, e, rfl⟩⟩
  · rw [hr] at reset; cases reset
  · exact .inl rfl
  · exact absurd idle busy
  · exact absurd idle busy
  · exact .inr (by rw [e])

/-- A step that goes on with a held command changes the block state of that command alone. -/
theorem step_blockStep_of_heldFrom {i : Instr} {s t : State} (held : HeldFrom s.cfg i s.todo)
    (hr : s.resetRequest = false) (h : step s = .next t) : BlockStep i s t := by
  rcases step_of_heldFrom held hr h with rfl | rfl
  · exact .of_interrupt s
  · exact .of_drain (heldFrom_own held) s

/-- A step without a reset: with nothing held an interrupt that was asked for, a fetched command or a wait for words. -/
theorem step_of_idle {s t : State} (idle : s.todo = []) (hr : s.resetRequest = false) (h : step s = .next t) :
    t = offerInterrupt { s with irq := false } ∨ (∃ i rest, exec i { s with stream := rest } = .next t) ∨
      t = boundary s := by
  rcases step_cases h with ⟨-, reset, -⟩ | ⟨-, -, ⟨-, -, rfl⟩ | ⟨-, i, rest, -, -, he⟩ | ⟨-, rfl⟩ | ⟨m, rest, e, -⟩⟩
  · rw [hr] at reset; cases reset
  · exact .inl rfl
  · exact .inr (.inl ⟨i, rest, he⟩)
  · exact .inr (.inr rfl)
  · rw [idle] at e; cases e

/-- A step without a reset changes the block state of one command alone. -/
theorem step_blockStep {s t : State} (held : HeldCommand s) (hr : s.resetRequest = false) (h : step s = .next t) :
    ∃ i, BlockStep i s t := by
  rcases held with idle | ⟨i, held⟩
  · rcases step_of_idle idle hr h with rfl | ⟨i, rest, he⟩ | rfl
    · exact ⟨.uartRxHandler, .of_interrupt s⟩
    · have fetched : BlockStep i s { s with stream := rest } := .of_sameTrace rfl rfl
      exact ⟨i, fetched.trans (.of_exec he)⟩
    · exact ⟨.uartRxHandler, .of_boundary s⟩
  · exact ⟨i, step_blockStep_of_heldFrom held hr h⟩

/-! ### The obligations on commands and steps -/

/-- An instruction keeps what is held the rest of one command. -/
theorem exec_heldCommand {i : Instr} {s t : State} (idle : s.todo = []) (h : exec i s = .next t) : HeldCommand t := by
  have cfg := (BlockStep.of_exec h).cfg
  cases exec_executes h with
  | receive => exact .inl ((same_todo (uartRxAction_same s)).trans idle)
  | transmit => exact .inl ((same_todo (uartTxAction_same s)).trans idle)
  | halt cause => exact .inl ((boundary_todo s).trans idle)
  | actions cause noWaits => exact .inl ((runActs_todo _ s).trans idle)
  | program cause =>
    unfold HeldCommand
    rw [cfg]
    exact (drain_held (.inl ⟨[], rfl⟩) s).imp_right fun held => ⟨i, held⟩

theorem heldCommand_of_same {s t : State} (h : SameButInterrupts s t) (k : HeldCommand s) : HeldCommand t := by
  unfold HeldCommand; rw [same_todo h, same_cfg h]; exact k

/-- Every step keeps the critical spans closed. -/
theorem step_spans {s t : State} (hs : SpansBetweenSteps s) (h : step s = .next t) : SpansBetweenSteps t := by
  rcases step_cases h with ⟨-, -, rfl⟩ | ⟨-, -, ⟨-, -, rfl⟩ | ⟨idle, i, rest, -, -, he⟩ | ⟨-, rfl⟩ | ⟨m, rest, e, rfl⟩⟩
  · exact ⟨rfl, rfl⟩
  · exact spansBetweenSteps_of_same (s := { s with irq := false }) (offerInterrupt_same _) hs
  · exact exec_spans (s := { s with stream := rest }) hs.1 idle he
  · exact spansBetweenSteps_of_same (boundary_same s) hs
  · exact spans_drainRule.run _ s (by rw [hs.1, ← e]; exact hs.2)

/-- Every step keeps what is held the rest of one command. -/
theorem step_heldCommand {s t : State} (hs : HeldCommand s) (h : step s = .next t) : HeldCommand t := by
  rcases step_cases h with ⟨-, -, rfl⟩ | ⟨-, -, ⟨-, -, rfl⟩ | ⟨idle, i, rest, -, -, he⟩ | ⟨-, rfl⟩ | ⟨m, rest, e, rfl⟩⟩
  · exact .inl rfl
  · exact heldCommand_of_same (s := { s with irq := false }) (offerInterrupt_same _) hs
  · exact exec_heldCommand (s := { s with stream := rest }) idle he
  · exact heldCommand_of_same (boundary_same s) hs
  · rcases hs with idle | ⟨i, held⟩
    · rw [idle] at e; cases e
    · rw [e] at held
      unfold HeldCommand
      rw [(BlockStep.of_drain (heldFrom_own held) s).cfg]
      exact (drain_held (.inr held) s).imp_right fun held => ⟨i, held⟩

/-- Settles O53: each command closes its spans before its waits, and is held only at one of them. -/
theorem everyStepClosesCriticalSpans : Obligations.EveryStepClosesCriticalSpans :=
  ⟨fun _ _ => step_spans, fun _ _ => step_heldCommand⟩

/-- Settles O56: a motor channel is only set initialised, and the flags are only set. -/
theorem noCommandClearsAnInitialisedFlag : Obligations.NoCommandClearsAnInitialisedFlag := by
  constructor
  · intro i s t h
    have block := BlockStep.of_exec h
    exact ⟨block.i2cStays, block.spiStays, block.clockStays, block.channel⟩
  · intro s t held hr h
    obtain ⟨i, block⟩ := step_blockStep held hr h
    exact ⟨block.i2cStays, block.spiStays, block.clockStays, block.channel⟩

/-- Settles O57: an action on block state stands in the program of its own command alone. -/
theorem onlyItsCommandWritesBlockState : Obligations.OnlyItsCommandWritesBlockState := by
  constructor
  · intro i s t h
    have block := BlockStep.of_exec h
    have halted := exec_halted h
    exact ⟨block.motor, block.i2cInit, block.spiInit, block.spiLast, fun hi => block.clockDone (isBringup_of_ne hi),
      fun cause => by rw [halted, cause]; rfl, fun code cause => by rw [halted, cause]; rfl, block.cfg⟩
  · intro i s t held hr h
    have block := step_blockStep_of_heldFrom held hr h
    obtain ⟨motor, i2c, spi, prepare⟩ := heldFrom_owner held
    refine ⟨block.motor motor, block.i2cInit i2c, block.spiInit spi, block.spiLast prepare,
      fun hi => block.clockDone (isBringup_of_ne hi), ?_, block.cfg⟩
    rcases step_of_heldFrom held hr h with rfl | rfl
    · exact same_halted (s := { s with irq := false }) (offerInterrupt_same _)
    · exact drain_halted _ s

/-- A command responds at most once. -/
theorem exec_answered {i : Instr} {s t : State} (h : exec i s = .next t) : Answered s t := by
  cases exec_executes h with
  | receive => exact .inl (same_responses (uartRxAction_same s))
  | transmit => exact .inl (same_responses (uartTxAction_same s))
  | halt cause => exact .inl (boundary_responses s)
  | actions cause noWaits => exact runActs_answered (commandActions_commandOf s i noWaits).respondsLast s
  | program cause => exact drain_answered (waitingProgram_commandOf s.cfg i).respondsLast s

/-- A step without a reset responds at most once. -/
theorem step_answered {s t : State} (held : HeldCommand s) (hr : s.resetRequest = false) (h : step s = .next t) :
    Answered s t := by
  have interrupt : Answered s (offerInterrupt { s with irq := false }) :=
    .inl (same_responses (s := { s with irq := false }) (offerInterrupt_same _))
  rcases held with idle | ⟨i, held⟩
  · rcases step_of_idle idle hr h with rfl | ⟨i, rest, he⟩ | rfl
    · exact interrupt
    · exact exec_answered (s := { s with stream := rest }) he
    · exact .inl (boundary_responses s)
  · rcases step_of_heldFrom held hr h with rfl | rfl
    · exact interrupt
    · exact drain_answered (heldFrom_respondsLast held) s

/-- Settles O59: every action only adds to the trace, and the one response of a command stands at its end. -/
theorem commandsOnlyExtendTheRecord : Obligations.CommandsOnlyExtendTheRecord := by
  constructor
  · intro i s t h
    exact ⟨(BlockStep.of_exec h).trace, exec_answered h⟩
  · intro s t held hr h
    obtain ⟨i, block⟩ := step_blockStep held hr h
    exact ⟨block.trace, step_answered held hr h⟩

end Sys2Proof.Machine

/-!
PROOFS. The address space (20_memory R71, R72) and the bits that no register stores (R76).
-/
namespace Sys2Proof.Machine

/-! ### The registers and their addresses (R71, R72) -/

/-- The list of registers is complete. -/
theorem mem_allRegs (r : Reg) : r ∈ allRegs := by
  cases r with
  | gpio p r => revert p; cases r <;> decide
  | rcc r => cases r <;> decide
  | i2c r => cases r <;> decide
  | spi r => cases r <;> decide
  | uart r => cases r <;> decide

/-- Under the default base addresses no two registers share an address, so a raw access finds the register it names. -/
theorem regAt_regAddr_default (r : Reg) : regAt Config.default (regAddr Config.default r) = some r := by
  have found : ∀ x ∈ allRegs, regAt Config.default (regAddr Config.default x) = some x := by decide
  exact found r (mem_allRegs r)

/-- Settles O51: the tables hold the literals of the rules, and each address leads back to its register. -/
theorem everyRegisterHasItsAddress : Obligations.EveryRegisterHasItsAddress := by
  refine ⟨by decide, by decide, by decide, by decide, by decide, by decide, by decide, mem_allRegs,
    regAt_regAddr_default, by decide, by decide, by decide, by decide, by decide, fun s => ?_⟩
  exact ⟨fun _ => rfl, rfl, rfl, rfl, rfl, rfl, rfl, rfl⟩

/-! ### Words within a mask -/

/-- A masked word holds no bit outside its mask. -/
theorem masked_within (v mask : Word) : v &&& mask &&& ~~~mask = 0 := by
  rw [BitVec.and_assoc, BitVec.and_not_self]
  exact BitVec.and_zero

/-- Clearing bits of a word keeps it within a mask. -/
theorem within_and {w mask : Word} (h : w &&& ~~~mask = 0) (v : Word) : w &&& v &&& ~~~mask = 0 := by
  rw [BitVec.and_assoc, BitVec.and_comm v, ← BitVec.and_assoc, h]
  exact BitVec.zero_and

/-- Two words within a mask join to one. -/
theorem within_or {v w mask : Word} (h : v &&& ~~~mask = 0) (k : w &&& ~~~mask = 0) : (v ||| w) &&& ~~~mask = 0 := by
  rw [BitVec.and_or_distrib_right, h, k]
  exact BitVec.or_zero

/-! ### Register writes keep reserved bits clear (R76) -/

/-- The invariant speaks of the peripherals alone. -/
theorem registersMasked_congr {s t : State} (hgpio : t.gpio = s.gpio) (hrcc : t.rcc = s.rcc) (hi2c : t.i2c = s.i2c)
    (hspi : t.spi = s.spi) (huart : t.uart = s.uart) (h : RegistersMasked s) : RegistersMasked t := by
  intro r
  rw [storedBits_congr hgpio hrcc hi2c hspi huart]
  exact h r

/-- The interrupt context may change the registers of the UART alone. -/
theorem registersMasked_of_same {s t : State} (h : SameButInterrupts s t) (huart : t.uart = s.uart) :
    RegistersMasked s → RegistersMasked t :=
  registersMasked_congr (same_gpio h) (same_rcc h) (same_i2c h) (same_spi h) huart

/-- `BSHR` and `BCR` leave the latch within its 16 bits (10_state R36, R37). -/
theorem latchWrite_registersMasked {s : State} (h : RegistersMasked s) (p : Fin 5) {r : GpioReg}
    (hr : r = .bshr ∨ r = .bcr) (v : Word) : RegistersMasked (storeReg s (.gpio p r) v) := by
  intro r'
  by_cases e : r' = .gpio p .outdr
  · have latch : s.gpio[p].outdr &&& ~~~0x0000FFFF = 0 := h (.gpio p .outdr)
    subst e
    rcases hr with rfl | rfl
    · rw [storeReg, storedBits_setPort_same]
      exact within_or (within_and latch _) (masked_within v _)
    · rw [storeReg, storedBits_setPort_same]
      exact within_and latch _
  · rw [storedBits_latchWrite s p r v hr e]
    exact h r'

/-- A register write stores bits of the mask, acts on a latch, or does nothing. -/
theorem storeReg_registersMasked {s : State} (h : RegistersMasked s) (r : Reg) (v : Word) :
    RegistersMasked (storeReg s r v) := by
  by_cases latch : ∃ p x, r = .gpio p x ∧ (x = .bshr ∨ x = .bcr)
  · obtain ⟨p, x, rfl, hx⟩ := latch
    exact latchWrite_registersMasked h p hx v
  · by_cases stores : storeMask r = 0
    · rw [storeReg_readOnly s v stores fun p =>
        ⟨fun e => latch ⟨p, _, e, .inl rfl⟩, fun e => latch ⟨p, _, e, .inr rfl⟩⟩]
      exact h
    · intro r'
      rw [storedBits_storeReg s r r' v stores]
      split
      next e => rw [e]; exact masked_within v _
      next => exact h r'

theorem writeReg_registersMasked {s : State} (h : RegistersMasked s) (r : Reg) (v : Word) :
    RegistersMasked (writeReg s r v) := by
  unfold writeReg
  split
  · exact storeReg_registersMasked h r v
  · exact h

/-! ### Runs and interrupts keep reserved bits clear -/

theorem drawNext_registersMasked {s : State} : RegistersMasked s → RegistersMasked (drawNext s) :=
  registersMasked_of_same (drawNext_same s) (drawNext_uart s)

theorem readNext_registersMasked {s : State} (r : Reg) : RegistersMasked s → RegistersMasked (readNext s r) :=
  registersMasked_of_same (readNext_same s r) (readNext_uart s r)

theorem emit_registersMasked {s : State} (e : Event) : RegistersMasked s → RegistersMasked (emit s e) :=
  registersMasked_congr rfl rfl rfl rfl rfl

/-- The receive action reads alone (44_uart R228). -/
theorem uartRxAction_registersMasked {s : State} (h : RegistersMasked s) : RegistersMasked (uartRxAction s) := by
  have read := readNext_registersMasked (.uart .statr) h
  unfold uartRxAction
  dsimp only
  split
  · exact emit_registersMasked _ (readNext_registersMasked _ read)
  · exact read

/-- The transmit action writes `DATAR` or `CTLR1` (44_uart R229). -/
theorem uartTxAction_registersMasked {s : State} (h : RegistersMasked s) : RegistersMasked (uartTxAction s) := by
  have read := readNext_registersMasked (.uart .statr) (readNext_registersMasked (.uart .ctlr1) h)
  have pulled := drawNext_registersMasked read
  unfold uartTxAction
  dsimp only
  split
  · split
    · exact emit_registersMasked _ (writeReg_registersMasked pulled _ _)
    · exact writeReg_registersMasked pulled _ _
  · exact read

/-- Among the actions only a write changes registers. -/
theorem act_registersMasked (a : Action) (s : State) (h : RegistersMasked s) : RegistersMasked (act s a) := by
  cases a with
  | read r => exact registersMasked_congr (s := readNext s r) rfl rfl rfl rfl rfl (readNext_registersMasked r h)
  | write r v => exact writeReg_registersMasked h r _
  | _ => exact registersMasked_congr rfl rfl rfl rfl rfl h

theorem registersMasked_keptByRuns : KeptByRuns RegistersMasked where
  boundary := boundary_keeps (fun _ => drawNext_registersMasked) (fun _ => uartRxAction_registersMasked)
    fun _ => uartTxAction_registersMasked
  read _ r := readNext_registersMasked r
  clock s := registersMasked_congr (readClock_gpio s) (readClock_rcc s) (readClock_i2c s) (readClock_spi s)
    (readClock_uart s)
  hold _ _ := registersMasked_congr rfl rfl rfl rfl rfl

/-! ### Reset -/

/-- After reset every register stores its reset value (70_reset R290). -/
theorem storedBits_resetWith (cfg : Config) (r : Reg) : storedBits (State.resetWith cfg) r = resetValue cfg.reset r := by
  cases r with
  | gpio p r => cases r <;> simp [storedBits, shown, resetValue, State.resetWith, resetPort]
  | rcc r => cases r <;> rfl
  | i2c r => cases r <;> rfl
  | spi r => cases r <;> rfl
  | uart r => cases r <;> rfl

/-- A well-formed configuration resets each register to bits that it stores (log 20). -/
theorem resetValue_masked {cfg : Config} (h : configOk cfg = true) (r : Reg) :
    resetValue cfg.reset r &&& ~~~storeMask r = 0 := by
  have ok := configOk_reset h
  simp only [resetOk, Bool.and_eq_true, List.all_eq_true, beq_iff_eq] at ok
  obtain ⟨⟨⟨stored, -⟩, -⟩, -⟩ := ok
  exact stored r (mem_allRegs r)

theorem takeReset_registersMasked {s : State} (h : configOk s.cfg = true) : RegistersMasked (takeReset s) := by
  refine registersMasked_congr (s := State.resetWith s.cfg) rfl rfl rfl rfl rfl fun r => ?_
  rw [storedBits_resetWith]
  exact resetValue_masked h r

/-- Settles O52: the step is a reset, or changes registers by writes alone. -/
theorem everyStepKeepsReservedBitsClear : Obligations.EveryStepKeepsReservedBitsClear := by
  intro s t hs h
  have runs := registersMasked_keptByRuns
  rcases step_cases h with ⟨hc, -, rfl⟩ | ⟨-, -, ⟨-, -, rfl⟩ | ⟨-, i, rest, -, -, he⟩ | ⟨-, rfl⟩ | ⟨m, rest, -, rfl⟩⟩
  · exact takeReset_registersMasked hc
  · exact offerInterrupt_keeps (P := RegistersMasked) (fun _ => drawNext_registersMasked)
      (fun _ => uartRxAction_registersMasked) (fun _ => uartTxAction_registersMasked) _
      (registersMasked_congr rfl rfl rfl rfl rfl hs)
  · exact exec_induction runs uartRxAction_registersMasked uartTxAction_registersMasked
      (fun _ _ => registersMasked_congr rfl rfl rfl rfl rfl) (fun a _ => act_registersMasked a) he
      (registersMasked_congr rfl rfl rfl rfl rfl hs)
  · exact runs.boundary _ hs
  · exact drain_keeps runs _ (fun a _ => act_registersMasked a) s hs

end Sys2Proof.Machine

/-!
PROOFS. The binary form of commands (30_encoding R98, R102 to R109, R112): what each field and operand decodes to, as an
equivalence with its spelling; the round trip of encoder and decoder, the refused spellings and the SPI control word.
-/
namespace Sys2Proof
open Machine

/-! ### Fields whose high bits are reserved (R106) -/

/-- A field is its low bits, zero extended, exactly when its high bits are 0. -/
theorem highBits_zero_iff {w k m : Nat} (b : BitVec w) (hw : w = m + k) :
    b.extractLsb' k m = 0 ↔ b = (b.extractLsb' 0 k).setWidth w := by
  subst hw
  have lt : b.toNat / 2 ^ k < 2 ^ m := Nat.div_lt_of_lt_mul (by rw [mul_comm, ← Nat.pow_add]; exact b.isLt)
  have low : b.toNat % 2 ^ k < 2 ^ (m + k) := (Nat.mod_le _ _).trans_lt b.isLt
  rw [← BitVec.toNat_inj, ← BitVec.toNat_inj]
  simp only [BitVec.extractLsb'_toNat, BitVec.toNat_setWidth, BitVec.ofNat_eq_ofNat, BitVec.toNat_ofNat,
    Nat.zero_mod, Nat.shiftRight_eq_div_pow, Nat.mod_eq_of_lt lt, pow_zero, Nat.div_one, Nat.mod_eq_of_lt low]
  rw [Nat.div_eq_zero_iff_lt (Nat.two_pow_pos k), eq_comm (a := b.toNat), Nat.mod_eq_iff_lt (Nat.two_pow_pos k).ne']

theorem setWidth_lowBits {w k : Nat} (x : BitVec k) (hk : k ≤ w) : (x.setWidth w).extractLsb' 0 k = x := by
  apply BitVec.eq_of_getLsbD_eq; intro i hi
  simp [hi, show i < w by omega]

theorem setWidth_highBits {w k m : Nat} (x : BitVec k) (hw : w = m + k) : (x.setWidth w).extractLsb' k m = 0 :=
  (highBits_zero_iff _ hw).mpr (by rw [setWidth_lowBits x (by omega)])

/-- Shifting out the low bits leaves 0 exactly when the high bits are 0. -/
theorem ushiftRight_zero_iff {w k m : Nat} (b : BitVec w) (hw : w = m + k) : b >>> k = 0 ↔ b.extractLsb' k m = 0 := by
  rw [← BitVec.toNat_inj, ← BitVec.toNat_inj]
  have lt : b.toNat >>> k < 2 ^ m := by
    rw [Nat.shiftRight_eq_div_pow]
    exact Nat.div_lt_of_lt_mul (by rw [mul_comm, ← Nat.pow_add, ← hw]; exact b.isLt)
  simp [Nat.mod_eq_of_lt lt]

/-- The reserved bits 7:1 of the low byte of field B, as a mask. -/
theorem and_reserved_zero_iff (b : BitVec 16) : b &&& 0x00FE = 0 ↔ b.extractLsb' 1 7 = 0 := by
  have mask : ∀ i < 16, (0x00FE : BitVec 16).getLsbD i = decide (1 ≤ i ∧ i < 8) := by decide
  constructor <;> intro h <;> apply BitVec.eq_of_getLsbD_eq <;> intro i hi
  · have bit := congrArg (BitVec.getLsbD · (1 + i)) h
    rw [BitVec.getLsbD_and, mask (1 + i) (by omega)] at bit
    simpa [hi, show 1 + i < 8 by omega] using bit
  · have bit := congrArg (BitVec.getLsbD · (i - 1)) h
    rw [BitVec.getLsbD_and, mask i hi]
    by_cases inside : 1 ≤ i ∧ i < 8
    · simpa [inside, show 1 + (i - 1) = i by omega, show i - 1 < 7 by omega] using bit
    · simp [inside]

/-- Bit 0 of the low byte is bit 0 of the header (R97). -/
theorem isWireAddress_bLow (h : Word) : isWireAddress (bLow h) = !h.getLsbD 0 := by
  simp [isWireAddress, bLow]

theorem bPair_bit (hi lo : Byte) : (bPair hi lo).getLsbD 0 = lo.getLsbD 0 := by
  simp only [bPair, BitVec.getLsbD_append]; simp

theorem bPair_flags (hi lo : Byte) : (bPair hi lo).extractLsb' 1 7 = lo.extractLsb' 1 7 := by
  apply BitVec.eq_of_getLsbD_eq; intro i hi
  simp only [bPair, BitVec.getLsbD_extractLsb', BitVec.getLsbD_append]; simp [show 1 + i < 8 by omega]

theorem bitA_bit (v : Bool) : (bitA v).getLsbD 0 = v := by cases v <;> rfl

/-- A byte whose bits 7:1 are 0 spells its bit 0. -/
theorem bitA_of_flags_zero {a : Byte} (h : a.extractLsb' 1 7 = 0) : a = bitA (a.getLsbD 0) := by
  rw [(highBits_zero_iff a rfl).mp h]
  generalize a.extractLsb' 0 1 = b
  revert b; decide

theorem bitA_flags (v : Bool) : (bitA v).extractLsb' 1 7 = 0 := by cases v <;> rfl

/-! ### What an operand decodes to, and from which words alone -/

/-- A decoder that goes on after a part succeeds exactly when both do. -/
theorem bind_eq_ok {α β : Type} {x : Except DecodeError α} {f : α → Except DecodeError β} {b : β} :
    x >>= f = .ok b ↔ ∃ a, x = .ok a ∧ f a = .ok b := by
  cases x with
  | error e => exact ⟨nofun, fun ⟨_, h, _⟩ => nomatch h⟩
  | ok a => exact ⟨fun h => ⟨a, rfl, h⟩, fun ⟨_, h, k⟩ => by cases h; exact k⟩

theorem takeBit_eq_ok {a : Byte} {v : Bool} : takeBit a = .ok v ↔ a = bitA v :=
  ⟨takeBit_inv, fun h => h ▸ takeBit_bitA v⟩

theorem takeZero_eq_ok {c : Bool} {u : Unit} : takeZero c = .ok u ↔ c = true := by
  cases c
  · exact ⟨nofun, nofun⟩
  · exact ⟨fun _ => rfl, fun _ => rfl⟩

theorem takeLength_eq_ok {cfg : Config} {n : Nat} {u : Unit} : takeLength cfg n = .ok u ↔ isLength cfg n = true :=
  ⟨takeLength_inv, takeLength_ok⟩

theorem takeWord_eq_ok {ws : List Word} {x : Word × List Word} : takeWord ws = .ok x ↔ ws = x.1 :: x.2 := by
  cases ws with
  | nil => exact ⟨nofun, nofun⟩
  | cons w ws =>
    obtain ⟨y, rest⟩ := x
    constructor <;> intro h <;> cases h <;> rfl

theorem takePayload_eq_ok {n : Nat} {ws : List Word} {x : List Byte × List Word} :
    takePayload n ws = .ok x ↔ ws = packBytes x.1 ++ x.2 ∧ x.1.length = n := by
  obtain ⟨bytes, rest⟩ := x
  exact ⟨takePayload_inv, fun ⟨hw, hn⟩ => hw ▸ hn ▸ takePayload_packBytes bytes rest⟩

/-- The length byte of a payload that is as long as it says. -/
theorem lengthByte_of_length {bytes : List Byte} {n : Byte} (h : bytes.length = n.toNat) : lengthByte bytes = n := by
  rw [lengthByte, h, BitVec.ofNat_toNat, BitVec.setWidth_eq]

/-- A payload within `MAX_LEN` is announced at its length (R103). -/
theorem lengthByte_of_isLength {cfg : Config} {bytes : List Byte} (hm : cfg.maxLen ≤ 255)
    (h : isLength cfg bytes.length = true) : (lengthByte bytes).toNat = bytes.length :=
  lengthByte_toNat bytes ((of_decide_eq_true h).trans hm)

/-- Field B names a channel's flag, whose identifier it is, or it is no virtual identifier (R92, R93, R108). -/
theorem virtualOf_cases {cfg : Config} (h4 : cfg.nChannels ≤ 4) (id : BitVec 16) :
    (∃ c role, virtualOf cfg id = some (c, role) ∧ isChannel cfg c = true ∧ id = virtualId cfg c role) ∨
      (virtualOf cfg id = none ∧ isVirtualId cfg id = false) := by
  cases hv : virtualOf cfg id with
  | none => exact .inr ⟨rfl, not_virtual hv⟩
  | some x =>
    obtain ⟨hc, hid⟩ := virtualOf_inv h4 hv
    exact .inl ⟨x.1, x.2, rfl, decide_eq_true hc, hid⟩

/-! ### The round trip (R105, R108) -/

/-- The decoder reads a well-formed command back from its encoding. -/
theorem decode_encode {cfg : Config} (shape : Shape cfg) {i : Instr} (wf : i.wellFormed cfg = true) (rest : List Word) :
    decode cfg (encode cfg i ++ rest) = .ok (i, rest) := by
  cases i with
  | gpioSetup id v | gpioWrite id v | gpioReset id v =>
    have plain : virtualOf cfg id = none := virtualOf_none (by simpa [Instr.wellFormed] using wf)
    simp only [encode, List.cons_append, List.nil_append, decode_header, decodeOp, bind_eq_ok, takeBit_eq_ok,
      aField_header, bField_header, plain]
    exact ⟨v, rfl, rfl⟩
  | gpioToggle id =>
    have plain : virtualOf cfg id = none := virtualOf_none (by simpa [Instr.wellFormed] using wf)
    simp only [encode, List.cons_append, List.nil_append, decode_header, decodeOp, bind_eq_ok, takeZero_eq_ok,
      aField_header, bField_header, plain]
    exact ⟨(), rfl, trivial⟩
  | motorSetup c role v | motorWrite c role v | motorReset c role v =>
    have named : virtualOf cfg (virtualId cfg c role) = some (c, role) :=
      virtualOf_virtualId (of_decide_eq_true wf) shape.top
    simp only [encode, List.cons_append, List.nil_append, decode_header, decodeOp, bind_eq_ok, takeBit_eq_ok,
      aField_header, bField_header, named]
    exact ⟨v, rfl, rfl⟩
  | motorToggle c role =>
    have named : virtualOf cfg (virtualId cfg c role) = some (c, role) :=
      virtualOf_virtualId (of_decide_eq_true wf) shape.top
    simp only [encode, List.cons_append, List.nil_append, decode_header, decodeOp, bind_eq_ok, takeZero_eq_ok,
      aField_header, bField_header, named]
    exact ⟨(), rfl, trivial⟩
  | gpioInputSetup id pull | spiPrepare id pull =>
    simp only [encode, List.cons_append, List.nil_append, decode_header, decodeOp, aField_header, bField_header]
  | i2cSetup bus low rate | spiSetup bus low rate =>
    simp only [encode, List.cons_append, List.nil_append, decode_header, decodeOp, bind_eq_ok, takeZero_eq_ok,
      takeWord_eq_ok, aField_header, bField_header, setWidth_highBits low (w := 16) rfl,
      setWidth_lowBits low (w := 16) (by decide)]
    exact ⟨(), rfl, (rate, rest), rfl, rfl⟩
  | i2cWrite bus addr8 bytes =>
    obtain ⟨address, length⟩ := (Bool.and_eq_true ..).mp wf
    simp only [encode, List.cons_append, decode_header, decodeOp, bind_eq_ok, takeZero_eq_ok, takePayload_eq_ok,
      takeLength_eq_ok, aField_header, bHigh_header, bLow_header, lengthByte_of_isLength shape.length length]
    exact ⟨(), address, (bytes, rest), ⟨rfl, rfl⟩, (), length, rfl⟩
  | i2cRead bus addr8 reg len =>
    obtain ⟨counts, length⟩ := (Bool.and_eq_true ..).mp wf
    obtain ⟨address, count⟩ := (Bool.and_eq_true ..).mp counts
    simp only [encode, List.cons_append, decode_header, decodeOp, bind_eq_ok, takeZero_eq_ok, takeWord_eq_ok,
      takePayload_eq_ok, takeLength_eq_ok, aField_header, bHigh_header, bLow_header,
      lengthByte_of_isLength shape.length length]
    have low : (len.setWidth 32).extractLsb' 0 8 = len := setWidth_lowBits len (by decide)
    have high : (len.setWidth 32).extractLsb' 8 24 = 0 := setWidth_highBits len rfl
    refine ⟨(), address, (len.setWidth 32, packBytes reg ++ rest), rfl, (), ?_, (reg, rest), ⟨rfl, rfl⟩,
      (), ?_, (), length, ?_⟩
    · rw [high]; rfl
    · rwa [low]
    · rw [low]
  | spiTransfer bus readBack bytes =>
    simp only [encode, List.cons_append, decode_header, decodeOp, bind_eq_ok, takeZero_eq_ok, takePayload_eq_ok,
      takeLength_eq_ok, aField_header, bField_header, bHigh_header, bPair_flags, bitA_flags, bPair_bit, bitA_bit,
      lengthByte_of_isLength shape.length wf]
    exact ⟨(), rfl, (bytes, rest), ⟨rfl, rfl⟩, (), wf, rfl⟩
  | gpioInputRead _ | uartInit | uartTxKick | clockBringup | uartRxHandler | uartTxHandler =>
    simp only [encode, List.cons_append, List.nil_append, decode_header, decodeOp, bind_eq_ok, takeZero_eq_ok,
      aField_header, bField_header]
    exact ⟨(), rfl, trivial⟩
  | regRead addr =>
    simp only [encode, List.cons_append, List.nil_append, decode_header, decodeOp, bind_eq_ok, takeZero_eq_ok,
      takeWord_eq_ok, aField_header, bField_header]
    exact ⟨(), rfl, (addr, rest), rfl, rfl⟩
  | regWrite addr value =>
    simp only [encode, List.cons_append, List.nil_append, decode_header, decodeOp, bind_eq_ok, takeZero_eq_ok,
      takeWord_eq_ok, aField_header, bField_header]
    exact ⟨(), rfl, (addr, value :: rest), rfl, (value, rest), rfl, rfl⟩

/-- Every value of field B is a pair of bytes. -/
theorem exists_bPair (b : BitVec 16) : ∃ hi lo, b = bPair hi lo :=
  ⟨_, _, (bField_header .setup 0 b).symm.trans (bField_pair _)⟩

/-- The words that an opcode's decoding reads are the encoding of the command that it answers. -/
theorem decodeOp_spelling {cfg : Config} (h4 : cfg.nChannels ≤ 4) {op : Op} {a : Byte} {b : BitVec 16}
    {ws rest : List Word} {i : Instr} (h : decodeOp cfg op (header op a b) ws = .ok (i, rest)) :
    i.wellFormed cfg = true ∧ header op a b :: ws = encode cfg i ++ rest := by
  cases op with
  | setup | write | reset | toggle =>
    simp only [decodeOp, bind_eq_ok, takeBit_eq_ok, takeZero_eq_ok, aField_header, bField_header, beq_iff_eq] at h
    obtain ⟨v, rfl, h⟩ := h
    rcases virtualOf_cases h4 b with ⟨c, role, hv, hc, rfl⟩ | ⟨hv, hb⟩ <;> rw [hv] at h <;> cases h
    · exact ⟨hc, rfl⟩
    · exact ⟨by rw [Instr.wellFormed, hb]; rfl, rfl⟩
  | inputSetup | spiPrepare =>
    simp only [decodeOp, aField_header, bField_header] at h
    cases h
    exact ⟨rfl, rfl⟩
  | inputRead =>
    simp only [decodeOp, bind_eq_ok, takeZero_eq_ok, aField_header, bField_header, beq_iff_eq] at h
    obtain ⟨-, rfl, h⟩ := h
    cases h
    exact ⟨rfl, rfl⟩
  | i2cSetup | spiSetup =>
    simp only [decodeOp, bind_eq_ok, takeZero_eq_ok, takeWord_eq_ok, aField_header, bField_header, beq_iff_eq] at h
    obtain ⟨-, hb, ⟨rate, tail⟩, rfl, h⟩ := h
    cases h
    rw [highBits_zero_iff b rfl] at hb
    exact ⟨rfl, by rw [encode, ← hb]; rfl⟩
  | i2cWrite =>
    obtain ⟨hi, lo, rfl⟩ := exists_bPair b
    simp only [decodeOp, bind_eq_ok, takeZero_eq_ok, takePayload_eq_ok, takeLength_eq_ok, aField_header, bHigh_header,
      bLow_header] at h
    obtain ⟨-, address, ⟨bytes, tail⟩, ⟨rfl, hn⟩, -, length, h⟩ := h
    cases h
    exact ⟨by simp [Instr.wellFormed, address, hn, length], by rw [encode, lengthByte_of_length hn]; rfl⟩
  | i2cRead =>
    obtain ⟨hi, lo, rfl⟩ := exists_bPair b
    simp only [decodeOp, bind_eq_ok, takeZero_eq_ok, takeWord_eq_ok, takePayload_eq_ok, takeLength_eq_ok,
      aField_header, bHigh_header, bLow_header, beq_iff_eq] at h
    obtain ⟨-, address, ⟨w1, tail⟩, rfl, -, hw, ⟨reg, tail⟩, ⟨rfl, hn⟩, -, count, -, length, h⟩ := h
    cases h
    rw [highBits_zero_iff w1 rfl] at hw
    exact ⟨by simp only [Instr.wellFormed, address, hn, count, length, Bool.and_self],
      by rw [encode, lengthByte_of_length hn, ← hw]; rfl⟩
  | spiTransfer =>
    obtain ⟨hi, lo, rfl⟩ := exists_bPair b
    simp only [decodeOp, bind_eq_ok, takeZero_eq_ok, takePayload_eq_ok, takeLength_eq_ok, aField_header, bField_header,
      bHigh_header, bPair_flags, bPair_bit, beq_iff_eq] at h
    obtain ⟨-, flags, ⟨bytes, tail⟩, ⟨rfl, hn⟩, -, length, h⟩ := h
    cases h
    exact ⟨by simp [Instr.wellFormed, hn, length],
      by rw [encode, lengthByte_of_length hn, ← bitA_of_flags_zero flags]; rfl⟩
  | uartInit | uartTxKick | clockBringup | rxHandler | txHandler =>
    simp only [decodeOp, bind_eq_ok, takeZero_eq_ok, aField_header, bField_header, Bool.and_eq_true, beq_iff_eq] at h
    obtain ⟨-, ⟨rfl, rfl⟩, h⟩ := h
    cases h
    exact ⟨rfl, rfl⟩
  | regRead =>
    simp only [decodeOp, bind_eq_ok, takeZero_eq_ok, takeWord_eq_ok, aField_header, bField_header, Bool.and_eq_true,
      beq_iff_eq] at h
    obtain ⟨-, ⟨rfl, rfl⟩, ⟨addr, tail⟩, rfl, h⟩ := h
    cases h
    exact ⟨rfl, rfl⟩
  | regWrite =>
    simp only [decodeOp, bind_eq_ok, takeZero_eq_ok, takeWord_eq_ok, aField_header, bField_header, Bool.and_eq_true,
      beq_iff_eq] at h
    obtain ⟨-, ⟨rfl, rfl⟩, ⟨addr, words⟩, rfl, ⟨value, tail⟩, hw, h⟩ := h
    cases h
    exact ⟨rfl, congrArg (header .regWrite 0 0 :: addr :: ·) hw⟩

/-- Words that decode begin with a header of a known opcode, whose decoding reads the words after it. -/
theorem decode_inv {cfg : Config} {ws : List Word} {x : Instr × List Word} (h : decode cfg ws = .ok x) :
    ∃ op a b tail, ws = header op a b :: tail ∧ decodeOp cfg op (header op a b) tail = .ok x := by
  cases ws with
  | nil => cases h
  | cons w tail =>
    cases known : opOf (opField w) with
    | none => rw [decode, known] at h; cases h
    | some op =>
      rw [header_of_fields w op known, decode_header] at h
      exact ⟨op, aField w, bField w, tail, by rw [← header_of_fields w op known], h⟩

/-- Settles O1: each command's fields and operands decode to themselves. -/
theorem decodeOfEncodeIsTheCommand : Obligations.DecodeOfEncodeIsTheCommand :=
  fun _ _ rest ok wf => decode_encode (configOk_shape ok) wf rest

/-- Settles O2: each opcode accepts no other spelling than the encoder's. -/
theorem decodedWordsAreTheEncoding : Obligations.DecodedWordsAreTheEncoding := by
  intro cfg ws i rest ok h
  obtain ⟨op, a, b, tail, rfl, read⟩ := decode_inv h
  exact decodeOp_spelling (configOk_shape ok).channels read

end Sys2Proof

namespace Sys2Proof.Machine

/-! ### What the step does with words that do not decode (R106, R107; 60_exceptions R264) -/

/-- A ready block takes the next command of the stream. -/
theorem step_ready {s : State} (ready : Ready s) : step s = fetchStep s := by
  obtain ⟨hc, hr, hn, hirq, ht⟩ := ready
  rw [step_running hc hr hn, contextStep_noInterrupt hirq, foregroundStep, ht]

/-- The refusal of words that are no command; none of a command cut short. -/
def decodeRefusal : DecodeError → Option Refusal
  | .illegalOpcode => some .illegalOpcode
  | .reservedField => some .reservedField
  | .payloadPadding => some .payloadPadding
  | .overlong => some .overlong
  | .truncated => none

theorem step_refused {s : State} {e : DecodeError} {r : Refusal} (ready : Ready s)
    (h : decode s.cfg s.stream = .error e) (hr : decodeRefusal e = some r) : step s = .refused r := by
  rw [step_ready ready, fetchStep, h]
  cases e <;> cases hr <;> rfl

/-! ### Opcodes (R107) -/

theorem opOf_none {b : Byte} (h : b ∉ allOps.map opCode) : opOf b = none := by
  refine List.find?_eq_none.mpr fun op mem => ?_
  simpa using fun e : opCode op = b => h (e ▸ List.mem_map_of_mem mem)

/-- The decoder goes by the opcode whose byte the header holds. -/
theorem decode_opcode {cfg : Config} {op : Op} {w : Word} (hop : opField w = opCode op) (rest : List Word) :
    decode cfg (w :: rest) = decodeOp cfg op w rest := by
  rw [decode, hop, opOf_opCode]

/-- The words of an interrupt action decode to no command of the foreground. -/
theorem handler_refused {s : State} {op : Op} {w : Word} {rest : List Word} {i : Instr} (ready : Ready s)
    (hs : s.stream = w :: rest) (hop : opField w = opCode op) (hi : i.isAction = true)
    (reads : decodeOp s.cfg op w rest = (takeZero (aField w == 0 && bField w == 0)).map fun _ => (i, rest)) :
    ∃ r, step s = .refused r := by
  rw [← decode_opcode hop, ← hs] at reads
  cases zero : aField w == 0 && bField w == 0 with
  | false => exact ⟨.reservedField, step_refused ready (by rw [reads, zero]; rfl) rfl⟩
  | true =>
    refine ⟨.illegalOpcode, ?_⟩
    rw [step_ready ready, fetchStep, reads, zero]
    exact if_pos hi

/-- Settles O4: an unlisted OP byte has no opcode, and a handler's words are no command of the foreground. -/
theorem illegalOpcodesAreRefused : Obligations.IllegalOpcodesAreRefused := by
  intro s w rest ready hs
  constructor
  · intro unlisted
    exact step_refused ready (by rw [hs, decode, opOf_none unlisted]) rfl
  · rintro (rx | tx)
    · exact handler_refused (op := .rxHandler) (i := .uartRxHandler) ready hs rx rfl rfl
    · exact handler_refused (op := .txHandler) (i := .uartTxHandler) ready hs tx rfl rfl

/-! ### Reserved fields, padding and operands that are refused (R98, R106; 60_exceptions R265) -/

theorem ok_bind {α β : Type} (a : α) (f : α → Except DecodeError β) : Except.ok a >>= f = f a := rfl

theorem error_bind {α β : Type} (e : DecodeError) (f : α → Except DecodeError β) :
    Except.error e >>= f = .error e := rfl

theorem takeBit_reserved {a : Byte} (h : a >>> 1 ≠ 0) : takeBit a = .error .reservedField := by
  have zero : a ≠ 0 := by rintro rfl; exact h rfl
  have one : a ≠ 1 := by rintro rfl; exact h rfl
  rw [takeBit, if_neg zero, if_neg one]

theorem takeZero_nonzero {w : Nat} {b : BitVec w} (h : b ≠ 0) : takeZero (b == 0) = .error .reservedField := by
  rw [beq_false_of_ne h]; rfl

theorem takeZero_zero {w : Nat} {b : BitVec w} (h : b = 0) : takeZero (b == 0) = .ok () := by
  rw [h, beq_self_eq_true]; rfl

/-- A command that uses neither field A nor field B. -/
theorem takeZero_fields {a : Byte} {b : BitVec 16} (h : a ≠ 0 ∨ b ≠ 0) :
    takeZero (a == 0 && b == 0) = .error .reservedField := by
  rcases h with ha | hb
  · rw [beq_false_of_ne ha]; rfl
  · rw [beq_false_of_ne hb, Bool.and_false]; rfl

theorem takeZero_address {h : Word} (b : h.getLsbD 0 = true) :
    takeZero (isWireAddress (bLow h)) = .error .reservedField := by
  rw [isWireAddress_bLow, b]; rfl

theorem takeZero_wireAddress {h : Word} (b : h.getLsbD 0 = false) : takeZero (isWireAddress (bLow h)) = .ok () := by
  rw [isWireAddress_bLow, b]; rfl

/-- A whole payload with a nonzero byte after its last one (R103, R106). -/
theorem takePayload_padding {n : Nat} {ws : List Word} (whole : payloadWords n ≤ ws.length)
    (padding : ∃ b ∈ ((ws.take (payloadWords n)).flatMap bytesOfWord).drop n, b ≠ 0) :
    takePayload n ws = .error .payloadPadding := by
  obtain ⟨b, mem, nonzero⟩ := padding
  rw [takePayload, if_neg whole.not_gt, if_neg fun zeros => nonzero (beq_iff_eq.mp (List.all_eq_true.mp zeros b mem))]

/-- A step on words that each of the opcodes `ops` finds a reserved field in. -/
theorem step_reserved {s : State} {w : Word} {rest : List Word} (ready : Ready s) (hs : s.stream = w :: rest)
    (ops : List Op) (mem : opField w ∈ ops.map opCode)
    (h : ∀ op ∈ ops, decodeOp s.cfg op w rest = .error .reservedField) : step s = .refused .reservedField := by
  obtain ⟨op, hop, code⟩ := List.mem_map.mp mem
  exact step_refused ready (by rw [hs, decode_opcode code.symm, h op hop]) rfl

/-- A step on words that an opcode finds nonzero padding in. -/
theorem step_padding {s : State} {op : Op} {w : Word} {rest : List Word} (ready : Ready s) (hs : s.stream = w :: rest)
    (hop : opField w = opCode op) (h : decodeOp s.cfg op w rest = .error .payloadPadding) :
    step s = .refused .payloadPadding :=
  step_refused ready (by rw [hs, decode_opcode hop, h]) rfl

/-- R106: each reserved field is looked at before what could be refused otherwise. -/
theorem reservedField_refused {s : State} {w : Word} {rest : List Word} (ready : Ready s) (hs : s.stream = w :: rest)
    (reserved : (opField w ∈ ([0x01, 0x02, 0x04] : List Byte) ∧ aField w >>> 1 ≠ 0) ∨
        (opField w ∈ ([0x03, 0x06] : List Byte) ∧ aField w ≠ 0) ∨
        (opField w = 0x10 ∧ bField w >>> 7 ≠ 0) ∨
        (opField w ∈ ([0x11, 0x12] : List Byte) ∧ w.getLsbD 0 = true) ∨
        (opField w = 0x12 ∧ ∃ w1 tail, rest = w1 :: tail ∧ w1 >>> 8 ≠ 0) ∨
        (opField w = 0x20 ∧ bField w >>> 2 ≠ 0) ∨
        (opField w = 0x22 ∧ bField w &&& 0x00FE ≠ 0) ∨
        (opField w ∈ ([0x30, 0x31, 0x40, 0x50, 0x51] : List Byte) ∧ (aField w ≠ 0 ∨ bField w ≠ 0))) :
    step s = .refused .reservedField := by
  rcases reserved with ⟨op, a⟩ | ⟨op, a⟩ | ⟨op, b⟩ | ⟨op, bit⟩ | ⟨op, w1, tail, rfl, high⟩ | ⟨op, b⟩ | ⟨op, b⟩ |
    ⟨op, ab⟩
  · refine step_reserved ready hs [.setup, .write, .reset] op fun o mem => ?_
    fin_cases mem <;> simp only [decodeOp, takeBit_reserved a, error_bind]
  · refine step_reserved ready hs [.toggle, .inputRead] op fun o mem => ?_
    fin_cases mem <;> simp only [decodeOp, takeZero_nonzero a, error_bind]
  · rw [Ne, ushiftRight_zero_iff _ (k := 7) rfl] at b
    refine step_reserved ready hs [.i2cSetup] (List.mem_singleton.mpr op) fun o mem => ?_
    fin_cases mem; simp only [decodeOp, takeZero_nonzero b, error_bind]
  · refine step_reserved ready hs [.i2cWrite, .i2cRead] op fun o mem => ?_
    fin_cases mem <;> simp only [decodeOp, takeZero_address bit, error_bind]
  · rw [Ne, ushiftRight_zero_iff _ (k := 8) rfl] at high
    refine step_reserved ready hs [.i2cRead] (List.mem_singleton.mpr op) fun o mem => ?_
    fin_cases mem
    cases bit : w.getLsbD 0 with
    | true => simp only [decodeOp, takeZero_address bit, error_bind]
    | false =>
      simp only [decodeOp, takeZero_wireAddress bit, takeWord, ok_bind, takeZero_nonzero high, error_bind]
  · rw [Ne, ushiftRight_zero_iff _ (k := 2) rfl] at b
    refine step_reserved ready hs [.spiSetup] (List.mem_singleton.mpr op) fun o mem => ?_
    fin_cases mem; simp only [decodeOp, takeZero_nonzero b, error_bind]
  · rw [Ne, and_reserved_zero_iff] at b
    refine step_reserved ready hs [.spiTransfer] (List.mem_singleton.mpr op) fun o mem => ?_
    fin_cases mem; simp only [decodeOp, takeZero_nonzero b, error_bind]
  · refine step_reserved ready hs [.uartInit, .uartTxKick, .clockBringup, .regRead, .regWrite] op fun o mem => ?_
    fin_cases mem <;> simp only [decodeOp, takeZero_fields ab, error_bind]

/-- R103, R106: nonzero padding of a whole payload whose command has its reserved fields 0. -/
theorem payloadPadding_refused {s : State} {w : Word} {rest payload : List Word} (ready : Ready s)
    (hs : s.stream = w :: rest)
    (command : (opField w = 0x11 ∧ w.getLsbD 0 = false ∧ payload = rest) ∨
        (opField w = 0x12 ∧ w.getLsbD 0 = false ∧ ∃ w1, rest = w1 :: payload ∧ w1 >>> 8 = 0) ∨
        (opField w = 0x22 ∧ bField w &&& 0x00FE = 0 ∧ payload = rest))
    (whole : payloadWords (bHigh w).toNat ≤ payload.length)
    (padding : ∃ b ∈ ((payload.take (payloadWords (bHigh w).toNat)).flatMap bytesOfWord).drop (bHigh w).toNat, b ≠ 0) :
    step s = .refused .payloadPadding := by
  have refuses := takePayload_padding whole padding
  rcases command with ⟨op, bit, rfl⟩ | ⟨op, bit, w1, rfl, high⟩ | ⟨op, flags, rfl⟩
  · refine step_padding (op := .i2cWrite) ready hs op ?_
    simp only [decodeOp, takeZero_wireAddress bit, ok_bind, refuses, error_bind]
  · rw [ushiftRight_zero_iff _ (k := 8) rfl] at high
    refine step_padding (op := .i2cRead) ready hs op ?_
    simp only [decodeOp, takeZero_wireAddress bit, takeWord, takeZero_zero high, ok_bind, refuses, error_bind]
  · rw [and_reserved_zero_iff] at flags
    refine step_padding (op := .spiTransfer) ready hs op ?_
    simp only [decodeOp, takeZero_zero flags, ok_bind, refuses, error_bind]

/-- The control words of R98 for the divisors of a configuration. -/
theorem isSpiCtrl_iff {cfg : Config} {ctrl : BitVec 16} :
    isSpiCtrl cfg ctrl = true ↔ ∃ mode ∈ spiModes, ∃ div ∈ spiDivisors,
      cfg.spiDivMin ≤ div ∧ div ≤ cfg.spiDivMax ∧ ctrl.setWidth 32 = spiCtrl mode div := by
  simp only [isSpiCtrl, isDivisor, List.any_eq_true, Bool.and_eq_true, decide_eq_true_eq, beq_iff_eq]
  constructor
  · rintro ⟨mode, hm, div, hd, ⟨-, least, greatest⟩, word⟩
    exact ⟨mode, hm, div, hd, least, greatest, word⟩
  · rintro ⟨mode, hm, div, hd, least, greatest, word⟩
    exact ⟨mode, hm, div, hd, ⟨hd, least, greatest⟩, word⟩

/-- Settles O5: the decoder refuses the reserved bits that it meets, `exec` the operands. -/
theorem reservedFieldsAreRefused : Obligations.ReservedFieldsAreRefused := by
  refine ⟨fun s w rest ready hs => ⟨reservedField_refused ready hs, fun payload => payloadPadding_refused ready hs⟩,
    fun s bus ctrl unproducible => if_neg fun producible => ?_, fun _ _ _ _ => rfl⟩
  obtain ⟨mode, hm, div, hd, least, greatest, word⟩ := isSpiCtrl_iff.mp producible
  exact unproducible mode hm div hd least greatest word

/-! ### Identifiers (R90 to R93) -/

/-- The identifier of a pin of the configuration leads back to it (R90, R92). -/
theorem pinOfId_eq {cfg : Config} {pin : Pin} {id : Nat} (bit : pin.bit.val < cfg.nBits)
    (h : id = cfg.nBits * pin.port.val + pin.bit.val) : pinOfId cfg id = pin := by
  have quotient : id / cfg.nBits = pin.port.val := by
    rw [h, Nat.mul_add_div (by omega), Nat.div_eq_of_lt bit, Nat.add_zero]
  have remainder : id % cfg.nBits = pin.bit.val := by rw [h, Nat.mul_add_mod, Nat.mod_eq_of_lt bit]
  simp only [pinOfId, quotient, remainder, Nat.mod_eq_of_lt pin.port.isLt, Nat.mod_eq_of_lt pin.bit.isLt]

/-- The pins of the configuration have the identifiers below `N_PHYS`. -/
theorem pin_lt_nPhys {cfg : Config} {pin : Pin} (port : pin.port.val < cfg.nPorts) (bit : pin.bit.val < cfg.nBits) :
    cfg.nBits * pin.port.val + pin.bit.val < cfg.nPhys :=
  calc cfg.nBits * pin.port.val + pin.bit.val < cfg.nBits * pin.port.val + cfg.nBits := Nat.add_lt_add_left bit _
    _ = cfg.nBits * (pin.port.val + 1) := (Nat.mul_succ ..).symm
    _ ≤ cfg.nBits * cfg.nPorts := Nat.mul_le_mul_left _ port
    _ = cfg.nPhys := Nat.mul_comm ..

theorem classify_physical {cfg : Config} {id : BitVec 16} (h : id.toNat < cfg.nPhys) :
    classify cfg id = if cfg.pinMapped.getLsbD id.toNat then .physical (pinOfId cfg id.toNat) else .invalid :=
  if_pos h

/-- The identifier of a channel's flag lies above the physical ones, and names that flag alone (R93). -/
theorem classify_virtual {cfg : Config} {id : BitVec 16} {c : Fin 4} {role : Role} (shape : Shape cfg)
    (hc : c.val < cfg.nChannels) (h : id = virtualId cfg c role) : classify cfg id = .virtual c role := by
  have base := shape.base
  have above : ¬id.toNat < cfg.nPhys := by rw [h, virtualId_toNat hc shape.top]; omega
  rw [classify, if_neg above, h, virtualOf_virtualId hc shape.top]

theorem classify_invalid {cfg : Config} {id : BitVec 16} (above : cfg.nPhys ≤ id.toNat)
    (h : isVirtualId cfg id = false) : classify cfg id = .invalid := by
  rw [classify, if_neg above.not_gt, virtualOf_none h]

/-- Settles O20: one clause for each branch of `Classify`. -/
theorem identifiersAreClassified : Obligations.IdentifiersAreClassified := by
  refine ⟨fun cfg id ok => ?_, rfl, rfl, rfl, rfl⟩
  have shape := configOk_shape ok
  have base := shape.base
  refine ⟨fun pin port bit hid => ?_, fun c hc hid => ?_, fun c hc hid => ?_, fun outside => ?_⟩
  · rw [classify_physical (hid ▸ pin_lt_nPhys port bit), pinOfId_eq bit hid]
  · have drive := virtualId_toNat (role := .drive) hc shape.top
    exact classify_virtual shape hc (BitVec.eq_of_toNat_eq (hid.trans drive.symm))
  · have direction := virtualId_toNat (role := .direction) hc shape.top
    exact classify_virtual shape hc (BitVec.eq_of_toNat_eq (hid.trans direction.symm))
  · rcases outside with ⟨above, below⟩ | beyond
    · exact classify_invalid above (decide_eq_false fun inside => below.not_ge inside.1)
    · have above : cfg.nPhys ≤ id.toNat := by omega
      exact classify_invalid above (decide_eq_false fun inside => beyond.not_gt inside.2)

/-! ### The SPI control word (R98, R99, R112) -/

theorem brCode_twoPow (k : Fin 7) : brCode (2 ^ (k.val + 1)) = BitVec.ofNat 3 k.val := by
  rw [brCode, Nat.log2_two_pow, Nat.add_sub_cancel]

/-- Settles O36: the divisor enters as its `BR` code alone. -/
theorem controlWordFields : Obligations.ControlWordFields := by
  intro mode k
  rw [spiCtrl, brCode_twoPow]
  revert mode k
  decide

end Sys2Proof.Machine

/-!
PROOFS. The GPIO commands (40_gpio R130, R135 to R140): resolve the pin or halt, run the pin's steps, respond.
-/
namespace Sys2Proof.Machine

/-! ### Resolving the pin (R130) -/

/-- A halt before any effect: the boundary, then the event and the halted state (60_exceptions R260, R262). -/
theorem haltCommand_haltedBy (s : State) (code : HaltCode) : HaltedBy code s (haltCommand s code) :=
  ⟨boundary s, boundary_same s, boundary_only s, rfl⟩

theorem withPhysical_physical {s : State} {id : BitVec 16} {pin : Pin} (h : classify s.cfg id = .physical pin)
    (body : Pin → List Action) : withPhysical id s body = runActs (body pin) s := by
  rw [withPhysical, h]

theorem withPhysical_halts {s : State} {id : BitVec 16} (h : ∀ pin, classify s.cfg id ≠ .physical pin)
    (body : Pin → List Action) : withPhysical id s body = haltCommand s .invalidPin := by
  unfold withPhysical
  cases hp : classify s.cfg id with
  | physical pin => exact absurd hp (h pin)
  | virtual c role => rfl
  | invalid => rfl

/-- A pin command halts on an identifier that names no physical pin. -/
theorem pinCommand_halts {s : State} {i : Instr} {id : BitVec 16} {body : Pin → List Action}
    (meaning : exec i s = .next (withPhysical id s body)) (h : ∀ pin, classify s.cfg id ≠ .physical pin) :
    ∃ t, exec i s = .next t ∧ HaltedBy .invalidPin s t :=
  ⟨_, meaning, by rw [withPhysical_halts h]; exact haltCommand_haltedBy s _⟩

/-- A pin command does what its actions do on the resolved pin, and halts on every other identifier. -/
theorem pinCommand_spec {s : State} {i : Instr} {id : BitVec 16} {body : Pin → List Action}
    {Effect : Pin → State → Prop} (meaning : exec i s = .next (withPhysical id s body))
    (effect : ∀ pin, Effect pin (runActs (body pin) s)) :
    (∀ pin, classify s.cfg id = .physical pin → ∃ t, exec i s = .next t ∧ Effect pin t) ∧
      ((∀ pin, classify s.cfg id ≠ .physical pin) → ∃ t, exec i s = .next t ∧ HaltedBy .invalidPin s t) := by
  refine ⟨fun pin h => ⟨_, meaning, ?_⟩, pinCommand_halts meaning⟩
  rw [withPhysical_physical h]
  exact effect pin

/-! ### What a pin shows -/

/-- The line follows from the mode and the latch alone (10_state R35). -/
theorem pinLine_eq {t : State} {pin : Pin} {nib : BitVec 4} {level : Bool} (mode : nibble t pin = nib)
    (bit : latch t pin = level) : pinLine t pin = pinLineOf (pinModeOf nib) level := by
  rw [pinLine, mode, bit]

/-- A latch bit that a gated port takes and an ungated one keeps (10_state R57). -/
theorem latch_gated {s t : State} {pin : Pin} {level : Bool} (gated : portClocked s pin = true → latch t pin = level)
    (ungated : portClocked s pin = false → t.gpio = s.gpio) :
    latch t pin = if portClocked s pin then level else latch s pin := by
  cases hg : portClocked s pin with
  | true => exact gated hg
  | false => exact latch_congr (ungated hg) pin

/-- A nibble that a gated port takes and an ungated one keeps (10_state R57). -/
theorem nibble_gated {s t : State} {pin : Pin} {nib : BitVec 4} (gated : portClocked s pin = true → nibble t pin = nib)
    (ungated : portClocked s pin = false → t.gpio = s.gpio) :
    nibble t pin = if portClocked s pin then nib else nibble s pin := by
  cases hg : portClocked s pin with
  | true => exact gated hg
  | false => exact nibble_congr (ungated hg) pin

/-! ### The level of a pin behind a boundary -/

/-- `DriveLevel` as an action of a command, with the boundary before it (R133). -/
theorem runDriveLevel_spec (s : State) (pin : Pin) (v : Bool) :
    PinStepOn [pin] [] s (runActs [driveLevel pin v] s) ∧
      (runActs [driveLevel pin v] s).rcc.apb2pcenr = s.rcc.apb2pcenr ∧
      (portClocked s pin = true → latch (runActs [driveLevel pin v] s) pin = v) ∧
      (portClocked s pin = false → (runActs [driveLevel pin v] s).gpio = s.gpio) := by
  obtain ⟨step, gates, gated, ungated⟩ := driveLevel_spec (boundary s) pin v
  have clock : portClocked (boundary s) pin = portClocked s pin := portClocked_congr (by simp) pin
  rw [clock] at gated ungated
  exact ⟨(pinStepOn_boundary s).trans step, gates.trans (congrArg Rcc.apb2pcenr (boundary_rcc s)), gated,
    fun h => (congrArg State.gpio (ungated h)).trans (boundary_gpio s)⟩

/-! ### The toggle (R137) -/

theorem lowHalf_getLsbD (n : Nat) : BitVec.getLsbD (0x0000FFFF : Word) n = decide (n < 16) := by
  have all : ∀ n : Fin 32, BitVec.getLsbD (0x0000FFFF : Word) n.val = decide (n.val < 16) := by decide
  by_cases hn : n < 32
  · exact all ⟨n, hn⟩
  · rw [BitVec.getLsbD_of_ge _ _ (by omega), decide_eq_false (by omega)]

/-- A latch whose reserved bits are 0, inverted at a pin: the pin's bit alone changes. -/
theorem flipLatch_bit {w : Word} (reserved : w &&& ~~~0x0000FFFF = 0) (pin : Pin) (n : Nat) :
    ((w ^^^ pinMask pin) &&& 0x0000FFFF).getLsbD n = (w.getLsbD n ^^ decide (n = pin.bit.val)) := by
  by_cases low : n < 16
  · rw [BitVec.getLsbD_and, BitVec.getLsbD_xor, pinMask_bit pin (by omega), lowHalf_getLsbD, decide_eq_true low,
      Bool.and_true]
  · have clear : w.getLsbD n = false := by
      by_cases hn : n < 32
      · have bit := congrArg (fun x => x.getLsbD n) reserved
        rw [BitVec.getLsbD_and, BitVec.getLsbD_not, lowHalf_getLsbD] at bit
        simpa [hn, low] using bit
      · exact BitVec.getLsbD_of_ge _ _ (by omega)
    have apart : n ≠ pin.bit.val := by omega
    rw [BitVec.getLsbD_and, lowHalf_getLsbD, decide_eq_false low, Bool.and_false, clear, decide_eq_false apart]
    rfl

/-- A write of a port's latch with a pin's bit inverted changes that latch bit alone. -/
theorem storeFlipped_spec (s : State) (pin : Pin) (reserved : s.gpio[pin.port].outdr &&& ~~~0x0000FFFF = 0) :
    let t := storeReg s (.gpio pin.port .outdr) (s.gpio[pin.port].outdr ^^^ pinMask pin)
    PinStepOn [pin] [] s t ∧ latch t pin = !latch s pin := by
  intro t
  have port : ∀ p : Fin 5, t.gpio[p] =
      if pin.port = p then
        { s.gpio[pin.port] with outdr := (s.gpio[pin.port].outdr ^^^ pinMask pin) &&& 0x0000FFFF }
      else s.gpio[p] := fun p => vector_getSet ..
  refine ⟨⟨pinStep_gpio _ _, fun p n other => ?_, fun p n => ?_⟩, ?_⟩
  · rw [port]
    split
    next here =>
      subst here
      have apart : n ≠ pin.bit.val := fun e => other pin (List.mem_singleton_self _) ⟨rfl, e⟩
      rw [flipLatch_bit reserved, decide_eq_false apart, Bool.xor_false]
    next => rfl
  · rw [port]
    split
    next here => subst here; exact ⟨fun _ => rfl, fun _ => rfl⟩
    next => exact ⟨fun _ => rfl, fun _ => rfl⟩
  · rw [latch, port, if_pos rfl, flipLatch_bit reserved, decide_eq_true rfl, Bool.xor_true, latch]

/-- The read-modify-write of a latch bit (R137), without its critical span. -/
def invertLatch (pin : Pin) : List Action :=
  [.read (.gpio pin.port .outdr), .write (.gpio pin.port .outdr) (.flip (pinMask pin))]

theorem gpioToggleActs_eq (pin : Pin) : gpioToggleActs pin = critical (invertLatch pin) ++ [.respond 0] := rfl

/-- The latch bit is inverted on a clocked port alone. -/
theorem invertLatch_spec (s : State) (pin : Pin) (reserved : s.gpio[pin.port].outdr &&& ~~~0x0000FFFF = 0) :
    let t := runActs (invertLatch pin) s
    PinStepOn [pin] [] s t ∧ t.rcc.apb2pcenr = s.rcc.apb2pcenr ∧
      (portClocked s pin = true → latch t pin = !latch s pin) ∧ (portClocked s pin = false → t.gpio = s.gpio) := by
  intro t
  let r : Reg := .gpio pin.port .outdr
  let u := boundary (act (boundary s) (.read r))
  have reached : PinStepOn [] [] s u :=
    ((pinStepOn_boundary s).trans (pinStepOn_read (boundary s) r)).trans (pinStepOn_boundary _)
  have ports : u.gpio = s.gpio := (boundary_gpio _).trans ((readNext_gpio (boundary s) r).trans (boundary_gpio s))
  have gates : u.rcc = s.rcc := (boundary_rcc _).trans ((readNext_rcc (boundary s) r).trans (boundary_rcc s))
  have clock : clocked u r = portClocked s pin := clocked_congr gates r
  have written : t = writeReg u r (u.acc ^^^ pinMask pin) := rfl
  cases hg : portClocked s pin with
  | false =>
    have kept : t = u := written.trans (writeReg_unclocked (clock.trans hg) _)
    rw [kept]
    exact ⟨reached.mono (by simp) (by simp), congrArg Rcc.apb2pcenr gates, by simp, fun _ => ports⟩
  | true =>
    have read : u.acc = u.gpio[pin.port].outdr := by
      have gateOpen : clocked (boundary s) r = true := (clocked_boundary s r).trans hg
      calc u.acc = readValue (boundary s) r := boundary_acc _
        _ = (boundary s).gpio[pin.port].outdr := readValue_calm gateOpen rfl
        _ = u.gpio[pin.port].outdr := by rw [boundary_gpio, ports]
    rw [writeReg_clocked (clock.trans hg), read] at written
    obtain ⟨step, flipped⟩ := storeFlipped_spec u pin (by rw [ports]; exact reserved)
    rw [← written] at step flipped
    have frame := reached.trans step
    refine ⟨frame, ?_, fun _ => flipped.trans ?_, by simp⟩
    · rw [written]; exact congrArg Rcc.apb2pcenr gates
    · rw [latch_congr ports]

/-- The critical span of `GPIO_TOGGLE`. -/
theorem invertLatchSpan_spec (s : State) (pin : Pin) (hc : s.inCritical = false) (masked : RegistersMasked s) :
    let t := runActs (critical (invertLatch pin)) s
    PinStepOn [pin] [] s t ∧ t.rcc.apb2pcenr = s.rcc.apb2pcenr ∧
      (portClocked s pin = true → latch t pin = !latch s pin) ∧ (portClocked s pin = false → t.gpio = s.gpio) := by
  intro t
  let inside : State := { boundary s with inCritical := true }
  have ports : inside.gpio = s.gpio := boundary_gpio s
  have reserved : inside.gpio[pin.port].outdr &&& ~~~0x0000FFFF = 0 := by
    rw [ports]; exact masked (.gpio pin.port .outdr)
  obtain ⟨body, bodyGates, gated, ungated⟩ := invertLatch_spec inside pin reserved
  obtain ⟨span, spanPorts, spanRcc⟩ := critical_spec _ s [pin] [] hc body
  have clock : portClocked inside pin = portClocked s pin := portClocked_congr (by simp [inside]) pin
  rw [clock] at gated ungated
  refine ⟨span, ?_, fun h => ?_, fun h => ?_⟩
  · exact (congrArg Rcc.apb2pcenr spanRcc).trans (bodyGates.trans (congrArg Rcc.apb2pcenr (boundary_rcc s)))
  · rw [latch_congr spanPorts, gated h, latch_congr ports]
  · exact spanPorts.trans ((ungated h).trans ports)

/-! ### The input modes (R139) -/

/-- A level and then, in a span of its own, a mode, on a clocked port. -/
theorem levelThenCfgWrite_spec (s : State) (pin : Pin) (v : Bool) (nib : BitVec 4) (hc : s.inCritical = false)
    (gateOpen : portClocked s pin = true) :
    let t := runActs (driveLevel pin v :: cfgWrite pin nib) s
    PinStepOn [pin] [pin] s t ∧ t.rcc.apb2pcenr = s.rcc.apb2pcenr ∧ nibble t pin = nib ∧ latch t pin = v := by
  intro t
  let u := runActs [driveLevel pin v] s
  obtain ⟨level, levelGates, levelSet, -⟩ := runDriveLevel_spec s pin v
  obtain ⟨mode, modeGates, modeSet, -⟩ := cfgWrite_spec u pin nib (level.1.inCritical.trans hc)
  have still : portClocked u pin = true := (portClocked_congr levelGates pin).trans gateOpen
  refine ⟨(level.trans mode).mono (by simp) (by simp), modeGates.trans levelGates, modeSet still, ?_⟩
  exact (latch_kept mode.2.1 (by simp)).trans (levelSet gateOpen)

/-- The body of `GPIO_INPUT_SETUP` (R139) without its response. -/
def inputSetup (pull : Byte) (pin : Pin) : List Action :=
  enablePortGate pin.port ++
    (if pull = 0 then cfgWrite pin nibInFloat
      else driveLevel pin (decide (0 < pull.toInt)) :: cfgWrite pin nibInPull)

theorem gpioInputSetupActs_eq (id : BitVec 16) (pull : Byte) (pin : Pin) :
    gpioInputSetupActs id pull pin = inputSetup pull pin ++ [.respond (idWord id)] := rfl

/-- The gate is opened, the mode selected and, for a pull, the latch set to its direction. -/
theorem inputSetup_spec (s : State) (pin : Pin) (pull : Byte) (hc : s.inCritical = false) :
    let t := runActs (inputSetup pull pin) s
    PinStepOn [pin] [pin] s t ∧ t.rcc.apb2pcenr = s.rcc.apb2pcenr ||| 1#32 <<< (2 + pin.port.val) ∧
      (pull = 0 → nibble t pin = nibInFloat ∧ latch t pin = latch s pin) ∧
      (pull ≠ 0 → nibble t pin = nibInPull ∧ latch t pin = decide (0 < pull.toInt)) := by
  rw [inputSetup, runActs_append]
  obtain ⟨gate, opened⟩ := enablePortGate_spec s pin.port
  generalize runActs (enablePortGate pin.port) s = u at gate opened
  have gateOpen := portClocked_opened opened
  have hu : u.inCritical = false := gate.1.inCritical.trans hc
  split
  next zero =>
    obtain ⟨mode, modeGates, modeSet, -⟩ := cfgWrite_spec u pin nibInFloat hu
    have kept : latch _ pin = latch s pin := (latch_kept mode.2.1 (by simp)).trans (latch_kept gate.2.1 (by simp))
    exact ⟨(gate.trans mode).mono (by simp) (by simp), modeGates.trans opened, fun _ => ⟨modeSet gateOpen, kept⟩,
      fun nonzero => absurd zero nonzero⟩
  next nonzero =>
    obtain ⟨both, bothGates, set⟩ := levelThenCfgWrite_spec u pin (decide (0 < pull.toInt)) nibInPull hu gateOpen
    exact ⟨(gate.trans both).mono (by simp) (by simp), bothGates.trans opened, fun zero => absurd zero nonzero,
      fun _ => set⟩

/-! ### The input read (R140) -/

/-- A read of `INDR` shows the pin's bit of the draw, whether the port is gated or not (10_state R34, R57). -/
theorem readValue_indr_bit (s : State) (pin : Pin) :
    (readValue s (.gpio pin.port .indr)).getLsbD pin.bit.val =
      (BitVec.ofNat 32 (drawValue s)).getLsbD pin.bit.val := by
  unfold readValue
  split
  · have gated : ∀ d : Word, (0#32 ||| (d &&& 0x0000FFFF)).getLsbD pin.bit.val = d.getLsbD pin.bit.val := fun d => by
      rw [BitVec.zero_or, BitVec.getLsbD_and, lowHalf_bit, Bool.and_true]
    exact gated _
  · rfl

/-- A response of a bit of the read register. -/
theorem runActs_respondBit (n : Fin 16) (u : State) :
    runActs [.respondBit n] u = runActs [.respond (if u.acc.getLsbD n.val then 1 else 0)] u := by
  rw [← boundary_acc u]; rfl

/-! ### The obligations -/

/-- Settles O14: the body of the setup, then a response that keeps the pins. -/
theorem gpioSetupConfiguresTheOutput : Obligations.GpioSetupConfiguresTheOutput := by
  intro s id v hc
  refine pinCommand_spec rfl fun pin => ?_
  obtain ⟨body, gates, level, mode⟩ := setupPin_spec s pin v hc
  rw [runActs_append]
  obtain ⟨frame, responded, latches, nibbles, ports, rcc⟩ := respond_spec s _ (idWord id) _ _ body
  have level' := (latch_congr ports pin).trans level
  have mode' := (nibble_congr ports pin).trans mode
  exact ⟨(congrArg Rcc.apb2pcenr rcc).trans gates, level', mode', pinLine_eq mode' level', latches, nibbles, responded,
    frame⟩

/-- Settles O15: the one write of `BSHR` or `BCR`, then the response. -/
theorem gpioWriteDrivesTheLatch : Obligations.GpioWriteDrivesTheLatch := by
  intro s id v
  refine pinCommand_spec rfl fun pin => ?_
  obtain ⟨body, gates, gated, ungated⟩ := runDriveLevel_spec s pin v
  obtain ⟨frame, responded, latches, nibbles, ports, rcc⟩ := respond_spec s _ 0 _ _ body
  exact ⟨(latch_congr ports pin).trans (latch_gated gated ungated), latches, nibbles,
    rcc.trans (body.1.rcc gates), responded, frame⟩

/-- Settles O16: with the reserved bits 0, the latch written back differs in the pin's bit alone. -/
theorem gpioToggleInvertsTheLatch : Obligations.GpioToggleInvertsTheLatch := by
  intro s id hc masked
  refine pinCommand_spec rfl fun pin => ?_
  obtain ⟨body, gates, gated, ungated⟩ := invertLatchSpan_spec s pin hc masked
  rw [gpioToggleActs_eq, runActs_append]
  obtain ⟨frame, responded, latches, nibbles, ports, rcc⟩ := respond_spec s _ 0 _ _ body
  exact ⟨(latch_congr ports pin).trans (latch_gated gated ungated), latches, nibbles,
    rcc.trans (body.1.rcc gates), responded, frame⟩

/-- Settles O17: the level and the mode in one critical span, without the gate. -/
theorem gpioResetReappliesTheOutput : Obligations.GpioResetReappliesTheOutput := by
  intro s id v hc
  refine pinCommand_spec rfl fun pin => ?_
  obtain ⟨body, gates, gated, ungated⟩ := levelAndModeSpan_spec s pin v nibOutPp50 hc
  rw [gpioResetActs, runActs_append]
  obtain ⟨frame, responded, latches, nibbles, ports, rcc⟩ := respond_spec s _ 0 _ _ body
  exact ⟨(latch_congr ports pin).trans (latch_gated (fun h => (gated h).1) ungated),
    (nibble_congr ports pin).trans (nibble_gated (fun h => (gated h).2) ungated), latches, nibbles,
    rcc.trans (body.1.rcc gates), responded, frame⟩

/-- Settles O18: a pull of 0 selects the mode alone, any other also the latch by its sign. -/
theorem gpioInputSetupSelectsThePull : Obligations.GpioInputSetupSelectsThePull := by
  intro s id pull hc
  refine pinCommand_spec rfl fun pin => ?_
  obtain ⟨body, gates, floats, pulls⟩ := inputSetup_spec s pin pull hc
  rw [gpioInputSetupActs_eq, runActs_append]
  obtain ⟨frame, responded, latches, nibbles, ports, rcc⟩ := respond_spec s _ (idWord id) _ _ body
  rw [← nibble_congr ports pin, ← latch_congr ports pin] at floats pulls
  refine ⟨(congrArg Rcc.apb2pcenr rcc).trans gates, fun zero => ?_, fun up => ?_, fun down => ?_, latches, nibbles,
    responded, frame⟩
  · obtain ⟨mode, level⟩ := floats (BitVec.toInt_inj.mp zero)
    exact ⟨mode, level, pinLine_eq mode level⟩
  · obtain ⟨mode, level⟩ := pulls fun zero => by simp [zero] at up
    have high := level.trans (decide_eq_true up)
    exact ⟨mode, high, pinLine_eq mode high⟩
  · obtain ⟨mode, level⟩ := pulls fun zero => by simp [zero] at down
    have low := level.trans (decide_eq_false down.not_gt)
    exact ⟨mode, low, pinLine_eq mode low⟩

/-- Settles O19: the read takes the draw, and the response reports its bit. -/
theorem gpioInputReadReturnsTheDrawnLevel : Obligations.GpioInputReadReturnsTheDrawnLevel := by
  intro s id
  refine ⟨fun pin physical => ?_, pinCommand_halts rfl⟩
  let r : Reg := .gpio pin.port .indr
  let u := act (boundary s) (.read r)
  let b := u.acc.getLsbD pin.bit.val
  have body : PinStepOn [] [] s u := (pinStepOn_boundary s).trans (pinStepOn_read (boundary s) r)
  obtain ⟨frame, responded, -, -, ports, rcc⟩ := respond_spec s u (if b then 1 else 0) [] [] body
  have runs : exec (.gpioInputRead id) s = .next (runActs [.respond (if b then 1 else 0)] u) := by
    rw [← runActs_respondBit]
    exact congrArg Host.Outcome.next (withPhysical_physical physical gpioInputReadActs)
  refine ⟨_, b, runs, responded, ⟨frame, ?_, ?_⟩, fun quiet => ?_⟩
  · exact ports.trans ((readNext_gpio (boundary s) r).trans (boundary_gpio s))
  · exact rcc.trans ((readNext_rcc (boundary s) r).trans (boundary_rcc s))
  · show (readValue (boundary s) r).getLsbD pin.bit.val = _
    rw [boundary_quiet quiet, readValue_indr_bit]

end Sys2Proof.Machine

/-!
PROOFS. The motor commands (41_motor R150 to R159): the first reference configures the two lines, the span drives them,
the line at 0 first, and after no number of a command's actions are both asserted.
-/
namespace Sys2Proof.Machine

/-! ### The lines of a channel -/

/-- Owned pins are distinct (00_scope R7), so a channel's two lines are. -/
theorem hiPin_ne_loPin {cfg : Config} (h : configOk cfg = true) (c : Fin 4) : hiPin cfg c ≠ loPin cfg c := by
  obtain ⟨distinct, -⟩ := configOk_pins h
  have lines := (List.nodup_append'.mp (List.nodup_append'.mp distinct).1).2.2
  have hi : hiPin cfg c ∈ cfg.motorHi.toList := by simp [hiPin]
  have lo : loPin cfg c ∈ cfg.motorLo.toList := by simp [loPin]
  exact fun same => lines hi (same ▸ lo)

/-- The first line of the order goes to 0; only the second can go to 1 (R152, R154). -/
theorem lineOrder_cases (cfg : Config) (c : Fin 4) (m : Motor) :
    (lineOrder cfg c m = [(hiPin cfg c, false), (loPin cfg c, m.drive && m.dir)] ∧ (m.drive && !m.dir) = false) ∨
      (lineOrder cfg c m = [(loPin cfg c, false), (hiPin cfg c, m.drive && !m.dir)] ∧ (m.drive && m.dir) = false) := by
  rcases m with ⟨init, drive, dir⟩
  cases drive with
  | false => exact .inl ⟨rfl, rfl⟩
  | true =>
    cases dir with
    | false => exact .inr ⟨rfl, rfl⟩
    | true => exact .inl ⟨rfl, rfl⟩

/-- What the span of a motor command does to one line: its level, and in `MOTOR_RESET` its mode (R154, R158). -/
def lineActs : Bool → Pin × Bool → List Action
  | false, l => [driveLevel l.1 l.2]
  | true, l => driveLevel l.1 l.2 :: setNibble l.1 nibOutPp50

/-- The actions of a motor command, with or without the rewrite of the modes. -/
def motorSteps (remode : Bool) (s : State) (c : Fin 4) (m : Motor) (q : Word) : List Action :=
  lazyInit s c ++ [.setMotor c m] ++ critical ((lineOrder s.cfg c m).flatMap (lineActs remode)) ++ [.respond q]

theorem motorActs_eq (s : State) (c : Fin 4) (m : Motor) (q : Word) : motorActs s c m q = motorSteps false s c m q := by
  have levels := List.map_eq_flatMap (f := fun l : Pin × Bool => driveLevel l.1 l.2) (l := lineOrder s.cfg c m)
  rw [motorActs, applyLines, levels]
  rfl

theorem motorResetActs_eq (s : State) (c : Fin 4) (m : Motor) : motorResetActs s c m = motorSteps true s c m 0 := rfl

/-! ### The span -/

/-- A line driven to v, and remoded when asked, where its port is clocked; else it stays (10_state R57). -/
def LineDriven (remode : Bool) (s t : State) (pin : Pin) (v : Bool) : Prop :=
  latch t pin = (if portClocked s pin then v else latch s pin) ∧
    nibble t pin = (if remode && portClocked s pin then nibOutPp50 else nibble s pin)

/-- What is done to a line depends on the ports and the gates alone. -/
theorem LineDriven.congr {remode v : Bool} {s t s' t' : State} {pin : Pin} (h : LineDriven remode s t pin v)
    (clock : portClocked s' pin = portClocked s pin) (before : s'.gpio = s.gpio) (after : t'.gpio = t.gpio) :
    LineDriven remode s' t' pin v := by
  obtain ⟨level, mode⟩ := h
  unfold LineDriven
  rw [clock, latch_congr before, latch_congr after, nibble_congr before, nibble_congr after]
  exact ⟨level, mode⟩

/-- A driven line is left alone by steps on other pins. -/
theorem LineDriven.then_other {remode v : Bool} {s t u : State} {pin other : Pin} (h : LineDriven remode s t pin v)
    (apart : pin ≠ other) (step : PinStepOn [other] [other] t u) : LineDriven remode s u pin v := by
  obtain ⟨-, latches, nibbles⟩ := step
  obtain ⟨level, mode⟩ := h
  have outside : pin ∉ [other] := by simpa using apart
  exact ⟨(latch_kept latches outside).trans level, (nibble_kept nibbles outside).trans mode⟩

/-- Steps on other pins before a line is driven are no matter, if they change no gate. -/
theorem LineDriven.after_other {remode v : Bool} {s t u : State} {pin other : Pin} (h : LineDriven remode t u pin v)
    (apart : pin ≠ other) (step : PinStepOn [other] [other] s t) (gates : t.rcc.apb2pcenr = s.rcc.apb2pcenr) :
    LineDriven remode s u pin v := by
  obtain ⟨-, latches, nibbles⟩ := step
  have outside : pin ∉ [other] := by simpa using apart
  unfold LineDriven at h ⊢
  rwa [portClocked_congr gates, latch_kept latches outside, nibble_kept nibbles outside] at h

/-- One line's part of a span. -/
theorem lineActs_spec (remode : Bool) (s : State) (pin : Pin) (v : Bool) :
    let t := runActs (lineActs remode (pin, v)) s
    PinStepOn [pin] [pin] s t ∧ t.rcc.apb2pcenr = s.rcc.apb2pcenr ∧ LineDriven remode s t pin v := by
  cases remode with
  | false =>
    obtain ⟨step, gates, gated, ungated⟩ := runDriveLevel_spec s pin v
    exact ⟨step.mono (by simp) (by simp), gates, latch_gated gated ungated, nibble_kept step.2.2 (by simp)⟩
  | true =>
    obtain ⟨step, gates, gated, ungated⟩ := levelAndMode_spec s pin v nibOutPp50
    exact ⟨step, gates, latch_gated (fun h => (gated h).1) ungated, nibble_gated (fun h => (gated h).2) ungated⟩

/-- The critical span over two lines drives each to its level. -/
theorem lineSpan_spec (remode : Bool) (s : State) {p q : Pin} (apart : p ≠ q) (v w : Bool) (hc : s.inCritical = false) :
    let t := runActs (critical ([(p, v), (q, w)].flatMap (lineActs remode))) s
    PinStepOn [p, q] [p, q] s t ∧ t.rcc.apb2pcenr = s.rcc.apb2pcenr ∧ LineDriven remode s t p v ∧
      LineDriven remode s t q w := by
  intro t
  let inside : State := { boundary s with inCritical := true }
  let between := runActs (lineActs remode (p, v)) inside
  let last := runActs (lineActs remode (q, w)) between
  obtain ⟨first, firstGates, firstLine⟩ := lineActs_spec remode inside p v
  obtain ⟨second, secondGates, secondLine⟩ := lineActs_spec remode between q w
  have body : runActs ([(p, v), (q, w)].flatMap (lineActs remode)) inside = last := by
    rw [List.flatMap_cons, List.flatMap_cons, List.flatMap_nil, List.append_nil, runActs_append]
  have both : PinStepOn [p, q] [p, q] inside last := first.trans second
  obtain ⟨span, ports, rcc⟩ := critical_spec _ s [p, q] [p, q] hc (body ▸ both)
  rw [body] at ports rcc
  have gates : inside.rcc.apb2pcenr = s.rcc.apb2pcenr := congrArg Rcc.apb2pcenr (boundary_rcc s)
  have outside : ∀ {pin level}, LineDriven remode inside last pin level → LineDriven remode s t pin level :=
    fun driven => driven.congr (portClocked_congr gates _).symm (boundary_gpio s).symm ports
  refine ⟨span, ?_, outside (firstLine.then_other apart second),
    outside (secondLine.after_other apart.symm first firstGates)⟩
  rw [rcc, secondGates, firstGates, gates]

/-- `Apply(c)`, and the span of `MOTOR_RESET`: both lines follow the truth table (R152, R154, R158). -/
theorem motorSpan_spec (remode : Bool) (s : State) (c : Fin 4) (m : Motor) (ok : configOk s.cfg = true) (u : State)
    (hc : u.inCritical = false) :
    let t := runActs (critical ((lineOrder s.cfg c m).flatMap (lineActs remode))) u
    PinStepOn [hiPin s.cfg c, loPin s.cfg c] [hiPin s.cfg c, loPin s.cfg c] u t ∧
      t.rcc.apb2pcenr = u.rcc.apb2pcenr ∧ LineDriven remode u t (hiPin s.cfg c) (m.drive && !m.dir) ∧
      LineDriven remode u t (loPin s.cfg c) (m.drive && m.dir) := by
  have apart := hiPin_ne_loPin ok c
  rcases lineOrder_cases s.cfg c m with ⟨order, low⟩ | ⟨order, low⟩
  · rw [order, low]
    exact lineSpan_spec remode u apart _ _ hc
  · rw [order, low]
    obtain ⟨span, gates, lo, hi⟩ := lineSpan_spec remode u apart.symm false (m.drive && !m.dir) hc
    exact ⟨span.mono (by simp) (by simp), gates, hi, lo⟩

/-! ### The first reference (R153) -/

/-- A channel's new block state moves a pin step along (10_state R49). -/
theorem PinStepOn.setMotor {ls ns : List Pin} {s t : State} (h : PinStepOn ls ns s t) (c : Fin 4) (m : Motor) :
    PinStepOn ls ns (setMotor s c m) (runActs [.setMotor c m] t) := by
  have reached : PinStepOn ls ns s (boundary t) := (h.trans (pinStepOn_boundary t)).mono (by simp) (by simp)
  obtain ⟨⟨step, only⟩, latches, nibbles⟩ := reached
  refine ⟨⟨?_, only⟩, latches, nibbles⟩
  show Machine.setMotor (boundary t) c m = _
  rw [step]
  rfl

theorem setMotor_setMotor (s : State) (c : Fin 4) (m n : Motor) : setMotor (setMotor s c m) c n = setMotor s c n := by
  have last : (s.motor.set c m).set c n = s.motor.set c n := by
    ext i hi; simp only [Vector.getElem_set]; split <;> rfl
  rw [setMotor, setMotor, last]
  rfl

/-- A clocked port stays clocked when gates are opened. -/
theorem portClocked_or {s t : State} {pin : Pin} {bits : Word} (h : portClocked s pin = true)
    (gates : t.rcc.apb2pcenr = s.rcc.apb2pcenr ||| bits) : portClocked t pin = true := by
  have gate : s.rcc.apb2pcenr.getLsbD (2 + pin.port.val) = true := h
  show t.rcc.apb2pcenr.getLsbD (2 + pin.port.val) = true
  rw [gates, BitVec.getLsbD_or, gate, Bool.true_or]

/-- A line set up as an output at 0, on a clocked port. -/
def LineReady (t : State) (pin : Pin) : Prop :=
  portClocked t pin = true ∧ latch t pin = false ∧ nibble t pin = nibOutPp50

/-- Both lines of a fresh channel are set up (R153). -/
theorem setupLines_spec (s : State) {p q : Pin} (apart : p ≠ q) (hc : s.inCritical = false) :
    let t := runActs (setupPin p false ++ setupPin q false) s
    PinStepOn [p, q] [p, q] s t ∧
      t.rcc.apb2pcenr = s.rcc.apb2pcenr ||| 1#32 <<< (2 + p.port.val) ||| 1#32 <<< (2 + q.port.val) ∧
      LineReady t p ∧ LineReady t q := by
  intro t
  have split : t = runActs (setupPin q false) (runActs (setupPin p false) s) := runActs_append ..
  obtain ⟨first, opened, low, mode⟩ := setupPin_spec s p false hc
  obtain ⟨second, opened', low', mode'⟩ :=
    setupPin_spec (runActs (setupPin p false) s) q false (first.1.inCritical.trans hc)
  rw [← split] at second opened' low' mode'
  refine ⟨first.trans second, by rw [opened', opened], ⟨?_, ?_, ?_⟩, portClocked_opened opened', low', mode'⟩
  · exact portClocked_or (portClocked_opened opened) opened'
  · exact (latch_kept second.2.1 (by simpa using apart)).trans low
  · exact (nibble_kept second.2.2 (by simpa using apart)).trans mode

/-- A motor command before its span: an initialised channel's pins and gates are left, a fresh one's set up (R153,
R155). -/
theorem motorEntry_spec (s : State) (c : Fin 4) (m : Motor) (ok : configOk s.cfg = true) (hc : s.inCritical = false) :
    let t := runActs (lazyInit s c ++ [.setMotor c m]) s
    PinStepOn [hiPin s.cfg c, loPin s.cfg c] [hiPin s.cfg c, loPin s.cfg c] (setMotor s c m) t ∧
      (s.motor[c].init = true → t.gpio = s.gpio ∧ t.rcc = s.rcc) ∧
      (s.motor[c].init = false →
        t.rcc.apb2pcenr =
            s.rcc.apb2pcenr ||| 1#32 <<< (2 + (hiPin s.cfg c).port.val) ||| 1#32 <<< (2 + (loPin s.cfg c).port.val) ∧
          LineReady t (hiPin s.cfg c) ∧ LineReady t (loPin s.cfg c)) := by
  intro t
  cases init : s.motor[c].init with
  | true =>
    have entry : t = runActs [.setMotor c m] s := by simp only [t, lazyInit, init, if_true, List.nil_append]
    rw [entry]
    have unchanged : PinStepOn [] [] s s := pinStepOn_of_same rfl (interruptsOnly_of_eq rfl rfl)
    exact ⟨(unchanged.setMotor c m).mono (by simp) (by simp), fun _ => ⟨boundary_gpio s, boundary_rcc s⟩,
      fun fresh => absurd fresh (by simp)⟩
  | false =>
    let u := runActs (setupPin (hiPin s.cfg c) false ++ setupPin (loPin s.cfg c) false) s
    let v := runActs [.setMotor c freshMotor] u
    have entry : t = runActs [.setMotor c m] v := by
      simp only [t, lazyInit, init, Bool.false_eq_true, if_false, runActs_append, u, v]
    obtain ⟨step, opened, hi, lo⟩ := setupLines_spec s (hiPin_ne_loPin ok c) hc
    have ports : t.gpio = u.gpio := by
      rw [entry]; exact (boundary_gpio v).trans (boundary_gpio u)
    have rcc : t.rcc = u.rcc := by
      rw [entry]; exact (boundary_rcc v).trans (boundary_rcc u)
    have stays : ∀ {pin}, LineReady u pin → LineReady t pin := fun ⟨clock, low, mode⟩ =>
      ⟨(portClocked_congr (congrArg Rcc.apb2pcenr rcc) _).trans clock, (latch_congr ports _).trans low,
        (nibble_congr ports _).trans mode⟩
    refine ⟨?_, fun ready => absurd ready (by simp), fun _ =>
      ⟨(congrArg Rcc.apb2pcenr rcc).trans opened, stays hi, stays lo⟩⟩
    rw [← setMotor_setMotor s c freshMotor m, entry]
    exact (step.setMotor c freshMotor).setMotor c m

/-! ### The effect of a motor command -/

/-- Entry, span and response of a motor command have the effect that R155 to R158 state. -/
theorem motorSteps_effect (remode : Bool) (s : State) (c : Fin 4) (m : Motor) (q : Word) (ok : configOk s.cfg = true)
    (hc : s.inCritical = false) (hm : m.init = true) :
    MotorEffect remode s (runActs (motorSteps remode s c m q) s) c m q := by
  let u := runActs (lazyInit s c ++ [.setMotor c m]) s
  let w := runActs (critical ((lineOrder s.cfg c m).flatMap (lineActs remode))) u
  obtain ⟨entry, ready, fresh⟩ := motorEntry_spec s c m ok hc
  have hu : u.inCritical = false := entry.1.inCritical.trans hc
  obtain ⟨span, gates, hiLine, loLine⟩ := motorSpan_spec remode s c m ok u hu
  have body : PinStepOn [hiPin s.cfg c, loPin s.cfg c] [hiPin s.cfg c, loPin s.cfg c] (setMotor s c m) w :=
    (entry.trans span).mono (by simp) (by simp)
  obtain ⟨frame, responded, latches, nibbles, ports, rcc⟩ := respond_spec (setMotor s c m) w q _ _ body
  have run : runActs (motorSteps remode s c m q) s = runActs [.respond q] w := by
    rw [motorSteps, runActs_append, runActs_append]
  rw [run]
  generalize runActs [.respond q] w = t at frame responded latches nibbles ports rcc
  have motor : t.motor = s.motor.set c m := by rw [frame.1]; rfl
  have clock : ∀ pin, portClocked t pin = portClocked u pin :=
    portClocked_congr ((congrArg Rcc.apb2pcenr rcc).trans gates)
  replace hiLine := hiLine.congr rfl rfl ports
  replace loLine := loLine.congr rfl rfl ports
  refine ⟨motor, hm, ?_, latches, nibbles, fun init => ?_, fun init => ?_, responded, motor ▸ frame⟩
  · cases init : s.motor[c].init with
    | true =>
      obtain ⟨same, -⟩ := ready init
      rw [LinesFollow, clock, clock, ← latch_congr same, ← latch_congr same]
      exact ⟨hiLine.1, loLine.1⟩
    | false =>
      obtain ⟨-, ⟨hiClock, -⟩, ⟨loClock, -⟩⟩ := fresh init
      rw [LinesFollow, clock, clock, hiLine.1, loLine.1, hiClock, loClock]
      exact ⟨rfl, rfl⟩
  · obtain ⟨same, sameRcc⟩ := ready init
    have gate := portClocked_congr (congrArg Rcc.apb2pcenr sameRcc)
    rw [← nibble_congr same, ← nibble_congr same, ← gate, ← gate]
    exact ⟨(rcc.trans (span.1.rcc gates)).trans sameRcc, hiLine.2, loLine.2⟩
  · obtain ⟨opened, ⟨-, -, hiMode⟩, ⟨-, -, loMode⟩⟩ := fresh init
    rw [hiLine.2, loLine.2, hiMode, loMode, ite_self, ite_self]
    exact ⟨(congrArg Rcc.apb2pcenr rcc).trans (gates.trans opened), rfl, rfl⟩

/-- A channel is initialised after its first reference, and a fresh one's flags are 0 (R153). -/
theorem motorReady_eq (s : State) (c : Fin 4) :
    motorReady s c = ⟨true, s.motor[c].init && s.motor[c].drive, s.motor[c].init && s.motor[c].dir⟩ := by
  unfold motorReady
  rcases s.motor[c] with ⟨init, drive, dir⟩
  cases init with
  | false => rfl
  | true => rfl

/-- The result word of a setup is the identifier, which fits field B (30_encoding R93). -/
theorem virtualIdWord_eq {cfg : Config} (ok : configOk cfg = true) {c : Fin 4} (hn : c.val < cfg.nChannels)
    (role : Role) :
    virtualIdWord cfg c role =
      BitVec.ofNat 32 (cfg.motorIdBase + 2 * c.val + match role with | .drive => 0 | .direction => 1) :=
  (BitVec.ofNat_toNat 32 _).symm.trans (congrArg (BitVec.ofNat 32) (virtualId_toNat hn (configOk_shape ok).top))

theorem motorWritten_eq (s : State) (c : Fin 4) (role : Role) (v : Bool) :
    motorWritten s c role v =
      setFlag ⟨true, s.motor[c].init && s.motor[c].drive, s.motor[c].init && s.motor[c].dir⟩ role v :=
  congrArg (setFlag · role v) (motorReady_eq s c)

theorem motorToggled_eq (s : State) (c : Fin 4) (role : Role) :
    let ready : Motor := ⟨true, s.motor[c].init && s.motor[c].drive, s.motor[c].init && s.motor[c].dir⟩
    motorToggled s c role = setFlag ready role (!getFlag ready role) :=
  congrArg (fun m => setFlag m role (!getFlag m role)) (motorReady_eq s c)

/-- A command that runs the motor steps to an initialised channel state has that state's effect. -/
theorem motorCommand_effect {remode : Bool} {i : Instr} {s : State} {c : Fin 4} {m n : Motor} {q r : Word}
    {as : List Action} (meaning : exec i s = .next (runActs as s)) (steps : as = motorSteps remode s c n r)
    (state : n = m) (result : r = q) (ok : configOk s.cfg = true) (hc : s.inCritical = false) (hm : m.init = true) :
    ∃ t, exec i s = .next t ∧ MotorEffect remode s t c m q := by
  subst steps state result
  exact ⟨_, meaning, motorSteps_effect remode s c n r ok hc hm⟩

/-! ### At most one line (R159) -/

/-- No action of the list raises the latch of a pin that is 0. -/
def Spares (pin : Pin) (as : List Action) : Prop :=
  ∀ a ∈ as, ∀ s, latch s pin = false → latch (act s a) pin = false

theorem Spares.append {pin : Pin} {as bs : List Action} (h : Spares pin as) (k : Spares pin bs) :
    Spares pin (as ++ bs) :=
  List.forall_mem_append.mpr ⟨h, k⟩

theorem Spares.take {pin : Pin} {as : List Action} (h : Spares pin as) (k : Nat) : Spares pin (as.take k) :=
  fun a ha => h a (List.mem_of_mem_take ha)

theorem Spares.run {pin : Pin} {as : List Action} (h : Spares pin as) {s : State} (low : latch s pin = false) :
    latch (runActs as s) pin = false :=
  runActs_keeps (fun s k => (latch_congr (boundary_gpio s) pin).trans k) as h s low

/-- A register whose writes can raise a latch bit (10_state R35, R36). -/
def raisesLatch : Reg → Bool
  | .gpio _ .outdr => true
  | .gpio _ .bshr => true
  | _ => false

/-- A write of any other register raises no latch bit. -/
theorem storeReg_spares {r : Reg} (hr : raisesLatch r = false) (s : State) (v : Word) {pin : Pin}
    (low : latch s pin = false) : latch (storeReg s r v) pin = false := by
  cases r with
  | gpio p x =>
    have one : ∀ port : GpioPort,
        (s.gpio[p].outdr.getLsbD pin.bit.val = false → port.outdr.getLsbD pin.bit.val = false) →
          latch (setPort s p port) pin = false := fun port kept => by
      rw [latch, setPort_gpio, vector_getSet]
      split
      next here => subst here; exact kept low
      next => exact low
    cases x with
    | cfglr => exact one _ id
    | cfghr => exact one _ id
    | indr => exact low
    | bcr => exact one _ fun zero => by rw [BitVec.getLsbD_and, zero, Bool.false_and]
    | outdr => cases hr
    | bshr => cases hr
  | rcc x => cases x <;> exact low
  | i2c x => cases x <;> exact low
  | spi x => cases x <;> exact low
  | uart x => cases x <;> exact low

/-- An action that can raise a latch bit. -/
def raises : Action → Bool
  | .write r _ => raisesLatch r
  | _ => false

theorem act_spares {a : Action} (ha : raises a = false) {s : State} {pin : Pin} (low : latch s pin = false) :
    latch (act s a) pin = false := by
  cases a with
  | read r => exact (latch_congr (readNext_gpio s r) pin).trans low
  | write r v =>
    show latch (writeReg s r _) pin = false
    unfold writeReg
    split
    · exact storeReg_spares ha s _ low
    · exact low
  | _ => exact low

theorem spares_of_noRaise {as : List Action} (h : ∀ a ∈ as, raises a = false) (pin : Pin) : Spares pin as :=
  fun a ha _ => act_spares (h a ha)

theorem critical_spares {pin : Pin} {body : List Action} (h : Spares pin body) : Spares pin (critical body) :=
  (spares_of_noRaise (as := [.enter]) (by simp [raises]) pin).append
    (h.append (spares_of_noRaise (by simp [raises]) pin))

/-- A mode is no level. -/
theorem setNibble_spares (other : Pin) (nib : BitVec 4) (pin : Pin) : Spares pin (setNibble other nib) := by
  refine spares_of_noRaise (fun a ha => ?_) pin
  have cfg : raisesLatch (cfgReg other) = false := by unfold cfgReg; split <;> rfl
  rcases List.mem_pair.mp ha with rfl | rfl
  · rfl
  · exact cfg

/-- `DriveLevel` raises no line but its own, and at level 0 none. -/
theorem driveLevel_spares {other pin : Pin} {v : Bool} (h : v = false ∨ pin ≠ other) :
    Spares pin [driveLevel other v] := by
  rcases h with rfl | apart
  · exact spares_of_noRaise (by simp [raises, driveLevel, raisesLatch]) pin
  · intro a ha s low
    rw [List.mem_singleton.mp ha]
    exact (latch_kept (driveLevel_spec s other v).1.2.1 (by simpa using apart)).trans low

theorem lineActs_spares {other pin : Pin} {v : Bool} (h : v = false ∨ pin ≠ other) (remode : Bool) :
    Spares pin (lineActs remode (other, v)) := by
  cases remode with
  | false => exact driveLevel_spares h
  | true => exact (driveLevel_spares h).append (setNibble_spares other _ pin)

theorem setupPin_spares (other pin : Pin) : Spares pin (setupPin other false) :=
  (spares_of_noRaise (by simp [enablePortGate, setBits, raises, raisesLatch]) pin).append
    (critical_spares (lineActs_spares (.inl rfl) true))

/-- The first reference raises no line. -/
theorem motorEntry_spares (s : State) (c : Fin 4) (m : Motor) (pin : Pin) :
    Spares pin (lazyInit s c ++ [.setMotor c m]) := by
  have flag : ∀ n, Spares pin [.setMotor c n] := fun n => spares_of_noRaise (by simp [raises]) pin
  refine Spares.append ?_ (flag m)
  unfold lazyInit
  split
  · exact fun a ha => absurd ha List.not_mem_nil
  · exact ((setupPin_spares _ pin).append (setupPin_spares _ pin)).append (flag freshMotor)

/-- Some pin is 0 after any number of actions: the one that was 0, until p is, and then p. -/
theorem take_keeps_somePinLow {pins : List Pin} {p : Pin} (hp : p ∈ pins) {pre rest : List Action} {s : State}
    (before : ∀ pin ∈ pins, Spares pin pre) (low : latch (runActs pre s) p = false) (after : Spares p rest)
    (start : ∃ pin ∈ pins, latch s pin = false) (k : Nat) :
    ∃ pin ∈ pins, latch (runActs ((pre ++ rest).take k) s) pin = false := by
  obtain ⟨pin, mem, zero⟩ := start
  rw [List.take_append, runActs_append]
  rcases Nat.le_total k pre.length with short | long
  · rw [Nat.sub_eq_zero_of_le short, List.take_zero, runActs_nil]
    exact ⟨pin, mem, ((before pin mem).take k).run zero⟩
  · rw [List.take_of_length_le long]
    exact ⟨p, hp, (after.take _).run low⟩

/-- A motor command is its entry and the line that goes to 0, and then what may raise the other line. -/
theorem motorSteps_split {remode : Bool} {s : State} {c : Fin 4} {m : Motor} {p q : Pin} {w : Bool}
    (order : lineOrder s.cfg c m = [(p, false), (q, w)]) (r : Word) :
    motorSteps remode s c m r =
      (lazyInit s c ++ [.setMotor c m] ++ ([.enter] ++ lineActs remode (p, false))) ++
        (lineActs remode (q, w) ++ [.leave, .respond r]) := by
  simp [motorSteps, order, critical]

/-- Both ports are clocked when the span of a motor command begins. -/
theorem motorEntry_clocked {s : State} {c : Fin 4} (m : Motor) (ok : configOk s.cfg = true) (hc : s.inCritical = false)
    (gated : s.motor[c].init = true → portClocked s (hiPin s.cfg c) = true ∧ portClocked s (loPin s.cfg c) = true) :
    let t := runActs (lazyInit s c ++ [.setMotor c m]) s
    portClocked t (hiPin s.cfg c) = true ∧ portClocked t (loPin s.cfg c) = true := by
  intro t
  obtain ⟨-, ready, fresh⟩ := motorEntry_spec s c m ok hc
  cases init : s.motor[c].init with
  | true =>
    obtain ⟨-, same⟩ := ready init
    have clock := portClocked_congr (congrArg Rcc.apb2pcenr same)
    rw [clock, clock]
    exact gated init
  | false =>
    obtain ⟨-, ⟨hi, -⟩, ⟨lo, -⟩⟩ := fresh init
    exact ⟨hi, lo⟩

/-- The line that goes to 0 is 0 before the other one is driven (R154). -/
theorem firstLine_low (remode : Bool) {u : State} {p : Pin} (clock : portClocked u p = true) :
    latch (runActs (lineActs remode (p, false)) (act (boundary u) .enter)) p = false := by
  obtain ⟨-, -, level, -⟩ := lineActs_spec remode (act (boundary u) .enter) p false
  have inside : portClocked (act (boundary u) .enter) p = true :=
    (portClocked_congr (congrArg Rcc.apb2pcenr (boundary_rcc u)) p).trans clock
  rw [level, inside]
  rfl

/-- With the order of R154, one of the channel's lines is 0 at every boundary. -/
theorem motorSteps_someLineLow {remode : Bool} {s : State} {c : Fin 4} {m : Motor} (q : Word) {pins : List Pin}
    {first second : Pin} {w : Bool} (order : lineOrder s.cfg c m = [(first, false), (second, w)]) (apart : first ≠ second)
    (mem : first ∈ pins) (clock : portClocked (runActs (lazyInit s c ++ [.setMotor c m]) s) first = true)
    (start : ∃ pin ∈ pins, latch s pin = false) (k : Nat) :
    ∃ pin ∈ pins, latch (runActs ((motorSteps remode s c m q).take k) s) pin = false := by
  rw [motorSteps_split order]
  refine take_keeps_somePinLow mem (fun pin _ => ?_) ?_ ?_ start k
  · exact (motorEntry_spares s c m pin).append
      ((spares_of_noRaise (by simp [raises]) pin).append (lineActs_spares (.inl rfl) remode))
  · rw [runActs_append, runActs_append]
    exact firstLine_low remode clock
  · exact (lineActs_spares (.inr apart) remode).append (spares_of_noRaise (by simp [raises]) first)

theorem readNext_cfg (s : State) (r : Reg) : (readNext s r).cfg = s.cfg := same_cfg (readNext_same s r)

theorem act_cfg (s : State) (a : Action) : (act s a).cfg = s.cfg := by
  cases a with
  | read r => exact readNext_cfg s r
  | write r v => exact writeReg_cfg s r _
  | _ => rfl

theorem runActs_cfg (as : List Action) (s : State) : (runActs as s).cfg = s.cfg :=
  runActs_keeps (P := fun u => u.cfg = s.cfg) (fun u h => (boundary_cfg u).trans h) as
    (fun a _ u h => (act_cfg u a).trans h) s rfl

theorem atMostOneLine_iff {s : State} {c : Fin 4} :
    atMostOneLine s c = true ↔ ∃ pin ∈ [hiPin s.cfg c, loPin s.cfg c], latch s pin = false := by
  simp [atMostOneLine]

/-- After any number of a motor command's actions at most one line is asserted (R159). -/
theorem motorSteps_atMostOneLine (remode : Bool) {s : State} {c : Fin 4} (m : Motor) (q : Word) (k : Nat)
    (ok : configOk s.cfg = true) (hc : s.inCritical = false) (start : atMostOneLine s c = true)
    (gated : s.motor[c].init = true → portClocked s (hiPin s.cfg c) = true ∧ portClocked s (loPin s.cfg c) = true) :
    atMostOneLine (runActs ((motorSteps remode s c m q).take k) s) c = true := by
  have apart := hiPin_ne_loPin ok c
  obtain ⟨hiClock, loClock⟩ := motorEntry_clocked m ok hc gated
  rw [atMostOneLine_iff] at start ⊢
  rw [runActs_cfg]
  rcases lineOrder_cases s.cfg c m with ⟨order, -⟩ | ⟨order, -⟩
  · exact motorSteps_someLineLow q order apart (by simp) hiClock start k
  · exact motorSteps_someLineLow q order apart.symm (by simp) loClock start k

/-! ### The obligations -/

/-- Settles O21: the new flags of the channel, and the identifier that fits field B. -/
theorem motorSetupSetsTheFlag : Obligations.MotorSetupSetsTheFlag := by
  intro s c v ok hn hc
  have effect := fun role => motorCommand_effect (i := .motorSetup c role v) rfl (motorActs_eq s c _ _)
    (motorWritten_eq s c role v) (virtualIdWord_eq ok hn role) ok hc (setFlag_init _ role v)
  exact ⟨effect .drive, effect .direction⟩

/-- Settles O22: the steps of O21 with result 0. -/
theorem motorWriteSetsTheFlag : Obligations.MotorWriteSetsTheFlag := by
  intro s c v ok hc
  have effect := fun role => motorCommand_effect (i := .motorWrite c role v) rfl (motorActs_eq s c _ _)
    (motorWritten_eq s c role v) rfl ok hc (setFlag_init _ role v)
  exact ⟨effect .drive, effect .direction⟩

/-- Settles O23: the flag that is inverted is the one the first reference leaves. -/
theorem motorToggleInvertsTheFlag : Obligations.MotorToggleInvertsTheFlag := by
  intro s c ok hc
  have effect := fun role => motorCommand_effect (i := .motorToggle c role) rfl (motorActs_eq s c _ _)
    (motorToggled_eq s c role) rfl ok hc (setFlag_init _ role _)
  exact ⟨effect .drive, effect .direction⟩

/-- Settles O24: the steps of O22 with the modes in the span. -/
theorem motorResetReappliesTheModes : Obligations.MotorResetReappliesTheModes := by
  intro s c v ok hc
  have effect := fun role => motorCommand_effect (i := .motorReset c role v) rfl (motorResetActs_eq s c _)
    (motorWritten_eq s c role v) rfl ok hc (setFlag_init _ role v)
  exact ⟨effect .drive, effect .direction⟩

/-- Settles O25: the line that goes to 0 does so before the other one is raised. -/
theorem atMostOneLineAtEveryBoundary : Obligations.AtMostOneLineAtEveryBoundary := by
  intro s c m q k ok hc start gated
  rw [motorActs_eq, motorResetActs_eq]
  exact ⟨motorSteps_atMostOneLine false m q k ok hc start gated, motorSteps_atMostOneLine true m 0 k ok hc start gated⟩

end Sys2Proof.Machine

/-!
PROOFS. The I2C commands (42_i2c R171, R185): the bus check, and every outcome of a transfer.
-/
namespace Sys2Proof.Machine

/-! ### The bus check (R171) -/

/-- The bus check of the I2C commands is the one of the table of halt causes (60_exceptions R261). -/
theorem i2cBusHalt_eq (cfg : Config) (bus : Byte) : i2cBusHalt cfg bus = busCause cfg.nI2c cfg.i2cPresent bus := rfl

theorem busCause_invalid {n : Nat} {bus : Byte} (h : n ≤ bus.toNat) (present : Bool) :
    busCause n present bus = some .invalidBus := if_pos h

theorem busCause_absent {n : Nat} {bus : Byte} (h : bus.toNat < n) : busCause n false bus = some .unimplemented :=
  if_neg h.not_ge

theorem busCause_present {n : Nat} (h : 0 < n) : busCause n true 0 = none := if_neg h.not_ge

/-- An I2C command on a bus; a read of at least one byte (60_exceptions R265 (d)). -/
def IsI2cCommand (bus : Byte) (i : Instr) : Prop :=
  (∃ addr7 rate, i = .i2cSetup bus addr7 rate) ∨ (∃ addr8 bytes, i = .i2cWrite bus addr8 bytes) ∨
    (∃ addr8 reg len, len ≠ 0 ∧ i = .i2cRead bus addr8 reg len)

/-- An I2C command whose bus check fails halts before any effect. -/
theorem i2cCommand_halts {s : State} {i : Instr} {bus : Byte} {code : HaltCode} (hi : IsI2cCommand bus i)
    (cause : i2cBusHalt s.cfg bus = some code) : ∃ t, exec i s = .next t ∧ HaltedBy code s t := by
  refine ⟨haltCommand s code, ?_, haltCommand_haltedBy s code⟩
  rcases hi with ⟨addr7, rate, rfl⟩ | ⟨addr8, bytes, rfl⟩ | ⟨addr8, reg, len, hlen, rfl⟩
  · simp only [exec, execI2cSetup, cause]
  · simp only [exec, execI2cWrite, cause]
  · simp only [exec, execI2cRead, if_neg hlen, cause]

/-- Settles O27: the bus check comes before the command's program. -/
theorem i2cBusErrorsHalt : Obligations.I2cBusErrorsHalt := by
  intro s i bus hi
  refine ⟨fun high => i2cCommand_halts hi ?_, fun low absent => i2cCommand_halts hi ?_⟩
  · rw [i2cBusHalt_eq, busCause_invalid high]
  · rw [i2cBusHalt_eq, absent, busCause_absent low]

/-- Bus 0 of a configuration with the controller present passes the bus check. -/
theorem i2cBusHalt_present {cfg : Config} (hn : 0 < cfg.nI2c) (hp : cfg.i2cPresent = true) :
    i2cBusHalt cfg 0 = none := by
  rw [i2cBusHalt_eq, hp, busCause_present hn]

theorem exec_i2cSetup {s : State} (check : i2cBusHalt s.cfg 0 = none) (addr7 : BitVec 7) (rate : Word) :
    exec (.i2cSetup 0 addr7 rate) s = .next (runActs (i2cSetupActs s addr7 rate) s) := by
  simp only [exec, execI2cSetup, check]

theorem exec_i2cWrite {s : State} (check : i2cBusHalt s.cfg 0 = none) (addr8 : Byte) (bytes : List Byte) :
    exec (.i2cWrite 0 addr8 bytes) s = .next (drain (i2cWriteProg 0 addr8 bytes) s) := by
  simp only [exec, execI2cWrite, check]

theorem exec_i2cRead {s : State} (check : i2cBusHalt s.cfg 0 = none) (addr8 : Byte) (reg : List Byte) {len : Byte}
    (hlen : len ≠ 0) : exec (.i2cRead 0 addr8 reg len) s = .next (drain (i2cReadProg 0 addr8 reg len.toNat) s) := by
  simp only [exec, execI2cRead, if_neg hlen, check]

/-! ### The pieces of a transfer (R177 to R182) -/

/-- A piece of a transfer before its response: an action that does not respond, or a bounded wait not yet entered. -/
def isTransferPiece : Micro → Bool
  | .act a => !isResponse a
  | .awaitT _ => true
  | _ => false

/-- A program whose pieces are a transfer's. -/
def TransferPieces (prog : List Micro) : Prop := prog.all isTransferPiece = true

theorem TransferPieces.append {ms ns : List Micro} (h : TransferPieces ms) (k : TransferPieces ns) :
    TransferPieces (ms ++ ns) := by
  unfold TransferPieces at *; rw [List.all_append, h, k]; rfl

theorem TransferPieces.flatMap {α : Type} {f : α → List Micro} (h : ∀ x, TransferPieces (f x)) (xs : List α) :
    TransferPieces (xs.flatMap f) := by
  unfold TransferPieces at *
  rw [List.all_flatMap]; exact List.all_eq_true.mpr fun x _ => h x

theorem startProg_pieces (bus : Byte) (again : Bool) : TransferPieces (startProg bus again) := by cases again <;> rfl

theorem addressProg_pieces (bus byte : Byte) (onNack : I2cStatus) : TransferPieces (addressProg bus byte onNack) := rfl

theorem sendBytes_pieces (bus : Byte) (bytes : List Byte) : TransferPieces (bytes.flatMap (sendByteProg bus)) := by
  have byte : ∀ x, TransferPieces (sendByteProg bus x) := fun _ => rfl
  exact .flatMap byte bytes

theorem receiveProg_pieces (bus : Byte) (n : Nat) : TransferPieces (receiveProg bus n) := by
  refine .flatMap (fun k => ?_) _
  unfold receiveByteProg
  split <;> rfl

theorem readPrologue_pieces (bus addr8 : Byte) (reg : List Byte) : TransferPieces (readPrologue bus addr8 reg) := by
  unfold readPrologue
  split
  · exact startProg_pieces bus false
  · exact (((startProg_pieces bus false).append (addressProg_pieces bus addr8 .startNack)).append
      (sendBytes_pieces bus reg)).append (startProg_pieces bus true)

/-- A transfer: pieces that do not respond, then the response `I2C_OK`. -/
def IsTransfer (prog : List Micro) : Prop :=
  ∃ body, TransferPieces body ∧ prog = body ++ [.act (.respondBuf (statusWord .ok))]

theorem i2cWriteProg_isTransfer (bus addr8 : Byte) (bytes : List Byte) : IsTransfer (i2cWriteProg bus addr8 bytes) := by
  have first : TransferPieces (acts [.setBuf []]) := rfl
  have stop : TransferPieces (stopProg bus) := rfl
  exact ⟨_, (((first.append (startProg_pieces bus false)).append (addressProg_pieces bus addr8 .startNack)).append
    (sendBytes_pieces bus bytes)).append stop, rfl⟩

theorem i2cReadProg_isTransfer (bus addr8 : Byte) (reg : List Byte) (n : Nat) :
    IsTransfer (i2cReadProg bus addr8 reg n) := by
  have first : TransferPieces (acts [.setBuf (List.replicate n 0)]) := rfl
  have mode : TransferPieces (acts [.write (.i2c .ctlr1) (.const (if n > 1 then ctlr1Ack else ctlr1Pe))]) := rfl
  exact ⟨_, (((first.append (readPrologue_pieces bus addr8 reg)).append mode).append
    (addressProg_pieces bus (addr8 ||| 1) (readNack reg))).append (receiveProg_pieces bus n), rfl⟩

/-- A transfer is its response, or begins with a piece and goes on as a transfer. -/
theorem IsTransfer.cons {m : Micro} {rest : List Micro} (h : IsTransfer (m :: rest)) :
    (m = .act (.respondBuf (statusWord .ok)) ∧ rest = []) ∨ (isTransferPiece m = true ∧ IsTransfer rest) := by
  obtain ⟨body, pieces, e⟩ := h
  cases body with
  | nil => exact .inl (List.cons_eq_cons.mp e)
  | cons b body =>
    obtain ⟨rfl, rfl⟩ := List.cons_eq_cons.mp e
    rw [TransferPieces, List.all_cons, Bool.and_eq_true] at pieces
    exact .inr ⟨pieces.1, body, pieces.2, rfl⟩

/-! ### Every outcome of a transfer (R185; 60_exceptions R263) -/

/-- A transfer that began in s is held in a bounded wait without a response, or has returned one status. -/
def HeldOrEnded (s t : State) : Prop :=
  (∃ w t0 rest, t.todo = .pollT w t0 :: rest ∧ t.responses = s.responses) ∨
    (t.todo = [] ∧ ∃ (status : I2cStatus) (payload : List Byte),
      t.responses = s.responses ++ [⟨statusWord status, payload⟩])

/-- The rest of a transfer that has not responded yet, or no rest after `I2C_OK`. -/
def TransferRest (s : State) (prog : List Micro) (u : State) : Prop :=
  (IsTransfer prog ∧ u.responses = s.responses) ∨
    (prog = [] ∧ ∃ payload, u.responses = s.responses ++ [⟨statusWord .ok, payload⟩])

/-- A wait of a transfer is a bounded one, and what follows it is the rest of the transfer. -/
theorem TransferRest.wait {s u : State} {m : Micro} {rest : List Micro} (hm : isWait m = true)
    (h : TransferRest s (m :: rest) u) : (∃ w, m = .awaitT w) ∧ IsTransfer rest ∧ u.responses = s.responses := by
  rcases h with ⟨transfer, same⟩ | ⟨nil, -⟩
  · rcases transfer.cons with ⟨rfl, -⟩ | ⟨piece, tail⟩
    · cases hm
    · refine ⟨?_, tail, same⟩
      cases m with
      | act a => cases hm
      | await r mask want => cases piece
      | awaitT w => exact ⟨w, rfl⟩
      | pollT w t0 => cases piece
  · cases nil

theorem transfer_drainRule (s : State) : DrainRule (TransferRest s) (HeldOrEnded s) where
  done u h := by
    rcases h with ⟨⟨body, -, e⟩, -⟩ | ⟨-, payload, ended⟩
    · cases body <;> cases e
    · exact .inr ⟨rfl, .ok, payload, ended⟩
  action a rest u h := by
    rcases h with ⟨transfer, same⟩ | ⟨nil, -⟩
    · rcases transfer.cons with ⟨e, rfl⟩ | ⟨piece, tail⟩
      · cases e
        exact .inr ⟨rfl, (boundary u).buf, by rw [← same, ← boundary_responses u]; rfl⟩
      · refine .inl ⟨tail, ?_⟩
        rw [act_responses_of_silent (by simpa [isTransferPiece] using piece), boundary_responses, same]
    · cases nil
  pass m rest u v hm h k := .inl ⟨(h.wait hm).2.1, (polled_responses k).trans (h.wait hm).2.2⟩
  hold m held rest u v hm h k := by
    obtain ⟨⟨w, rfl⟩, -, same⟩ := h.wait hm.isWait.1
    obtain ⟨t0, rfl⟩ := hm
    exact .inl ⟨w, t0, rest, rfl, (polled_responses k).trans same⟩
  fail m rest u v bus status hm h k := by
    refine .inr ⟨failTransfer_todo bus status v, status, v.buf, ?_⟩
    rw [failTransfer_responses, polled_responses k, (h.wait hm).2.2]

theorem drain_heldOrEnded {prog : List Micro} (h : IsTransfer prog) (s : State) : HeldOrEnded s (drain prog s) :=
  (transfer_drainRule s).run prog s (.inl ⟨h, rfl⟩)

/-- Settles O32: the programs of both transfers have only bounded waits, and respond at the end or through `Fail`. -/
theorem i2cTransfersEndInAStatus : Obligations.I2cTransfersEndInAStatus := by
  intro s i hn hp hi
  have check := i2cBusHalt_present hn hp
  rcases hi with ⟨addr8, bytes, rfl⟩ | ⟨addr8, reg, len, hlen, rfl⟩
  · exact ⟨_, exec_i2cWrite check addr8 bytes, drain_halted _ s, drain_heldOrEnded (i2cWriteProg_isTransfer ..) s⟩
  · exact ⟨_, exec_i2cRead check addr8 reg hlen, drain_halted _ s, drain_heldOrEnded (i2cReadProg_isTransfer ..) s⟩

end Sys2Proof.Machine

/-!
PROOFS. A bounded wait whose poll misses its flag (42_i2c R175, R176): it fails with a NACK or its deadline, or stays
held; the UART interrupt may run before the poll and before each action of the end.
-/
namespace Sys2Proof.Machine

/-! ### One poll (R175) -/

/-- A poll that misses its flag and sees the NACK it watches for. -/
theorem pollOnce_nack {w : I2cWait} {t0 : Nat} {s : State} {status : I2cStatus}
    (miss : readValue s w.reg &&& w.mask ≠ w.want) (watched : w.nack = some status)
    (af : readValue s w.reg &&& maskAf ≠ 0) : pollOnce w t0 s = .failed status (readNext s w.reg) := by
  unfold pollOnce
  simp only [if_neg miss, watched, bne_iff_ne.mpr af]

/-- A poll that misses its flag and sees no NACK looks at the deadline. -/
theorem pollOnce_deadline {w : I2cWait} {t0 : Nat} {s : State} (miss : readValue s w.reg &&& w.mask ≠ w.want)
    (quiet : w.nack = none ∨ readValue s w.reg &&& maskAf = 0) :
    pollOnce w t0 s =
      if s.cfg.i2cTimeout ≤ (readClock (readNext s w.reg)).now - t0 then
        .failed .timeout (readClock (readNext s w.reg))
      else .again (readClock (readNext s w.reg)) := by
  have cfg : (readClock (readNext s w.reg)).cfg = s.cfg := (readClock_cfg _).trans (same_cfg (readNext_same s w.reg))
  unfold pollOnce
  simp only [if_neg miss, ← cfg]
  rcases quiet with unwatched | af
  · simp only [unwatched]
  · simp only [af, bne_self_eq_false]
    cases w.nack <;> rfl

/-- What a bounded wait does with the outcome of a poll. -/
def afterPoll (w : I2cWait) (t0 : Nat) (rest : List Micro) : PollResult → State
  | .ok s => drain rest s
  | .failed status s => failTransfer w.bus status s
  | .again s => { s with todo := .pollT w t0 :: rest }

theorem drain_pollT (w : I2cWait) (t0 : Nat) (rest : List Micro) (s : State) :
    drain (.pollT w t0 :: rest) s = afterPoll w t0 rest (pollOnce w t0 (boundary s)) := by
  rw [drain]; cases pollOnce w t0 (boundary s) <;> rfl

theorem drain_awaitT (w : I2cWait) (rest : List Micro) (s : State) :
    drain (.awaitT w :: rest) s =
      afterPoll w (readClock (boundary s)).now rest
        (pollOnce w (readClock (boundary s)).now (readClock (boundary s))) := by
  rw [drain]; cases pollOnce w _ (readClock (boundary s)) <;> rfl

/-! ### What has run when a poll is decided -/

/-- s after boundaries and polls: the fields `Polled` names may differ, UART and trace as the interrupt context changes
them. -/
def Waited (s u : State) : Prop := Polled s u ∧ UartInterruptsOnly s u

theorem waited_boundary (s : State) : Waited s (boundary s) :=
  ⟨(polled_keptByRuns s).boundary s rfl, boundary_only s⟩

theorem Waited.read {s u : State} (h : Waited s u) (r : Reg) : Waited s (readNext u r) :=
  ⟨(polled_keptByRuns s).read u r h.1,
    interruptsOnly_trans h.2 (interruptsOnly_of_eq (readNext_uart u r) (readNext_trace u r))⟩

theorem Waited.clock {s u : State} (h : Waited s u) : Waited s (readClock u) :=
  ⟨(polled_keptByRuns s).clock u h.1,
    interruptsOnly_trans h.2 (interruptsOnly_of_eq (readClock_uart u) (readClock_trace u))⟩

@[simp] theorem readNext_now (s : State) (r : Reg) : (readNext s r).now = s.now := same_now (readNext_same s r)

/-- A state that is left held in the wait: nothing but the clock and the place differ, and what the interrupt context
may change. -/
theorem Waited.held {s u : State} (h : Waited s u) (todo : List Micro) :
    UartInterruptsOnly s { u with todo := todo } ∧
      SameButInterrupts { s with now := u.now, todo := todo } { u with todo := todo } := by
  refine ⟨h.2, ?_⟩
  unfold SameButInterrupts
  rw [h.1]

/-! ### A transfer that fails (R176) -/

theorem transferFrame_of_same {s t u : State} (h : TransferFrame s t) (k : SameButInterrupts t u) :
    TransferFrame s u := by
  unfold TransferFrame at *; rw [k, h]

theorem transferFrame_of_polled {s u : State} (h : Polled s u) : TransferFrame s u := by
  unfold TransferFrame; rw [h]

/-- The actions of `Fail` write registers of the controller alone, and respond. -/
theorem failActs_frame {bus : Byte} {status : I2cStatus} {a : Action} (ha : a ∈ failActs bus status) {s u : State}
    (h : TransferFrame s u) : TransferFrame s (act u a) := by
  simp only [failActs, List.mem_cons, List.not_mem_nil, or_false] at ha
  unfold TransferFrame at *
  rcases ha with rfl | rfl | rfl | rfl
  · simp only [act, write_star1]; exact h
  · simp only [act, write_i2cCtlr1]; rw [h]; rfl
  · simp only [act, emit]; rw [h]
  · simp only [act, respond]; rw [h]

theorem failTransfer_frame {s u : State} (h : Polled s u) (bus : Byte) (status : I2cStatus) :
    TransferFrame s (failTransfer bus status u) :=
  runActs_keeps (fun v k => transferFrame_of_same k (boundary_same v)) _ (fun _ ha _ => failActs_frame ha) _
    (transferFrame_of_polled ((polled_keptByRuns s).hold u [] h))

/-- The state in which `Fail` puts STOP on the bus. -/
def beforeStop (s : State) : State :=
  boundary (writeReg (boundary (boundary { s with todo := [] })) (.i2c .ctlr1) ctlr1Stop)

/-- `Fail` as its four actions, the cleared `AF` of no effect on what is stored. -/
theorem failTransfer_eq (bus : Byte) (status : I2cStatus) (s : State) :
    failTransfer bus status s =
      respond (boundary (emit (beforeStop s) (.i2cStop bus))) (statusWord status)
        (boundary (emit (beforeStop s) (.i2cStop bus))).buf := by
  simp only [failTransfer, failActs, runActs_cons, runActs_nil, act, write_star1, sourceValue, beforeStop]

theorem beforeStop_i2c (s : State) :
    (beforeStop s).i2c = if clocked s (.i2c .ctlr1) then { s.i2c with ctlr1 := 0x0001 } else s.i2c := by
  have stop : ctlr1Stop &&& storeMask (.i2c .ctlr1) = 0x0001 := by decide
  have same : ∀ todo, clocked { s with todo := todo } (.i2c .ctlr1) = clocked s (.i2c .ctlr1) := fun _ => rfl
  simp [beforeStop, write_i2cCtlr1, advanced, onController, stop, same]

theorem beforeStop_now (s : State) : (beforeStop s).now = s.now := by
  simp [beforeStop, write_i2cCtlr1, advanced]

theorem beforeStop_only (s : State) : UartInterruptsOnly s (beforeStop s) := by
  have cleared : UartInterruptsOnly s (boundary { s with todo := [] }) :=
    interruptsOnly_trans (interruptsOnly_of_eq rfl rfl) (boundary_only _)
  have written (u : State) (v : Word) : UartInterruptsOnly u (writeReg u (.i2c .ctlr1) v) :=
    interruptsOnly_of_eq (by rw [write_i2cCtlr1]; rfl) (writeReg_trace u _ v)
  exact interruptsOnly_trans
    (interruptsOnly_trans (interruptsOnly_trans cleared (boundary_only _)) (written _ ctlr1Stop)) (boundary_only _)

@[simp] theorem failTransfer_now (bus : Byte) (status : I2cStatus) (s : State) :
    (failTransfer bus status s).now = s.now := by
  rw [failTransfer_eq, respond_now, boundary_now, emit_now, beforeStop_now]

theorem failTransfer_i2c (bus : Byte) (status : I2cStatus) (s : State) :
    (failTransfer bus status s).i2c = if clocked s (.i2c .ctlr1) then { s.i2c with ctlr1 := 0x0001 } else s.i2c := by
  rw [failTransfer_eq, respond_i2c, boundary_i2c, emit_i2c, beforeStop_i2c]

/-- Two runs of the interrupt context around an event of the foreground: their own events stand before and after it. -/
theorem interruptsOnly_around {s u t : State} {e : Event} (h : UartInterruptsOnly s u)
    (k : UartInterruptsOnly (emit u e) t) :
    ∃ before after : List Event, t.trace = s.trace ++ before ++ [e] ++ after ∧
      UartInterruptsOnly s { t with trace := s.trace ++ before ++ after } := by
  have h' := h
  obtain ⟨-, -, -, -, -, ⟨before, traceBefore, -⟩, -⟩ := h'
  obtain ⟨brr, ctlr2, ctlr3, bits, idle, ⟨after, traceAfter, own⟩, disarmed⟩ := k
  refine ⟨before, after, by rw [traceAfter, emit_trace, traceBefore], interruptsOnly_trans h ?_⟩
  rw [← traceBefore]
  refine ⟨brr, ctlr2, ctlr3, bits, idle, ⟨after, rfl, own⟩, fun off => ⟨(disarmed off).1, ?_⟩⟩
  have none : after = [] := by simpa [traceAfter] using (disarmed off).2
  rw [none, List.append_nil]

/-- A wait that fails ends its transfer as R176 says. -/
theorem failTransfer_failed {s u : State} (h : Waited s u) (bus : Byte) (status : I2cStatus) :
    TransferFailed bus status s (failTransfer bus status u) := by
  obtain ⟨polled, only⟩ := h
  have gate : clocked u (.i2c .ctlr1) = clocked s (.i2c .ctlr1) := clocked_congr (by rw [polled]) _
  have buf : u.buf = s.buf := by rw [polled]
  have i2c : u.i2c = s.i2c := by rw [polled]
  refine ⟨⟨?_, ?_, ?_⟩, failTransfer_todo bus status u, failTransfer_frame polled bus status, ?_, ?_⟩
  · rw [failTransfer_responses, polled_responses polled, buf]
  · rw [failTransfer_eq, respond_acc]
  · rw [failTransfer_eq, respond_buf]
  · rw [failTransfer_i2c, gate, i2c]
  · rw [failTransfer_eq]
    exact interruptsOnly_around (interruptsOnly_trans only (beforeStop_only u)) (boundary_only _)

/-! ### The wait's outcomes -/

/-- A poll that misses its flag and sees the NACK it watches for fails the transfer. -/
theorem afterPoll_nack {s u : State} {w : I2cWait} {status : I2cStatus} (h : Waited s u) (t0 : Nat) (rest : List Micro)
    (miss : readValue u w.reg &&& w.mask ≠ w.want) (watched : w.nack = some status)
    (af : readValue u w.reg &&& maskAf ≠ 0) :
    TransferFailed w.bus status s (afterPoll w t0 rest (pollOnce w t0 u)) ∧
      (afterPoll w t0 rest (pollOnce w t0 u)).now = u.now := by
  rw [pollOnce_nack miss watched af]
  exact ⟨failTransfer_failed (h.read w.reg) w.bus status, by rw [afterPoll, failTransfer_now, readNext_now]⟩

/-- A poll that misses its flag without a NACK fails the transfer past the deadline, and leaves it held before. -/
theorem afterPoll_deadline {s u : State} {w : I2cWait} (h : Waited s u) (t0 : Nat) (rest : List Micro)
    (miss : readValue u w.reg &&& w.mask ≠ w.want) (quiet : w.nack = none ∨ readValue u w.reg &&& maskAf = 0) :
    let t := afterPoll w t0 rest (pollOnce w t0 u)
    t.now = u.now + drawValue (readNext u w.reg) ∧
      (s.cfg.i2cTimeout ≤ u.now + drawValue (readNext u w.reg) - t0 → TransferFailed w.bus .timeout s t) ∧
      (u.now + drawValue (readNext u w.reg) - t0 < s.cfg.i2cTimeout →
        t.todo = .pollT w t0 :: rest ∧ UartInterruptsOnly s t ∧
          SameButInterrupts { s with now := t.now, todo := t.todo } t) := by
  have polled := (h.read w.reg).clock
  have cfg : u.cfg = s.cfg := by rw [h.1]
  have now : (readClock (readNext u w.reg)).now = u.now + drawValue (readNext u w.reg) := by
    rw [readClock_now, readNext_now]
  rw [← now]
  intro t
  by_cases late : s.cfg.i2cTimeout ≤ (readClock (readNext u w.reg)).now - t0
  · have e : t = failTransfer w.bus .timeout (readClock (readNext u w.reg)) := by
      simp only [t, pollOnce_deadline miss quiet, cfg, if_pos late, afterPoll]
    rw [e, failTransfer_now]
    exact ⟨rfl, fun _ => failTransfer_failed polled w.bus .timeout, fun early => absurd late early.not_ge⟩
  · have e : t = { readClock (readNext u w.reg) with todo := .pollT w t0 :: rest } := by
      simp only [t, pollOnce_deadline miss quiet, cfg, if_neg late, afterPoll]
    rw [e]
    exact ⟨rfl, fun passed => absurd passed late, fun _ => ⟨rfl, polled.held _⟩⟩

/-- Settles O31: the poll of a held wait comes after a boundary, that of a wait just entered also after a clock
reading. -/
theorem boundedWaitEndsAtItsDeadline : Obligations.BoundedWaitEndsAtItsDeadline := by
  constructor
  · intro s w t0 rest ok noReset running noIrq held miss
    have meaning := stepResumesAHeldCommand s _ _ ok noReset running noIrq held
    rw [drain_pollT] at meaning
    have waited := waited_boundary s
    refine ⟨fun status watched af => ?_, fun quiet => ?_⟩
    · obtain ⟨failed, now⟩ := afterPoll_nack waited t0 rest miss watched af
      exact ⟨_, meaning, failed, now.trans (boundary_now s)⟩
    · obtain ⟨now, late, early⟩ := afterPoll_deadline waited t0 rest miss quiet
      rw [← now] at late early
      refine ⟨_, meaning, by rw [now, boundary_now], late, fun soon => ?_⟩
      obtain ⟨todo, only, same⟩ := early soon
      rw [todo, ← held] at same
      exact ⟨same, only⟩
  · intro s entered w rest he miss
    subst he
    rw [drain_awaitT]
    have waited := (waited_boundary s).clock
    refine ⟨fun status watched af => (afterPoll_nack waited _ rest miss watched af).1, fun quiet => ?_⟩
    obtain ⟨-, late, early⟩ := afterPoll_deadline waited (readClock (boundary s)).now rest miss quiet
    rw [Nat.add_sub_cancel_left] at late early
    exact ⟨late, fun soon => ⟨_, rfl, early soon⟩⟩

end Sys2Proof.Machine

/-!
PROOFS. The I2C transfers (42_i2c R177 to R182) whose waits are answered at their first poll with no interrupt taken:
how far each gets, and how it ends.
-/
namespace Sys2Proof.Machine

/-! ### The points a transfer reaches -/

/-- u is s some way into a transfer with the buffer `buf`: the events `es` emitted, the controller's registers `c` where
its gate is open, the script `rest` left; clock and read register have moved on. -/
def Reached (s : State) (buf : List Byte) (es : List Event) (c : I2c) (rest : List Nat) (u : State) : Prop :=
  ∃ f d acc, f s.i2c = c ∧ u = advanced { s with buf := buf } es f d acc rest

/-- The bus is idle and acknowledges the START (R177). -/
def Opens (idle started : Nat × Nat) : Prop := BitVec.ofNat 32 idle.2 &&& maskBusy = 0 ∧ shows started maskSb

namespace Reached

variable {s u : State} {buf : List Byte} {es : List Event} {c : I2c} {rest rest' : List Nat}

theorem script (h : Reached s buf es c rest u) : u.script = rest := by obtain ⟨f, d, acc, -, rfl⟩ := h; rfl

theorem buffer (h : Reached s buf es c rest u) : u.buf = buf := by obtain ⟨f, d, acc, -, rfl⟩ := h; rfl

theorem cfg (h : Reached s buf es c rest u) : u.cfg = s.cfg := by obtain ⟨f, d, acc, -, rfl⟩ := h; rfl

/-- The answers of boundaries are the same all through a transfer. -/
theorem still_eq (h : Reached s buf es c rest u) : still u = still s := by
  obtain ⟨f, d, acc, -, rfl⟩ := h; exact still_congr rfl rfl rfl

theorem pollAnswers_eq (h : Reached s buf es c rest u) : pollAnswers u = pollAnswers s := by
  funext n a; unfold pollAnswers; rw [h.still_eq]

theorem addressAnswers_eq (h : Reached s buf es c rest u) : addressAnswers u = addressAnswers s := by
  funext a x1 x2; unfold addressAnswers; rw [h.still_eq, h.pollAnswers_eq]

theorem bytesAnswers_eq (h : Reached s buf es c rest u) : bytesAnswers u = bytesAnswers s := by
  funext acked; unfold bytesAnswers; rw [h.pollAnswers_eq]

theorem receivedAnswers_eq (h : Reached s buf es c rest u) : receivedAnswers u = receivedAnswers s := by
  funext a; unfold receivedAnswers; rw [h.still_eq, h.pollAnswers_eq]

/-- Answers taken from the script alone. -/
theorem script_used (h : Reached s buf es c rest u) (rest' : List Nat) :
    Reached s buf es c rest' { u with script := rest' } := by
  obtain ⟨f, d, acc, hf, rfl⟩ := h; exact ⟨f, d, acc, hf, rfl⟩

/-- Answers of the clock and the script taken. -/
theorem clock_used (h : Reached s buf es c rest u) (d' : Nat) (rest' : List Nat) :
    Reached s buf es c rest' { u with now := u.now + d', script := rest' } := by
  obtain ⟨f, d, acc, hf, rfl⟩ := h
  refine ⟨f, d + d', acc, hf, ?_⟩
  simp only [advanced, Nat.add_assoc]

/-- A buffer set. -/
theorem buffer_set (h : Reached s buf es c rest u) (buf' : List Byte) :
    Reached s buf' es c rest { u with buf := buf' } := by
  obtain ⟨f, d, acc, hf, rfl⟩ := h; exact ⟨f, d, acc, hf, rfl⟩

/-- A further piece of the transfer. -/
theorem advance (h : Reached s buf es c rest u) {es' : List Event} {g : I2c → I2c} {c' : I2c} {d : Nat} {acc : Word}
    (hg : g c = c') : Reached s buf (es ++ es') c' rest' (advanced u es' g d acc rest') := by
  obtain ⟨f, d', acc', rfl, rfl⟩ := h
  exact ⟨fun i => g (f i), d' + d, acc, hg, advanced_advanced ..⟩

/-- A START on an idle bus that is acknowledged (R177). -/
theorem start {idle started : Nat × Nat}
    (h : Reached s buf es c (pollAnswers s 1 idle ++ (pollAnswers s 3 started ++ rest)) u) (opens : Opens idle started)
    (tail : List Micro) :
    ∃ v, drain (startProg 0 false ++ tail) u = drain tail v ∧
      Reached s buf (es ++ [Event.i2cStart 0]) { c with ctlr1 := 0x0001 } rest v :=
  ⟨_, drain_start tail (by rw [h.script, h.pollAnswers_eq]) opens.1 opens.2, h.advance rfl⟩

/-- `SendAddress` that is acknowledged (R178). -/
theorem address {acked : Nat × Nat} {x1 x2 : Nat} (h : Reached s buf es c (addressAnswers s acked x1 x2 ++ rest) u)
    (ack : shows acked maskAddr) (byte : Byte) (onNack : I2cStatus) (tail : List Micro) :
    ∃ v, drain (addressProg 0 byte onNack ++ tail) u = drain tail v ∧
      Reached s buf (es ++ [Event.i2cAddr 0 byte]) { c with datar := byte.setWidth 32 } rest v := by
  obtain ⟨acc, e⟩ := drain_address (byte := byte) (onNack := onNack) (rest := rest) tail
    (by rw [h.script, h.addressAnswers_eq]) ack
  exact ⟨_, e, h.advance rfl⟩

/-- Bytes sent, each acknowledged (R179). -/
theorem sent {bytes : List Byte} {acked : List (Nat × Nat)} (h : Reached s buf es c (bytesAnswers s acked ++ rest) u)
    (hl : acked.length = bytes.length) (ack : ∀ a ∈ acked, shows a maskBtf) (tail : List Micro) :
    ∃ v, drain (bytes.flatMap (sendByteProg 0) ++ tail) u = drain tail v ∧
      Reached s buf (es ++ bytes.map (Event.i2cData 0))
        { c with datar := (bytes.getLast?.map (fun b => b.setWidth 32)).getD c.datar } rest v :=
  ⟨_, drain_bytes tail bytes acked u rest hl ack (by rw [h.script, h.bytesAnswers_eq]), h.advance rfl⟩

/-- A repeated START that is acknowledged (R177). -/
theorem restart {again : Nat × Nat} (h : Reached s buf es c (pollAnswers s 3 again ++ rest) u)
    (ack : shows again maskSb) (tail : List Micro) :
    ∃ v, drain (startProg 0 true ++ tail) u = drain tail v ∧
      Reached s buf (es ++ [Event.i2cStart 0]) { c with ctlr1 := 0x0001 } rest v :=
  ⟨_, drain_restart tail (by rw [h.script, h.pollAnswers_eq]) ack, h.advance rfl⟩

/-- A write of `CTLR1` without an event (R181). -/
theorem control (h : Reached s buf es c (still s 1 ++ rest) u) (v : Word) (tail : List Micro) :
    ∃ t, drain (acts [.write (.i2c .ctlr1) (.const v)] ++ tail) u = drain tail t ∧
      Reached s buf es { c with ctlr1 := v &&& storeMask (.i2c .ctlr1) } rest t := by
  refine ⟨_, drain_act_still (rest := rest) (by rw [h.script, h.still_eq]), ?_⟩
  simp only [act, sourceValue, write_i2cCtlr1]
  rw [← List.append_nil es]
  exact (h.script_used rest).advance rfl

/-- The STOP (R180). -/
theorem stop (h : Reached s buf es c (still s 2 ++ rest) u) (tail : List Micro) :
    ∃ v, drain (stopProg 0 ++ tail) u = drain tail v ∧
      Reached s buf (es ++ [Event.i2cStop 0]) { c with ctlr1 := 0x0001 } rest v :=
  ⟨_, drain_stop tail (by rw [h.script, h.still_eq]), h.advance rfl⟩

/-- `ReceiveBytes`, each byte shown at the first poll: the buffer is the bytes drawn (R182). -/
theorem received {bytes : List ((Nat × Nat) × Nat)}
    (h : Reached s buf es c
      (bytes.dropLast.flatMap (receivedAnswers s) ++
        (still s 2 ++ (bytes.getLast?.toList.flatMap (receivedAnswers s) ++ rest))) u)
    (nonempty : bytes ≠ []) (hb : buf.length = bytes.length) (shown : ∀ a ∈ bytes, shows a.1 maskI2cRxne)
    (tail : List Micro) :
    ∃ v, drain (receiveProg 0 bytes.length ++ tail) u = drain tail v ∧
      Reached s (bytes.map fun a => BitVec.ofNat 8 a.2)
        (es ++ (bytes.dropLast.map (fun a => Event.i2cRead 0 (BitVec.ofNat 8 a.2)) ++ [Event.i2cStop 0] ++
          bytes.getLast?.toList.map (fun a => Event.i2cRead 0 (BitVec.ofNat 8 a.2))))
        { c with ctlr1 := 0x0001 } rest v := by
  obtain ⟨d, acc, e⟩ := drain_receive bytes.length tail bytes 0 u rest nonempty (Nat.zero_add _)
    (by rw [h.buffer, hb]) shown (by rw [h.script, h.still_eq, h.receivedAnswers_eq])
  rw [List.take_zero, List.nil_append] at e
  rw [receiveProg, List.range_eq_range', e]
  have next (es' : List Event) (d : Nat) (acc : Word) :
      Reached s buf (es ++ es') { c with ctlr1 := 0x0001 } rest
        (advanced u es' (fun i => { i with ctlr1 := 0x0001 }) d acc rest) := h.advance rfl
  exact ⟨_, rfl, (next _ d acc).buffer_set _⟩

/-- The response of a transfer that got through, or failed. -/
theorem ended {sent : Word} (h : Reached s buf es { s.i2c with ctlr1 := 0x0001, datar := sent } rest u) (q : Word) :
    TransferEnded s { respond u q buf with todo := [] } es q buf sent rest := by
  obtain ⟨f, d, acc, hf, rfl⟩ := h
  exact transferEnded_of q buf hf

/-- The end of a transfer that got through. -/
theorem completed {sent : Word}
    (h : Reached s buf es { s.i2c with ctlr1 := 0x0001, datar := sent } (still s 1 ++ rest) u) (q : Word) :
    TransferEnded s (drain (acts [.respondBuf q]) u) es q buf sent rest := by
  rw [drain_end (rest := rest) q (by rw [h.script, h.still_eq]), h.buffer]
  exact (h.script_used rest).ended q

/-- A byte, an address or data, whose wait sees a NACK: the STOP, and the status of that NACK (R176, R178, R179). -/
theorem refused {flag : Word} {refused : Nat × Nat} {b : Byte}
    (h : Reached s buf es c (pollAnswers s 3 refused ++ (still s 4 ++ rest)) u)
    (timing : ({ c with ctlr1 := 0x0001, datar := b.setWidth 32 } : I2c) =
      { s.i2c with ctlr1 := 0x0001, datar := b.setWidth 32 })
    (hm : (0x000004C7 : Word) &&& flag = flag) (hf : flag ≠ 0) (nack : nacks refused flag) (status : I2cStatus)
    (e : Event) (tail : List Micro) :
    TransferEnded s
      (drain (acts [.write (.i2c .datar) (.const (b.setWidth 32)), .emit e] ++
        waitStar1 0 flag (some status) :: tail) u)
      (es ++ [e, Event.i2cStop 0]) (statusWord status) buf (b.setWidth 32) rest := by
  rw [drain_refused (rest := rest) status b e tail hm hf (by rw [h.script, h.still_eq, h.pollAnswers_eq]) nack,
    h.buffer]
  exact (h.advance timing).ended _

/-- A wait that fails: the STOP and its status (R176). -/
theorem failed {sent : Word} (h : Reached s buf es c (still s 4 ++ rest) u)
    (timing : ({ c with ctlr1 := 0x0001 } : I2c) = { s.i2c with ctlr1 := 0x0001, datar := sent }) (status : I2cStatus) :
    TransferEnded s (failTransfer 0 status u) (es ++ [Event.i2cStop 0]) (statusWord status) buf sent rest := by
  rw [failTransfer_still (rest := rest) 0 status (by rw [h.script, h.still_eq]), h.buffer]
  exact (h.advance timing).ended _

/-- A bus that is busy past the deadline: STOP and `I2C_TIMEOUT` (R176, R177). -/
theorem busy {busy : Nat × Nat} {late : Nat}
    (h : Reached s buf es s.i2c (pollAnswers s 1 busy ++ (late :: (still s 4 ++ rest))) u)
    (hb : BitVec.ofNat 32 busy.2 &&& maskBusy ≠ 0) (hl : s.cfg.i2cTimeout ≤ late) (tail : List Micro) :
    TransferEnded s (drain (startProg 0 false ++ tail) u) (es ++ [Event.i2cStop 0]) 2 buf s.i2c.datar rest := by
  show TransferEnded s (drain (.awaitT ⟨0, .i2c .star2, maskBusy, 0, none⟩ :: _) u) _ _ _ _ _
  have k := h.clock_used (busy.1 + late) (still s 4 ++ rest)
  rw [drain_wait_miss (a := busy) (rest := still s 4 ++ rest) (.inr ⟨rfl, by decide⟩) rfl
    (by rw [h.script, h.pollAnswers_eq]) hb, if_pos (h.cfg ▸ hl), Nat.add_assoc]
  exact k.failed rfl .timeout

end Reached

/-! ### How a transfer begins -/

section
variable {s : State} {addr8 : Byte} {idle started address again : Nat × Nat} {x1 x2 : Nat} {acked : List (Nat × Nat)}
  {rest : List Nat}

/-- The buffer of a transfer, set before anything else. -/
theorem reached_buffer (hs : s.script = still s 1 ++ rest) (buf : List Byte) (tail : List Micro) :
    ∃ u, drain (acts [.setBuf buf] ++ tail) s = drain tail u ∧ Reached s buf [] s.i2c rest u := by
  refine ⟨_, drain_act_still hs, fun i => i, 0, s.acc, rfl, ?_⟩
  have same : onController (clocked s (.i2c .ctlr1)) (fun i => i) s.i2c = s.i2c := ite_self _
  simp only [act, advanced, List.append_nil, Nat.add_zero]
  rw [show clocked { s with buf := buf } (.i2c .ctlr1) = clocked s (.i2c .ctlr1) from rfl, same]

/-- The buffer and the START of a transfer (R177). -/
theorem reached_start (opens : Opens idle started) (hs : s.script = startAnswers s idle started ++ rest)
    (buf : List Byte) (tail : List Micro) :
    ∃ u, drain (acts [.setBuf buf] ++ (startProg 0 false ++ tail)) s = drain tail u ∧
      Reached s buf [Event.i2cStart 0] { s.i2c with ctlr1 := 0x0001 } rest u := by
  rw [startAnswers, pollAnswers_add s 1, List.append_assoc, List.append_assoc] at hs
  obtain ⟨u, begun, h⟩ := reached_buffer hs buf (startProg 0 false ++ tail)
  obtain ⟨v, opened, k⟩ := h.start opens tail
  exact ⟨v, begun.trans opened, k⟩

/-- START, the address and the bytes of a transfer, all acknowledged (R177 to R179). -/
theorem reached_sent {bytes : List Byte} (opens : Opens idle started) (ha : shows address maskAddr)
    (hl : acked.length = bytes.length) (hb : ∀ a ∈ acked, shows a maskBtf)
    (hs : s.script =
      startAnswers s idle started ++ (addressAnswers s address x1 x2 ++ (bytesAnswers s acked ++ rest)))
    (buf : List Byte) (tail : List Micro) :
    ∃ u,
      drain (acts [.setBuf buf] ++ (startProg 0 false ++ (addressProg 0 addr8 .startNack ++
          (bytes.flatMap (sendByteProg 0) ++ tail)))) s = drain tail u ∧
        Reached s buf ([Event.i2cStart 0, Event.i2cAddr 0 addr8] ++ bytes.map (Event.i2cData 0))
          { s.i2c with ctlr1 := 0x0001, datar := (bytes.getLast?.getD addr8).setWidth 32 } rest u := by
  have last : (bytes.getLast?.getD addr8).setWidth 32 =
      ((bytes.getLast?.map (fun b => b.setWidth 32)).getD (addr8.setWidth 32) : Word) := by
    cases bytes.getLast? <;> rfl
  obtain ⟨u, started, h⟩ := reached_start opens hs buf (addressProg 0 addr8 .startNack ++ (_ ++ tail))
  obtain ⟨v, addressed, k⟩ := h.address ha addr8 .startNack _
  obtain ⟨t, ended, l⟩ := k.sent hl hb tail
  exact ⟨t, (started.trans addressed).trans ended, last ▸ l⟩

/-- The events of a read before its address (R181). -/
def readOpening (addr8 : Byte) (reg : List Byte) : List Event :=
  [Event.i2cStart 0] ++
    (if reg = [] then [] else [Event.i2cAddr 0 addr8] ++ reg.map (Event.i2cData 0) ++ [Event.i2cStart 0])

/-- The answers by which the register bytes of a read are acknowledged, and the repeated START (R181). -/
def RegisterAcked (reg : List Byte) (address again : Nat × Nat) (acked : List (Nat × Nat)) : Prop :=
  shows address maskAddr ∧ acked.length = reg.length ∧ (∀ a ∈ acked, shows a maskBtf) ∧ shows again maskSb

/-- The registers of a controller but for `CTLR1` and `DATAR` are those of i. -/
def SameTiming (i c : I2c) : Prop :=
  ∀ a b, ({ c with ctlr1 := a, datar := b } : I2c) = { i with ctlr1 := a, datar := b }

/-- A read up to its mode: the register bytes and a repeated START, or a plain START (R181). -/
theorem reached_prologue {reg : List Byte} (opens : Opens idle started) (sent : RegisterAcked reg address again acked)
    (hs : s.script =
      startAnswers s idle started ++
        ((if reg = [] then [] else addressAnswers s address x1 x2 ++ bytesAnswers s acked ++ pollAnswers s 3 again) ++
          rest))
    (buf : List Byte) (tail : List Micro) :
    ∃ u c, drain (acts [.setBuf buf] ++ (readPrologue 0 addr8 reg ++ tail)) s = drain tail u ∧
      SameTiming s.i2c c ∧ Reached s buf (readOpening addr8 reg) c rest u := by
  obtain ⟨ha, hl, hb, hagain⟩ := sent
  by_cases plain : reg = []
  · rw [if_pos plain] at hs
    rw [readPrologue, readOpening, if_pos plain, if_pos plain]
    obtain ⟨u, e, h⟩ := reached_start opens hs buf tail
    refine ⟨u, _, e, ?_, h⟩
    exact fun _ _ => rfl
  · rw [if_neg plain] at hs
    rw [readPrologue, readOpening, if_neg plain, if_neg plain]
    simp only [List.append_assoc] at hs ⊢
    obtain ⟨u, sent, h⟩ := reached_sent (addr8 := addr8) opens ha hl hb hs buf (startProg 0 true ++ tail)
    obtain ⟨v, restarted, k⟩ := h.restart hagain tail
    rw [List.append_assoc] at k
    refine ⟨v, _, sent.trans restarted, ?_, k⟩
    exact fun _ _ => rfl

/-- A read up to its address, with the acknowledge of the bytes to come selected (R181). -/
theorem reached_readAddress {reg : List Byte} (opens : Opens idle started)
    (sent : RegisterAcked reg address again acked)
    (hs : s.script =
      startAnswers s idle started ++
        ((if reg = [] then [] else addressAnswers s address x1 x2 ++ bytesAnswers s acked ++ pollAnswers s 3 again) ++
          (still s 1 ++ rest)))
    (n : Nat) :
    ∃ u c,
      drain (i2cReadProg 0 addr8 reg n) s =
        drain (addressProg 0 (addr8 ||| 1) (readNack reg) ++
          (receiveProg 0 n ++ acts [.respondBuf (statusWord .ok)])) u ∧
      SameTiming s.i2c c ∧ Reached s (List.replicate n 0) (readOpening addr8 reg) c rest u := by
  simp only [i2cReadProg, List.append_assoc]
  obtain ⟨u, c, prologue, timing, h⟩ := reached_prologue (addr8 := addr8) opens sent hs (List.replicate n 0) _
  obtain ⟨v, mode, k⟩ := h.control (if n > 1 then ctlr1Ack else ctlr1Pe) _
  refine ⟨v, _, prologue.trans mode, ?_, k⟩
  exact fun a b => timing a b

end

/-! ### The commands -/

/-- A command that sends bytes runs the same pieces up to the last of them, whatever follows (R180, R181). -/
theorem exec_sendsBytes {s : State} {i : Instr} {addr8 : Byte} {bytes payload : List Byte}
    (check : i2cBusHalt s.cfg 0 = none) (h : sendsBytes i addr8 bytes payload) :
    ∃ tail, exec i s = .next (drain (acts [.setBuf payload] ++ (startProg 0 false ++
      (addressProg 0 addr8 .startNack ++ (bytes.flatMap (sendByteProg 0) ++ tail)))) s) := by
  rcases h with ⟨rfl, rfl⟩ | ⟨len, hlen, some, rfl, rfl⟩
  · rw [exec_i2cWrite check]
    simp only [i2cWriteProg, List.append_assoc]
    exact ⟨_, rfl⟩
  · rw [exec_i2cRead check _ _ hlen]
    simp only [i2cReadProg, readPrologue, if_neg some, List.append_assoc]
    exact ⟨_, rfl⟩

/-- Every transfer begins with its buffer and a START (R180, R181). -/
theorem exec_startsTransfer {s : State} {i : Instr} {payload : List Byte} (check : i2cBusHalt s.cfg 0 = none)
    (h : (∃ addr8 bytes, i = .i2cWrite 0 addr8 bytes ∧ payload = []) ∨
      (∃ addr8 reg len, len ≠ 0 ∧ i = .i2cRead 0 addr8 reg len ∧ payload = List.replicate len.toNat 0)) :
    ∃ tail, exec i s = .next (drain (acts [.setBuf payload] ++ (startProg 0 false ++ tail)) s) := by
  rcases h with ⟨addr8, bytes, rfl, rfl⟩ | ⟨addr8, reg, len, hlen, rfl, rfl⟩
  · rw [exec_i2cWrite check]
    simp only [i2cWriteProg, List.append_assoc]
    exact ⟨_, rfl⟩
  · rw [exec_i2cRead check _ _ hlen]
    unfold i2cReadProg readPrologue
    split
    · simp only [List.append_assoc]
      exact ⟨_, rfl⟩
    · simp only [List.append_assoc]
      exact ⟨_, rfl⟩

/-- Settles O28: START, address and bytes as sent, the STOP, the response. -/
theorem i2cWriteCompletes : Obligations.I2cWriteCompletes := by
  intro s addr8 bytes idle started address x1 x2 acked rest hn hp hl hidle hst ha hb hs
  rw [still_add s 2 1] at hs
  simp only [List.append_assoc] at hs
  refine ⟨_, exec_i2cWrite (i2cBusHalt_present hn hp) addr8 bytes, ?_⟩
  simp only [i2cWriteProg, List.append_assoc]
  obtain ⟨u, sent, h⟩ := reached_sent (addr8 := addr8) ⟨hidle, hst⟩ ha hl hb hs [] _
  obtain ⟨v, stopped, k⟩ := h.stop (acts [.respondBuf (statusWord .ok)])
  rw [sent, stopped, ← List.append_assoc]
  exact k.completed 0

/-- The status of a NACK of the read address (R181, 30_encoding R100). -/
theorem statusWord_readNack (reg : List Byte) : statusWord (readNack reg) = if reg = [] then 3 else 4 := by
  unfold readNack; split <;> rfl

/-- Settles O29: the answers before the refused one get the transfer to its wait, which ends it through `Fail`. -/
theorem i2cWriteFailsWithAStatus : Obligations.I2cWriteFailsWithAStatus := by
  refine ⟨?_, ?_, ?_, ?_⟩
  · intro s i addr8 bytes payload idle started address rest hn hp hi hidle hst nack hs
    simp only [List.append_assoc] at hs
    obtain ⟨tail, e⟩ := exec_sendsBytes (i2cBusHalt_present hn hp) hi
    obtain ⟨u, started, h⟩ :=
      reached_start ⟨hidle, hst⟩ hs payload (addressProg 0 addr8 .startNack ++ (_ ++ tail))
    refine ⟨_, e, ?_⟩
    rw [started]
    exact h.refused rfl (by decide) (by decide) nack .startNack (Event.i2cAddr 0 addr8) _
  · intro s i payload busy late rest hn hp hi hb hl hs
    simp only [List.append_assoc] at hs
    obtain ⟨tail, e⟩ := exec_startsTransfer (i2cBusHalt_present hn hp) hi
    rw [pollAnswers_add s 1, List.append_assoc] at hs
    obtain ⟨u, begun, h⟩ := reached_buffer hs payload (startProg 0 false ++ tail)
    refine ⟨_, e, ?_⟩
    rw [begun]
    exact h.busy hb hl tail
  · intro s i addr8 x sent unsent payload idle started address x1 x2 acked refused rest hn hp hi hl hidle hst ha hb
      nack hs
    simp only [List.append_assoc] at hs
    obtain ⟨tail, e⟩ := exec_sendsBytes (i2cBusHalt_present hn hp) hi
    rw [List.flatMap_append, List.flatMap_cons, List.append_assoc, List.append_assoc] at e
    obtain ⟨u, reached, h⟩ :=
      reached_sent (addr8 := addr8) ⟨hidle, hst⟩ ha hl hb hs payload (sendByteProg 0 x ++ _)
    refine ⟨_, e, ?_⟩
    rw [reached, List.map_append, List.append_assoc, List.append_assoc, ← List.append_assoc]
    exact h.refused rfl (by decide) (by decide) nack .nack (Event.i2cData 0 x) _
  · intro s addr8 reg len idle started address again refused x1 x2 acked rest hn hp hlen hl hidle hst ha hb hagain
      nack hs
    iterate 4 rw [List.append_assoc] at hs
    obtain ⟨u, c, reached, timing, h⟩ :=
      reached_readAddress (addr8 := addr8) ⟨hidle, hst⟩ ⟨ha, hl, hb, hagain⟩ hs len.toNat
    refine ⟨_, exec_i2cRead (i2cBusHalt_present hn hp) addr8 reg hlen, ?_⟩
    rw [reached, ← statusWord_readNack]
    exact h.refused (timing _ _) (by decide) (by decide) nack (readNack reg) (Event.i2cAddr 0 (addr8 ||| 1)) _

/-- Settles O30: the read address, the bytes with the STOP before the last, the response with all of them. -/
theorem i2cReadCompletes : Obligations.I2cReadCompletes := by
  intro s addr8 reg len idle started address again readAddress x1 x2 y1 y2 acked received rest hn hp hlen hl hr hidle
    hst ha hb hagain hread hrx hs
  iterate 7 rw [List.append_assoc] at hs
  have nonempty : received ≠ [] := by
    rintro rfl
    exact hlen (BitVec.eq_of_toNat_eq hr.symm)
  obtain ⟨u, c, opened, timing, h⟩ :=
    reached_readAddress (addr8 := addr8) ⟨hidle, hst⟩ ⟨ha, hl, hb, hagain⟩ hs received.length
  obtain ⟨v, addressed, k⟩ := h.address hread (addr8 ||| 1) (readNack reg)
    (receiveProg 0 received.length ++ acts [.respondBuf (statusWord .ok)])
  obtain ⟨t, latched, l⟩ := k.received nonempty List.length_replicate hrx (acts [.respondBuf (statusWord .ok)])
  refine ⟨_, exec_i2cRead (i2cBusHalt_present hn hp) addr8 reg hlen, ?_⟩
  rw [← hr, opened, addressed, latched]
  rw [timing] at l
  have done := l.completed 0
  simp only [List.append_assoc, readOpening] at done ⊢
  exact done

end Sys2Proof.Machine

/-!
PROOFS. `I2C_SETUP` (42_i2c R170, R172, R173): the gate of the controller, the two pins, the timing, the response.
-/
namespace Sys2Proof.Machine

/-! ### The state a configured controller differs in -/

/-- s with the gate register of the controller, its registers and its initialised flag replaced. -/
def setController (s : State) (gate : Word) (i : I2c) (init : Bool) : State :=
  { s with rcc := { s.rcc with apb1pcenr := gate }, i2c := i, i2cInit := init }

/-- A pin step is one of the states with the same controller set too. -/
theorem PinStepOn.setController {ls ns : List Pin} {s t : State} (h : PinStepOn ls ns s t) (gate : Word) (i : I2c)
    (init : Bool) : PinStepOn ls ns (setController s gate i init) (setController t gate i init) := by
  obtain ⟨⟨frame, only⟩, latches, nibbles⟩ := h
  refine ⟨⟨?_, only⟩, latches, nibbles⟩
  unfold Machine.setController
  rw [frame]

theorem PinStep.i2c {s t : State} (h : PinStep s t) : t.i2c = s.i2c := by rw [h.1]
theorem PinStep.i2cInit {s t : State} (h : PinStep s t) : t.i2cInit = s.i2cInit := by rw [h.1]
theorem PinStep.apb1pcenr {s t : State} (h : PinStep s t) : t.rcc.apb1pcenr = s.rcc.apb1pcenr := by rw [h.1]

/-! ### The gate of the controller (10_state R43) -/

/-- Of `APB1PCENR` bit 21 alone is stored (log 7), so its other bits as read are lost. -/
theorem openGate_stored (w : Word) : (w ||| (0x00200000 : Word)) &&& storeMask (.rcc .apb1pcenr) = 1#32 <<< 21 := by
  show (w ||| 1#32 <<< 21) &&& 1#32 <<< 21 = 1#32 <<< 21
  apply BitVec.eq_of_getLsbD_eq
  intro n hn
  rw [BitVec.getLsbD_and, BitVec.getLsbD_or]
  cases (1#32 <<< 21).getLsbD n <;> simp

/-- The gate of the controller, opened by a read and a write of `APB1PCENR`. -/
theorem runActs_openGate (s : State) :
    ∃ u, PinStepOn [] [] s u ∧ u.rcc = s.rcc ∧
      runActs (setBits (.rcc .apb1pcenr) 0x00200000) s = setController u (1#32 <<< 21) u.i2c u.i2cInit := by
  have read := (pinStepOn_boundary s).trans (pinStepOn_read (boundary s) (.rcc .apb1pcenr))
  refine ⟨_, read.trans (pinStepOn_boundary _), by simp [act], ?_⟩
  simp only [setBits, runActs_cons, runActs_nil]
  generalize boundary (act (boundary s) (.read (.rcc .apb1pcenr))) = u
  have stored : act u (.write (.rcc .apb1pcenr) (.update 0 0x00200000)) =
      setController u ((u.acc &&& ~~~0 ||| 0x00200000) &&& storeMask (.rcc .apb1pcenr)) u.i2c u.i2cInit := rfl
  rw [stored, openGate_stored]

/-! ### The registers of the controller (10_state R44) -/

/-- A write to one of the controller's registers, masked to its stored bits (20_memory R76). -/
def storeI2c (i : I2c) (r : I2cReg) (v : Word) : I2c :=
  let w := v &&& storeMask (.i2c r)
  match r with
  | .ctlr1 => { i with ctlr1 := w }
  | .ctlr2 => { i with ctlr2 := w }
  | .datar => { i with datar := w }
  | .star1 => i
  | .star2 => i
  | .ckcfgr => { i with ckcfgr := w }
  | .rtr => { i with rtr := w }

theorem writeReg_i2c {s : State} (gated : clocked s (.i2c .ctlr1) = true) (r : I2cReg) (v : Word) :
    writeReg s (.i2c r) v = { s with i2c := storeI2c s.i2c r v } := by
  rw [writeReg_clocked (r := .i2c r) gated]
  cases r <;> rfl

/-- Register writes of the controller as actions. -/
def i2cWrites (ws : List (I2cReg × Word)) : List Action := ws.map fun w => .write (.i2c w.1) (.const w.2)

theorem same_storeI2c {s t : State} (h : SameButInterrupts s t) (i : I2c) :
    SameButInterrupts { s with i2c := i } { t with i2c := i } := by
  unfold SameButInterrupts; rw [h]

/-- Writes to a gated controller change its registers one after another, and no other one. -/
theorem runActs_i2cWrites (ws : List (I2cReg × Word)) (s : State) (gated : clocked s (.i2c .ctlr1) = true) :
    SameButInterrupts { s with i2c := ws.foldl (fun i w => storeI2c i w.1 w.2) s.i2c } (runActs (i2cWrites ws) s) ∧
      UartInterruptsOnly s (runActs (i2cWrites ws) s) := by
  induction ws generalizing s with
  | nil => exact ⟨rfl, interruptsOnly_of_eq rfl rfl⟩
  | cons w ws ih =>
    have gated' : clocked (boundary s) (.i2c .ctlr1) = true := (clocked_boundary s _).trans gated
    have written : act (boundary s) (.write (.i2c w.1) (.const w.2)) =
        { boundary s with i2c := storeI2c s.i2c w.1 w.2 } := by
      simp only [act, sourceValue, writeReg_i2c gated', boundary_i2c]
    obtain ⟨same, only⟩ := ih { boundary s with i2c := storeI2c s.i2c w.1 w.2 } gated'
    rw [i2cWrites, List.map_cons, runActs_cons, written]
    exact ⟨same_trans (same_storeI2c (boundary_same s) _) same, interruptsOnly_trans (boundary_only s) only⟩

/-! ### The timing (R172, R173) -/

/-- A number below 2^k passes a mask whose low k bits are set. -/
theorem ofNat_and_mask {n k : Nat} {mask : Word} (hn : n < 2 ^ k) (hm : ∀ i < k, mask.getLsbD i = true) :
    BitVec.ofNat 32 n &&& mask = BitVec.ofNat 32 n := by
  apply BitVec.eq_of_getLsbD_eq
  intro i hi
  rw [BitVec.getLsbD_and]
  by_cases low : i < k
  · rw [hm i low, Bool.and_true]
  · have high : n.testBit i = false :=
      Nat.testBit_lt_two_pow (hn.trans_le (Nat.pow_le_pow_right (by decide) (Nat.le_of_not_lt low)))
    rw [BitVec.getLsbD_ofNat, high, Bool.and_false, Bool.false_and]

theorem i2cFreq_stored (cfg : Config) :
    BitVec.ofNat 32 (i2cFreq cfg) &&& storeMask (.i2c .ctlr2) = BitVec.ofNat 32 (i2cFreq cfg) :=
  ofNat_and_mask (k := 6) (by unfold i2cFreq; omega) (by decide)

theorem i2cTrise_stored (cfg : Config) :
    BitVec.ofNat 32 (i2cTrise cfg) &&& storeMask (.i2c .rtr) = BitVec.ofNat 32 (i2cTrise cfg) :=
  ofNat_and_mask (k := 6) (by unfold i2cTrise; omega) (by decide)

theorem i2cCcr_lt (cfg : Config) (rate : Nat) : i2cCcr cfg rate < 2 ^ 12 := by
  unfold i2cCcr
  dsimp only
  split <;> omega

theorem i2cCcr_stored (cfg : Config) (rate : Nat) :
    BitVec.ofNat 32 (i2cCcr cfg rate) &&& storeMask (.i2c .ckcfgr) = BitVec.ofNat 32 (i2cCcr cfg rate) :=
  ofNat_and_mask (i2cCcr_lt cfg rate) (by decide)

/-- The result word of the setup, `addr7 << 1` (R170; 30_encoding R97). -/
theorem wireAddress_word (addr7 : BitVec 7) : (wireAddress addr7).setWidth 32 = BitVec.ofNat 32 (2 * addr7.toNat) := by
  apply BitVec.eq_of_toNat_eq
  have := addr7.isLt
  simp only [wireAddress, BitVec.toNat_setWidth, BitVec.toNat_shiftLeft, BitVec.toNat_ofNat, Nat.shiftLeft_eq]
  omega

/-- The register writes of the setup, in order (R170). -/
def timingWrites (cfg : Config) (rate : Word) : List (I2cReg × Word) :=
  [(.ctlr1, 0), (.ctlr2, BitVec.ofNat 32 (i2cFreq cfg)), (.ckcfgr, BitVec.ofNat 32 (i2cCcr cfg rate.toNat)),
    (.rtr, BitVec.ofNat 32 (i2cTrise cfg)), (.ctlr1, ctlr1Pe)]

/-- The controller as the setup leaves it. -/
def configuredI2c (cfg : Config) (rate : Word) (i : I2c) : I2c :=
  ⟨0x0001, BitVec.ofNat 32 (i2cFreq cfg), i.datar, BitVec.ofNat 32 (i2cCcr cfg rate.toNat),
    BitVec.ofNat 32 (i2cTrise cfg)⟩

theorem timingWrites_store (cfg : Config) (rate : Word) (i : I2c) :
    (timingWrites cfg rate).foldl (fun i w => storeI2c i w.1 w.2) i = configuredI2c cfg rate i := by
  have pe : ctlr1Pe &&& storeMask (.i2c .ctlr1) = 0x0001 := by decide
  simp only [timingWrites, List.foldl_cons, List.foldl_nil, storeI2c, i2cFreq_stored, i2cCcr_stored, i2cTrise_stored,
    pe]
  rfl

/-! ### The configuration as a whole -/

theorem i2cConfigure_eq (cfg : Config) (rate : Word) :
    i2cConfigure cfg rate =
      setBits (.rcc .apb1pcenr) 0x00200000 ++ (pinPeripheral cfg.i2cScl nibAfOd50 true ++
        (pinPeripheral cfg.i2cSda nibAfOd50 true ++ (i2cWrites (timingWrites cfg rate) ++ [.setI2cInit]))) := by
  simp only [i2cConfigure, List.append_assoc]
  rfl

/-- The bus's two pins are apart (00_scope R7). -/
theorem i2cPins_apart {cfg : Config} (ok : configOk cfg = true) : cfg.i2cScl ≠ cfg.i2cSda := by
  have distinct := (configOk_pins ok).1
  intro same
  have tail := (List.nodup_append.mp distinct).2.1
  rw [same] at tail
  simp at tail

/-- Two pins configured as the controller's, one after the other (40_gpio R134). -/
theorem busPins_spec (s : State) (scl sda : Pin) (apart : scl ≠ sda) (hc : s.inCritical = false) :
    let t := runActs (pinPeripheral sda nibAfOd50 true) (runActs (pinPeripheral scl nibAfOd50 true) s)
    PinStepOn [scl, sda] [scl, sda] s t ∧
      t.rcc.apb2pcenr = s.rcc.apb2pcenr ||| 1#32 <<< (2 + scl.port.val) ||| 1#32 <<< (2 + sda.port.val) ∧
      latch t scl = true ∧ latch t sda = true ∧ nibble t scl = 0xF ∧ nibble t sda = 0xF := by
  obtain ⟨first, gate1, level1, mode1⟩ := pinPeripheral_spec s scl nibAfOd50 true hc
  obtain ⟨second, gate2, level2, mode2⟩ :=
    pinPeripheral_spec (runActs (pinPeripheral scl nibAfOd50 true) s) sda nibAfOd50 true (first.1.inCritical.trans hc)
  exact ⟨first.trans second, gate2.trans (by rw [gate1]),
    (latch_kept second.2.1 (by simpa using apart)).trans (level1 rfl), level2 rfl,
    (nibble_kept second.2.2 (by simpa using apart)).trans mode1, mode2⟩

/-- The timing of a gated controller and its initialised flag (R170). -/
theorem runActs_timing (s : State) (cfg : Config) (rate : Word) (gated : clocked s (.i2c .ctlr1) = true) :
    let t := runActs (i2cWrites (timingWrites cfg rate) ++ [.setI2cInit]) s
    SameButInterrupts { s with i2c := configuredI2c cfg rate s.i2c, i2cInit := true } t ∧ UartInterruptsOnly s t := by
  obtain ⟨same, only⟩ := runActs_i2cWrites (timingWrites cfg rate) s gated
  rw [timingWrites_store] at same
  rw [runActs_append]
  generalize runActs (i2cWrites (timingWrites cfg rate)) s = u at same only
  refine ⟨?_, interruptsOnly_trans only (boundary_only u)⟩
  have ended := same_trans same (boundary_same u)
  show SameButInterrupts _ { boundary u with i2cInit := true }
  unfold SameButInterrupts
  rw [ended]

/-- The first setup up to its response: the pins as `PinPeripheral` leaves them, the controller gated and configured. -/
theorem i2cConfigure_spec (s : State) (rate : Word) (ok : configOk s.cfg = true) (hc : s.inCritical = false) :
    let t := runActs (i2cConfigure s.cfg rate) s
    PinStepOn [s.cfg.i2cScl, s.cfg.i2cSda] [s.cfg.i2cScl, s.cfg.i2cSda]
        (setController s (1#32 <<< 21) (configuredI2c s.cfg rate s.i2c) true) t ∧
      t.rcc.apb2pcenr =
        s.rcc.apb2pcenr ||| 1#32 <<< (2 + s.cfg.i2cScl.port.val) ||| 1#32 <<< (2 + s.cfg.i2cSda.port.val) ∧
      latch t s.cfg.i2cScl = true ∧ latch t s.cfg.i2cSda = true ∧ nibble t s.cfg.i2cScl = 0xF ∧
      nibble t s.cfg.i2cSda = 0xF := by
  intro t
  obtain ⟨u, opened, rcc, gate⟩ := runActs_openGate s
  have controller : u.i2c = s.i2c := opened.1.i2c
  obtain ⟨pins, ports, levelScl, levelSda, modeScl, modeSda⟩ :=
    busPins_spec (setController u (1#32 <<< 21) u.i2c u.i2cInit) s.cfg.i2cScl s.cfg.i2cSda (i2cPins_apart ok)
      (opened.1.inCritical.trans hc)
  have e : t = runActs (i2cWrites (timingWrites s.cfg rate) ++ [.setI2cInit])
      (runActs (pinPeripheral s.cfg.i2cSda nibAfOd50 true) (runActs (pinPeripheral s.cfg.i2cScl nibAfOd50 true)
        (setController u (1#32 <<< 21) u.i2c u.i2cInit))) := by
    simp only [t, i2cConfigure_eq, runActs_append, gate]
  generalize runActs (pinPeripheral s.cfg.i2cSda _ true) (runActs _ _) = v
    at pins ports levelScl levelSda modeScl modeSda e
  have gateBit : v.rcc.apb1pcenr = 1#32 <<< 21 := pins.1.apb1pcenr
  have registers : v.i2c = s.i2c := pins.1.i2c.trans controller
  obtain ⟨same, only⟩ := runActs_timing v s.cfg rate (by simp [clocked, gateBit])
  rw [← e] at same only
  have set : { v with i2c := configuredI2c s.cfg rate v.i2c, i2cInit := true } =
      setController v (1#32 <<< 21) (configuredI2c s.cfg rate s.i2c) true := by
    rw [← gateBit, registers]; rfl
  rw [set] at same
  have steps := (opened.setController (1#32 <<< 21) (configuredI2c s.cfg rate s.i2c) true).trans
    (pins.setController (1#32 <<< 21) (configuredI2c s.cfg rate s.i2c) true)
  have gpio : t.gpio = v.gpio := by rw [same_gpio same]; rfl
  refine ⟨steps.trans (pinStepOn_of_same same only), ?_, (latch_congr gpio _).trans levelScl,
    (latch_congr gpio _).trans levelSda, (nibble_congr gpio _).trans modeScl, (nibble_congr gpio _).trans modeSda⟩
  calc t.rcc.apb2pcenr
      = v.rcc.apb2pcenr := by rw [same_rcc same]; rfl
    _ = u.rcc.apb2pcenr ||| 1#32 <<< (2 + s.cfg.i2cScl.port.val) ||| 1#32 <<< (2 + s.cfg.i2cSda.port.val) := ports
    _ = _ := by rw [rcc]

/-- Settles O26: the first setup configures and responds, a later one only responds. -/
theorem i2cSetupConfiguresOnce : Obligations.I2cSetupConfiguresOnce := by
  intro s addr7 rate ok hc hn hp
  have meaning := exec_i2cSetup (i2cBusHalt_present hn hp) addr7 rate
  rw [i2cSetupActs, wireAddress_word] at meaning
  refine ⟨fun fresh => ?_, fun initialised => ?_⟩
  · rw [fresh, if_neg Bool.false_ne_true, runActs_append] at meaning
    obtain ⟨steps, gates, levelScl, levelSda, modeScl, modeSda⟩ := i2cConfigure_spec s rate ok hc
    obtain ⟨frame, responded, latches, nibbles, gpio, rcc⟩ :=
      respond_spec _ _ (BitVec.ofNat 32 (2 * addr7.toNat)) _ _ steps
    generalize runActs [.respond _] _ = t at meaning frame responded latches nibbles gpio rcc
    have gate : t.rcc.apb1pcenr = 1#32 <<< 21 := by rw [frame.1]; rfl
    have registers : t.i2c = configuredI2c s.cfg rate s.i2c := by rw [frame.1]; rfl
    refine ⟨t, meaning, by rw [frame.1]; rfl, gate, (congrArg Rcc.apb2pcenr rcc).trans gates,
      (latch_congr gpio _).trans levelScl, (latch_congr gpio _).trans levelSda, (nibble_congr gpio _).trans modeScl,
      (nibble_congr gpio _).trans modeSda, latches, nibbles, registers, responded, ?_⟩
    rw [gate, registers]
    exact frame
  · rw [initialised, if_pos rfl, List.nil_append] at meaning
    have nothing : PinStepOn [] [] s s := pinStepOn_of_same rfl (interruptsOnly_of_eq rfl rfl)
    obtain ⟨frame, responded, -, -, gpio, rcc⟩ := respond_spec s s (BitVec.ofNat 32 (2 * addr7.toNat)) [] [] nothing
    exact ⟨_, meaning, responded, frame, gpio, rcc⟩

end Sys2Proof.Machine

/-!
PROOFS. The SPI commands without waits (43_spi R200 to R204): the bus check, the divisor, the setup, the control word.
-/
namespace Sys2Proof.Machine

/-! ### The bus check (R203) -/

/-- The bus check of the SPI commands is the one of the table of halt causes (60_exceptions R261). -/
theorem spiBusHalt_eq (cfg : Config) (bus : Byte) : spiBusHalt cfg bus = busCause cfg.nSpi cfg.spiPresent bus := rfl

/-- An SPI command on a bus; a control word that the configuration can produce (60_exceptions R265 (c)). -/
def IsSpiCommand (cfg : Config) (bus : Byte) (i : Instr) : Prop :=
  (∃ mode rate, i = .spiSetup bus mode rate) ∨
    (∃ ctrl, isSpiCtrl cfg ctrl = true ∧ i = .spiPrepare bus ctrl) ∨
    (∃ readBack bytes, i = .spiTransfer bus readBack bytes)

/-- An SPI command whose bus check fails halts before any effect. -/
theorem spiCommand_halts {s : State} {i : Instr} {bus : Byte} {code : HaltCode} (hi : IsSpiCommand s.cfg bus i)
    (cause : spiBusHalt s.cfg bus = some code) : ∃ t, exec i s = .next t ∧ HaltedBy code s t := by
  refine ⟨haltCommand s code, ?_, haltCommand_haltedBy s code⟩
  rcases hi with ⟨mode, rate, rfl⟩ | ⟨ctrl, producible, rfl⟩ | ⟨readBack, bytes, rfl⟩
  · simp only [exec, execSpiSetup, cause]
  · simp only [exec, execSpiPrepare, if_pos producible, cause]
  · simp only [exec, execSpiTransfer, cause]

/-- Settles O38: the bus check comes before the command's actions. -/
theorem spiBusErrorsHalt : Obligations.SpiBusErrorsHalt := by
  intro s i bus hi
  refine ⟨fun high => spiCommand_halts hi ?_, fun low absent => spiCommand_halts hi ?_⟩
  · rw [spiBusHalt_eq, busCause_invalid high]
  · rw [spiBusHalt_eq, absent, busCause_absent low]

/-- Bus 0 of a configuration with the controller present passes the bus check. -/
theorem spiBusHalt_present {cfg : Config} (hn : 0 < cfg.nSpi) (hp : cfg.spiPresent = true) :
    spiBusHalt cfg 0 = none := by
  rw [spiBusHalt_eq, hp, busCause_present hn]

theorem exec_spiSetup {s : State} (check : spiBusHalt s.cfg 0 = none) (mode : BitVec 2) (rate : Word) :
    exec (.spiSetup 0 mode rate) s = .next (runActs (spiSetupActs s mode rate) s) := by
  simp only [exec, execSpiSetup, check]

theorem exec_spiPrepare {s : State} (check : spiBusHalt s.cfg 0 = none) {ctrl : BitVec 16}
    (producible : isSpiCtrl s.cfg ctrl = true) :
    exec (.spiPrepare 0 ctrl) s = .next (runActs (spiPrepareActs s (ctrl.setWidth 32)) s) := by
  simp only [exec, execSpiPrepare, if_pos producible, check]

theorem exec_spiTransfer {s : State} (check : spiBusHalt s.cfg 0 = none) (readBack : Bool) (bytes : List Byte) :
    exec (.spiTransfer 0 readBack bytes) s = .next (drain (spiTransferProg 0 readBack bytes) s) := by
  simp only [exec, execSpiTransfer, check]

/-! ### The divisor (R201, R202) -/

/-- The divisors are the powers of two from 2 to 128 (30_encoding R99). -/
theorem mem_spiDivisors_iff {d : Nat} : d ∈ spiDivisors ↔ ∃ k, 1 ≤ k ∧ k ≤ 7 ∧ d = 2 ^ k := by
  constructor
  · intro h
    have all : ∀ d ∈ spiDivisors, 1 ≤ Nat.log2 d ∧ Nat.log2 d ≤ 7 ∧ d = 2 ^ Nat.log2 d := by decide
    exact ⟨Nat.log2 d, all d h⟩
  · rintro ⟨k, least, greatest, rfl⟩
    interval_cases k <;> decide

/-- The loop from 2^j up to 2^m, with fuel for every doubling between them, stops at the first 2^k whose clock does not
exceed the rate, or at the ceiling. -/
theorem doubleDivisor_spec (clk rate m fuel j : Nat) (hj : j ≤ m) (enough : m ≤ j + fuel) :
    ∃ k, j ≤ k ∧ k ≤ m ∧ doubleDivisor (2 ^ m) clk rate fuel (2 ^ j) = 2 ^ k ∧ (clk / 2 ^ k ≤ rate ∨ k = m) ∧
      ∀ i, j ≤ i → i < k → rate < clk / 2 ^ i := by
  induction fuel generalizing j with
  | zero => exact ⟨j, le_rfl, hj, rfl, .inr (by omega), fun i _ _ => by omega⟩
  | succ fuel ih =>
    rw [doubleDivisor]
    split
    next more =>
      have below : j < m := (Nat.pow_lt_pow_iff_right (by decide)).mp more.1
      obtain ⟨k, low, high, found, stop, faster⟩ := ih (j + 1) below (by omega)
      refine ⟨k, by omega, high, by rw [← Nat.pow_succ']; exact found, stop, fun i hi hk => ?_⟩
      rcases hi.eq_or_lt with rfl | above
      · exact more.2
      · exact faster i above hk
    next stop =>
      refine ⟨j, le_rfl, hj, rfl, ?_, fun i _ _ => by omega⟩
      by_contra neither
      obtain ⟨exceeds, notLast⟩ := not_or.mp neither
      exact stop ⟨Nat.pow_lt_pow_right (by decide) (by omega), Nat.lt_of_not_le exceeds⟩

/-- Settles O35: the range of a configuration runs from 2^j to 2^m, and the six doublings are enough for it. -/
theorem selectedDivisorIsTheSmallest : Obligations.SelectedDivisorIsTheSmallest := by
  refine ⟨fun cfg clk rate ok => ?_, rfl, rfl⟩
  have shape := configOk_shape ok
  obtain ⟨leastIn, -, ordered⟩ := of_decide_eq_true shape.least
  obtain ⟨greatestIn, -, -⟩ := of_decide_eq_true shape.greatest
  obtain ⟨j, j1, j7, hmin⟩ := mem_spiDivisors_iff.mp leastIn
  obtain ⟨m, m1, m7, hmax⟩ := mem_spiDivisors_iff.mp greatestIn
  rw [selectDivisor]
  rw [hmin, hmax] at ordered ⊢
  have le_iff : ∀ {a b : Nat}, 2 ^ a ≤ 2 ^ b ↔ a ≤ b := Nat.pow_le_pow_iff_right (by decide)
  have lt_iff : ∀ {a b : Nat}, 2 ^ a < 2 ^ b ↔ a < b := Nat.pow_lt_pow_iff_right (by decide)
  obtain ⟨k, low, high, found, stop, faster⟩ := doubleDivisor_spec clk rate m 6 j (le_iff.mp ordered) (by omega)
  rw [found]
  refine ⟨mem_spiDivisors_iff.mpr ⟨k, by omega, by omega, rfl⟩, le_iff.mpr low, le_iff.mpr high,
    stop.imp_right (congrArg (2 ^ ·)), fun d hd above below => ?_, fun above => ?_⟩
  · obtain ⟨i, -, -, rfl⟩ := mem_spiDivisors_iff.mp hd
    exact faster i (le_iff.mp above) (lt_iff.mp below)
  · have notLeast : j < k := lt_iff.mp above
    have half : 2 ^ k / 2 ^ 1 = 2 ^ (k - 1) := Nat.pow_div (by omega) Nat.two_pos
    exact half ▸ faster (k - 1) (by omega) (by omega)

/-! ### The setup (R200) -/

/-- A pin step is one of the states with the controller initialised too. -/
theorem PinStepOn.setSpiInit {ls ns : List Pin} {s t : State} (h : PinStepOn ls ns s t) :
    PinStepOn ls ns { s with spiInit := true } { t with spiInit := true } := by
  obtain ⟨⟨frame, only⟩, latches, nibbles⟩ := h
  refine ⟨⟨?_, only⟩, latches, nibbles⟩
  rw [frame]

/-- The bus's three pins are apart (00_scope R7). -/
theorem spiPins_nodup {cfg : Config} (ok : configOk cfg = true) : [cfg.spiSck, cfg.spiMosi, cfg.spiMiso].Nodup := by
  have part : [cfg.spiSck, cfg.spiMosi, cfg.spiMiso] <:+: ownedPins cfg :=
    ⟨cfg.motorHi.toList ++ cfg.motorLo.toList ++ [cfg.i2cScl, cfg.i2cSda], [cfg.uartTx, cfg.uartRx],
      by simp [ownedPins]⟩
  exact (configOk_pins ok).1.sublist part.sublist

/-- Three pins configured as the controller's, one after the other (40_gpio R134). -/
theorem spiPins_spec (s : State) {sck mosi miso : Pin} (apart : [sck, mosi, miso].Nodup) (hc : s.inCritical = false) :
    let t := runActs (pinPeripheral miso nibInPull true)
      (runActs (pinPeripheral mosi nibAfPp50 false) (runActs (pinPeripheral sck nibAfPp50 false) s))
    PinStepOn [miso] [sck, mosi, miso] s t ∧
      t.rcc.apb2pcenr = s.rcc.apb2pcenr ||| 1#32 <<< (2 + sck.port.val) ||| 1#32 <<< (2 + mosi.port.val) |||
        1#32 <<< (2 + miso.port.val) ∧
      latch t miso = true ∧ nibble t sck = 0xB ∧ nibble t mosi = 0xB ∧ nibble t miso = 0x8 := by
  dsimp only
  obtain ⟨first, gate1, -, mode1⟩ := pinPeripheral_spec s sck nibAfPp50 false hc
  generalize runActs (pinPeripheral sck nibAfPp50 false) s = u at first gate1 mode1
  have hu : u.inCritical = false := first.1.inCritical.trans hc
  obtain ⟨second, gate2, -, mode2⟩ := pinPeripheral_spec u mosi nibAfPp50 false hu
  generalize runActs (pinPeripheral mosi nibAfPp50 false) u = v at second gate2 mode2
  obtain ⟨third, gate3, level, mode3⟩ := pinPeripheral_spec v miso nibInPull true (second.1.inCritical.trans hu)
  have others : sck ∉ [mosi, miso] ∧ mosi ∉ [miso] := by simpa using apart
  exact ⟨(first.trans second).trans third, by rw [gate3, gate2, gate1], level rfl,
    (nibble_kept (second.trans third).2.2 others.1).trans mode1, (nibble_kept third.2.2 others.2).trans mode2, mode3⟩

/-- The first setup up to its response: the gates open, the pins as `PinPeripheral` leaves them, the flag set. -/
theorem spiConfigure_spec (s : State) (ok : configOk s.cfg = true) (hc : s.inCritical = false) :
    let t := runActs (spiConfigure s.cfg) s
    PinStepOn [s.cfg.spiMiso] [s.cfg.spiSck, s.cfg.spiMosi, s.cfg.spiMiso] { s with spiInit := true } t ∧
      t.rcc.apb2pcenr =
        s.rcc.apb2pcenr ||| 1#32 <<< 12 ||| 1#32 <<< (2 + s.cfg.spiSck.port.val) |||
          1#32 <<< (2 + s.cfg.spiMosi.port.val) ||| 1#32 <<< (2 + s.cfg.spiMiso.port.val) ∧
      latch t s.cfg.spiMiso = true ∧ nibble t s.cfg.spiSck = 0xB ∧ nibble t s.cfg.spiMosi = 0xB ∧
      nibble t s.cfg.spiMiso = 0x8 := by
  intro t
  obtain ⟨opened, gate⟩ := setGates2_spec s 0x00001000
  obtain ⟨pins, ports, level, modeSck, modeMosi, modeMiso⟩ :=
    spiPins_spec (runActs (setBits (.rcc .apb2pcenr) 0x00001000) s) (spiPins_nodup ok) (opened.1.inCritical.trans hc)
  have e : t = { boundary (runActs (pinPeripheral s.cfg.spiMiso nibInPull true)
      (runActs (pinPeripheral s.cfg.spiMosi nibAfPp50 false) (runActs (pinPeripheral s.cfg.spiSck nibAfPp50 false)
        (runActs (setBits (.rcc .apb2pcenr) 0x00001000) s)))) with spiInit := true } := by
    simp only [t, spiConfigure, runActs_append, runActs_cons, runActs_nil, act]
  generalize runActs (pinPeripheral s.cfg.spiMiso _ true) (runActs _ _) = v
    at pins ports level modeSck modeMosi modeMiso e
  have gpio : t.gpio = v.gpio := by rw [e]; exact boundary_gpio v
  have rcc : t.rcc = v.rcc := by rw [e]; exact boundary_rcc v
  refine ⟨?_, by rw [rcc, ports, gate]; rfl, (latch_congr gpio _).trans level, (nibble_congr gpio _).trans modeSck,
    (nibble_congr gpio _).trans modeMosi, (nibble_congr gpio _).trans modeMiso⟩
  rw [e]
  exact ((opened.trans pins).trans (pinStepOn_boundary v)).setSpiInit

/-- Settles O34: the first setup configures and responds, a later one only responds. -/
theorem spiSetupConfiguresOnce : Obligations.SpiSetupConfiguresOnce := by
  intro s mode rate ok hc hn hp
  have meaning := exec_spiSetup (spiBusHalt_present hn hp) mode rate
  rw [spiSetupActs] at meaning
  generalize spiCtrl mode _ = word at meaning ⊢
  refine ⟨fun fresh => ?_, fun initialised => ?_⟩
  · rw [fresh, if_neg Bool.false_ne_true, runActs_append] at meaning
    obtain ⟨steps, gates, level, modeSck, modeMosi, modeMiso⟩ := spiConfigure_spec s ok hc
    obtain ⟨frame, responded, latches, nibbles, gpio, rcc⟩ := respond_spec _ _ word _ _ steps
    generalize runActs [.respond _] _ = t at meaning frame responded latches nibbles gpio rcc
    exact ⟨t, meaning, by rw [frame.1], (congrArg Rcc.apb2pcenr rcc).trans gates, (nibble_congr gpio _).trans modeSck,
      (nibble_congr gpio _).trans modeMosi, (nibble_congr gpio _).trans modeMiso, (latch_congr gpio _).trans level,
      latches, nibbles, responded, frame⟩
  · rw [initialised, if_pos rfl, List.nil_append] at meaning
    have nothing : PinStepOn [] [] s s := pinStepOn_of_same rfl (interruptsOnly_of_eq rfl rfl)
    obtain ⟨frame, responded, -, -, gpio, rcc⟩ := respond_spec s s word [] [] nothing
    exact ⟨_, meaning, responded, frame, gpio, rcc⟩

/-! ### The control word (R204) -/

/-- A word no wider than a mask of low ones passes it. -/
theorem setWidth_and_mask {w : Nat} (x : BitVec w) {mask : Word} (hm : ∀ i < w, mask.getLsbD i = true) :
    x.setWidth 32 &&& mask = x.setWidth 32 := by
  rw [← BitVec.ofNat_toNat]
  exact ofNat_and_mask x.isLt hm

/-- A write of `CTLR1` reaches a gated controller alone (10_state R57). -/
theorem write_spiCtlr1 (s : State) (v : Word) :
    writeReg s (.spi .ctlr1) v =
      { s with
        spi := if clocked s (.spi .ctlr1) then { s.spi with ctlr1 := v &&& storeMask (.spi .ctlr1) } else s.spi } := by
  unfold writeReg
  split <;> rfl

/-- s with the controller's registers and the last word applied replaced, after steps of the interrupt context. -/
def PreparedAs (s : State) (c : Spi) (last : Word) (u : State) : Prop :=
  SameButInterrupts { s with spi := c, spiLast := last } u ∧ UartInterruptsOnly s u

theorem PreparedAs.boundary {s u : State} {c : Spi} {last : Word} (h : PreparedAs s c last u) :
    PreparedAs s c last (boundary u) :=
  ⟨same_trans h.1 (boundary_same u), interruptsOnly_trans h.2 (boundary_only u)⟩

theorem PreparedAs.write {s u : State} {c : Spi} {last : Word} (h : PreparedAs s c last u) (v : Word) :
    PreparedAs s (if clocked s (.spi .ctlr1) then { c with ctlr1 := v &&& storeMask (.spi .ctlr1) } else c) last
      (act (Machine.boundary u) (.write (.spi .ctlr1) (.const v))) := by
  obtain ⟨same, only⟩ := h.boundary
  have gate : clocked (Machine.boundary u) (.spi .ctlr1) = clocked s (.spi .ctlr1) := clocked_congr (same_rcc same) _
  simp only [act, sourceValue, write_spiCtlr1, gate, same_spi same]
  refine ⟨?_, only⟩
  unfold SameButInterrupts at same ⊢
  rw [same]

theorem PreparedAs.setLast {s u : State} {c : Spi} {last : Word} (h : PreparedAs s c last u) (w : Word) :
    PreparedAs s c w (act (Machine.boundary u) (.setSpiLast w)) := by
  obtain ⟨same, only⟩ := h.boundary
  refine ⟨?_, only⟩
  unfold SameButInterrupts at same ⊢
  simp only [act]
  rw [same]

/-- The actions by which a control word is applied, unless it is the last one applied. -/
def applyWord (s : State) (w : Word) : List Action :=
  if w = s.spiLast then []
  else
    [.write (.spi .ctlr1) (.const (s.spiLast &&& ~~~maskSpe)), .write (.spi .ctlr1) (.const (w &&& ~~~maskSpe)),
      .write (.spi .ctlr1) (.const w), .setSpiLast w]

theorem spiPrepareActs_eq (s : State) (w : Word) : spiPrepareActs s w = applyWord s w ++ [.respond 0] := rfl

/-- The controller's registers after a control word was applied. -/
def preparedSpi (s : State) (w : Word) : Spi :=
  if w ≠ s.spiLast ∧ clocked s (.spi .ctlr1) = true then { s.spi with ctlr1 := w } else s.spi

theorem preparedSpi_fields (s : State) (w : Word) :
    (preparedSpi s w).ctlr1 = (if w ≠ s.spiLast ∧ clocked s (.spi .ctlr1) = true then w else s.spi.ctlr1) ∧
      (preparedSpi s w).ctlr2 = s.spi.ctlr2 ∧ (preparedSpi s w).datar = s.spi.datar := by
  unfold preparedSpi
  split <;> exact ⟨rfl, rfl, rfl⟩

/-- Of the three writes of a changed word the last one stands, where the gate is open. -/
theorem applyWord_spec (s : State) {w : Word} (stored : w &&& storeMask (.spi .ctlr1) = w) :
    PreparedAs s (preparedSpi s w) w (runActs (applyWord s w) s) := by
  have start : PreparedAs s s.spi s.spiLast s := ⟨rfl, interruptsOnly_of_eq rfl rfl⟩
  by_cases same : w = s.spiLast
  · rw [applyWord, if_pos same, preparedSpi, if_neg fun changed => changed.1 same, same]
    exact start
  · have written := (((start.write (s.spiLast &&& ~~~maskSpe)).write (w &&& ~~~maskSpe)).write w).setLast w
    rw [applyWord, if_neg same]
    cases gate : clocked s (.spi .ctlr1) <;> simpa [preparedSpi, gate, same, stored, runActs_cons] using written

/-- Settles O37: the word is producible, and the response keeps what its application left. -/
theorem spiPrepareAppliesAChangedWord : Obligations.SpiPrepareAppliesAChangedWord := by
  intro s mode div ctrl hn hp hd least greatest word
  have modes : ∀ mode : BitVec 2, mode ∈ spiModes := by decide
  have producible := isSpiCtrl_iff.mpr ⟨mode, modes mode, div, hd, least, greatest, word⟩
  have meaning := exec_spiPrepare (spiBusHalt_present hn hp) producible
  have applied := applyWord_spec s (setWidth_and_mask ctrl (mask := storeMask (.spi .ctlr1)) (by decide))
  rw [spiPrepareActs_eq, runActs_append] at meaning
  obtain ⟨frame, responded, -, -, gpio, rcc⟩ :=
    respond_spec _ _ 0 [] [] (pinStepOn_of_same applied.1 applied.2)
  generalize runActs [.respond 0] _ = t at meaning frame responded gpio rcc
  have controller : t.spi = preparedSpi s (ctrl.setWidth 32) := by rw [frame.1]
  have last : t.spiLast = ctrl.setWidth 32 := by rw [frame.1]
  obtain ⟨ctlr1, ctlr2, datar⟩ := preparedSpi_fields s (ctrl.setWidth 32)
  rw [← controller] at ctlr1 ctlr2 datar
  refine ⟨t, meaning, responded, last, ctlr1, ctlr2, datar, gpio.trans (same_gpio applied.1 :),
    rcc.trans (same_rcc applied.1 :), ?_⟩
  rw [controller, last]
  exact frame

end Sys2Proof.Machine

/-!
PROOFS. The waits of an SPI transfer (43_spi R205, R206): answered at their first poll, the bytes are exchanged in
order; not shown, the command stays held.
-/
namespace Sys2Proof.Machine

/-! ### A wait that is not shown (R206) -/

/-- A poll of an unbounded wait that does not show its flag leaves the rest of the command held. -/
theorem drain_await_miss {s : State} {r : Reg} {mask want : Word} (rest : List Micro)
    (miss : readValue (boundary s) r &&& mask ≠ want) :
    drain (.await r mask want :: rest) s = { readNext (boundary s) r with todo := .await r mask want :: rest } := by
  rw [drain, if_neg miss]

/-- Settles O40: the step is one boundary and one read, and what it holds is what was held. -/
theorem unboundedWaitKeepsTheCommandHeld : Obligations.UnboundedWaitKeepsTheCommandHeld := by
  intro s r mask want rest hc hr hn hi held miss
  have same : SameButInterrupts s (readNext (boundary s) r) := same_trans (boundary_same s) (readNext_same _ r)
  have only : UartInterruptsOnly s (readNext (boundary s) r) :=
    interruptsOnly_trans (boundary_only s) (interruptsOnly_of_eq (readNext_uart _ r) (readNext_trace _ r))
  have meaning : step s = .next (readNext (boundary s) r) := by
    rw [step_running hc hr hn, contextStep_noInterrupt hi, foregroundStep_held held, drain_await_miss rest miss, ← held,
      ← same_todo same]
  refine ⟨_, meaning, same, only, fun quiet => ?_⟩
  obtain ⟨uart, trace⟩ := ((interruptsOnly_iff s _).mp only).2 quiet
  have frame := same
  unfold SameButInterrupts at frame
  rw [uart, trace] at frame
  exact frame


/-! ### A wait that is shown at its first poll -/

/-- A wait for a flag of `STATR` that the first poll shows takes one draw and goes on. -/
theorem drain_await_ok {s : State} {mask want : Word} {a : Nat} {rest : List Nat} (tail : List Micro)
    (hm : (0x00000083 : Word) &&& mask = mask) (hs : s.script = still s 1 ++ (a :: rest))
    (shown : BitVec.ofNat 32 a &&& mask = want) :
    drain (.await (.spi .statr) mask want :: tail) s = drain tail { s with script := rest } := by
  obtain ⟨value, next⟩ := read_scripted (s := { s with script := a :: rest }) (r := .spi .statr) (mask := mask) rfl rfl
    (by simp only [drawMask]; decide) hm
  rw [drain, boundary_still hs, value, if_pos shown, next]

/-- A byte written to `DATAR` reaches a gated controller alone (10_state R57). -/
theorem write_spiDatar (s : State) (x : Byte) :
    writeReg s (.spi .datar) (x.setWidth 32) =
      { s with spi := if clocked s (.spi .datar) then { s.spi with datar := x.setWidth 32 } else s.spi } := by
  have stored : x.setWidth 32 &&& storeMask (.spi .datar) = x.setWidth 32 := setWidth_and_mask x (by decide)
  unfold writeReg
  split
  · simp only [storeReg, stored]
  · rfl

/-! ### The points a transfer reaches -/

/-- u is s some way into a transfer: the events `es` emitted, the data register `sent` where the controller's gate is
open, the buffer `buf`, the script `rest` left; the read register has moved on. -/
def Exchanged (s : State) (es : List Event) (sent : Word) (buf : List Byte) (rest : List Nat) (u : State) : Prop :=
  ∃ acc, u =
    { s with
      trace := s.trace ++ es, spi := if clocked s (.spi .datar) then { s.spi with datar := sent } else s.spi, acc := acc
      buf := buf, script := rest }

namespace Exchanged

variable {s u : State} {es : List Event} {sent : Word} {buf : List Byte} {rest : List Nat}

/-- A transfer that has only set its buffer. -/
theorem start (s : State) (buf : List Byte) (rest : List Nat) :
    Exchanged s [] s.spi.datar buf rest { s with buf := buf, script := rest } := by
  have kept : (if clocked s (.spi .datar) then { s.spi with datar := s.spi.datar } else s.spi) = s.spi := ite_self _
  exact ⟨s.acc, by rw [kept, List.append_nil]⟩

theorem script (h : Exchanged s es sent buf rest u) : u.script = rest := by obtain ⟨acc, rfl⟩ := h; rfl

theorem buffer (h : Exchanged s es sent buf rest u) : u.buf = buf := by obtain ⟨acc, rfl⟩ := h; rfl

/-- The answers of boundaries are the same all through a transfer. -/
theorem still_eq (h : Exchanged s es sent buf rest u) : still u = still s := by
  obtain ⟨acc, rfl⟩ := h; exact still_congr rfl rfl rfl

/-- Answers taken from the script alone. -/
theorem script_used (h : Exchanged s es sent buf rest u) (rest' : List Nat) :
    Exchanged s es sent buf rest' { u with script := rest' } := by
  obtain ⟨acc, rfl⟩ := h; exact ⟨acc, rfl⟩

/-- A wait shown at its first poll. -/
theorem wait {mask want : Word} {a : Nat} (h : Exchanged s es sent buf (still s 1 ++ (a :: rest)) u)
    (hm : (0x00000083 : Word) &&& mask = mask) (shown : BitVec.ofNat 32 a &&& mask = want) (tail : List Micro) :
    ∃ v, drain (.await (.spi .statr) mask want :: tail) u = drain tail v ∧ Exchanged s es sent buf rest v :=
  ⟨_, drain_await_ok tail hm (by rw [h.script, h.still_eq]) shown, h.script_used rest⟩

/-- A byte put in `DATAR`. -/
theorem send (h : Exchanged s es sent buf (still s 1 ++ rest) u) (x : Byte) (tail : List Micro) :
    ∃ v, drain (.act (.write (.spi .datar) (.const (x.setWidth 32))) :: tail) u = drain tail v ∧
      Exchanged s es (x.setWidth 32) buf rest v := by
  refine ⟨_, drain_act_still (by rw [h.script, h.still_eq]), ?_⟩
  have gate : clocked { u with script := rest } (.spi .datar) = clocked s (.spi .datar) := by
    obtain ⟨acc, rfl⟩ := h; rfl
  simp only [act, sourceValue, write_spiDatar, gate]
  obtain ⟨acc, rfl⟩ := h
  refine ⟨acc, ?_⟩
  cases clocked s (.spi .datar) <;> rfl

/-- The byte received: the read of `DATAR`, its place in the buffer of a transfer that reads back, its event. -/
theorem receive {x : Nat} (h : Exchanged s es sent buf (still s 1 ++ (x :: (still s 1 ++ rest))) u) (readBack : Bool)
    (k : Nat) (out : Byte) (tail : List Micro) :
    ∃ v, drain (.act (.read (.spi .datar)) :: .act (.spiLatch 0 k out readBack) :: tail) u = drain tail v ∧
      Exchanged s (es ++ [.spiByte 0 out (BitVec.ofNat 8 x)]) sent
        (if readBack then buf.set k (BitVec.ofNat 8 x) else buf) rest v := by
  obtain ⟨low, next⟩ := read_dataByte (s := { u with script := x :: (still s 1 ++ rest) }) rfl (.inr (.inl rfl))
  rw [drain_act_still (rest := x :: (still s 1 ++ rest)) (by rw [h.script, h.still_eq])]
  simp only [act]
  rw [next]
  generalize readValue _ (.spi .datar) = acc at low
  refine ⟨_, drain_act_still (rest := rest) (by rw [← h.still_eq]; rfl), acc, ?_⟩
  obtain ⟨acc', rfl⟩ := h
  simp only [act, emit, low, List.append_assoc]

/-- One byte exchanged (R205). -/
theorem byte {a : Nat × Nat × Nat} (h : Exchanged s es sent buf (exchangedAnswers s a ++ rest) u)
    (txe : BitVec.ofNat 32 a.1 &&& maskSpiTxe = maskSpiTxe)
    (rxne : BitVec.ofNat 32 a.2.1 &&& maskSpiRxne = maskSpiRxne) (readBack : Bool) (k : Nat) (out : Byte)
    (tail : List Micro) :
    ∃ v, drain (spiByteProg 0 readBack k out ++ tail) u = drain tail v ∧
      Exchanged s (es ++ [.spiByte 0 out (BitVec.ofNat 8 a.2.2)]) (out.setWidth 32)
        (if readBack then buf.set k (BitVec.ofNat 8 a.2.2) else buf) rest v := by
  have two : still s 2 = still s 1 ++ still s 1 := still_add s 1 1
  simp only [exchangedAnswers, two, List.append_assoc, List.cons_append, List.nil_append] at h
  obtain ⟨u1, e1, h⟩ := h.wait (by decide) txe _
  obtain ⟨u2, e2, h⟩ := h.send out _
  obtain ⟨u3, e3, h⟩ := h.wait (by decide) rxne _
  obtain ⟨u4, e4, h⟩ := h.receive readBack k out tail
  exact ⟨u4, e1.trans (e2.trans (e3.trans e4)), h⟩

/-- The bytes from index k on, where a transfer that reads back has received the bytes `got` before them. -/
theorem bytes {out got : List Byte} {answers : List (Nat × Nat × Nat)} {readBack : Bool}
    (h : Exchanged s es sent buf (answers.flatMap (exchangedAnswers s) ++ rest) u) (hl : answers.length = out.length)
    (shown : ∀ a ∈ answers, BitVec.ofNat 32 a.1 &&& maskSpiTxe = maskSpiTxe ∧
      BitVec.ofNat 32 a.2.1 &&& maskSpiRxne = maskSpiRxne)
    (hb : readBack = true → buf = got ++ out) (tail : List Micro) :
    ∃ v, drain (spiBytesProg 0 readBack got.length out ++ tail) u = drain tail v ∧
      Exchanged s (es ++ (out.zip answers).map fun x => .spiByte 0 x.1 (BitVec.ofNat 8 x.2.2.2))
        ((out.getLast?.map fun x => x.setWidth 32).getD sent)
        (if readBack then got ++ answers.map fun a => BitVec.ofNat 8 a.2.2 else buf) rest v := by
  induction out generalizing answers got es sent buf u with
  | nil =>
    obtain rfl := List.length_eq_zero_iff.mp hl
    have kept : (if readBack then got else buf) = buf := by
      split
      next back => rw [hb back, List.append_nil]
      next => rfl
    refine ⟨u, rfl, ?_⟩
    simpa [kept] using h
  | cons x out ih =>
    cases answers with
    | nil => cases hl
    | cons a answers =>
      rw [List.flatMap_cons, List.append_assoc] at h
      obtain ⟨txe, rxne⟩ := shown a (List.mem_cons_self ..)
      obtain ⟨v, first, h⟩ :=
        h.byte txe rxne readBack got.length x (spiBytesProg 0 readBack (got.length + 1) out ++ tail)
      have next : readBack = true → (if readBack then buf.set got.length (BitVec.ofNat 8 a.2.2) else buf) =
          (got ++ [BitVec.ofNat 8 a.2.2]) ++ out := by
        intro back
        rw [if_pos back, hb back, List.set_append_right _ _ le_rfl]
        simp
      obtain ⟨w, others, h⟩ := ih h (by simpa using hl) (fun b hb => shown b (List.mem_cons_of_mem _ hb)) next
      rw [List.length_append, List.length_singleton] at others
      refine ⟨w, ?_, ?_⟩
      · rw [spiBytesProg, List.append_assoc]
        exact first.trans others
      · have last : ((x :: out).getLast?.map fun b => b.setWidth 32).getD sent =
            (out.getLast?.map fun b => b.setWidth 32).getD (x.setWidth 32) := by
          rw [List.getLast?_cons]
          cases out.getLast? <;> rfl
        rw [last]
        cases readBack <;> simpa using h

/-- The end of a transfer: the controller idle, the response with the buffer. -/
theorem completed {busy : Nat} (h : Exchanged s es sent buf (still s 1 ++ (busy :: (still s 1 ++ rest))) u)
    (idle : BitVec.ofNat 32 busy &&& maskBsy = 0) (q : Word) :
    ∃ v, Exchanged s es sent buf rest v ∧
      drain (.await (.spi .statr) maskBsy 0 :: acts [.respondBuf q]) u = { respond v q buf with todo := [] } := by
  obtain ⟨v, e, h⟩ := h.wait (by decide) idle (acts [.respondBuf q])
  refine ⟨_, h.script_used rest, ?_⟩
  rw [e, drain_end (rest := rest) q (by rw [h.script, h.still_eq]), h.buffer]
  rfl

end Exchanged

/-- Settles O39: the buffer holds the bytes to send, and each byte received takes the place of the one sent. -/
theorem spiTransferExchangesTheBytes : Obligations.SpiTransferExchangesTheBytes := by
  intro s readBack bytes answers busy rest hn hp hl shown idle hs
  have meaning := exec_spiTransfer (spiBusHalt_present hn hp) readBack bytes
  simp only [spiTransferProg, List.append_assoc, List.cons_append, List.nil_append] at meaning hs
  have first := drain_act_still (a := .setBuf bytes)
    (tail := spiBytesProg 0 readBack 0 bytes ++ (.await (.spi .statr) maskBsy 0 :: acts [.respondBuf 0])) hs
  obtain ⟨u, exchange, h⟩ := (Exchanged.start s bytes _).bytes (got := []) (readBack := readBack) hl shown
    (fun _ => rfl) (.await (.spi .statr) maskBsy 0 :: acts [.respondBuf 0])
  obtain ⟨v, ⟨acc, hv⟩, ended⟩ := h.completed idle 0
  refine ⟨_, meaning.trans (congrArg Host.Outcome.next (first.trans (exchange.trans ended))), ?_⟩
  subst hv
  simp only [List.nil_append]
  refine ⟨rfl, ⟨rfl, rfl, rfl⟩, fun gated => if_pos gated, fun ungated => if_neg ?_, rfl⟩
  simp [ungated]

end Sys2Proof.Machine

/-!
PROOFS. The interrupt context of the UART (44_uart R224 to R230): the two handler actions, each answered from the
script, and the steps that take the interrupt, asked for by the host's dispatch or pending between commands.
-/
namespace Sys2Proof.Machine

/-! ### The transmit action (R229) -/

/-- What the action does with the host's answer: a byte is sent, and no byte ends the transmission. -/
def transmitPulled (s : State) : Option Byte → State
  | some x => emit (writeReg (drawNext s) (.uart .datar) (x.setWidth 32)) (.uartTx x)
  | none => writeReg (drawNext s) (.uart .ctlr1) (s.uart.ctlr1 &&& ~~~maskTxeie)

/-- On a gated UART the control register is read as stored and costs no draw; the status is the next one. -/
theorem uartTxAction_gated {s : State} {statr : Nat} {rest : List Nat} (hs : s.script = statr :: rest)
    (gated : clocked s (.uart .ctlr1) = true) :
    uartTxAction s =
      if s.uart.ctlr1.getLsbD 7 = true ∧ (BitVec.ofNat 32 statr).getLsbD 7 = true then
        transmitPulled { s with script := rest } (hostPull { s with script := rest })
      else { s with script := rest } := by
  obtain ⟨next, -, transmits⟩ := uartStatus_scripted hs
  have stored : readValue s (.uart .ctlr1) = s.uart.ctlr1 := readValue_calm gated rfl
  have enable := txeie_stored gated
  rw [stored] at enable
  unfold uartTxAction
  simp only [stored, readNext_calm gated rfl, next, enable, transmits, Bool.and_eq_true]
  rfl

/-- With `TXEIE` or `TXE` 0 the action reads the status alone. -/
theorem uartTxAction_skips {s : State} {statr : Nat} {rest : List Nat} (hs : s.script = statr :: rest)
    (gated : clocked s (.uart .ctlr1) = true)
    (h : s.uart.ctlr1.getLsbD 7 = false ∨ (BitVec.ofNat 32 statr).getLsbD 7 = false) :
    uartTxAction s = { s with script := rest } := by
  rw [uartTxAction_gated hs gated, if_neg fun sends => ?_]
  rcases h with h | h
  · exact Bool.false_ne_true (h.symm.trans sends.1)
  · exact Bool.false_ne_true (h.symm.trans sends.2)

/-- The byte pulled goes to `DATAR` and into the trace. -/
theorem uartTxAction_sends {s : State} {statr x : Nat} {rest : List Nat} (hs : s.script = statr :: (x + 1) :: rest)
    (gated : clocked s (.uart .ctlr1) = true) (enabled : s.uart.ctlr1.getLsbD 7 = true)
    (empty : (BitVec.ofNat 32 statr).getLsbD 7 = true) :
    uartTxAction s =
      { s with
        script := rest, trace := s.trace ++ [.uartTx (BitVec.ofNat 8 x)],
        uart := { s.uart with datar := (BitVec.ofNat 8 x).setWidth 32 } } := by
  have byte : (BitVec.ofNat 8 x).setWidth 32 &&& storeMask (.uart .datar) = (BitVec.ofNat 8 x).setWidth 32 :=
    setWidth_and_mask _ (by decide)
  have gate : clocked { s with script := rest } (.uart .datar) = true := gated
  rw [uartTxAction_gated hs gated, if_pos ⟨enabled, empty⟩]
  show emit (writeReg { s with script := rest } (.uart .datar) ((BitVec.ofNat 8 x).setWidth 32)) _ = _
  rw [writeReg_clocked gate]
  simp only [storeReg, byte, emit]

/-- With nothing to pull, `TXEIE` is cleared. -/
theorem uartTxAction_disables {s : State} {statr : Nat} {rest : List Nat} (hs : s.script = statr :: 0 :: rest)
    (gated : clocked s (.uart .ctlr1) = true) (enabled : s.uart.ctlr1.getLsbD 7 = true)
    (empty : (BitVec.ofNat 32 statr).getLsbD 7 = true) :
    uartTxAction s =
      { s with
        script := rest, uart := { s.uart with ctlr1 := s.uart.ctlr1 &&& ~~~0x80#32 &&& 0x3FFF#32 } } := by
  have gate : clocked { s with script := rest } (.uart .ctlr1) = true := gated
  rw [uartTxAction_gated hs gated, if_pos ⟨enabled, empty⟩]
  show writeReg { s with script := rest } (.uart .ctlr1) _ = _
  rw [writeReg_clocked gate]
  rfl

/-- The writes of the action are ignored while the gate is closed (10_state R57). -/
theorem uartTxAction_ungated {s : State} (ungated : clocked s (.uart .ctlr1) = false) :
    (uartTxAction s).uart = s.uart := by
  let u := readNext (readNext s (.uart .ctlr1)) (.uart .statr)
  have read : u.uart = s.uart := (readNext_uart _ _).trans (readNext_uart s _)
  have gate (r : UartReg) : clocked (drawNext u) (.uart r) = false :=
    (clocked_congr (s := s) (by simp [u]) (.uart r)).trans ungated
  have ignored (r : UartReg) (v : Word) : (writeReg (drawNext u) (.uart r) v).uart = s.uart := by
    rw [writeReg_unclocked (gate r), drawNext_uart, read]
  unfold uartTxAction
  dsimp only
  split
  · split
    · exact ignored _ _
    · exact ignored _ _
  · exact read

/-! ### The handler actions as instructions -/

/-- Settles O43: the status is the first answer, the byte the second. -/
theorem receiveHandlerPushesOneByte : Obligations.ReceiveHandlerPushesOneByte := by
  intro s statr byte rest hs
  exact ⟨fun received => congrArg Host.Outcome.next (uartRxAction_takes hs received),
    fun rxne ore => congrArg Host.Outcome.next (uartRxAction_skips hs rxne ore)⟩

/-- Settles O44: one clause for each branch of the action. -/
theorem transmitHandlerSendsOrDisables : Obligations.TransmitHandlerSendsOrDisables := by
  refine ⟨fun s statr pull rest hs gated => ⟨fun enabled empty => ⟨?_, ?_⟩, fun idle => ?_⟩, fun s ungated => ?_⟩
  · rintro x rfl
    exact congrArg Host.Outcome.next (uartTxAction_sends hs gated enabled empty)
  · rintro rfl
    exact congrArg Host.Outcome.next (uartTxAction_disables hs gated enabled empty)
  · exact congrArg Host.Outcome.next (uartTxAction_skips hs gated idle)
  · exact ⟨uartTxAction s, rfl, uartTxAction_same s, uartTxAction_ungated ungated⟩

/-! ### The interrupt taken between commands (R225, 60_exceptions R270) -/

/-- The line is 1 only with an interrupt enable set (R224). -/
theorem uartArmed_of_line {ctlr1 statr : Word} (h : uartIrqLine ctlr1 statr = true) : uartArmed ctlr1 = true := by
  simp only [uartIrqLine, uartArmed, Bool.or_eq_true, Bool.and_eq_true] at h ⊢
  exact h.imp And.left And.left

theorem offerInterrupt_taken {s : State} (h : uartIrqLine s.uart.ctlr1 (BitVec.ofNat 32 (drawValue s)) = true) :
    offerInterrupt s = takeInterrupt (drawNext s) := by
  rw [offerInterrupt, if_pos (uartArmed_of_line h), if_pos h]

/-- A look at a line that is 0 changes the draws alone. -/
theorem offerInterrupt_declined {s : State} (h : uartIrqLine s.uart.ctlr1 (BitVec.ofNat 32 (drawValue s)) = false) :
    offerInterrupt s = { s with script := (offerInterrupt s).script, drawn := (offerInterrupt s).drawn } := by
  rw [offerInterrupt, if_neg (ne_true_of_eq_false h)]
  split
  · exact drawNext_eq s
  · rfl

/-- Outside a critical span the interrupt asked for comes before the foreground (R225, log 16). -/
theorem contextStep_interrupt {s : State} (hi : s.irq = true) (hc : s.inCritical = false) :
    contextStep s = .next (offerInterrupt { s with irq := false }) := by
  simp [contextStep, hi, hc]

/-- Settles O8: the step is the one look at the line that was asked for. -/
theorem stepTakesTheInterruptAskedFor : Obligations.StepTakesTheInterruptAskedFor := by
  intro s ok noReset running outside asked
  have meaning : step s = .next (offerInterrupt { s with irq := false }) := by
    rw [step_running ok noReset running, contextStep_interrupt asked outside]
  constructor
  · intro high
    have taken := offerInterrupt_taken (s := { s with irq := false }) high
    exact ⟨_, _, rfl, rfl, by rw [meaning, taken]; rfl⟩
  · intro low
    exact ⟨_, meaning, offerInterrupt_declined (s := { s with irq := false }) low⟩

/-- A boundary at which one interrupt is offered and the line is 1. -/
theorem boundary_taken {s : State} {line : Nat} {rest : List Nat} (h : interruptible s = true)
    (hs : s.script = 1 :: line :: rest) (high : uartIrqLine s.uart.ctlr1 (BitVec.ofNat 32 line) = true) :
    boundary s = takeInterrupt { s with script := rest } := by
  have count : drawValue s = 1 := by simp [drawValue, hs]
  have next : drawNext s = { s with script := line :: rest } := by simp [drawNext, hs]
  rw [boundary, if_pos h, count, next]
  exact offerInterrupt_taken (s := { s with script := line :: rest }) high

/-- Settles O45: with nothing to fetch the step is a boundary, and with `TXEIE` 0 the transmit action of the interrupt
taken there only reads. -/
theorem pendingInterruptMayBeTaken : Obligations.PendingInterruptMayBeTaken := by
  intro s line statr byte again rest ready idle outside gated rxneie txeie pending received hs
  have waits : step s = .next (boundary s) := by rw [step_ready ready, fetchStep, idle]; rfl
  obtain ⟨-, -, running, -, -⟩ := ready
  have mayAct : interruptible s = true := by simp [interruptible, outside, running, uartArmed, rxneie]
  have high : uartIrqLine s.uart.ctlr1 (BitVec.ofNat 32 line) = true := by
    simp [uartIrqLine, uartReceives, rxneie, pending]
  have receive := uartRxAction_takes (s := { s with script := statr :: byte :: again :: rest }) rfl (.inl received)
  have transmit := uartTxAction_skips (statr := again) (rest := rest)
    (s := { s with script := again :: rest, trace := s.trace ++ [.uartRx (BitVec.ofNat 8 byte)] }) rfl gated (.inl txeie)
  rw [waits, boundary_taken (rest := statr :: byte :: again :: rest) mayAct hs high, takeInterrupt, receive, transmit]

end Sys2Proof.Machine

/-!
PROOFS. The UART commands (44_uart R220 to R223): the setup of the peripheral and its pins, and the kick of the
transmitter, each with the interrupt context acting around it.
-/
namespace Sys2Proof.Machine

/-! ### What a command may do to the control register and the trace -/

/-- The trace grew by events of the interrupt context alone (00_scope R13). -/
def AddsUartEvents (s t : State) : Prop := ∃ es : List Event, t.trace = s.trace ++ es ∧ ∀ e ∈ es, isUartEvent e = true

theorem AddsUartEvents.of_eq {s t : State} (h : t.trace = s.trace) : AddsUartEvents s t := ⟨[], by simp [h], by simp⟩

theorem AddsUartEvents.trans {s t u : State} (h : AddsUartEvents s t) (k : AddsUartEvents t u) : AddsUartEvents s u := by
  obtain ⟨es, trace, events⟩ := h
  obtain ⟨fs, trace', events'⟩ := k
  exact ⟨es ++ fs, by rw [trace', trace, List.append_assoc], List.forall_mem_append.mpr ⟨events, events'⟩⟩

theorem addsUartEvents_of_interrupts {s t : State} (h : UartInterruptsOnly s t) : AddsUartEvents s t := by
  obtain ⟨-, -, -, -, -, events, -⟩ := h
  exact events

/-- Of the UART's configuration only `TXEIE` may differ. -/
def SameButTxeie (s t : State) : Prop :=
  (∀ n, n < 14 → n ≠ 7 → t.uart.ctlr1.getLsbD n = s.uart.ctlr1.getLsbD n) ∧
    t.uart.brr = s.uart.brr ∧ t.uart.ctlr2 = s.uart.ctlr2 ∧ t.uart.ctlr3 = s.uart.ctlr3

theorem SameButTxeie.trans {s t u : State} (h : SameButTxeie s t) (k : SameButTxeie t u) : SameButTxeie s u := by
  obtain ⟨bits, brr, ctlr2, ctlr3⟩ := h
  obtain ⟨bits', brr', ctlr2', ctlr3'⟩ := k
  exact ⟨fun n low apart => (bits' n low apart).trans (bits n low apart), brr'.trans brr, ctlr2'.trans ctlr2,
    ctlr3'.trans ctlr3⟩

theorem sameButTxeie_of_interrupts {s t : State} (h : UartInterruptsOnly s t) : SameButTxeie s t := by
  obtain ⟨brr, ctlr2, ctlr3, bits, -⟩ := h
  exact ⟨bits, brr, ctlr2, ctlr3⟩

/-! ### Interrupts on an ungated UART (10_state R57) -/

theorem uartRxAction_uart (s : State) : (uartRxAction s).uart = s.uart := by
  unfold uartRxAction
  dsimp only
  split
  · rw [emit_uart, readNext_uart, readNext_uart]
  · exact readNext_uart s _

/-- No interrupt at a boundary writes a register of an ungated UART. -/
theorem boundary_ungated {s : State} (ungated : clocked s (.uart .ctlr1) = false) : (boundary s).uart = s.uart := by
  have kept := boundary_keeps (P := fun u => u.rcc = s.rcc ∧ u.uart = s.uart)
    (fun u h => ⟨(drawNext_rcc u).trans h.1, (drawNext_uart u).trans h.2⟩)
    (fun u h => ⟨(same_rcc (uartRxAction_same u)).trans h.1, (uartRxAction_uart u).trans h.2⟩)
    (fun u h => ⟨(same_rcc (uartTxAction_same u)).trans h.1,
      (uartTxAction_ungated ((clocked_congr h.1 _).trans ungated)).trans h.2⟩)
  exact (kept s ⟨rfl, rfl⟩).2

/-! ### The kick (R223) -/

/-- The UART after `TXEIE` was set where the gate is open. -/
def enabledUart (s : State) : Uart :=
  if clocked s (.uart .ctlr1) then { s.uart with ctlr1 := (s.uart.ctlr1 ||| 0x0080) &&& 0x00003FFF } else s.uart

theorem enabledUart_gated {s : State} (gated : clocked s (.uart .ctlr1) = true) :
    enabledUart s = { s.uart with ctlr1 := (s.uart.ctlr1 ||| 0x0080) &&& 0x00003FFF } := if_pos gated

theorem enabledUart_ungated {s : State} (ungated : clocked s (.uart .ctlr1) = false) : enabledUart s = s.uart :=
  if_neg (by simp [ungated])

theorem enabledCtlr1_bit (w : Word) {n : Nat} (low : n < 14) (apart : n ≠ 7) :
    ((w ||| 0x0080) &&& 0x00003FFF : Word).getLsbD n = w.getLsbD n := by
  have masks : ∀ n : Fin 14, n.val ≠ 7 →
      BitVec.getLsbD (0x0080 : Word) n.val = false ∧ BitVec.getLsbD (0x00003FFF : Word) n.val = true := by decide
  obtain ⟨clear, kept⟩ := masks ⟨n, low⟩ apart
  rw [BitVec.getLsbD_and, BitVec.getLsbD_or, clear, kept, Bool.or_false, Bool.and_true]

/-- Setting `TXEIE` touches that bit alone. -/
theorem sameButTxeie_enabled {s t : State} (h : t.uart = enabledUart s) : SameButTxeie s t := by
  unfold SameButTxeie
  rw [h]
  cases gate : clocked s (.uart .ctlr1) with
  | true => rw [enabledUart_gated gate]; exact ⟨fun n => enabledCtlr1_bit _, rfl, rfl, rfl⟩
  | false => rw [enabledUart_ungated gate]; exact ⟨fun _ _ _ => rfl, rfl, rfl, rfl⟩

/-- The read and the write of the kick, within a critical span; on a gated UART the read costs no draw. -/
theorem runActs_setTxeie {s : State} (inside : s.inCritical = true) :
    runActs (setBits (.uart .ctlr1) maskTxeie) s =
      { readNext s (.uart .ctlr1) with uart := enabledUart s, acc := readValue s (.uart .ctlr1) } := by
  let u := act s (.read (.uart .ctlr1))
  have still : boundary u = u := boundary_critical ((readNext_inCritical s _).trans inside)
  have gate : clocked u (.uart .ctlr1) = clocked s (.uart .ctlr1) :=
    clocked_congr (t := u) (readNext_rcc s _) _
  have run : runActs (setBits (.uart .ctlr1) maskTxeie) s =
      writeReg u (.uart .ctlr1) (sourceValue (readValue s (.uart .ctlr1)) (.update 0 maskTxeie)) := by
    simp only [setBits, runActs_cons, runActs_nil, boundary_critical inside]
    show act (boundary u) _ = _
    rw [still]; rfl
  rw [run]
  cases h : clocked s (.uart .ctlr1) with
  | true =>
    rw [writeReg_clocked (gate.trans h), enabledUart_gated h]
    simp only [u, act, readNext_calm h rfl, readValue_calm h rfl, sourceValue, storeReg, shown, storeMask]
    simp [maskTxeie, and_ones]
  | false =>
    rw [writeReg_unclocked (gate.trans h), enabledUart_ungated h, ← readNext_uart s (.uart .ctlr1)]
    rfl

/-- The span of the kick, after the boundary at which it starts. -/
theorem txKickSpan_spec (s : State) (outside : s.inCritical = false) :
    let t := runActs (critical (setBits (.uart .ctlr1) maskTxeie)) s
    t.uart = enabledUart (boundary s) ∧ (clocked s (.uart .ctlr1) = true → t.script = (boundary s).script) ∧
      t = { boundary s with uart := t.uart, acc := t.acc, script := t.script, drawn := t.drawn } := by
  intro t
  let u : State := { boundary s with inCritical := true }
  have body := runActs_setTxeie (s := u) rfl
  have span : t = { readNext u (.uart .ctlr1) with
      uart := enabledUart (boundary s), acc := readValue u (.uart .ctlr1), inCritical := false } := by
    have run := runActs_critical (setBits (.uart .ctlr1) maskTxeie) s (by rw [body]; exact readNext_inCritical u _)
    rw [body] at run
    exact run
  refine ⟨by rw [span], fun gated => ?_, ?_⟩
  · have gate : clocked u (.uart .ctlr1) = true := (clocked_boundary s _).trans gated
    rw [span, readNext_calm gate rfl]
  · have same := readNext_same u (.uart .ctlr1)
    have closed : (boundary s).inCritical = false := (boundary_inCritical s).trans outside
    unfold SameButInterrupts at same
    rw [span, same]
    simp only [u, readNext_trace, ← closed]

/-- A boundary whose answer, if it takes one, is that no interrupt is taken. -/
theorem boundary_declined {s : State} {rest : List Nat} (hs : s.script = 0 :: rest) :
    ∃ l, boundary s = { s with script := l } ∧ (l = 0 :: rest ∨ l = rest) := by
  cases mayAct : interruptible s with
  | true => exact ⟨rest, boundary_still (by simp [still, mayAct, hs]), .inr rfl⟩
  | false => exact ⟨0 :: rest, boundary_still (by simp [still, mayAct, hs]), .inl rfl⟩

theorem exec_uartTxKick {s : State} (present : s.cfg.uartPresent = true) :
    exec .uartTxKick s =
      .next (respond (boundary (runActs (critical (setBits (.uart .ctlr1) maskTxeie)) s)) 0 []) := by
  have runs : exec .uartTxKick s = .next (runActs uartTxKickActs s) := if_pos present
  rw [runs, uartTxKickActs, runActs_append]
  rfl

/-- What a response leaves of the state before a span that changed UART, read register and draws alone, with interrupts
before and after it. -/
theorem respond_afterSpan {s v u w : State} (before : SameButInterrupts s v)
    (span : u = { v with uart := u.uart, acc := u.acc, script := u.script, drawn := u.drawn })
    (after : SameButInterrupts u w) :
    respond w 0 [] = { s with
      uart := w.uart, trace := w.trace, responses := (respond w 0 []).responses, acc := 0, buf := [],
      script := w.script, drawn := w.drawn } := by
  unfold SameButInterrupts at before after
  rw [after, span, before]
  rfl

/-- Whatever the interrupt context does around the kick, of the UART's configuration `TXEIE` alone changes. -/
theorem txKick_frame (s : State) (outside : s.inCritical = false) :
    let t := respond (boundary (runActs (critical (setBits (.uart .ctlr1) maskTxeie)) s)) 0 []
    Responded s t 0 [] ∧ SameButTxeie s t ∧ AddsUartEvents s t ∧
      (clocked s (.uart .ctlr1) = false → t.uart = s.uart) ∧
      t = { s with
        uart := t.uart, trace := t.trace, responses := t.responses, acc := 0, buf := [], script := t.script,
        drawn := t.drawn } := by
  obtain ⟨uart, -, frame⟩ := txKickSpan_spec s outside
  generalize runActs (critical (setBits (.uart .ctlr1) maskTxeie)) s = u at uart frame
  intro t
  have before := boundary_only s
  have after : UartInterruptsOnly u t := boundary_only u
  have trace : u.trace = (boundary s).trace := by rw [frame]
  have responses : u.responses = s.responses := by rw [frame]; exact boundary_responses s
  have rcc : u.rcc = s.rcc := by rw [frame]; exact boundary_rcc s
  refine ⟨⟨?_, rfl, rfl⟩, ?_, ?_, fun ungated => ?_, ?_⟩
  · rw [respond_responses, boundary_responses, responses]
  · exact ((sameButTxeie_of_interrupts before).trans (sameButTxeie_enabled uart)).trans
      (sameButTxeie_of_interrupts after)
  · exact ((addsUartEvents_of_interrupts before).trans (.of_eq trace)).trans (addsUartEvents_of_interrupts after)
  · have kept : (boundary u).uart = u.uart := boundary_ungated ((clocked_congr rcc _).trans ungated)
    have start : (boundary s).uart = s.uart := boundary_ungated ungated
    exact kept.trans (uart.trans ((enabledUart_ungated ((clocked_boundary s _).trans ungated)).trans start))
  · exact respond_afterSpan (boundary_same s) frame (boundary_same u)

/-- Settles O42: around the span of the kick there is a boundary before it and one before the response. -/
theorem uartTxKickSetsTheEnable : Obligations.UartTxKickSetsTheEnable := by
  refine ⟨fun s outside present => ?_, fun s rest outside present gated hs => ?_, fun s absent => ?_⟩
  · obtain ⟨responded, ⟨bits, brr, ctlr2, ctlr3⟩, events, ungated, frame⟩ := txKick_frame s outside
    exact ⟨_, exec_uartTxKick present, responded, bits, brr, ctlr2, ctlr3, events, ungated, frame⟩
  · have first : ∃ l, boundary s = { s with script := 0 :: l } := by
      split at hs
      next =>
        obtain ⟨_, e, rfl | rfl⟩ := boundary_declined hs
        · exact ⟨_, e⟩
        · exact ⟨_, e⟩
      next unarmed => exact ⟨rest, by
        rw [boundary_quiet (Bool.eq_false_of_not_eq_true unarmed), show 0 :: rest = s.script from hs.symm]⟩
    obtain ⟨l, first⟩ := first
    obtain ⟨uart, script, frame⟩ := txKickSpan_spec s outside
    have meaning := exec_uartTxKick present
    generalize runActs (critical (setBits (.uart .ctlr1) maskTxeie)) s = u at meaning uart script frame
    rw [first] at uart script frame
    obtain ⟨_, second, -⟩ := boundary_declined (script gated)
    have kept : (boundary u).uart = u.uart ∧ (boundary u).trace = u.trace := by rw [second]; exact ⟨rfl, rfl⟩
    refine ⟨_, meaning, ?_, ?_⟩
    · rw [respond_trace, kept.2, frame]
    · rw [respond_uart, kept.1, uart]
      exact enabledUart_gated gated
  · exact ⟨haltCommand s .unimplemented, if_neg (by simp [absent]), haltCommand_haltedBy s _⟩

/-! ### The setup (R220 to R222) -/

/-- The writes of divisor and enables to a gated UART, with interrupts before each of them. -/
def programUart (cfg : Config) : List Action :=
  [.write (.uart .brr) (.const (BitVec.ofNat 32 (uartDivisor cfg))), .write (.uart .ctlr1) (.const uartEnables)]

/-- The receive pin pulled up, then the transmit pin (R222). -/
def configurePins (rx tx : Pin) : List Action := pinPeripheral rx nibInPull true ++ pinPeripheral tx nibAfPp50 false

theorem uartInitActs_eq (cfg : Config) :
    uartInitActs cfg =
      setBits (.rcc .apb2pcenr) 0x00004000 ++ programUart cfg ++ configurePins cfg.uartRx cfg.uartTx ++ [.respond 0] := by
  simp only [uartInitActs, programUart, configurePins, List.append_assoc]

/-- The divisor of a well-formed configuration fits `BRR` (R221). -/
theorem divisor_stored {cfg : Config} (ok : configOk cfg = true) :
    BitVec.ofNat 32 (uartDivisor cfg) &&& storeMask (.uart .brr) = BitVec.ofNat 32 (uartDivisor cfg) := by
  obtain ⟨-, -, top⟩ := configOk_baud ok
  exact ofNat_and_mask (k := 16) (by omega) (by decide)

/-- Divisor and enables are programmed; `CTLR2` and `CTLR3` stay, and interrupts add events. -/
theorem programUart_spec (s : State) {cfg : Config} (ok : configOk cfg = true)
    (gated : clocked s (.uart .ctlr1) = true) :
    let t := runActs (programUart cfg) s
    SameButInterrupts s t ∧ AddsUartEvents s t ∧ t.uart.brr = BitVec.ofNat 32 (uartDivisor cfg) ∧
      t.uart.ctlr1 = 0x202C ∧ t.uart.ctlr2 = s.uart.ctlr2 ∧ t.uart.ctlr3 = s.uart.ctlr3 := by
  intro t
  let div := BitVec.ofNat 32 (uartDivisor cfg)
  let u := writeReg (boundary s) (.uart .brr) div
  have run : t = writeReg (boundary u) (.uart .ctlr1) uartEnables := rfl
  have same : SameButInterrupts s (boundary u) :=
    same_trans (boundary_same s) (same_trans (writeUart_same _ .brr div) (boundary_same u))
  have divided : u.uart = { (boundary s).uart with brr := div } := by
    show (writeReg (boundary s) (.uart .brr) div).uart = _
    have gate : clocked (boundary s) (.uart .brr) = true := (clocked_boundary s _).trans gated
    rw [writeReg_clocked gate]
    simp only [storeReg, div, divisor_stored ok]
  have enabled : t.uart = { (boundary u).uart with ctlr1 := 0x202C } := by
    rw [run, writeReg_clocked ((clocked_congr (same_rcc same) _).trans gated)]
    rfl
  obtain ⟨-, ctlr2, ctlr3, -⟩ := boundary_only s
  obtain ⟨brr', ctlr2', ctlr3', -⟩ := boundary_only u
  refine ⟨?_, ?_, ?_, by rw [enabled], ?_, ?_⟩
  · rw [run]; exact same_trans same (writeUart_same _ .ctlr1 _)
  · have first : AddsUartEvents s u :=
      (addsUartEvents_of_interrupts (boundary_only s)).trans (.of_eq (writeReg_trace _ _ _))
    rw [run]
    exact (first.trans (addsUartEvents_of_interrupts (boundary_only u))).trans (.of_eq (writeReg_trace _ _ _))
  · rw [enabled]; exact brr'.trans (by rw [divided])
  · rw [enabled]; exact ctlr2'.trans (by rw [divided]; exact ctlr2)
  · rw [enabled]; exact ctlr3'.trans (by rw [divided]; exact ctlr3)

/-- The part of the setup before the pins: the UART's gate opened, its registers programmed (R220). -/
theorem openAndProgram_spec (s : State) (ok : configOk s.cfg = true) :
    let t := runActs (setBits (.rcc .apb2pcenr) 0x00004000 ++ programUart s.cfg) s
    (t = { s with
      gpio := t.gpio, rcc := { s.rcc with apb2pcenr := t.rcc.apb2pcenr }, uart := t.uart, trace := t.trace,
      acc := t.acc, script := t.script, drawn := t.drawn }) ∧
      AddsUartEvents s t ∧ LatchesSameBut [] s t ∧ NibblesSameBut [] s t ∧
      t.rcc.apb2pcenr = s.rcc.apb2pcenr ||| 1#32 <<< 14 ∧ t.uart.brr = BitVec.ofNat 32 (uartDivisor s.cfg) ∧
      t.uart.ctlr1 = 0x202C ∧ t.uart.ctlr2 = s.uart.ctlr2 ∧ t.uart.ctlr3 = s.uart.ctlr3 := by
  dsimp only
  rw [runActs_append]
  obtain ⟨⟨⟨frame, only⟩, latches, nibbles⟩, gate⟩ := setGates2_spec s 0x00004000
  generalize runActs (setBits (.rcc .apb2pcenr) 0x00004000) s = u at frame only latches nibbles gate
  have gated : clocked u (.uart .ctlr1) = true := by
    show u.rcc.apb2pcenr.getLsbD 14 = true
    rw [gate, BitVec.getLsbD_or]
    simp
  obtain ⟨same, events, brr, ctlr1, ctlr2, ctlr3⟩ := programUart_spec u ok gated
  generalize runActs (programUart s.cfg) u = v at same events brr ctlr1 ctlr2 ctlr3
  obtain ⟨-, -, ctlr2', ctlr3'⟩ := sameButTxeie_of_interrupts only
  refine ⟨?_, (addsUartEvents_of_interrupts only).trans events,
    latchesSame_trans latches (latchesSame_of_gpio (same_gpio same)),
    nibblesSame_trans nibbles (nibblesSame_of_gpio (same_gpio same)), by rw [same_rcc same, gate]; rfl, brr, ctlr1,
    ctlr2.trans ctlr2', ctlr3.trans ctlr3'⟩
  unfold SameButInterrupts at same
  rw [same, frame]

/-- The UART's two pins are apart (00_scope R7). -/
theorem uartPins_apart {cfg : Config} (ok : configOk cfg = true) : cfg.uartRx ≠ cfg.uartTx := by
  have part : [cfg.uartTx, cfg.uartRx] <:+: ownedPins cfg :=
    ⟨cfg.motorHi.toList ++ cfg.motorLo.toList ++
      [cfg.i2cScl, cfg.i2cSda, cfg.spiSck, cfg.spiMosi, cfg.spiMiso], [], by simp [ownedPins]⟩
  have distinct := (configOk_pins ok).1.sublist part.sublist
  intro same
  simp [same] at distinct

/-- The gates, modes and latch as `PinPeripheral` leaves them (40_gpio R134). -/
theorem configurePins_spec (s : State) {rx tx : Pin} (apart : rx ≠ tx) (outside : s.inCritical = false) :
    let t := runActs (configurePins rx tx) s
    PinStepOn [rx] [rx, tx] s t ∧
      t.rcc.apb2pcenr = s.rcc.apb2pcenr ||| 1#32 <<< (2 + rx.port.val) ||| 1#32 <<< (2 + tx.port.val) ∧
      nibble t rx = 0x8 ∧ latch t rx = true ∧ nibble t tx = 0xB := by
  dsimp only
  rw [configurePins, runActs_append]
  obtain ⟨first, gate1, level, mode1⟩ := pinPeripheral_spec s rx nibInPull true outside
  generalize runActs (pinPeripheral rx nibInPull true) s = u at first gate1 level mode1
  obtain ⟨second, gate2, -, mode2⟩ := pinPeripheral_spec u tx nibAfPp50 false (first.1.inCritical.trans outside)
  have ⟨_, latches, nibbles⟩ := second
  exact ⟨first.trans second, by rw [gate2, gate1], (nibble_kept nibbles (by simpa using apart)).trans mode1,
    (latch_kept latches (by simp)).trans (level rfl), mode2⟩

/-- With `TXEIE` 0 the interrupt context leaves the UART as it is. -/
theorem uart_of_interrupts {s t : State} (h : UartInterruptsOnly s t) (off : s.uart.ctlr1.getLsbD 7 = false) :
    t.uart = s.uart := by
  obtain ⟨-, -, -, -, kept, -⟩ := h
  exact kept off

/-- Settles O41: the gate, the registers, the pins, each piece from the state the one before it left. -/
theorem uartInitConfiguresTheUart : Obligations.UartInitConfiguresTheUart := by
  intro s ok outside
  refine ⟨fun present => ?_, fun absent => ?_⟩
  · have meaning : exec .uartInit s = .next (runActs (uartInitActs s.cfg) s) := if_pos present
    rw [uartInitActs_eq, runActs_append, runActs_append] at meaning
    obtain ⟨start, events, latches, nibbles, gate, brr, ctlr1, ctlr2, ctlr3⟩ := openAndProgram_spec s ok
    generalize runActs (setBits (.rcc .apb2pcenr) 0x00004000 ++ programUart s.cfg) s = v
      at meaning start events latches nibbles gate brr ctlr1 ctlr2 ctlr3
    have outside' : v.inCritical = false := by rw [start]; exact outside
    obtain ⟨pins, ports, modeRx, level, modeTx⟩ := configurePins_spec v (uartPins_apart ok) outside'
    generalize runActs (configurePins s.cfg.uartRx s.cfg.uartTx) v = w at meaning pins ports modeRx level modeTx
    obtain ⟨⟨frame, only⟩, ⟨responses, acc, buf⟩, latches', nibbles', gpio, rcc⟩ := respond_spec v w 0 _ _ pins
    generalize runActs [.respond 0] w = t at meaning frame only responses acc buf latches' nibbles' gpio rcc
    have uart : t.uart = v.uart := uart_of_interrupts only (by rw [ctlr1]; decide)
    rw [acc, buf] at frame
    rw [← uart] at brr ctlr1 ctlr2 ctlr3
    refine ⟨t, meaning, by rw [rcc, ports, gate], brr, ctlr1, ctlr2, ctlr3, (nibble_congr gpio _).trans modeRx,
      (latch_congr gpio _).trans level, (nibble_congr gpio _).trans modeTx, latchesSame_trans latches latches',
      nibblesSame_trans nibbles nibbles', ⟨by rw [responses, start], acc, buf⟩,
      events.trans (addsUartEvents_of_interrupts only), ?_⟩
    rw [frame, start]
  · exact ⟨haltCommand s .unimplemented, if_neg (by simp [absent]), haltCommand_haltedBy s _⟩

end Sys2Proof.Machine

/-!
PROOFS. The clock tree under the fields that the bring-up writes (45_clock R242, R246), and the bring-up itself, whose
waits are answered at their first poll (R240, R243).
-/
namespace Sys2Proof.Machine

/-! ### The clock tree (R242, R246) -/

/-- A field within a mask is that of the masked word. -/
theorem extractLsb'_of_masked {v mask w : Word} {lo n : Nat} (h : v &&& mask = w)
    (covers : mask.extractLsb' lo n = BitVec.allOnes n) : v.extractLsb' lo n = w.extractLsb' lo n := by
  rw [← h, BitVec.extractLsb'_and, covers, BitVec.and_allOnes]

/-- A bit within a mask is that of the masked word. -/
theorem getLsbD_of_masked {v mask w : Word} {n : Nat} (h : v &&& mask = w) (covers : mask.getLsbD n = true) :
    v.getLsbD n = w.getLsbD n := by
  rw [← h, BitVec.getLsbD_and, covers, Bool.and_true]

/-- The fields of `CFGR0` after the bring-up, code by code: source the crystal, undivided; `SWS` at the multiplied
clock; prescalers ÷1. -/
theorem bringupFields_eq : ∀ code : Fin 14,
    let w := BitVec.ofNat 32 (2 ^ 16 + 2 ^ 18 * code.val + 8)
    w.getLsbD 16 = true ∧ w.getLsbD 17 = false ∧ (w.extractLsb' 18 4).toNat = code.val ∧
      (w.extractLsb' 2 2).toNat = 2 ∧ (w.extractLsb' 4 4).toNat = 0 ∧ (w.extractLsb' 8 3).toNat = 0 ∧
      (w.extractLsb' 11 3).toNat = 0 := by decide

/-- With `SWS` at the multiplied clock the system clock is the multiplier's output. -/
theorem sysClk_multiplied {cfgr0 : Word} (h : (cfgr0.extractLsb' 2 2).toNat = 2) (cfg : Config) :
    sysClk cfg cfgr0 = pllOut cfg cfgr0 := by
  simp only [sysClk, h]

/-- With `SWS` 0 the system clock is the internal oscillator. -/
theorem sysClk_internal {cfgr0 : Word} (h : (cfgr0.extractLsb' 2 2).toNat = 0) (cfg : Config) :
    sysClk cfg cfgr0 = cfg.hsiFreq := by
  simp only [sysClk, h]

/-- With the undivided crystal as source the multiplier's output is the crystal times `PLLMUL + 2`. -/
theorem pllOut_crystal {cfgr0 : Word} (source : cfgr0.getLsbD 16 = true) (undivided : cfgr0.getLsbD 17 = false)
    (code : pllMulCode cfgr0 < 14) (cfg : Config) : pllOut cfg cfgr0 = cfg.hseFreq * (pllMulCode cfgr0 + 2) := by
  simp only [pllOut, pllIn, pllFactor, source, undivided, code, if_true, Bool.false_eq_true, if_false, Nat.div_one]

/-- With the prescaler ÷1 `HCLK` is the system clock. -/
theorem hclk_undivided {cfgr0 : Word} (h : (cfgr0.extractLsb' 4 4).toNat = 0) (cfg : Config) :
    hclk cfg cfgr0 = sysClk cfg cfgr0 := by
  simp only [hclk, h]; rfl

/-- With the prescaler ÷1 a bus clock is `HCLK`. -/
theorem pclkOf_undivided {ppre : Nat} (h : ppre = 0) (clk : Nat) : pclkOf clk ppre = clk := by rw [h]; rfl

/-- The clocks under the fields that the bring-up writes: the crystal times the multiplier, on every bus. -/
theorem clocks_multiplied {cfg : Config} {cfgr0 : Word} (least : 2 ≤ cfg.pllMul) (greatest : cfg.pllMul ≤ 15)
    (fields : cfgr0 &&& 0x003F3FFC = BitVec.ofNat 32 (2 ^ 16 + 2 ^ 18 * (cfg.pllMul - 2) + 8)) :
    sysClk cfg cfgr0 = cfg.hseFreq * cfg.pllMul ∧ hclk cfg cfgr0 = cfg.hseFreq * cfg.pllMul ∧
      pclk1 cfg cfgr0 = cfg.hseFreq * cfg.pllMul ∧ pclk2 cfg cfgr0 = cfg.hseFreq * cfg.pllMul := by
  obtain ⟨source, undivided, code, sws, hpre, ppre1, ppre2⟩ := bringupFields_eq ⟨cfg.pllMul - 2, by omega⟩
  rw [← getLsbD_of_masked fields (by decide)] at source undivided
  rw [← extractLsb'_of_masked fields (by decide)] at code sws hpre ppre1 ppre2
  have factor : pllMulCode cfgr0 = cfg.pllMul - 2 := code
  have system : sysClk cfg cfgr0 = cfg.hseFreq * cfg.pllMul := by
    rw [sysClk_multiplied sws, pllOut_crystal source undivided (by omega), factor, Nat.sub_add_cancel least]
  have core : hclk cfg cfgr0 = cfg.hseFreq * cfg.pllMul := (hclk_undivided hpre cfg).trans system
  exact ⟨system, core, (pclkOf_undivided ppre1 _).trans core, (pclkOf_undivided ppre2 _).trans core⟩

/-- Settles O47: the target and the parameters of the buses are the crystal times the multiplier. -/
theorem clocksAfterBringup : Obligations.ClocksAfterBringup := by
  refine ⟨fun cfg cfgr0 => ⟨fun ok agree fields => ?_, fun off => ?_⟩, by decide, rfl, rfl, rfl⟩
  · obtain ⟨least, greatest⟩ := (configOk_shape ok).multiplier
    obtain ⟨target, i2c, spi, uart⟩ := of_decide_eq_true agree
    rw [i2c, spi, uart, ← target]
    obtain ⟨system, core, bus1, bus2⟩ := clocks_multiplied least greatest fields
    exact ⟨system, core, bus1, bus2, bus2⟩
  · have sws : cfgr0.extractLsb' 2 2 = (0 : Word).extractLsb' 2 2 := extractLsb'_of_masked off (by decide)
    exact sysClk_internal (congrArg BitVec.toNat sws) cfg

/-! ### Words and masks -/

/-- A word within a mask is left by the mask. -/
theorem and_eq_of_within {w mask : Word} (h : w &&& ~~~mask = 0) : w &&& mask = w := by
  have split : w &&& (mask ||| ~~~mask) = w := by rw [BitVec.or_not_self, BitVec.and_allOnes]
  rw [BitVec.and_or_distrib_left, h] at split
  simpa using split

/-- Clearing no bit. -/
theorem and_not_zero (w : Word) : w &&& ~~~(0 : Word) = w := BitVec.and_allOnes

/-- Clearing bits that a word does not hold. -/
theorem and_not_of_disjoint {w mask : Word} (h : w &&& mask = 0) : w &&& ~~~mask = w :=
  and_eq_of_within (by rwa [BitVec.not_not])

/-- Bits cleared and then set. -/
theorem clear_set (w bits : Word) : w &&& ~~~bits ||| bits = w ||| bits := by
  apply BitVec.eq_of_getLsbD_eq
  intro n hn
  simp only [BitVec.getLsbD_or, BitVec.getLsbD_and, BitVec.getLsbD_not, hn, decide_true, Bool.true_and]
  cases bits.getLsbD n <;> simp

/-- Bits that were set are seen through their mask. -/
theorem set_and (w bits : Word) : (w ||| bits) &&& bits = bits := by
  apply BitVec.eq_of_getLsbD_eq
  intro n _
  rw [BitVec.getLsbD_and, BitVec.getLsbD_or]
  cases bits.getLsbD n <;> simp

/-- A bit that a word holds is seen through its mask. -/
theorem and_twoPow_of_bit {v : Word} {n : Nat} (h : v.getLsbD n = true) :
    v &&& BitVec.twoPow 32 n = BitVec.twoPow 32 n := by
  rw [BitVec.and_twoPow, if_pos h]

/-- The bits that the write of a read-modify-write stores, when the bits it sets are all stored. -/
theorem update_stored {w x clear set mask : Word} (read : x &&& mask = w) (within : set &&& ~~~mask = 0) :
    (x &&& ~~~clear ||| set) &&& mask = w &&& ~~~clear ||| set := by
  rw [BitVec.and_or_distrib_right, and_eq_of_within within, BitVec.and_assoc, BitVec.and_comm _ mask,
    ← BitVec.and_assoc, read]

/-! ### Reads and writes of the clock controller (10_state R40 to R43, R48) -/

/-- What the clock controller stores for one of its registers. -/
def rccBits (c : Rcc) : RccReg → Word
  | .ctlr => c.ctlr
  | .cfgr0 => c.cfgr0
  | .apb2pcenr => c.apb2pcenr
  | .apb1pcenr => c.apb1pcenr

theorem shown_rcc (s : State) (r : RccReg) : shown s (.rcc r) = rccBits s.rcc r := by cases r <;> rfl

/-- The clock controller after a write of which the bits v are stored. -/
def storeRcc (c : Rcc) (r : RccReg) (v : Word) : Rcc :=
  match r with
  | .ctlr =>
    { c with
      ctlr := v, hseOnSeen := c.hseOnSeen || v &&& maskHseOn != 0, pllOnSeen := c.pllOnSeen || v &&& maskPllOn != 0 }
  | .cfgr0 => { c with cfgr0 := v, swPllSeen := c.swPllSeen || v &&& maskSw == 2 }
  | .apb2pcenr => { c with apb2pcenr := v }
  | .apb1pcenr => { c with apb1pcenr := v }

/-- The fields that the history records are stored whole, so the stored bits decide it. -/
theorem writeReg_rcc (s : State) (r : RccReg) (v : Word) :
    writeReg s (.rcc r) v = { s with rcc := storeRcc s.rcc r (v &&& storeMask (.rcc r)) } := by
  rw [writeReg_clocked (r := .rcc r) rfl]
  cases r with
  | ctlr =>
    simp only [storeReg, storeRcc, storeMask_field (r := .rcc .ctlr) (field := maskHseOn) (by decide),
      storeMask_field (r := .rcc .ctlr) (field := maskPllOn) (by decide)]
  | cfgr0 => simp only [storeReg, storeRcc, storeMask_field (r := .rcc .cfgr0) (field := maskSw) (by decide)]
  | apb2pcenr => rfl
  | apb1pcenr => rfl

/-- The draw bits of the clock controller are not stored. -/
theorem drawMask_rcc_unstored (s : State) (r : RccReg) : drawMask s (.rcc r) &&& storeMask (.rcc r) = 0 := by
  cases r with
  | ctlr => simp only [drawMask]; cases s.rcc.hseOnSeen <;> cases s.rcc.pllOnSeen <;> decide
  | cfgr0 => simp only [drawMask]; cases s.rcc.swPllSeen <;> decide
  | apb2pcenr => exact BitVec.zero_and
  | apb1pcenr => exact BitVec.zero_and

/-- The draws of a read fall on bits that no write stores. -/
theorem readValue_rcc_stored {s : State} (masked : RegistersMasked s) (r : RccReg) :
    readValue s (.rcc r) &&& storeMask (.rcc r) = rccBits s.rcc r := by
  have bits : rccBits s.rcc r &&& storeMask (.rcc r) = rccBits s.rcc r := by
    rw [← shown_rcc]
    exact and_eq_of_within (masked (.rcc r))
  rw [readValue, if_pos (show clocked s (.rcc r) = true from rfl), shown_rcc]
  split
  · exact bits
  · rw [BitVec.and_or_distrib_right, bits, BitVec.and_assoc, drawMask_rcc_unstored]
    simp

/-- A flag that no write stores and that the environment may show reads as the draw. -/
theorem readValue_rcc_flag {s : State} (masked : RegistersMasked s) {r : RccReg} {mask : Word}
    (unstored : storeMask (.rcc r) &&& mask = 0) (drawn : drawMask s (.rcc r) &&& mask = mask) (nonzero : mask ≠ 0) :
    readValue s (.rcc r) &&& mask = BitVec.ofNat 32 (drawValue s) &&& mask ∧
      readNext s (.rcc r) = drawNext s := by
  have draws : drawMask s (.rcc r) ≠ 0 := by
    intro none
    rw [none] at drawn
    exact nonzero (drawn.symm.trans BitVec.zero_and)
  have bits : rccBits s.rcc r &&& mask = 0 := by
    rw [← readValue_rcc_stored masked, BitVec.and_assoc, unstored]
    exact BitVec.and_zero
  constructor
  · rw [readValue, if_pos (show clocked s (.rcc r) = true from rfl), if_neg draws, shown_rcc,
      BitVec.and_or_distrib_right, bits, BitVec.and_assoc, drawn]
    exact BitVec.zero_or
  · exact if_pos (by simp only [readDraws, bne_iff_ne.mpr draws, Bool.or_true])

/-! ### The fields that the bring-up writes (R240) -/

/-- A read-modify-write of a register of the clock controller. -/
def updateRcc (r : RccReg) (clear set : Word) : List Action :=
  [.read (.rcc r), .write (.rcc r) (.update clear set)]

/-- The bring-up as read-modify-writes and waits. -/
theorem bringupProg_eq (cfg : Config) :
    bringupProg cfg =
      acts (updateRcc .ctlr 0 maskHseOn) ++ (.await (.rcc .ctlr) maskHseRdy maskHseRdy ::
        (acts (updateRcc .ctlr maskPllOn 0) ++ (acts (updateRcc .cfgr0 maskPllFields (pllFields cfg)) ++
          (acts (updateRcc .ctlr 0 maskPllOn) ++ (.await (.rcc .ctlr) maskPllRdy maskPllRdy ::
            (acts (updateRcc .cfgr0 maskSw 2) ++ (.await (.rcc .cfgr0) maskSws 0x8 ::
              (acts (updateRcc .apb2pcenr 0 bringupGates2) ++ (acts (updateRcc .apb1pcenr 0 bringupGates1) ++
                acts [.setClockDone, .respond 0]))))))))) := rfl

/-- The switch status 0b10 through its mask. -/
theorem sws_of_field {v : Word} (h : v.extractLsb' 2 2 = 2) : v &&& maskSws = 0x8 := by
  have field : v &&& maskSws = (v.extractLsb' 2 2).setWidth 32 <<< 2 := by
    apply BitVec.eq_of_getLsbD_eq
    intro i hi
    have bits : ∀ i : Fin 32, maskSws.getLsbD i.val = (decide (2 ≤ i.val) && decide (i.val < 4)) := by decide
    rw [BitVec.getLsbD_and, bits ⟨i, hi⟩, BitVec.getLsbD_shiftLeft, BitVec.getLsbD_setWidth, BitVec.getLsbD_extractLsb']
    by_cases low : i < 2
    · simp [low]
    · have shifted : 2 + (i - 2) = i := by omega
      have narrow : i - 2 < 2 ↔ i < 4 := by omega
      simp [low, shifted, narrow, hi, show 2 ≤ i by omega, show i - 2 < 32 by omega, Bool.and_comm]
  rw [field, h]
  rfl

/-- The multiplier's fields: within what is stored, apart from the switch, and with it as one number. -/
theorem pllFields_spec {cfg : Config} (least : 2 ≤ cfg.pllMul) (greatest : cfg.pllMul ≤ 15) :
    pllFields cfg &&& ~~~storeMask (.rcc .cfgr0) = 0 ∧ pllFields cfg &&& maskSw = 0 ∧
      pllFields cfg ||| 2 = BitVec.ofNat 32 (2 ^ 16 + 2 ^ 18 * (cfg.pllMul - 2) + 2) := by
  have codes : ∀ code : Fin 14,
      let w := (0x00010000 : Word) ||| (BitVec.ofNat 32 code.val <<< 18)
      w &&& ~~~storeMask (.rcc .cfgr0) = 0 ∧ w &&& maskSw = 0 ∧
        w ||| 2 = BitVec.ofNat 32 (2 ^ 16 + 2 ^ 18 * code.val + 2) := by decide
  exact codes ⟨cfg.pllMul - 2, by omega⟩

/-- `HSEON` set. -/
theorem storeRcc_hseOn (c : Rcc) :
    storeRcc c .ctlr (c.ctlr &&& ~~~0 ||| maskHseOn) =
      { c with
        ctlr := c.ctlr ||| maskHseOn, hseOnSeen := true
        pllOnSeen := c.pllOnSeen || (c.ctlr ||| maskHseOn) &&& maskPllOn != 0 } := by
  have seen : (maskHseOn != 0) = true := by decide
  simp only [storeRcc, and_not_zero, set_and, seen, Bool.or_true]

/-- `PLLON` cleared, the multiplier's fields set, `PLLON` set again: the switch is not written. -/
theorem storeRcc_multiplier (c : Rcc) {fields : Word} (unseen : c.swPllSeen = false) (other : c.cfgr0 &&& maskSw ≠ 2)
    (offSwitch : fields &&& maskSw = 0) :
    storeRcc (storeRcc (storeRcc c .ctlr (c.ctlr &&& ~~~maskPllOn ||| 0)) .cfgr0
          (c.cfgr0 &&& ~~~maskPllFields ||| fields)) .ctlr ((c.ctlr &&& ~~~maskPllOn ||| 0) &&& ~~~0 ||| maskPllOn) =
      { c with
        ctlr := c.ctlr ||| maskPllOn, cfgr0 := c.cfgr0 &&& ~~~maskPllFields ||| fields
        hseOnSeen :=
          c.hseOnSeen || ((c.ctlr &&& ~~~maskPllOn) &&& maskHseOn != 0 || (c.ctlr ||| maskPllOn) &&& maskHseOn != 0)
        pllOnSeen := true } := by
  have seen : (maskPllOn != 0) = true := by decide
  have apart : ~~~maskPllFields &&& maskSw = maskSw := by decide
  have kept : (c.cfgr0 &&& ~~~maskPllFields ||| fields) &&& maskSw = c.cfgr0 &&& maskSw := by
    rw [BitVec.and_or_distrib_right, BitVec.and_assoc, apart, offSwitch]
    exact BitVec.or_zero
  have none : (c.cfgr0 &&& maskSw == 2) = false := beq_eq_false_iff_ne.mpr other
  have or_none : ∀ w : Word, w ||| 0 = w := fun _ => BitVec.or_zero
  simp only [storeRcc, or_none, and_not_zero, clear_set, set_and, seen, kept, none, unseen, Bool.or_true, Bool.or_false,
    Bool.or_assoc]

/-- `SW` set to 0b10. -/
theorem storeRcc_switch (c : Rcc) :
    storeRcc c .cfgr0 (c.cfgr0 &&& ~~~maskSw ||| 2) =
      { c with cfgr0 := c.cfgr0 &&& ~~~maskSw ||| 2, swPllSeen := true } := by
  have pll : (2 : Word) &&& maskSw = 2 := by decide
  have off : ~~~maskSw &&& maskSw = 0 := by decide
  have selected : (c.cfgr0 &&& ~~~maskSw ||| 2) &&& maskSw = 2 := by
    rw [BitVec.and_or_distrib_right, BitVec.and_assoc, off, pll]
    simp
  simp only [storeRcc, selected, BEq.rfl, Bool.or_true]

/-! ### When the readiness flags are draws (10_state R48) -/

theorem hseRdy_drawn {s : State} (h : s.rcc.hseOnSeen = true) :
    drawMask s (.rcc .ctlr) &&& maskHseRdy = maskHseRdy := by
  simp only [drawMask, h]
  cases s.rcc.pllOnSeen <;> decide

theorem pllRdy_drawn {s : State} (h : s.rcc.pllOnSeen = true) :
    drawMask s (.rcc .ctlr) &&& maskPllRdy = maskPllRdy := by
  simp only [drawMask, h]
  cases s.rcc.hseOnSeen <;> decide

theorem sws_drawn {s : State} (h : s.rcc.swPllSeen = true) : drawMask s (.rcc .cfgr0) &&& maskSws = maskSws := by
  simp only [drawMask, h]
  decide

/-- Before the switch is written a read of `CFGR0` takes no draw. -/
theorem cfgr0_calm {s : State} (h : s.rcc.swPllSeen = false) : drawMask s (.rcc .cfgr0) = 0 := by
  simp [drawMask, h]

/-! ### The points the bring-up reaches -/

/-- u is s some way into the bring-up: the clock controller at `c`, the script `rest` left; the read register has moved
on. -/
def Brought (s : State) (c : Rcc) (rest : List Nat) (u : State) : Prop :=
  (∃ acc, u = { s with rcc := c, acc := acc, script := rest }) ∧ RegistersMasked u

namespace Brought

variable {s u : State} {c : Rcc} {rest rest' : List Nat}

theorem start {s : State} (masked : RegistersMasked s) : Brought s s.rcc s.script s := ⟨⟨s.acc, rfl⟩, masked⟩

theorem script (h : Brought s c rest u) : u.script = rest := by obtain ⟨⟨acc, rfl⟩, -⟩ := h; rfl

theorem rcc (h : Brought s c rest u) : u.rcc = c := by obtain ⟨⟨acc, rfl⟩, -⟩ := h; rfl

/-- The answers of boundaries are the same all through the bring-up. -/
theorem still_eq (h : Brought s c rest u) : still u = still s := by
  obtain ⟨⟨acc, rfl⟩, -⟩ := h; exact still_congr rfl rfl rfl

/-- Answers taken from the script alone. -/
theorem script_used (h : Brought s c rest u) (rest' : List Nat) : Brought s c rest' { u with script := rest' } := by
  obtain ⟨⟨acc, rfl⟩, masked⟩ := h
  exact ⟨⟨acc, rfl⟩, registersMasked_congr rfl rfl rfl rfl rfl masked⟩

/-- A read-modify-write, given what its read leaves of the script. -/
theorem update (h : Brought s c (still s 1 ++ rest') u) {r : RccReg} {clear set : Word}
    (read : readNext { u with script := rest' } (.rcc r) = { u with script := still s 1 ++ rest })
    (within : set &&& ~~~storeMask (.rcc r) = 0) (tail : List Micro) :
    ∃ v, drain (acts (updateRcc r clear set) ++ tail) u = drain tail v ∧
      Brought s (storeRcc c r (rccBits c r &&& ~~~clear ||| set)) rest v := by
  have masked := (h.script_used rest').2
  have stored := readValue_rcc_stored masked r
  have first := drain_act_still (a := .read (.rcc r)) (rest := rest')
    (tail := .act (.write (.rcc r) (.update clear set)) :: tail) (by rw [h.script, h.still_eq])
  simp only [act, read] at first
  generalize readValue { u with script := rest' } (.rcc r) = x at first stored
  have second := drain_act_still (s := { u with acc := x, script := still s 1 ++ rest })
    (a := .write (.rcc r) (.update clear set)) (tail := tail) (by rw [← h.still_eq]; rfl)
  have kept : RegistersMasked (writeReg { u with acc := x, script := rest } (.rcc r) (x &&& ~~~clear ||| set)) :=
    writeReg_registersMasked (s := { u with acc := x, script := rest })
      (registersMasked_congr rfl rfl rfl rfl rfl masked) _ _
  refine ⟨_, first.trans second, ?_, kept⟩
  simp only [act, sourceValue, writeReg_rcc, update_stored stored within, h.rcc]
  obtain ⟨⟨acc, rfl⟩, -⟩ := h
  exact ⟨x, rfl⟩

/-- A read-modify-write of `CTLR`, whose read takes a draw. -/
theorem update_ctlr {x : Nat} (h : Brought s c (still s 1 ++ (x :: (still s 1 ++ rest))) u) {clear set : Word}
    (within : set &&& ~~~storeMask (.rcc .ctlr) = 0) (tail : List Micro) :
    ∃ v, drain (acts (updateRcc .ctlr clear set) ++ tail) u = drain tail v ∧
      Brought s (storeRcc c .ctlr (c.ctlr &&& ~~~clear ||| set)) rest v := by
  refine h.update ?_ within tail
  have draws : readDraws { u with script := x :: (still s 1 ++ rest) } (.rcc .ctlr) = true := by
    have drawn : drawMask u (.rcc .ctlr) ≠ 0 := by
      simp only [drawMask]
      cases u.rcc.hseOnSeen <;> cases u.rcc.pllOnSeen <;> decide
    exact bne_iff_ne.mpr drawn
  rw [readNext, if_pos draws, drawNext]

/-- A read-modify-write of a register whose read takes no draw. -/
theorem update_calm (h : Brought s c (still s 2 ++ rest) u) {r : RccReg} {clear set : Word}
    (calm : drawMask { s with rcc := c } (.rcc r) = 0) (within : set &&& ~~~storeMask (.rcc r) = 0)
    (tail : List Micro) :
    ∃ v, drain (acts (updateRcc r clear set) ++ tail) u = drain tail v ∧
      Brought s (storeRcc c r (rccBits c r &&& ~~~clear ||| set)) rest v := by
  rw [still_add s 1 1, List.append_assoc] at h
  exact h.update (readNext_calm rfl ((drawMask_congr h.rcc _).trans calm)) within tail

/-- A wait for a flag that the first poll shows takes one draw and goes on. -/
theorem await {a : Nat} (h : Brought s c (still s 1 ++ (a :: rest)) u) {r : RccReg} {mask want : Word}
    (drawn : drawMask { s with rcc := c } (.rcc r) &&& mask = mask) (unstored : storeMask (.rcc r) &&& mask = 0)
    (nonzero : mask ≠ 0) (shown : BitVec.ofNat 32 a &&& mask = want) (tail : List Micro) :
    ∃ v, drain (.await (.rcc r) mask want :: tail) u = drain tail v ∧ Brought s c rest v := by
  have polled := h.script_used (a :: rest)
  obtain ⟨value, next⟩ := readValue_rcc_flag polled.2 unstored
    (by rw [drawMask_congr (s := { s with rcc := c }) polled.rcc]; exact drawn) nonzero
  refine ⟨_, ?_, h.script_used rest⟩
  have seen : readValue { u with script := a :: rest } (.rcc r) &&& mask = want := value.trans shown
  rw [drain, boundary_still (by rw [h.script, h.still_eq]), if_pos seen, next]
  rfl

/-- The same point, its registers written otherwise. -/
theorem at_eq {c' : Rcc} (h : Brought s c rest u) (e : c = c') : Brought s c' rest u := e ▸ h

/-- The oscillator on and ready (R240, phase 1). -/
theorem oscillator {x hse : Nat} (h : Brought s c (still s 1 ++ (x :: (still s 2 ++ (hse :: rest)))) u)
    (ready : (BitVec.ofNat 32 hse).getLsbD 17 = true) (tail : List Micro) :
    ∃ v p, drain (acts (updateRcc .ctlr 0 maskHseOn) ++ (.await (.rcc .ctlr) maskHseRdy maskHseRdy :: tail)) u =
        drain tail v ∧
      Brought s { c with ctlr := c.ctlr ||| maskHseOn, hseOnSeen := true, pllOnSeen := p } rest v := by
  rw [still_add s 1 1, List.append_assoc] at h
  obtain ⟨v, written, h⟩ := h.update_ctlr (clear := 0) (set := maskHseOn) (by decide) _
  obtain ⟨w, waited, h⟩ := (h.at_eq (storeRcc_hseOn c)).await (hseRdy_drawn rfl) (by decide) (by decide)
    (and_twoPow_of_bit ready) tail
  exact ⟨w, _, written.trans waited, h⟩

/-- The multiplier off, configured, on again and ready (R240, phases 2 and 3). -/
theorem multiplier {x y pll : Nat}
    (h : Brought s c (still s 1 ++ (x :: (still s 4 ++ (y :: (still s 2 ++ (pll :: rest)))))) u) {cfg : Config}
    (least : 2 ≤ cfg.pllMul) (greatest : cfg.pllMul ≤ 15) (unseen : c.swPllSeen = false)
    (other : c.cfgr0 &&& maskSw ≠ 2) (ready : (BitVec.ofNat 32 pll).getLsbD 25 = true) (tail : List Micro) :
    ∃ v q, drain (acts (updateRcc .ctlr maskPllOn 0) ++ (acts (updateRcc .cfgr0 maskPllFields (pllFields cfg)) ++
          (acts (updateRcc .ctlr 0 maskPllOn) ++ (.await (.rcc .ctlr) maskPllRdy maskPllRdy :: tail)))) u =
        drain tail v ∧
      Brought s
        { c with
          ctlr := c.ctlr ||| maskPllOn, cfgr0 := c.cfgr0 &&& ~~~maskPllFields ||| pllFields cfg
          hseOnSeen := c.hseOnSeen || q, pllOnSeen := true } rest v := by
  have four : still s 4 = still s 1 ++ (still s 2 ++ still s 1) := by rw [← still_add, ← still_add]
  have two : still s 2 = still s 1 ++ still s 1 := still_add s 1 1
  rw [four] at h
  simp only [List.append_assoc] at h
  obtain ⟨within, offSwitch, -⟩ := pllFields_spec least greatest
  obtain ⟨u1, off, h⟩ := h.update_ctlr (clear := maskPllOn) (set := 0) (by decide) _
  obtain ⟨u2, configured, h⟩ := h.update_calm (r := .cfgr0) (clear := maskPllFields) (cfgr0_calm unseen) within _
  rw [two, List.append_assoc] at h
  obtain ⟨u3, on, h⟩ := h.update_ctlr (clear := 0) (set := maskPllOn) (by decide) _
  obtain ⟨u4, waited, h⟩ := (h.at_eq (storeRcc_multiplier c unseen other offSwitch)).await (pllRdy_drawn rfl)
    (by decide) (by decide) (and_twoPow_of_bit ready) tail
  exact ⟨u4, _, off.trans (configured.trans (on.trans waited)), h⟩

/-- The system clock switched to the multiplier (R240, phase 4). -/
theorem switched {sws : Nat} (h : Brought s c (still s 3 ++ (sws :: rest)) u) (unseen : c.swPllSeen = false)
    (shown : (BitVec.ofNat 32 sws).extractLsb' 2 2 = 2) (tail : List Micro) :
    ∃ v, drain (acts (updateRcc .cfgr0 maskSw 2) ++ (.await (.rcc .cfgr0) maskSws 0x8 :: tail)) u = drain tail v ∧
      Brought s { c with cfgr0 := c.cfgr0 &&& ~~~maskSw ||| 2, swPllSeen := true } rest v := by
  rw [still_add s 2 1, List.append_assoc] at h
  obtain ⟨v, written, h⟩ := h.update_calm (r := .cfgr0) (clear := maskSw) (set := 2) (cfgr0_calm unseen) (by decide) _
  obtain ⟨w, waited, h⟩ := (h.at_eq (storeRcc_switch c)).await (sws_drawn rfl) (by decide) (by decide)
    (sws_of_field shown) tail
  exact ⟨w, written.trans waited, h⟩

/-- The gates opened (R240, phase 5; R243). -/
theorem gates (h : Brought s c (still s 4 ++ rest) u) (tail : List Micro) :
    ∃ v, drain (acts (updateRcc .apb2pcenr 0 bringupGates2) ++
          (acts (updateRcc .apb1pcenr 0 bringupGates1) ++ tail)) u = drain tail v ∧
      Brought s
        { c with apb2pcenr := c.apb2pcenr ||| bringupGates2, apb1pcenr := c.apb1pcenr ||| bringupGates1 } rest v := by
  rw [still_add s 2 2, List.append_assoc] at h
  obtain ⟨v, first, h⟩ := h.update_calm (r := .apb2pcenr) (clear := 0) (set := bringupGates2) rfl (by decide) _
  obtain ⟨w, second, h⟩ := h.update_calm (r := .apb1pcenr) (clear := 0) (set := bringupGates1) rfl (by decide) tail
  refine ⟨w, first.trans second, h.at_eq ?_⟩
  simp only [storeRcc, rccBits, and_not_zero]

/-- The end of the bring-up: `clock_done` and the response. -/
theorem completed (h : Brought s c (still s 2 ++ rest) u) :
    drain (acts [.setClockDone, .respond 0]) u =
      { s with
        rcc := c, clockDone := true, responses := s.responses ++ [⟨0, []⟩], acc := 0, buf := [], todo := []
        script := rest } := by
  rw [still_add s 1 1, List.append_assoc] at h
  have first := drain_act_still (a := .setClockDone) (tail := acts [.respond 0]) (rest := still s 1 ++ rest)
    (by rw [h.script, h.still_eq])
  have second := drain_act_still (s := { u with clockDone := true, script := still s 1 ++ rest }) (a := .respond 0)
    (tail := []) (rest := rest) (by rw [← h.still_eq]; rfl)
  refine first.trans (second.trans ?_)
  obtain ⟨⟨acc, rfl⟩, -⟩ := h
  rfl

end Brought

/-! ### The bring-up (R240) -/

/-- The word of `CFGR0` after the bring-up: the multiplier's fields and the switch, all others as before. -/
theorem cfgr0_broughtUp {cfg : Config} (least : 2 ≤ cfg.pllMul) (greatest : cfg.pllMul ≤ 15) (w : Word) :
    (w &&& ~~~maskPllFields ||| pllFields cfg) &&& ~~~maskSw ||| 2 =
      (w &&& ~~~0x003F0003) ||| BitVec.ofNat 32 (2 ^ 16 + 2 ^ 18 * (cfg.pllMul - 2) + 2) := by
  obtain ⟨-, offSwitch, fields⟩ := pllFields_spec least greatest
  have cleared : ~~~maskPllFields &&& ~~~maskSw = ~~~0x003F0003 := by decide
  rw [← fields, BitVec.and_or_distrib_right, BitVec.and_assoc, cleared, and_not_of_disjoint offSwitch, BitVec.or_assoc]

/-- Settles O46: the phases of R240 one after another, each from the registers the one before it left. -/
theorem bringupReachesThePll : Obligations.BringupReachesThePll := by
  intro s x1 hse x2 x3 pll sws rest first unseen least greatest hseReady pllReady shown hs masked history
  have other : s.rcc.cfgr0 &&& maskSw ≠ 2 := fun on => by
    obtain ⟨-, -, switch⟩ := history
    rw [switch on] at unseen
    cases unseen
  have meaning : exec .clockBringup s = .next (drain (bringupProg s.cfg) s) := if_neg (by simp [first])
  have six : still s 6 = still s 4 ++ still s 2 := still_add s 4 2
  have start := Brought.start masked
  rw [hs, six] at start
  simp only [List.append_assoc, List.cons_append, List.nil_append] at start
  obtain ⟨u1, p, phase1, h⟩ := start.oscillator hseReady _
  obtain ⟨u2, q, phase2, h⟩ := h.multiplier least greatest unseen other pllReady _
  obtain ⟨u3, phase4, h⟩ := h.switched unseen shown _
  obtain ⟨u4, phase5, h⟩ := h.gates _
  rw [bringupProg_eq, phase1, phase2, phase4, phase5, h.completed] at meaning
  refine ⟨_, meaning, ?_, rfl, ⟨rfl, rfl, rfl⟩, rfl⟩
  simp only [Bool.true_or, cfgr0_broughtUp least greatest, BitVec.or_assoc]
  rfl

end Sys2Proof.Machine

/-!
PROOFS. Raw register access (46_host_access R255 to R258) and the second bring-up (45_clock R244): what is refused, what
a read shows of a register, what a write stores and leaves.
-/
namespace Sys2Proof.Machine

/-! ### The check of an address (R257) -/

/-- A misaligned address, and one that no register of the configuration has, name no register. -/
theorem regAt_eq_none {cfg : Config} {addr : Word}
    (outside : addr.extractLsb' 0 2 ≠ 0 ∨ ∀ r : Reg, hasReg cfg r = true → regAddr cfg r ≠ addr) :
    regAt cfg addr = none := by
  rcases outside with misaligned | unnamed
  · exact if_neg misaligned
  · unfold regAt
    split
    · exact List.find?_eq_none.mpr fun r _ => by simpa using unnamed r
    · rfl

theorem exec_regRead_refused {s : State} {addr : Word} (unnamed : regAt s.cfg addr = none) :
    exec (.regRead addr) s = .refused .notARegister := by
  rw [exec, execRegRead, unnamed]

theorem exec_regWrite_refused {s : State} {addr : Word} (unnamed : regAt s.cfg addr = none) (value : Word) :
    exec (.regWrite addr value) s = .refused .notARegister := by
  rw [exec, execRegWrite, unnamed]

/-- A read answers what its register showed at the boundary before it. -/
theorem exec_regRead {s : State} {addr : Word} {r : Reg} (named : regAt s.cfg addr = some r) :
    exec (.regRead addr) s =
      .next (runActs [.respond (readValue (boundary s) r)] (act (boundary s) (.read r))) := by
  have answer : (boundary (act (boundary s) (.read r))).acc = readValue (boundary s) r := boundary_acc _
  rw [exec, execRegRead, named, ← answer]
  rfl

/-- A write is the register write between a boundary and that of the response. -/
theorem exec_regWrite {s : State} {addr : Word} {r : Reg} (named : regAt s.cfg addr = some r) (value : Word) :
    exec (.regWrite addr value) s = .next (respond (boundary (writeReg (boundary s) r value)) 0 []) := by
  rw [exec, execRegWrite, named]
  rfl

/-- Settles O6: the address check finds no register, and the bring-up's guard is set. -/
theorem commandsOutsideTheSpecAreRefused : Obligations.CommandsOutsideTheSpecAreRefused := by
  refine ⟨fun s addr value outside => ?_, fun s done => if_pos done⟩
  have unnamed := regAt_eq_none outside
  exact ⟨exec_regRead_refused unnamed, exec_regWrite_refused unnamed value⟩

/-! ### What a read shows (R57, R77) -/

/-- A gated register shows its stored bits and, in its draw bits, the draw. -/
theorem readValue_clocked {s : State} {r : Reg} (gated : clocked s r = true) :
    readValue s r = shown s r ||| (BitVec.ofNat 32 (drawValue s) &&& drawMask s r) := by
  rw [readValue, if_pos gated]
  split
  next calm => simp [calm]
  next => rfl

/-- Outside the draw bits a gated register shows its stored bits alone. -/
theorem readValue_undrawn {s : State} {r : Reg} (gated : clocked s r = true) :
    readValue s r &&& ~~~drawMask s r = shown s r &&& ~~~drawMask s r := by
  rw [readValue_clocked gated, BitVec.and_or_distrib_right, masked_within]
  exact BitVec.or_zero

theorem readValue_undrawn_bit {s : State} {r : Reg} (gated : clocked s r = true) {n : Nat}
    (undrawn : (drawMask s r).getLsbD n = false) : (readValue s r).getLsbD n = (shown s r).getLsbD n := by
  rw [readValue_clocked gated, BitVec.getLsbD_or, BitVec.getLsbD_and, undrawn, Bool.and_false, Bool.or_false]

/-! ### What interrupts leave of a register (R228, R229) -/

/-- The interrupt context leaves what a register outside the UART shows, and what it stores. -/
theorem shown_storedBits_of_same {s t : State} (same : SameButInterrupts s t) {r : Reg}
    (outside : isUartReg r = false) :
    shown t r = shown s r ∧ storedBits t r = storedBits s r := by
  unfold SameButInterrupts at same
  rw [same]
  cases r with
  | gpio p x => cases x <;> exact ⟨rfl, rfl⟩
  | rcc x => cases x <;> exact ⟨rfl, rfl⟩
  | i2c x => cases x <;> exact ⟨rfl, rfl⟩
  | spi x => cases x <;> exact ⟨rfl, rfl⟩
  | uart x => cases outside

/-- Of the UART's registers the interrupt context may change in what they show `TXEIE` and the reserved bits of `CTLR1`
alone. -/
theorem shown_uart_of_interrupts {s t : State} (only : UartInterruptsOnly s t) (x : UartReg) {n : Nat}
    (kept : x = .ctlr1 → n < 14 ∧ n ≠ 7) :
    (shown t (.uart x)).getLsbD n = (shown s (.uart x)).getLsbD n := by
  obtain ⟨brr, ctlr2, ctlr3, bits, -⟩ := only
  cases x with
  | statr => rfl
  | datar => rfl
  | brr => exact congrArg (BitVec.getLsbD · n) brr
  | ctlr1 => exact bits n (kept rfl).1 (kept rfl).2
  | ctlr2 => exact congrArg (BitVec.getLsbD · n) ctlr2
  | ctlr3 => exact congrArg (BitVec.getLsbD · n) ctlr3

/-! ### The raw read (R255) -/

/-- Settles O48: the read is one boundary and one read, and the response changes no register. -/
theorem rawReadReturnsTheRegister : Obligations.RawReadReturnsTheRegister := by
  intro s addr r named
  let q := readValue (boundary s) r
  have body : PinStepOn [] [] s (act (boundary s) (.read r)) :=
    (pinStepOn_boundary s).trans (pinStepOn_read (boundary s) r)
  obtain ⟨frame, responded, -, -, ports, rcc⟩ := respond_spec s _ q [] [] body
  have gate : clocked (boundary s) r = clocked s r := clocked_boundary s r
  have draws : drawMask (boundary s) r = drawMask s r := drawMask_congr (boundary_rcc s) r
  refine ⟨_, q, exec_regRead named, responded, ⟨frame, ?_, ?_⟩, fun gated outside => ?_,
    fun gated inside n _ kept undrawn => ?_, fun quiet => ?_⟩
  · exact ports.trans ((readNext_gpio (boundary s) r).trans (boundary_gpio s))
  · exact rcc.trans ((readNext_rcc (boundary s) r).trans (boundary_rcc s))
  · obtain ⟨kept, -⟩ := shown_storedBits_of_same (boundary_same s) outside
    rw [← draws, ← kept]
    exact readValue_undrawn (gate.trans gated)
  · cases r with
    | uart x =>
      rw [← shown_uart_of_interrupts (boundary_only s) x fun e => kept (congrArg Reg.uart e)]
      exact readValue_undrawn_bit (gate.trans gated) (draws ▸ undrawn)
    | _ => cases inside
  · show readValue (boundary s) r = _
    rw [boundary_quiet quiet]
    split
    next gated => exact readValue_clocked gated
    next ungated => exact if_neg ungated

/-! ### What a register write leaves (R76, R36, R37) -/

@[simp] theorem writeReg_script (s : State) (r : Reg) (v : Word) : (writeReg s r v).script = s.script := by
  rw [writeReg_frame]

/-- A write changes its own register, or through `BSHR` and `BCR` the latch of their port, and no other register. -/
theorem storedBits_writeReg_other (s : State) {r r' : Reg} (v : Word) (apart : r' ≠ r)
    (latch : ∀ p : Fin 5, (r = .gpio p .bshr ∨ r = .gpio p .bcr) → r' ≠ .gpio p .outdr) :
    storedBits (writeReg s r v) r' = storedBits s r' := by
  unfold writeReg
  split
  · by_cases acts : ∃ p x, r = .gpio p x ∧ (x = .bshr ∨ x = .bcr)
    · obtain ⟨p, x, rfl, hx⟩ := acts
      exact storedBits_latchWrite s p x v hx (latch p (by simpa using hx))
    · by_cases stores : storeMask r = 0
      · rw [storeReg_readOnly s v stores fun p =>
          ⟨fun e => acts ⟨p, _, e, .inl rfl⟩, fun e => acts ⟨p, _, e, .inr rfl⟩⟩]
      · rw [storedBits_storeReg s r r' v stores, if_neg apart]
  · rfl

/-- A write outside the UART leaves the UART's registers. -/
theorem writeReg_uart_of_other {r : Reg} (outside : isUartReg r = false) (s : State) (v : Word) :
    (writeReg s r v).uart = s.uart := by
  unfold writeReg storeReg
  cases r with
  | gpio p x => cases x <;> split <;> rfl
  | rcc x => cases x <;> split <;> rfl
  | i2c x => cases x <;> split <;> rfl
  | spi x => cases x <;> split <;> rfl
  | uart x => cases outside

/-! ### The boundaries around a raw write (R256, R270) -/

/-- No interrupt is taken around a write of r: none is enabled, and none offered after a write of `UART.CTLR1`. -/
def WriteUninterrupted (s : State) (r : Reg) : Prop :=
  Quiet s ∧ (r = .uart .ctlr1 → ∃ rest, s.script = 0 :: rest)

/-- The boundary after an uninterrupted write at most uses up the answer that no interrupt is taken. -/
theorem boundary_afterWrite {s : State} {r : Reg} (calm : WriteUninterrupted s r) (v : Word) :
    ∃ l, boundary (writeReg s r v) = { writeReg s r v with script := l } := by
  obtain ⟨quiet, answer⟩ := calm
  by_cases enables : r = .uart .ctlr1
  · obtain ⟨rest, hs⟩ := answer enables
    obtain ⟨l, declined, -⟩ := boundary_declined ((writeReg_script s r v).trans hs)
    exact ⟨l, declined⟩
  · have kept : (writeReg s r v).uart.ctlr1 = s.uart.ctlr1 :=
      storedBits_writeReg_other s (r' := .uart .ctlr1) v (Ne.symm enables) fun _ _ => by simp
    have quiet' : Quiet (writeReg s r v) := by rwa [Quiet, kept]
    exact ⟨(writeReg s r v).script, boundary_quiet quiet'⟩

/-- The boundary before a raw write changes no register in view: none outside the UART, none at all when no interrupt is
taken. -/
theorem storedBits_beforeWrite {s : State} {r r' : Reg} (inView : isUartReg r' = false ∨ WriteUninterrupted s r) :
    storedBits (boundary s) r' = storedBits s r' := by
  rcases inView with outside | ⟨quiet, -⟩
  · exact (shown_storedBits_of_same (boundary_same s) outside).2
  · rw [boundary_quiet quiet]

/-- A raw write leaves every register in view as the register write made it. -/
theorem storedBits_afterWrite {s : State} {r r' : Reg} (inView : isUartReg r' = false ∨ WriteUninterrupted s r)
    (v : Word) :
    storedBits (respond (boundary (writeReg (boundary s) r v)) 0 []) r' =
      storedBits (writeReg (boundary s) r v) r' := by
  have response : storedBits (respond (boundary (writeReg (boundary s) r v)) 0 []) r' =
      storedBits (boundary (writeReg (boundary s) r v)) r' := storedBits_congr rfl rfl rfl rfl rfl r'
  rw [response]
  rcases inView with outside | calm
  · exact (shown_storedBits_of_same (boundary_same _) outside).2
  · rw [boundary_quiet calm.1]
    obtain ⟨l, declined⟩ := boundary_afterWrite calm v
    rw [declined]
    exact storedBits_congr rfl rfl rfl rfl rfl r'

/-- What a response leaves of the state before a change of registers, with interrupts before and after it. -/
theorem respond_afterWrite {s v u w : State} (before : SameButInterrupts s v)
    (write : u = { v with gpio := u.gpio, rcc := u.rcc, i2c := u.i2c, spi := u.spi, uart := u.uart })
    (after : SameButInterrupts u w) :
    respond w 0 [] = { s with
      gpio := w.gpio, rcc := w.rcc, i2c := w.i2c, spi := w.spi, uart := w.uart, trace := w.trace,
      responses := (respond w 0 []).responses, acc := 0, buf := [], script := w.script, drawn := w.drawn } := by
  unfold SameButInterrupts at before after
  rw [after, write, before]
  rfl

/-! ### The raw write (R256) -/

/-- Settles O49: the register write between two boundaries, each of which leaves the registers in view. -/
theorem rawWriteStoresTheRegister : Obligations.RawWriteStoresTheRegister := by
  intro s addr value r named
  have gate : clocked (boundary s) r = clocked s r := clocked_boundary s r
  have before := boundary_same s
  have after := boundary_same (writeReg (boundary s) r value)
  have ports : (boundary (writeReg (boundary s) r value)).gpio = (writeReg (boundary s) r value).gpio := same_gpio after
  obtain ⟨hse, pll, switch⟩ := writeReg_history (boundary s) r value
  rw [boundary_rcc] at hse pll switch
  rw [← same_rcc after] at hse pll switch
  refine ⟨_, exec_regWrite named value, ⟨?_, rfl, rfl⟩, fun r' inView => ?_, fun p n gated => ?_, hse, pll, switch,
    fun outside => ?_, fun quiet answer => ?_, respond_afterWrite before (writeReg_frame _ _ _) after⟩
  · rw [respond_responses, boundary_responses, writeReg_responses, boundary_responses]
  · rw [storedBits_afterWrite inView, ← storedBits_beforeWrite inView]
    refine ⟨fun gated same stores => ?_, fun ungated => ?_, storedBits_writeReg_other _ value⟩
    · rw [writeReg_clocked (gate.trans gated), storedBits_storeReg _ _ _ _ stores, if_pos same]
    · rw [writeReg_unclocked (gate.trans ungated)]
  · have latched := setAndClearRegisters (boundary s) p value n
    rw [respond_gpio, ports]
    constructor
    · rintro rfl
      rw [← boundary_gpio s]
      exact (latched (gate.trans gated)).1
    · rintro rfl
      rw [← boundary_gpio s]
      exact (latched (gate.trans gated)).2
  · have write : UartInterruptsOnly (boundary s) (writeReg (boundary s) r value) :=
      interruptsOnly_of_eq (writeReg_uart_of_other outside _ _) (writeReg_trace _ _ _)
    exact interruptsOnly_trans (interruptsOnly_trans (boundary_only s) write) (boundary_only _)
  · obtain ⟨l, declined⟩ := boundary_afterWrite ⟨quiet, answer⟩ value
    rw [respond_trace, boundary_quiet quiet, declined]
    exact writeReg_trace s r value

end Sys2Proof.Machine

/-!
PROOFS. The clock gates (60_exceptions R278, 10_state R43): every write of a gate register in a command but a raw write sets
bits in the value that the action before it read.
-/
namespace Sys2Proof.Machine

/-! ### Gates that stay open (R43) -/

/-- A register of clock gates (10_state R43). -/
def isGateReg : RccReg → Bool
  | .apb2pcenr => true
  | .apb1pcenr => true
  | _ => false

/-- Every gate that is open under c is open under d. -/
def GatesStay (c d : Rcc) : Prop :=
  ∀ r, isGateReg r = true → ∀ n, (storeMask (.rcc r)).getLsbD n = true → (rccBits c r).getLsbD n = true →
    (rccBits d r).getLsbD n = true

theorem GatesStay.refl (c : Rcc) : GatesStay c c := fun _ _ _ _ opened => opened

theorem GatesStay.trans {c d e : Rcc} (h : GatesStay c d) (k : GatesStay d e) : GatesStay c e :=
  fun r gate n stored opened => k r gate n stored (h r gate n stored opened)

/-- The gates in the terms of R278: all bits of `APB2PCENR`, bit 21 of `APB1PCENR` (log 7). -/
theorem GatesStay.gates {c d : Rcc} (h : GatesStay c d) :
    c.apb2pcenr &&& d.apb2pcenr = c.apb2pcenr ∧ (c.apb1pcenr.getLsbD 21 = true → d.apb1pcenr.getLsbD 21 = true) := by
  refine ⟨BitVec.eq_of_getLsbD_eq fun n hn => ?_, h .apb1pcenr rfl 21 rfl⟩
  have stored : (storeMask (.rcc .apb2pcenr)).getLsbD n = true := by
    rw [show storeMask (.rcc .apb2pcenr) = BitVec.allOnes 32 from rfl, BitVec.getLsbD_allOnes]
    exact decide_eq_true hn
  have stays := h .apb2pcenr rfl n stored
  rw [BitVec.getLsbD_and, Bool.and_eq_left_iff_imp]
  exact stays

/-! ### Writes of the clock controller -/

theorem rccBits_storeRcc (c : Rcc) (r r' : RccReg) (v : Word) :
    rccBits (storeRcc c r v) r' = if r' = r then v else rccBits c r' := by
  cases r <;> cases r' <;> rfl

/-- A value that is made by setting bits of the one read. -/
def setsBits : Source → Bool
  | .update clear _ => clear == 0
  | _ => false

/-- Bits set in a value stay set. -/
theorem sourceValue_of_setsBits {v : Source} (h : setsBits v = true) {acc : Word} {n : Nat}
    (bit : acc.getLsbD n = true) : (sourceValue acc v).getLsbD n = true := by
  cases v with
  | const w => cases h
  | flip mask => cases h
  | update clear set =>
    obtain rfl : clear = 0 := by simpa [setsBits] using h
    rw [sourceValue, and_not_zero, BitVec.getLsbD_or, bit, Bool.true_or]

/-- A write closes no gate when it is none of a gate register, or sets bits of the value that the register holds. -/
theorem writeReg_gatesStay {s : State} {r : Reg} {v : Source}
    (h : ∀ x, r = .rcc x → isGateReg x = true → s.acc = rccBits s.rcc x ∧ setsBits v = true) :
    GatesStay s.rcc (writeReg s r (sourceValue s.acc v)).rcc := by
  by_cases rcc : ∃ x, r = .rcc x
  · obtain ⟨x, rfl⟩ := rcc
    intro g gate n stored opened
    rw [writeReg_rcc, rccBits_storeRcc]
    split
    next same =>
      subst same
      obtain ⟨held, sets⟩ := h g rfl gate
      rw [BitVec.getLsbD_and, stored, Bool.and_true]
      exact sourceValue_of_setsBits sets (held ▸ opened)
    next => exact opened
  · rw [writeReg_rcc_of_other fun x e => rcc ⟨x, e⟩]
    exact .refl _

/-- No other action changes the clock controller. -/
theorem act_rcc_of_not_write {a : Action} (h : ∀ r v, a ≠ .write r v) (s : State) : (act s a).rcc = s.rcc := by
  cases a with
  | read r => exact readNext_rcc s r
  | write r v => exact absurd rfl (h r v)
  | _ => rfl

/-! ### Programs that close no gate -/

/-- The register of the clock controller that the piece m reads into `acc`. -/
def rccRead : Micro → Option RccReg
  | .act (.read (.rcc r)) => some r
  | _ => none

/-- The piece m closes no gate after a piece that read `read`: it writes no gate register, or sets bits of the one read. -/
def gatesAllow (read : Option RccReg) : Micro → Bool
  | .act (.write (.rcc r) v) => !isGateReg r || (read == some r && setsBits v)
  | _ => true

/-- A program whose pieces close no gate, after a piece that read `read`. -/
def closesNoGate (read : Option RccReg) : List Micro → Bool
  | [] => true
  | m :: rest => gatesAllow read m && closesNoGate (rccRead m) rest

theorem gatesAllow_of_none {m : Micro} (h : gatesAllow none m = true) (read : Option RccReg) :
    gatesAllow read m = true := by
  unfold gatesAllow at *
  split at h
  next r v =>
    have other : isGateReg r = false := by simpa using h
    rw [other]; rfl
  next => rfl

/-- A program that closes no gate whatever was read before it closes none after a read of `read`. -/
theorem closesNoGate_of_none {prog : List Micro} (h : closesNoGate none prog = true) (read : Option RccReg) :
    closesNoGate read prog = true := by
  cases prog with
  | nil => rfl
  | cons m rest =>
    rw [closesNoGate, Bool.and_eq_true] at h ⊢
    exact ⟨gatesAllow_of_none h.1 read, h.2⟩

theorem closesNoGate_append {ms ns : List Micro} {read : Option RccReg} (h : closesNoGate read ms = true)
    (k : closesNoGate none ns = true) : closesNoGate read (ms ++ ns) = true := by
  induction ms generalizing read with
  | nil => exact closesNoGate_of_none k read
  | cons m ms ih =>
    rw [closesNoGate, Bool.and_eq_true] at h
    rw [List.cons_append, closesNoGate, h.1, ih h.2, Bool.and_self]

/-- The rest of such a program, from some piece on. -/
theorem closesNoGate_suffix {ms ns : List Micro} {read : Option RccReg} (h : closesNoGate read (ms ++ ns) = true) :
    ∃ read', closesNoGate read' ns = true := by
  induction ms generalizing read with
  | nil => exact ⟨read, h⟩
  | cons m ms ih =>
    rw [List.cons_append, closesNoGate, Bool.and_eq_true] at h
    exact ih h.2

theorem closesNoGate_flatMap {α : Type} {f : α → List Micro} (h : ∀ x, closesNoGate none (f x) = true) (xs : List α) :
    closesNoGate none (xs.flatMap f) = true := by
  induction xs with
  | nil => rfl
  | cons x xs ih => exact closesNoGate_append (h x) ih

/-- A wait reads nothing into `acc` and writes no register. -/
theorem closesNoGate_wait {m : Micro} (hm : isWait m = true) (read : Option RccReg) (rest : List Micro) :
    closesNoGate read (m :: rest) = closesNoGate none rest := by
  cases m with
  | act a => cases hm
  | _ => rfl

/-! ### Every command but a raw write -/

theorem physicalActions_closesNoGate {cfg : Config} {id : BitVec 16} {body : Pin → List Action}
    (h : ∀ pin, closesNoGate none (acts (body pin)) = true) :
    closesNoGate none (acts (physicalActions cfg id body)) = true := by
  unfold physicalActions
  cases classify cfg id with
  | physical pin => exact h pin
  | virtual c role => rfl
  | invalid => rfl

theorem lazyInit_closesNoGate (s : State) (c : Fin 4) : closesNoGate none (acts (lazyInit s c)) = true := by
  unfold lazyInit
  split <;> rfl

/-- The edges of a critical span are no register accesses. -/
theorem critical_closesNoGate {as : List Action} (h : closesNoGate none (acts as) = true) :
    closesNoGate none (acts (critical as)) = true := by
  rw [critical, acts_append]
  exact closesNoGate_append (ms := acts (.enter :: as)) h rfl

theorem applyLines_closesNoGate (cfg : Config) (c : Fin 4) (m : Motor) :
    closesNoGate none (acts (applyLines cfg c m)) = true := by
  have levels (ls : List (Pin × Bool)) : closesNoGate none (acts (ls.map fun l => driveLevel l.1 l.2)) = true := by
    rw [acts, List.map_map, List.map_eq_flatMap]
    exact closesNoGate_flatMap (fun _ => rfl) ls
  exact critical_closesNoGate (levels _)

theorem resetLines_closesNoGate (cfg : Config) (c : Fin 4) (m : Motor) :
    closesNoGate none (acts (resetLines cfg c m)) = true := by
  have lines (ls : List (Pin × Bool)) :
      closesNoGate none (acts (ls.flatMap fun l => driveLevel l.1 l.2 :: setNibble l.1 nibOutPp50)) = true := by
    rw [acts, List.map_flatMap]
    exact closesNoGate_flatMap (fun _ => rfl) ls
  exact critical_closesNoGate (lines _)

theorem motorActs_closesNoGate (s : State) (c : Fin 4) (m : Motor) (q : Word) :
    closesNoGate none (acts (motorActs s c m q)) = true := by
  rw [motorActs, acts_append, acts_append, acts_append]
  exact closesNoGate_append (closesNoGate_append (closesNoGate_append (lazyInit_closesNoGate s c) rfl)
    (applyLines_closesNoGate s.cfg c m)) rfl

theorem motorResetActs_closesNoGate (s : State) (c : Fin 4) (m : Motor) :
    closesNoGate none (acts (motorResetActs s c m)) = true := by
  rw [motorResetActs, acts_append, acts_append, acts_append]
  exact closesNoGate_append (closesNoGate_append (closesNoGate_append (lazyInit_closesNoGate s c) rfl)
    (resetLines_closesNoGate s.cfg c m)) rfl

/-- The actions of a command without waits. -/
theorem commandActions_closesNoGate (s : State) {i : Instr} (noWaits : waitingProgram s.cfg i = [])
    (notRaw : isRegWrite i = false) : closesNoGate none (acts (commandActions s i)) = true := by
  cases i with
  | gpioSetup id v => exact physicalActions_closesNoGate fun _ => rfl
  | gpioWrite id v => exact physicalActions_closesNoGate fun _ => rfl
  | gpioToggle id => exact physicalActions_closesNoGate fun _ => rfl
  | gpioReset id v => exact physicalActions_closesNoGate fun _ => rfl
  | gpioInputSetup id pull =>
    refine physicalActions_closesNoGate fun pin => ?_
    unfold gpioInputSetupActs
    split <;> rfl
  | gpioInputRead id => exact physicalActions_closesNoGate fun _ => rfl
  | motorSetup c role v => exact motorActs_closesNoGate ..
  | motorWrite c role v => exact motorActs_closesNoGate ..
  | motorToggle c role => exact motorActs_closesNoGate ..
  | motorReset c role v => exact motorResetActs_closesNoGate ..
  | i2cSetup bus addr7 rate =>
    rw [commandActions, i2cSetupActs]
    split <;> rfl
  | spiSetup bus mode rate =>
    rw [commandActions, spiSetupActs]
    split <;> rfl
  | spiPrepare bus ctrl =>
    rw [commandActions, spiPrepareActs]
    split <;> rfl
  | uartInit => rfl
  | uartTxKick => rfl
  | regRead addr => cases hr : regAt s.cfg addr <;> rw [commandActions, hr] <;> rfl
  | regWrite addr value => cases notRaw
  | uartRxHandler => rfl
  | uartTxHandler => rfl
  | i2cWrite bus addr8 bytes => cases noWaits
  | i2cRead bus addr8 reg len => cases noWaits
  | spiTransfer bus readBack bytes => cases noWaits
  | clockBringup => cases noWaits

theorem startProg_closesNoGate (bus : Byte) (again : Bool) : closesNoGate none (startProg bus again) = true := by
  cases again <;> rfl

theorem sendBytes_closesNoGate (bus : Byte) (bytes : List Byte) :
    closesNoGate none (bytes.flatMap (sendByteProg bus)) = true :=
  closesNoGate_flatMap (fun _ => rfl) bytes

theorem receiveProg_closesNoGate (bus : Byte) (n : Nat) : closesNoGate none (receiveProg bus n) = true := by
  refine closesNoGate_flatMap (fun k => ?_) _
  unfold receiveByteProg
  split <;> rfl

theorem readPrologue_closesNoGate (bus addr8 : Byte) (reg : List Byte) :
    closesNoGate none (readPrologue bus addr8 reg) = true := by
  unfold readPrologue
  split
  · exact startProg_closesNoGate bus false
  · exact closesNoGate_append (closesNoGate_append (closesNoGate_append (startProg_closesNoGate bus false) rfl)
      (sendBytes_closesNoGate bus reg)) (startProg_closesNoGate bus true)

theorem spiBytesProg_closesNoGate (bus : Byte) (readBack : Bool) (k : Nat) (bytes : List Byte) :
    closesNoGate none (spiBytesProg bus readBack k bytes) = true := by
  induction bytes generalizing k with
  | nil => rfl
  | cons sent rest ih => exact closesNoGate_append (ms := spiByteProg bus readBack k sent) rfl (ih (k + 1))

/-- The program of a transfer or of the bring-up. -/
theorem waitingProgram_closesNoGate (cfg : Config) (i : Instr) : closesNoGate none (waitingProgram cfg i) = true := by
  cases i with
  | i2cWrite bus addr8 bytes =>
    exact closesNoGate_append (closesNoGate_append (closesNoGate_append (closesNoGate_append (closesNoGate_append rfl
      (startProg_closesNoGate bus false)) rfl) (sendBytes_closesNoGate bus bytes)) rfl) rfl
  | i2cRead bus addr8 reg len =>
    exact closesNoGate_append (closesNoGate_append (closesNoGate_append (closesNoGate_append (closesNoGate_append rfl
      (readPrologue_closesNoGate bus addr8 reg)) rfl) rfl) (receiveProg_closesNoGate bus _)) rfl
  | spiTransfer bus readBack bytes =>
    exact closesNoGate_append (closesNoGate_append (closesNoGate_append rfl
      (spiBytesProg_closesNoGate bus readBack 0 bytes)) rfl) rfl
  | clockBringup => rfl
  | _ => rfl

/-- The rest of a command from one of its waits on. -/
theorem heldFrom_closesNoGate {cfg : Config} {i : Instr} {todo : List Micro} (h : HeldFrom cfg i todo) :
    closesNoGate none todo = true := by
  obtain ⟨before, wait, after, program, held⟩ := h
  obtain ⟨m, rfl, entered, -⟩ := heldAt_cons held
  obtain ⟨read, rest⟩ := closesNoGate_suffix (program ▸ waitingProgram_closesNoGate cfg i)
  rw [closesNoGate_wait entered.isWait.1] at rest
  rwa [closesNoGate_wait entered.isWait.2]

/-! ### Runs -/

/-- `acc` holds the bits of the gate register that was read. -/
def HoldsGates (read : Option RccReg) (u : State) : Prop :=
  ∀ r, read = some r → isGateReg r = true → u.acc = rccBits u.rcc r

/-- u is s some way into a program that closes no gate, of which `prog` is left. -/
def GateRun (s : State) (prog : List Micro) (u : State) : Prop :=
  GatesStay s.rcc u.rcc ∧ ∃ read, HoldsGates read u ∧ closesNoGate read prog = true

theorem GateRun.start {s : State} {prog : List Micro} (h : closesNoGate none prog = true) : GateRun s prog s :=
  ⟨.refl _, none, nofun, h⟩

/-- An action that the program allows closes no gate. -/
theorem act_gatesStay {s : State} {a : Action} {read : Option RccReg} (held : HoldsGates read s)
    (allowed : gatesAllow read (.act a) = true) : GatesStay s.rcc (act s a).rcc := by
  by_cases write : ∃ r v, a = .write r v
  · obtain ⟨r, v, rfl⟩ := write
    refine writeReg_gatesStay fun x e gate => ?_
    subst e
    have sets : read = some x ∧ setsBits v = true := by simpa [gatesAllow, gate] using allowed
    exact ⟨held x sets.1 gate, sets.2⟩
  · rw [act_rcc_of_not_write fun r v e => write ⟨r, v, e⟩]
    exact .refl _

/-- After a read of a gate register `acc` holds its gates: the register is always clocked and has no draw bits (R43). -/
theorem act_holdsGates (s : State) (a : Action) : HoldsGates (rccRead (.act a)) (act s a) := by
  intro r isRead gate
  obtain rfl : a = .read (.rcc r) := by
    unfold rccRead at isRead
    split at isRead
    next x e => cases isRead; cases e; rfl
    next => cases isRead
  have calm : drawMask s (.rcc r) = 0 := by
    cases r with
    | apb2pcenr => rfl
    | apb1pcenr => rfl
    | _ => cases gate
  show readValue s (.rcc r) = rccBits (readNext s (.rcc r)).rcc r
  rw [readValue_calm rfl calm, shown_rcc, readNext_rcc]

theorem gates_drainRule (s : State) : DrainRule (GateRun s) fun u => GatesStay s.rcc u.rcc where
  done _ h := h.1
  action a rest u h := by
    obtain ⟨stay, read, held, safe⟩ := h
    rw [closesNoGate, Bool.and_eq_true] at safe
    have heldAfter : HoldsGates read (boundary u) := by
      unfold HoldsGates
      rw [boundary_acc, boundary_rcc]
      exact held
    have opened := act_gatesStay heldAfter safe.1
    rw [boundary_rcc] at opened
    exact ⟨stay.trans opened, _, act_holdsGates _ a, safe.2⟩
  pass m rest u v hm h k := by
    obtain ⟨stay, read, -, safe⟩ := h
    rw [closesNoGate_wait hm] at safe
    have rcc : v.rcc = u.rcc := by rw [k]
    exact ⟨rcc ▸ stay, none, nofun, safe⟩
  hold m held rest u v _ h k := by
    have rcc : v.rcc = u.rcc := by rw [k]
    exact rcc ▸ h.1
  fail m rest u v bus status _ h k := by
    have rcc : (failTransfer bus status v).rcc = u.rcc := by rw [failTransfer_frame k bus status]
    exact rcc ▸ h.1

theorem drain_gatesStay {prog : List Micro} (h : closesNoGate none prog = true) (s : State) :
    GatesStay s.rcc (drain prog s).rcc :=
  (gates_drainRule s).run prog s (.start h)

theorem gatesStay_of_same {s t : State} (h : SameButInterrupts s t) : GatesStay s.rcc t.rcc := by
  rw [same_rcc h]
  exact .refl _

/-- Every instruction but a raw write leaves the open gates open. -/
theorem exec_gatesStay {i : Instr} {s t : State} (notRaw : isRegWrite i = false) (h : exec i s = .next t) :
    GatesStay s.rcc t.rcc := by
  cases exec_executes h with
  | receive => exact gatesStay_of_same (uartRxAction_same s)
  | transmit => exact gatesStay_of_same (uartTxAction_same s)
  | halt cause => exact gatesStay_of_same (t := boundary s) (boundary_same s)
  | actions cause noWaits =>
    have run := drain_gatesStay (commandActions_closesNoGate s noWaits notRaw) s
    rwa [drain_actions] at run
  | program cause => exact drain_gatesStay (waitingProgram_closesNoGate s.cfg i) s

/-- Settles O58: the commands set bits of the gate registers they have just read, and a held command is the rest of one. -/
theorem onlyRawWritesClearAGate : Obligations.OnlyRawWritesClearAGate := by
  refine ⟨fun i s t notRaw h => (exec_gatesStay notRaw h).gates, fun s t held busy hr h => ?_⟩
  obtain ⟨i, held⟩ := held.resolve_left busy
  rcases step_of_heldFrom held hr h with rfl | rfl
  · exact (gatesStay_of_same (s := { s with irq := false }) (offerInterrupt_same _)).gates
  · exact (drain_gatesStay (heldFrom_closesNoGate held) s).gates

end Sys2Proof.Machine

/-!
PROOFS. Halts, the empty stream, reset (60_exceptions R260, R262; 70_reset R290, R291, R301), the invariants at reset and the
sample words of 95_test_vectors §2.1.
-/
namespace Sys2Proof.Machine

/-! ### Halts (60_exceptions R260, R262) -/

/-- Settles O60: of the ways an instruction reaches its next state only a halt sets `halted`. -/
theorem haltingCommandsHaveNoEffect : Obligations.HaltingCommandsHaveNoEffect := by
  intro i s t running h halted
  cases exec_executes h with
  | receive => exact absurd ((same_halted (uartRxAction_same s)).trans running) halted
  | transmit => exact absurd ((same_halted (uartTxAction_same s)).trans running) halted
  | @halt i code cause => exact ⟨code, haltCommand_haltedBy s code⟩
  | actions cause noWaits => exact absurd ((runActs_halted _ s).trans running) halted
  | program cause => exact absurd ((drain_halted _ s).trans running) halted

/-! ### No whole command in the stream (70_reset R291) -/

/-- Some but not all words of a well-formed command are cut short: were they not, the missing words would be left over. -/
theorem decode_cut {cfg : Config} (shape : Shape cfg) {i : Instr} {ws missing : List Word}
    (wf : i.wellFormed cfg = true) (cut : missing ≠ []) (h : encode cfg i = ws ++ missing) :
    decode cfg ws = .error .truncated := by
  by_contra whole
  have read := decode_encode shape wf []
  rw [List.append_nil, h, decode_append whole] at read
  cases hd : decode cfg ws with
  | error e => rw [hd] at read; cases read
  | ok x =>
    rw [hd] at read
    have left : x.2 ++ missing = [] := by
      injection read with read
      exact congrArg Prod.snd read
    exact cut (List.append_eq_nil_iff.mp left).2

/-- Settles O10: the step is the boundary at which the block waits. -/
theorem emptyStreamWaits : Obligations.EmptyStreamWaits := by
  intro s ready noCommand
  have truncated : decode s.cfg s.stream = .error .truncated := by
    rcases noCommand with truncated | ⟨i, missing, wf, cut, h⟩
    · exact truncated
    · exact decode_cut (configOk_shape ready.1) wf cut h
  refine ⟨boundary s, ?_, boundary_same s, boundary_only s, boundary_quiet⟩
  rw [step_ready ready, fetchStep, truncated]

/-! ### The waits of an I2C transfer (70_reset R301) -/

/-- Parts with k waits each. -/
theorem flatMap_waits {α : Type} {f : α → List Micro} {k : Nat} (h : ∀ x, (f x).countP isWait = k)
    (xs : List α) : (xs.flatMap f).countP isWait = xs.length * k := by
  simp [List.countP_flatMap, Function.comp_def, h]

/-- One wait for `SB`, and before a first START one for an idle bus (42_i2c R177). -/
theorem startProg_waits (bus : Byte) (again : Bool) :
    (startProg bus again).countP isWait = if again then 1 else 2 := by
  cases again <;> rfl

theorem addressProg_waits (bus byte : Byte) (onNack : I2cStatus) :
    (addressProg bus byte onNack).countP isWait = 1 := rfl

theorem sendBytes_waits (bus : Byte) (bytes : List Byte) :
    (bytes.flatMap (sendByteProg bus)).countP isWait = bytes.length := by
  rw [flatMap_waits (k := 1) fun _ => rfl, Nat.mul_one]

theorem receiveProg_waits (bus : Byte) (n : Nat) : (receiveProg bus n).countP isWait = n := by
  have one (k : Nat) : (receiveByteProg bus n k).countP isWait = 1 := by
    unfold receiveByteProg
    split <;> rfl
  rw [receiveProg, flatMap_waits one, List.length_range, Nat.mul_one]

theorem readPrologue_waits (bus addr8 : Byte) (reg : List Byte) :
    (readPrologue bus addr8 reg).countP isWait = if reg = [] then 2 else reg.length + 4 := by
  unfold readPrologue
  split
  · exact startProg_waits bus false
  · simp only [List.countP_append, startProg_waits, addressProg_waits, sendBytes_waits, if_true, Bool.false_eq_true,
      if_false]
    omega

theorem acts_waits (as : List Action) : (acts as).countP isWait = 0 := by
  rw [acts, List.countP_map]
  exact List.countP_eq_zero.mpr fun _ _ => Bool.false_ne_true

theorem stopProg_waits (bus : Byte) : (stopProg bus).countP isWait = 0 := acts_waits _

/-- Settles O33: the waits of the programs, part by part. -/
theorem i2cWaitCounts : Obligations.I2cWaitCounts := by
  intro bus addr8 bytes n
  constructor
  · simp only [i2cWriteProg, List.countP_append, acts_waits, startProg_waits, addressProg_waits, sendBytes_waits,
      stopProg_waits, Bool.false_eq_true, if_false]
    omega
  · simp only [i2cReadProg, List.countP_append, acts_waits, readPrologue_waits, addressProg_waits, receiveProg_waits]
    split <;> omega

/-! ### Reset (70_reset R290) -/

/-- A configuration with the reset columns of 10_state leaves them in the registers. -/
theorem resetWith_registersReset {cfg : Config} (h : cfg.reset = Config.defaultReset) :
    RegistersReset (State.resetWith cfg) := by
  have ports (p : Fin 5) : (State.resetWith cfg).gpio[p] = ⟨0x44444444, 0x44444444, 0⟩ := by
    simp [State.resetWith, h, resetPort, Config.defaultReset]
  refine ⟨ports, ?_⟩
  simp only [State.resetWith, h]
  exact ⟨rfl, rfl, rfl, rfl, rfl, rfl, rfl⟩

/-- A clocked register reads 0 in a field that is 0 as stored and not drawn. -/
theorem readValue_field_zero {s : State} {r : Reg} {field : Word} (gated : clocked s r = true)
    (stored : shown s r &&& field = 0) (undrawn : drawMask s r &&& field = 0) : readValue s r &&& field = 0 := by
  rw [readValue_clocked gated, BitVec.and_or_distrib_right, stored, BitVec.and_assoc, undrawn]
  simp

/-- A word within a mask is 0 in a field outside it. -/
theorem and_field_of_within {w mask field : Word} (h : w &&& ~~~mask = 0) (outside : mask &&& field = 0) :
    w &&& field = 0 := by
  rw [← and_eq_of_within h, BitVec.and_assoc, outside]
  exact BitVec.and_zero

/-- The line is 0 with no interrupt enable set, whatever `STATR` reads (44_uart R224). -/
theorem uartIrqLine_of_quiet {ctlr1 : Word} (h : uartArmed ctlr1 = false) (statr : Word) :
    uartIrqLine ctlr1 statr = false :=
  Bool.eq_false_iff.mpr fun line => Bool.false_ne_true (h.symm.trans (uartArmed_of_line line))

/-- Reset from any state leaves the reset state of its configuration. -/
theorem takeReset_isReset {s : State} (ok : configOk s.cfg = true) : IsReset (takeReset s) := by
  have masked := takeReset_registersMasked ok
  have quiet : uartArmed (takeReset s).uart.ctlr1 = false := by
    have resets := configOk_reset ok
    simp only [resetOk, Bool.and_eq_true, Bool.not_eq_true'] at resets
    exact resets.2
  have ctlr : drawMask (takeReset s) (.rcc .ctlr) &&& (maskHseRdy ||| maskPllRdy) = 0 := by
    show (0x0000FF02 ||| 0 ||| 0 : Word) &&& (maskHseRdy ||| maskPllRdy) = 0
    decide
  refine ⟨fun h => ?_, fun r => ?_, fun c => ?_, rfl, rfl, rfl, rfl, rfl, rfl, rfl, uartIrqLine_of_quiet quiet, ?_, ?_,
    Nat.zero_add _⟩
  · exact resetWith_registersReset (cfg := s.cfg) h
  · have same := storedBits_congr (s := State.resetWith s.cfg) (t := takeReset s) rfl rfl rfl rfl rfl r
    exact same.trans (storedBits_resetWith s.cfg r)
  · simp [takeReset, State.resetWith]
  · exact readValue_field_zero rfl (and_field_of_within (masked (.rcc .ctlr)) rfl) ctlr
  · exact readValue_field_zero rfl (and_field_of_within (masked (.rcc .cfgr0)) rfl) BitVec.zero_and

/-- Settles O11: the halt is looked at before anything that could run, the reset before the halt. -/
theorem haltedBlockWaitsForReset : Obligations.HaltedBlockWaitsForReset := by
  constructor
  · intro s code ok hr halted
    simp [step, ok, hr, halted]
  · intro s ok hr
    exact ⟨takeReset s, by simp [step, ok, hr], takeReset_isReset ok, rfl⟩

/-- Settles O12: the state after reset is the one that a reset leaves of it. -/
theorem resetLeavesTheResetValues : Obligations.ResetLeavesTheResetValues :=
  ⟨fun cfg ok => takeReset_isReset (s := State.resetWith cfg) ok, resetWith_registersReset rfl⟩

/-- The configuration with the default parameters is well formed. -/
theorem configOk_default : configOk Config.default = true := by decide +kernel

/-- Settles O55: a reset establishes the invariants, and nothing is held after it. -/
theorem invariantsHoldAtReset : Obligations.InvariantsHoldAtReset :=
  ⟨takeReset_registersMasked (s := State.reset) configOk_default, ⟨rfl, rfl⟩,
    takeReset_readinessHistory (s := State.reset) configOk_default, .inl rfl⟩

/-! ### Sample words (95_test_vectors §2.1) -/

/-- A word sequence that is the encoding of a well-formed command decodes to it under the default configuration. -/
theorem decode_sample {ws : List Word} {i : Instr} (wf : i.wellFormed Config.default = true)
    (h : encode Config.default i = ws) : decode Config.default ws = .ok (i, []) := by
  rw [← h, ← List.append_nil (encode _ i)]
  exact decode_encode (configOk_shape configOk_default) wf []

/-- Settles O3: the words are the encodings of the commands. -/
theorem sampleWordsDecode : Obligations.SampleWordsDecode :=
  ⟨decode_sample rfl rfl, decode_sample rfl rfl, decode_sample rfl rfl, decode_sample rfl rfl, decode_sample rfl rfl,
    decode_sample rfl rfl, decode_sample rfl rfl, decode_sample rfl rfl, decode_sample rfl rfl, decode_sample rfl rfl,
    decode_sample rfl rfl, decode_sample rfl rfl⟩

end Sys2Proof.Machine
